-- ==== Sys2Proof/Word.lean ====
section
/-! DEFINITION. The words of the part: bytes, keys, the 16 data bytes of a granule, and what a granule can hold. -/

namespace Sys2Proof

/-- A byte of the register window or the transfer buffer. -/
abbrev Byte := BitVec 8

/-- A key as the register pairs hold it (00_scope, Keys). -/
abbrev KeyWord := BitVec 16

/-- The 16 data bytes of a granule, the first data byte most significant, as the header tables list them (R3, R8). -/
abbrev Data := BitVec 128

/-- Sixteen bytes of 0xFF, what an erased granule reads as (R1, R19). -/
def Data.erased : Data := BitVec.allOnes 128

/-- How the check bits of a programmed granule stand to its data (R19).  The code itself is not given (log 4). -/
inductive Ecc where
  /-- the check bits agree with the data: the granule reads CLEAN -/
  | agrees
  /-- one bit in error: the granule reads CORRECTED -/
  | oneBit
  /-- anything else: the granule reads UNCORRECTABLE -/
  | bad
  deriving DecidableEq, Repr, Inhabited

/-- The content of one granule: blank since its row's erase, or programmed (R1).  For `Ecc.oneBit` the data is what the
correction returns; for `Ecc.bad` it is the raw bytes. -/
inductive Granule where
  | blank
  | written (ecc : Ecc) (data : Data)
  deriving DecidableEq, Repr, Inhabited

/-- What a granule of a row may be at a point of an erase (R22, R29): blank, as it was, or reading UNCORRECTABLE with
some raw bytes. -/
inductive EraseRemnant where
  | blank
  | old
  | broken (raw : Data)
  deriving DecidableEq, Repr, Inhabited

end Sys2Proof
end

