-- ==== Sys2Proof/Syntax.lean ====
section
/-! DEFINITION. The commands of the block: one constructor per row of spec/opcode_table.json.  The table gives the rows no
operands; those written here are the model's and each is explained in its log entry. -/

namespace Sys2Proof

/-- A step of the part (spec/opcode_table.json). -/
inductive Instr where
  /-- CMD write of 0x01 (R58, R59) -/
  | stagePut
  /-- CMD write of 0x02 (R60) -/
  | stageDelete
  /-- CMD write of 0x03 (R61) -/
  | discard
  /-- CMD write of 0x04 (R69) -/
  | commit
  /-- CMD write of 0x10 (R136) -/
  | get
  /-- CMD write of 0x11 (R141) -/
  | stat
  /-- CMD write of 0x12 (R142) -/
  | nextKey
  /-- CMD write of 0x13 (R143) -/
  | info
  /-- CMD write of 0x20 (R145) -/
  | audit
  /-- CMD write of 0x21 (R151) -/
  | auditAbort
  /-- CMD write of 0x30 (R155) -/
  | guardSet
  /-- CMD write of 0x31 (R156) -/
  | guardFreeze
  /-- CMD write of 0x32 (R157) -/
  | guardRead
  /-- CMD write of 0x40 (R37) -/
  | faultPop
  /-- CMD write of 0x41 (R100) -/
  | reclaim
  /-- CMD write of 0x50 (R130, R131) -/
  | format
  /-- CMD write of 0x5F (R175) -/
  | reset
  /-- CMD write of a code outside the command table (R167); the code written (log 12) -/
  | badCommand (code : Byte)
  /-- CMD write met by an EXECUTING command unit (R169); the code written (log 12) -/
  | cmdWriteDropped (code : Byte)
  /-- write of DATA (R163) -/
  | dataWrite (value : Byte)
  /-- read of DATA (R164) -/
  | dataRead
  /-- write of DPTR (R165) -/
  | dptrWrite (value : Byte)
  /-- write of STATUS (R166) -/
  | statusWrite (value : Byte)
  /-- write of EVENT (R172); `together` says that it falls in the instant of the event before it (log 13) -/
  | eventWrite (value : Byte) (together : Bool)
  /-- write of EVENT_EN (R172) -/
  | eventEnWrite (value : Byte)
  /-- write of a host or part register (R162); the register's offset and the byte (log 15) -/
  | hostRegisterWrite (offset : BitVec 5) (value : Byte)
  /-- change of the WPROT# pin (R158); the new level (log 27) -/
  | wprotChange (high : Bool)
  /-- VDD below its threshold (R174) -/
  | powerOnReset
  /-- RESET# going low (R174) -/
  | pinReset
  /-- the end of a power-on or pin reset (R174) -/
  | resetEnd
  /-- the reset of a RESET command (R30, R175) -/
  | resetTakesEffect
  /-- completion of the read in service (R28); the granules of the row read whose content has changed by itself since they
  were last looked at, with what they hold at the moment of the read, never blank (R1, log 5) -/
  | readComplete (drift : List (BitVec 8 × Granule))
  /-- completion of the program in service (R21); the place in the request of the granule that failed verify (log 6) -/
  | programComplete (failed : Option (Fin 16))
  /-- end of the erase in progress (R22); the first granule the blank check found not blank (log 8) -/
  | eraseComplete (firstNonBlank : Option (BitVec 8))
  /-- the erase reaches its suspend point (R25) -/
  | eraseSuspendPoint
  deriving DecidableEq, Repr

end Sys2Proof
end

