-- ==== Sys2Proof/WellFormed.lean ====
section
/-! DEFINITION. Which operands of a command name something that can occur (R162, R167, R169). -/

namespace Sys2Proof

/-- The command codes of the table of R177. -/
def commandCodes : List Byte :=
  [0x01, 0x02, 0x03, 0x04, 0x10, 0x11, 0x12, 0x13, 0x20, 0x21, 0x30, 0x31, 0x32, 0x40, 0x41, 0x50, 0x5F]

/-- The special registers of R162: CMD, STATUS, EVENT and DATA. -/
def specialOffsets : List (BitVec 5) := [0x00, 0x01, 0x04, 0x0C]

/-- No granule is named twice in the drift of a read. -/
def driftDistinct (drift : List (BitVec 8 × Granule)) : Bool :=
  decide (drift.map Prod.fst).Nodup

/-- No granule has returned to blank on its own (R1). -/
def driftProgrammed (drift : List (BitVec 8 × Granule)) : Bool :=
  drift.all (fun e => e.2 != .blank)

/-- A command whose operands fit its row: BAD_COMMAND carries an unknown code (R167), a dropped CMD write is not RESET
(R169), HOST_REGISTER_WRITE does not address a special register (R162), and a read's drift names each granule once and none as
blank (R1, log 5). -/
def Instr.wellFormed : Instr → Bool
  | .badCommand code => !commandCodes.contains code
  | .cmdWriteDropped code => code != 0x5F
  | .hostRegisterWrite offset _ => !specialOffsets.contains offset
  | .readComplete drift => driftDistinct drift && driftProgrammed drift
  | .stagePut => true
  | .stageDelete => true
  | .discard => true
  | .commit => true
  | .get => true
  | .stat => true
  | .nextKey => true
  | .info => true
  | .audit => true
  | .auditAbort => true
  | .guardSet => true
  | .guardFreeze => true
  | .guardRead => true
  | .faultPop => true
  | .reclaim => true
  | .format => true
  | .reset => true
  | .dataWrite _ => true
  | .dataRead => true
  | .dptrWrite _ => true
  | .statusWrite _ => true
  | .eventWrite _ _ => true
  | .eventEnWrite _ => true
  | .wprotChange _ => true
  | .powerOnReset => true
  | .pinReset => true
  | .resetEnd => true
  | .resetTakesEffect => true
  | .programComplete _ => true
  | .eraseComplete _ => true
  | .eraseSuspendPoint => true

end Sys2Proof
end

