-- ==== Sys2Proof/Config.lean ====
section
/-! DEFINITION. The free values: constants without a body for what the spec calls uncertain or not predictable.  Each is
applied to the index of the draw (`State.freeIdx`), so that two draws are independent.  Nothing is proved of their values. -/

namespace Sys2Proof.Config

/-- Content of a granule whose program a reset cut short, blank included (R2, R29): log 9. -/
opaque uncertainGranule : Nat → Granule

/-- The standing of the check bits of a granule that failed its verify (R14, R21): log 7. -/
opaque failedVerifyEcc : Nat → Ecc

/-- The data of a granule that failed its verify (R14, R21): log 7. -/
opaque failedVerifyData : Nat → Data

/-- How many granules of a program request were finished when a reset cut it; used modulo the request's count
(R29, R30): log 9. -/
opaque granulesFinished : Nat → Nat

/-- What a reset or a suspension finds in each granule of a row under erase (R22, R29): log 10. -/
opaque eraseRemnant : Nat → Nat → EraseRemnant

/-- The standing of the check bits of the first non-blank granule of a failed erase (R22): log 8. -/
opaque failedEraseEcc : Nat → Ecc

/-- The data of the first non-blank granule of a failed erase (R22): log 8. -/
opaque failedEraseData : Nat → Data

/-- What the granules after the first non-blank one of a failed erase hold (R22): log 8. -/
opaque failedEraseRest : Nat → Nat → Granule

/-- The sequence assigned after 4,294,967,295, which the spec does not state (R6, R96): log 21. -/
opaque sequenceAfterLast : Nat → BitVec 32

end Sys2Proof.Config
end

