-- ==== Sys2Proof/Machine/State.lean ====
section
/-! DEFINITION. Everything the data book gives the part to hold, as plain data, block by block, and the part right after a
power-on reset. -/

namespace Sys2Proof.Machine

/-! ### Outcomes that stop a step -/

/-- Why a step stops.  Each is raised only by an event that cannot occur in the state it is taken in (log 11), so stopping
is SAFE: the hardware has no behaviour there that the model leaves out. -/
inductive Fault where
  /-- READ_COMPLETE with no read in service, or while a reset is in force.  Safe. -/
  | noReadInService
  /-- PROGRAM_COMPLETE with no program in service, or while a reset is in force.  Safe. -/
  | noProgramInService
  /-- PROGRAM_COMPLETE naming a granule the request does not have (log 6).  Safe. -/
  | noSuchGranule
  /-- ERASE_COMPLETE with no erase running (none, suspended, or on its way to its suspend point), or while a reset is in
  force.  Safe. -/
  | noEraseRunning
  /-- ERASE_SUSPEND_POINT with no suspension asked for, or while a reset is in force.  Safe. -/
  | noSuspensionAsked
  /-- RESET_END with no power-on or pin reset in force.  Safe. -/
  | noResetInForce
  /-- RESET_TAKES_EFFECT with no RESET command taken.  Safe. -/
  | noResetTaken
  deriving DecidableEq, Repr

/-- Why a step is refused.  No meaning of this model refuses. -/
inductive Refusal where
  /-- the command has no meaning yet; raised by exec's arm only.  Safe. -/
  | notModelled (mnemonic : String)
  deriving DecidableEq, Repr

/-! ### Codes of the window (R177) -/

/-- The operating mode (R173). -/
inductive Mode where
  | mounting | unformatted | ready | readOnly | formatting
  deriving DecidableEq, Repr

/-- The result codes shared by RESULT, JOB_RESULT and AUDIT_RESULT (R177). -/
inductive ResultCode where
  | ok | notFound | badArg | badCommand | busy | notReady | notFormatted | readOnly | guarded | duplicate
  | stagingFull | poolFull | emptySet | noSpace | dirFull | uncorrectable | damaged | writeFailed | mismatch
  | disturbed | aborted | frozen | pinLocked | arrayFault | stagingLocked
  deriving DecidableEq, Repr

/-- The cause of the last reset (R174, R175). -/
inductive ResetCause where
  | power | pin | command
  deriving DecidableEq, Repr

/-- The commands of the command table (R177). -/
inductive Command where
  | stagePut | stageDelete | discard | commit | get | stat | nextKey | info | audit | auditAbort | guardSet
  | guardFreeze | guardRead | faultPop | reclaim | format | reset
  deriving DecidableEq, Repr

/-! ### Host window and event unit -/

/-- The command unit's two states (10, The command unit). -/
inductive UnitState where
  | idle | executing
  deriving DecidableEq, Repr

/-- The arguments latched for the command in progress (R167). -/
structure Latch where
  key : KeyWord
  key2 : KeyWord
  len : Byte
  arg : Byte
  sig : BitVec 32
  payload : List Byte
  deriving DecidableEq, Repr

/-- The eight mount flags (R128). -/
structure MountFlags where
  tornSet : Bool
  tornGranule : Bool
  dupMoves : Bool
  staleRows : Bool
  eraseCountGuessed : Bool
  loss : Bool
  purgeFailed : Bool
  dirtyFound : Bool
  deriving DecidableEq, Repr

/-- No mount flag set. -/
def MountFlags.none : MountFlags :=
  ⟨false, false, false, false, false, false, false, false⟩

/-- The host window (10): registers stored once each (pairs as one value), the transfer buffer, the command unit. -/
structure Window where
  /-- last code taken, read back in CMD (R167) -/
  lastCode : Byte
  /-- state of the command unit -/
  cu : UnitState
  /-- latched arguments (R167) -/
  latch : Latch
  result : ResultCode
  mode : Mode
  /-- KEY_H, KEY_L -/
  key : KeyWord
  /-- KEY2_H, KEY2_L -/
  key2 : KeyWord
  len : Byte
  arg : Byte
  /-- position of the next DATA access, 0 to 240 -/
  dptr : Nat
  /-- number of valid bytes, 0 to 240 -/
  fill : Nat
  buffer : Vector Byte 240
  /-- OVERRUN of STATUS (R166) -/
  overrun : Bool
  /-- VER_H, VER_L -/
  ver : BitVec 16
  jobResult : ResultCode
  auditResult : ResultCode
  /-- SIG3 to SIG0 -/
  sig : BitVec 32
  /-- ACOUNT_H, ACOUNT_L -/
  acount : BitVec 16
  mountFlags : MountFlags
  resetCause : ResetCause
  /-- the model's own: the byte driven on D7 to D0 in the last DATA read cycle, or none for high impedance (log 14) -/
  dataOut : Option Byte
  deriving DecidableEq, Repr

/-- The event unit (R171, R172). -/
structure EventUnit where
  event : Byte
  enable : Byte
  /-- the model's own: the flags the last event set, for a write of EVENT that falls together with it (log 13) -/
  justSet : Byte
  deriving DecidableEq, Repr

/-! ### Guard table (R153) -/

inductive GuardMode where
  | off | noWrite | noAccess
  deriving DecidableEq, Repr

structure Guard where
  lo : KeyWord
  hi : KeyWord
  mode : GuardMode
  frozen : Bool
  deriving DecidableEq, Repr

/-- A guard entry after any reset (R153). -/
def Guard.atReset : Guard := ⟨0, 0, .off, false⟩

/-! ### Journal records (R8, R12) -/

inductive RecordKind where
  | put | delete | commit
  deriving DecidableEq, Repr

/-- The fields of a record header, without its header check (R8). -/
structure RecordHeader where
  kind : RecordKind
  moved : Bool
  key : Nat
  version : Nat
  setId : Nat
  length : Nat
  index : Nat
  payloadCheck : BitVec 16
  deriving DecidableEq, Repr

/-- The fields of a row header, without its header check (R3). -/
structure RowHeader where
  journalId : Nat
  sequence : Nat
  eraseCount : Nat
  deriving DecidableEq, Repr

/-- A place in the array. -/
structure Loc where
  row : Nat
  granule : Nat
  deriving DecidableEq, Repr

/-! ### Staging area (R55) -/

inductive ChangeOp where
  | put | delete
  deriving DecidableEq, Repr

structure StagedEntry where
  op : ChangeOp
  key : Nat
  length : Nat
  /-- position of the payload in the pool; absent for a DELETE -/
  poolOffset : Option Nat
  deriving DecidableEq, Repr

structure Staging where
  entries : List StagedEntry
  pool : Vector Byte 1024
  poolFill : Nat
  lock : Bool
  deriving DecidableEq, Repr

/-! ### Directory (R39) -/

inductive EntryState where
  | live | tombstone | damaged
  deriving DecidableEq, Repr

structure DirEntry where
  key : Nat
  state : EntryState
  version : Nat
  setId : Nat
  row : Nat
  granule : Nat
  length : Nat
  stale : Nat
  baseSetId : Nat
  deriving DecidableEq, Repr

/-! ### Row table (R90) -/

inductive RowState where
  | erased | opened | full | victim | dirty | bad
  deriving DecidableEq, Repr

structure RowRec where
  /-- the state; none before the build, when no row counts in any state (R90) -/
  state : Option RowState
  sequence : Nat
  eraseCount : Nat
  guessed : Bool
  /-- next free granule, 1 to 256 in an OPEN row, else 0 -/
  nextFree : Nat
  dead : Nat
  tainted : Bool
  deriving DecidableEq, Repr

/-- A row record of the empty row table (R90; figures log 25). -/
def RowRec.unbuilt : RowRec := ⟨none, 0, 0, false, 0, 0, false⟩

structure RowTable where
  rows : Vector RowRec 64
  journalId : Nat
  highestSequence : Nat
  newestCommit : Option Loc
  purgePending : Bool
  deriving DecidableEq, Repr

/-! ### Journal writer (R94) -/

inductive AppendClass where
  | commit | reclaimer
  deriving DecidableEq, Repr

/-- A record ready to program (R94). -/
structure Append where
  cls : AppendClass
  header : RecordHeader
  payload : List Byte
  /-- failed attempts so far, 0 to 3 (R78) -/
  failed : Nat
  deriving DecidableEq, Repr

/-- What the append in service waits for. -/
inductive WriterWait where
  | nothing
  /-- the header of a row being opened, with the sequence it was given (R96) -/
  | rowHeader (row sequence : Nat)
  /-- its own record, at this place (R95) -/
  | record (row granule : Nat)
  deriving DecidableEq, Repr

/-- The reply to an append (R77). -/
inductive Reply where
  | placed (row granule failed : Nat)
  | failed
  | noRow (failed : Nat)
  deriving DecidableEq, Repr

structure Writer where
  inService : Option Append
  wait : WriterWait
  waitingCommit : Option Append
  waitingReclaimer : Option Append
  deriving DecidableEq, Repr

/-! ### Commit engine (R68) -/

inductive CommitState where
  | idle | waitPurge | waitSpace | writing | closing
  deriving DecidableEq, Repr

/-- The next set id (R68): 0 before the mount gives it a value, a number, or exhausted. -/
inductive NextSetId where
  | unset
  | id (n : Nat)
  | exhausted
  deriving DecidableEq, Repr

/-- The planned row of each record, 0 for the open row and i for the i-th newly opened one, the COMMIT record's last, and
k, the number of rows to open (R68, R72). -/
structure SetPlan where
  places : List Nat
  opens : Nat
  deriving DecidableEq, Repr

/-- A record of the set already written (R68, R45). -/
structure Placed where
  key : Nat
  kind : RecordKind
  version : Nat
  setId : Nat
  row : Nat
  granule : Nat
  length : Nat
  failed : Nat
  deriving DecidableEq, Repr

structure CommitEngine where
  state : CommitState
  plan : Option SetPlan
  writingId : Option Nat
  index : Nat
  placed : List Placed
  setRows : List Nat
  nextSetId : NextSetId
  deriving DecidableEq, Repr

/-! ### Reclaimer (R98) -/

inductive Job where
  | idle | purge | dirtyErase | urgentVictim | refresh | backgroundVictim
  deriving DecidableEq, Repr

inductive PassPhase where
  | copy | walk | check | erase
  deriving DecidableEq, Repr

/-- A copy made and not yet relocated (R98), with its failed attempts (R47). -/
structure Copy where
  key : Nat
  kind : RecordKind
  fromRow : Nat
  fromGranule : Nat
  toRow : Nat
  toGranule : Nat
  length : Nat
  failed : Nat
  deriving DecidableEq, Repr

/-- A PUT or DELETE record found by the walk (R104). -/
structure WalkRec where
  key : Nat
  setId : Nat
  granule : Nat
  deriving DecidableEq, Repr

/-- A refresh request (R112). -/
structure RefreshEntry where
  key : Nat
  row : Nat
  granule : Nat
  deriving DecidableEq, Repr

/-- What the reclaimer's job waits for. -/
inductive ReclaimWait where
  | nothing
  /-- the read of the record of this key at this place (R102, R105, R113) -/
  | recordRead (key row granule : Nat)
  /-- the reply to the append of its copy (R102, R105, R113) -/
  | recordAppend (key : Nat) (kind : RecordKind) (row granule length : Nat)
  /-- the read of the newest COMMIT record (R108) -/
  | commitRead (row granule : Nat)
  /-- the reply to the append of its copy (R108) -/
  | commitAppend (row granule : Nat)
  /-- the walk's read of a header position (R104) -/
  | walkRead (granule : Nat)
  /-- the end of the erase of the victim or DIRTY row (R106, R111) -/
  | erase
  deriving DecidableEq, Repr

structure Reclaimer where
  job : Job
  phase : Option PassPhase
  victim : Option Nat
  cursor : Nat
  copyList : List Copy
  walkList : List WalkRec
  refresh : List RefreshEntry
  request : Bool
  blocked : Bool
  /-- purge target rows not yet taken, in ascending sequence (R108) -/
  targets : List Nat
  wait : ReclaimWait
  deriving DecidableEq, Repr

/-! ### Mount engine (R115) -/

inductive MountPhase where
  | idle | headerScan | blankCheck | parse
  deriving DecidableEq, Repr

/-- The class of a row header (R4). -/
inductive HeaderClass where
  | valid (h : RowHeader)
  | blank
  | invalid
  deriving DecidableEq, Repr

inductive Disposition where
  | journal | stale | dirty | erased
  deriving DecidableEq, Repr

structure RowScan where
  cls : Option HeaderClass
  disposition : Option Disposition
  eraseCount : Nat
  guessed : Bool
  deriving DecidableEq, Repr

/-- An empty line of the row scan table. -/
def RowScan.empty : RowScan := ⟨none, none, 0, false⟩

/-- A record noted in PARSE (R120). -/
structure Noted where
  row : Nat
  granule : Nat
  header : RecordHeader
  intact : Bool
  deriving DecidableEq, Repr

/-- How the parse of a row ended (R119). -/
inductive ParseEnd where
  | blank (granule : Nat)
  | early (granule : Nat)
  | atEnd
  deriving DecidableEq, Repr

structure RowParse where
  row : Nat
  ending : ParseEnd
  tailPassed : Bool
  deriving DecidableEq, Repr

/-- The read the mount engine waits for. -/
inductive MountWait where
  | nothing
  | header (row : Nat)
  | blankChunk (row chunk : Nat)
  | position (row granule : Nat)
  | payload (row granule : Nat) (header : RecordHeader)
  | tail (row granule first : Nat)
  deriving DecidableEq, Repr

structure MountEngine where
  phase : MountPhase
  wait : MountWait
  /-- rows still to take in BLANK_CHECK or PARSE, after the one under way -/
  todo : List Nat
  scan : Vector RowScan 64
  records : List Noted
  parses : List RowParse
  gathered : MountFlags
  highestJournalId : Nat
  highestEraseCount : Nat
  /-- highest set id in any intact record header (R120) -/
  highestSetId : Nat
  deriving DecidableEq, Repr

/-! ### FORMAT job (R131 to R134) -/

inductive FormatPhase where
  | waitArray | firstRow | eraseRest
  deriving DecidableEq, Repr

/-- What the FORMAT job waits for. -/
inductive FormatWait where
  | nothing
  | candidateErase (row : Nat)
  | header (row : Nat)
  | restErase (row : Nat)
  | badRead (row chunk : Nat)
  deriving DecidableEq, Repr

structure FormatJob where
  phase : FormatPhase
  journalId : Nat
  tried : List Nat
  firstRow : Option Nat
  wait : FormatWait
  deriving DecidableEq, Repr

/-! ### Audit unit (R144) -/

structure AuditUnit where
  running : Bool
  lo : Nat
  hi : Nat
  expected : BitVec 32
  signature : BitVec 32
  count : Nat
  lastKey : Option Nat
  /-- key and place of the record being read -/
  reading : Option (Nat × Loc)
  deriving DecidableEq, Repr

/-! ### Array controller (R18) -/

inductive ReadOutcome where
  | blank | clean | corrected | uncorrectable
  deriving DecidableEq, Repr

/-- What the controller returns for one granule of a read (R19). -/
structure GranuleRead where
  outcome : ReadOutcome
  data : Data
  deriving DecidableEq, Repr

/-- Who issued an array request (R23, R27). -/
inductive Requester where
  | get | commit | audit | reclaimer | mount | format
  deriving DecidableEq, Repr

/-- The origin a request and its faults carry (R33). -/
inductive Origin where
  | host | commit | reclaim | mount | audit | format
  deriving DecidableEq, Repr

inductive FaultKind where
  | corrected | uncorrectable | programFail | eraseFail | checkFail
  deriving DecidableEq, Repr

/-- An entry of the fault list (02, Fault capture). -/
structure ArrayFault where
  kind : FaultKind
  origin : Origin
  row : Nat
  granule : Nat
  deriving DecidableEq, Repr

inductive ArrayOp where
  /-- read this many granules (R20) -/
  | read (count : Nat)
  /-- program these granules (R21) -/
  | program (granules : List Data)
  deriving DecidableEq, Repr

/-- A read or program request (R20, R21). -/
structure Request where
  requester : Requester
  origin : Origin
  row : Nat
  first : Nat
  op : ArrayOp
  /-- the requester still waits for the result (R28) -/
  waited : Bool
  deriving DecidableEq, Repr

/-- An erase request (R22). -/
structure EraseRequest where
  row : Nat
  requester : Requester
  origin : Origin
  waited : Bool
  deriving DecidableEq, Repr

/-- The suspended-erase context (R18, R25). -/
structure EraseContext where
  request : EraseRequest
  count : Nat
  /-- a suspension has been counted and its suspend point is not yet reached -/
  suspending : Bool
  deriving DecidableEq, Repr

inductive ArrayState where
  | idle | reading | programming | erasing
  deriving DecidableEq, Repr

/-- The exclusive holder (R27). -/
inductive Holder where
  | nobody | mount | format
  deriving DecidableEq, Repr

structure Controller where
  state : ArrayState
  current : Option Request
  queue : List Request
  eraseWaiting : Option EraseRequest
  erase : Option EraseContext
  holder : Holder
  faults : List ArrayFault
  corrected : Nat
  uncorrectable : Nat
  overflow : Nat
  deriving DecidableEq, Repr

/-- The contents of the array: (row * 256 + granule, content), addresses strictly rising, no blank entry. -/
abbrev Cells := List (Nat × Granule)

/-- The reset in force, if any (R174, R175). -/
inductive ResetPhase where
  /-- no reset: the window is served -/
  | running
  /-- a RESET command has been taken and its reset has not yet taken place -/
  | commandTaken
  /-- a power-on or pin reset is in force; `power` says that a power-on reset was part of it -/
  | held (power : Bool)
  deriving DecidableEq, Repr

/-- The whole part (00_scope, Functional overview), with the queue of events not yet taken. -/
structure State where
  win : Window
  ev : EventUnit
  guards : Vector Guard 4
  staging : Staging
  dir : List DirEntry
  table : RowTable
  writer : Writer
  engine : CommitEngine
  recl : Reclaimer
  aud : AuditUnit
  mnt : MountEngine
  fmt : Option FormatJob
  ctl : Controller
  cells : Cells
  /-- the WPROT# pin is low -/
  wprotLow : Bool
  resetPhase : ResetPhase
  /-- the model's own: index of the next free value (log 25) -/
  freeIdx : Nat
  /-- the events not yet taken, first in first out (log 1) -/
  pending : List Instr
  deriving DecidableEq, Repr

/-! ### Reset values (R18, R53, R56, R68, R90, R94, R98, R115, R144, R153, R176) -/

/-- The window after a reset, but for RESET_CAUSE (R176). -/
def Window.atReset (cause : ResetCause) : Window where
  lastCode := 0
  cu := .idle
  latch := ⟨0, 0, 0, 0, 0, []⟩
  result := .ok
  mode := .mounting
  key := 0
  key2 := 0
  len := 0
  arg := 0
  dptr := 0
  fill := 0
  buffer := Vector.replicate 240 0
  overrun := false
  ver := 0
  jobResult := .ok
  auditResult := .ok
  sig := 0
  acount := 0
  mountFlags := .none
  resetCause := cause
  dataOut := none

/-- The event unit after a reset (R172). -/
def EventUnit.atReset : EventUnit := ⟨0, 0, 0⟩

/-- The staging area after a reset (R56). -/
def Staging.atReset : Staging := ⟨[], Vector.replicate 1024 0, 0, false⟩

/-- The row table after a reset: empty (R90). -/
def RowTable.atReset : RowTable := ⟨Vector.replicate 64 .unbuilt, 0, 0, none, false⟩

/-- The journal writer after a reset: no append (R94). -/
def Writer.atReset : Writer := ⟨none, .nothing, none, none⟩

/-- The commit engine after a reset (R68). -/
def CommitEngine.atReset : CommitEngine := ⟨.idle, none, none, 0, [], [], .unset⟩

/-- The reclaimer after a reset (R98). -/
def Reclaimer.atReset : Reclaimer := ⟨.idle, none, none, 0, [], [], [], false, false, [], .nothing⟩

/-- The mount engine after a reset, its first read not yet issued (R115). -/
def MountEngine.atReset : MountEngine where
  phase := .headerScan
  wait := .header 0
  todo := []
  scan := Vector.replicate 64 .empty
  records := []
  parses := []
  gathered := .none
  highestJournalId := 0
  highestEraseCount := 0
  highestSetId := 0

/-- The audit unit after a reset (R144). -/
def AuditUnit.atReset : AuditUnit := ⟨false, 0, 0, 0, 0, 0, none, none⟩

/-- The array controller after a power-on or pin reset: IDLE, nothing waiting, holder MOUNT, no faults, counters 0 (R18). -/
def Controller.atReset : Controller := ⟨.idle, none, [], none, none, .mount, [], 0, 0, 0⟩

/-- The mount engine's first read: granule 0 of row 0 (R115, R116). -/
def MountEngine.firstRead : Request := ⟨.mount, .mount, 0, 0, .read 1, true⟩

/-- A power-on reset in force on a part whose array is blank (log 3): every block in its reset state, the window not
served (R174). -/
def State.poweringUp : State where
  win := .atReset .power
  ev := .atReset
  guards := Vector.replicate 4 .atReset
  staging := .atReset
  dir := []
  table := .atReset
  writer := .atReset
  engine := .atReset
  recl := .atReset
  aud := .atReset
  mnt := .atReset
  fmt := none
  ctl := .atReset
  cells := []
  wprotLow := false
  resetPhase := .held true
  freeIdx := 0
  pending := []

/-- The part right after a power-on reset has ended (R174): RESET_CAUSE is POWER, the window is served, MODE reads
MOUNTING and the mount engine's first read is being served (log 2). -/
def State.reset : State :=
  { State.poweringUp with
    resetPhase := .running
    ctl := { Controller.atReset with state := .reading, current := some MountEngine.firstRead } }

end Sys2Proof.Machine
end

