-- ==== Sys2Proof/Machine/Ops.lean ====
section
/-! DEFINITION. The named operations over the state that every block uses: the cells of the array, row records, event flags,
results, lists in order, and the draw of a free value. -/

namespace Sys2Proof.Machine

/-! ### Counting and ordering -/

/-- A counter that stops at its limit (R7, R35). -/
def bump (limit n : Nat) : Nat := if n < limit then n + 1 else n

/-- Inserts into a list sorted by `before`, ahead of equal elements. -/
def insertBy {α : Type} (before : α → α → Bool) (x : α) : List α → List α
  | [] => [x]
  | y :: t => if before y x then y :: insertBy before x t else x :: y :: t

/-- A list sorted by `before`, equal elements in their old order. -/
def sortBy {α : Type} (before : α → α → Bool) : List α → List α
  | [] => []
  | x :: t => insertBy before x (sortBy before t)

/-- The first of the best elements of a list, where `better a b` says that `a` beats `b`. -/
def bestOf {α : Type} (better : α → α → Bool) : List α → Option α
  | [] => none
  | x :: t =>
    match bestOf better t with
    | none => some x
    | some b => if better b x then some b else some x

/-! ### Bytes in vectors -/

/-- Writes bytes into a vector from a position on; positions past its end are dropped. -/
def writeFrom {n : Nat} (v : Vector Byte n) (at_ : Nat) : List Byte → Vector Byte n
  | [] => v
  | b :: t => writeFrom (v.setIfInBounds at_ b) (at_ + 1) t

/-- Reads `len` bytes of a vector from a position on. -/
def readFrom {n : Nat} (v : Vector Byte n) (at_ len : Nat) : List Byte :=
  (List.range len).map (fun i => (v[at_ + i]?).getD 0)

/-! ### Cells of the array (R1) -/

/-- The key of a granule in the list of cells. -/
def cellKey (row granule : Nat) : Nat := row * 256 + granule

/-- What a granule holds; a granule not listed is blank. -/
def cellAt : Cells → Nat → Granule
  | [], _ => .blank
  | (k, g) :: t, a => if k = a then g else cellAt t a

/-- Gives a granule a content, keeping the keys rising and no blank entry. -/
def setCell : Cells → Nat → Granule → Cells
  | [], a, g => if g = .blank then [] else [(a, g)]
  | (k, v) :: t, a, g =>
    if a < k then (if g = .blank then (k, v) :: t else (a, g) :: (k, v) :: t)
    else if a = k then (if g = .blank then t else (a, g) :: t)
    else (k, v) :: setCell t a g

/-- Every granule of a row made blank (R22). -/
def blankRow (c : Cells) (row : Nat) : Cells :=
  c.filter (fun e => e.1 / 256 ≠ row)

/-- The keys rise strictly from `low` on and no entry is blank. -/
def cellsWfFrom : Nat → Cells → Bool
  | _, [] => true
  | low, (k, g) :: t => decide (low ≤ k) && decide (g ≠ .blank) && cellsWfFrom (k + 1) t

/-- The canonical form of the array's cells. -/
def Cells.wf (c : Cells) : Bool := cellsWfFrom 0 c

/-- Content of a granule of the part; a granule past 255 is no granule and shows blank. -/
def State.granule (s : State) (row granule : Nat) : Granule :=
  if granule ≤ 255 then cellAt s.cells (cellKey row granule) else .blank

/-- Gives a granule of the part a content; a number past 255 names no granule. -/
def State.setGranule (s : State) (row granule : Nat) (g : Granule) : State :=
  if granule ≤ 255 then { s with cells := setCell s.cells (cellKey row granule) g } else s

/-- Programs data into consecutive granules, each reading CLEAN (R21). -/
def State.writeGranules (s : State) (row first : Nat) : List Data → State
  | [] => s
  | d :: t => State.writeGranules (s.setGranule row first (.written .agrees d)) row (first + 1) t

/-! ### Free values -/

/-- Moves on to the next free value (log 25). -/
def State.draw (s : State) : State := { s with freeIdx := s.freeIdx + 1 }

/-! ### Row records -/

/-- The record of a row (R90). -/
def State.row (s : State) (r : Nat) : RowRec := (s.table.rows[r]?).getD .unbuilt

/-- Replaces the record of a row. -/
def State.setRow (s : State) (r : Nat) (rec : RowRec) : State :=
  { s with table := { s.table with rows := s.table.rows.setIfInBounds r rec } }

/-- The rows in a state, in ascending row index. -/
def State.rowsIn (s : State) (st : RowState) : List Nat :=
  (List.range 64).filter (fun r => (s.row r).state = some st)

/-- Adds dead granules to a row (R92). -/
def State.addDead (s : State) (r n : Nat) : State :=
  s.setRow r { s.row r with dead := (s.row r).dead + n }

/-- A row leaves the journal: sequence, next free granule, dead count 0, taint clear (R91). -/
def RowRec.leave (rec : RowRec) (st : RowState) : RowRec :=
  { rec with state := some st, sequence := 0, nextFree := 0, dead := 0, tainted := false }

/-- The highest erase count a row can show (R7). -/
def eraseCountLimit : Nat := 16777215

/-- A row's erase count after one more erase (R7, R91). -/
def RowRec.erasedOnce (rec : RowRec) : RowRec :=
  { rec with eraseCount := bump eraseCountLimit rec.eraseCount }

/-! ### Event flags and results (R168, R171) -/

/-- Sets event flags, whatever the enables hold (R171). -/
def State.setEvent (s : State) (mask : Byte) : State :=
  { s with ev := { s.ev with event := s.ev.event ||| mask, justSet := s.ev.justSet ||| mask } }

/-- A new event begins: nothing has been set by it yet (log 13). -/
def State.begin (s : State) : State :=
  { s with ev := { s.ev with justSet := 0 } }

/-- CMD_DONE in EVENT (R177). -/
def evCmdDone : Byte := 0x01
/-- JOB_DONE in EVENT (R177). -/
def evJobDone : Byte := 0x02
/-- AUDIT_DONE in EVENT (R177). -/
def evAuditDone : Byte := 0x04
/-- MOUNT_DONE in EVENT (R177). -/
def evMountDone : Byte := 0x08
/-- FAULT in EVENT (R177). -/
def evFault : Byte := 0x10
/-- SPACE_LOW in EVENT (R177). -/
def evSpaceLow : Byte := 0x20
/-- MODE_CHANGE in EVENT (R177). -/
def evModeChange : Byte := 0x40
/-- REFUSED in EVENT (R177). -/
def evRefused : Byte := 0x80

/-- The completion of a command's foreground part: RESULT posted, CMD_DONE set, the unit IDLE (R168). -/
def State.complete (s : State) (r : ResultCode) : State :=
  { s with win := { s.win with result := r, cu := .idle } }.setEvent evCmdDone

/-- Bytes returned in the transfer buffer from position 0: FILL set to their number, DPTR to 0 (R165). -/
def State.fillBuffer (s : State) (bytes : List Byte) : State :=
  { s with win := { s.win with buffer := writeFrom s.win.buffer 0 bytes, fill := bytes.length, dptr := 0 } }

/-! ### Signals inside one event -/

/-- Why the commit engine plans (R70 to R74). -/
inductive PlanCause where
  /-- at admission or at the end of WAIT_PURGE -/
  | first
  /-- in WAIT_SPACE, a row became ERASED -/
  | rowErased
  /-- in WAIT_SPACE, the reclaimer reports IDLE -/
  | reclaimerIdle
  deriving DecidableEq, Repr

/-- What one block hands to another inside one event (spec/95). -/
inductive Signal where
  /-- the commit engine plans the set -/
  | plan (cause : PlanCause)
  /-- the commit engine asks for its next append -/
  | ask
  /-- the writer grants a waiting append if none is in service -/
  | grant
  /-- the writer replies to an append -/
  | reply (a : Append) (r : Reply)
  /-- the reclaimer looks for a due job if it is IDLE -/
  | look
  deriving DecidableEq, Repr

end Sys2Proof.Machine
end

