-- ==== Sys2Proof/Machine/ArrayControl.lean ====
section
/-! DEFINITION. The array controller: what a read returns, fault capture, the arrival of requests, the arbiter, and what a
reset leaves of an operation in flight (R19 to R36). -/

namespace Sys2Proof.Machine

/-! ### Reads (R19, R20) -/

/-- What one granule reads as (R19). -/
def readOutcome : Granule → GranuleRead
  | .blank => ⟨.blank, .erased⟩
  | .written .agrees d => ⟨.clean, d⟩
  | .written .oneBit d => ⟨.corrected, d⟩
  | .written .bad d => ⟨.uncorrectable, d⟩

/-- What a record-extent read returns; positions past 255 are BLANK (R20). -/
def State.readExtent (s : State) (row first count : Nat) : List GranuleRead :=
  (List.range count).map (fun i => readOutcome (s.granule row (first + i)))

/-- The granules of the row that changed by themselves take their new content before the read (R19, log 5).  None can return
to blank on its own (R1): an entry that says so changes nothing. -/
def State.applyDrift (s : State) (row : Nat) : List (BitVec 8 × Granule) → State
  | [] => s
  | (_, .blank) :: t => State.applyDrift s row t
  | (g, .written e d) :: t => State.applyDrift (s.setGranule row g.toNat (.written e d)) row t

/-! ### Fault capture (R31 to R35) -/

/-- The fault list's size (R34). -/
def faultListSize : Nat := 8

/-- The counters' limit (R35). -/
def counterLimit : Nat := 65535

/-- The counters a fault of this kind raises (R35). -/
def Controller.countKind (c : Controller) : FaultKind → Controller
  | .corrected => { c with corrected := bump counterLimit c.corrected }
  | .uncorrectable => { c with uncorrectable := bump counterLimit c.uncorrectable }
  | .checkFail => { c with uncorrectable := bump counterLimit c.uncorrectable }
  | .programFail => c
  | .eraseFail => c

/-- A fault is captured: counted by kind, then recorded with FAULT set, or counted as overflow when the list is full
(R34, R35). -/
def State.capture (s : State) (f : ArrayFault) : State :=
  let c := s.ctl.countKind f.kind
  if c.faults.length < faultListSize then
    { s with ctl := { c with faults := c.faults ++ [f] } }.setEvent evFault
  else
    { s with ctl := { c with overflow := bump counterLimit c.overflow } }

/-- The fault kind of a granule outcome, if it makes one (R31). -/
def outcomeFault : ReadOutcome → Option FaultKind
  | .corrected => some .corrected
  | .uncorrectable => some .uncorrectable
  | .clean => none
  | .blank => none

/-- The faults of a read, in ascending granule order (R31). -/
def State.captureRead (s : State) (origin : Origin) (row first : Nat) : List GranuleRead → State
  | [] => s
  | g :: t =>
    match outcomeFault g.outcome with
    | none => State.captureRead s origin row (first + 1) t
    | some k => State.captureRead (s.capture ⟨k, origin, row, first⟩) origin row (first + 1) t

/-- A requester reports a failed journal check where R32 calls for it. -/
def State.captureCheck (s : State) (fail : Bool) (origin : Origin) (row granule : Nat) : State :=
  if fail then s.capture ⟨.checkFail, origin, row, granule⟩ else s

/-! ### Requests and the arbiter (R23 to R27) -/

/-- The most suspensions of one erase (R25). -/
def suspensionLimit : Nat := 32

/-- The suspended-erase context after a read or program arrives: an erase that is running, not yet on its way to a suspend
point, below its limit and not FORMAT's takes one more suspension (R25, R27). -/
def EraseContext.onArrival (e : EraseContext) : EraseContext :=
  if e.suspending = false ∧ e.count < suspensionLimit ∧ e.request.requester ≠ .format then
    { e with count := e.count + 1, suspending := true }
  else e

/-- A read or program request arrives at the controller: it waits in the queue, and suspends a running erase (R23, R25).
The queue takes any number of audit reads, in the order of their arrival (R151, log 46). -/
def Controller.issue (c : Controller) (r : Request) : Controller :=
  { c with
    queue := c.queue ++ [r]
    erase := if c.state = .erasing then c.erase.map EraseContext.onArrival else c.erase }

/-- A read or program request is made of the array (R23). -/
def State.issue (s : State) (r : Request) : State := { s with ctl := s.ctl.issue r }

/-- An erase request arrives; it waits until the array is free (R24). -/
def State.issueErase (s : State) (row : Nat) (requester : Requester) (origin : Origin) : State :=
  { s with ctl := { s.ctl with eraseWaiting := some ⟨row, requester, origin, true⟩ } }

/-- The grant class of a requester, lowest first (R23). -/
def grantClass : Requester → Nat
  | .get => 0
  | .commit => 1
  | .audit => 2
  | .reclaimer => 3
  | .mount => 4
  | .format => 4

/-- The holder of exclusive service lets the requester's requests be granted (R27). -/
def Holder.admits : Holder → Requester → Bool
  | .nobody, _ => true
  | .mount, r => r = .mount
  | .format, r => r = .format

/-- The request the arbiter grants: the first of the lowest class (R23), the holder's alone under exclusive service
(R27). -/
def Controller.pick (c : Controller) : Option Request :=
  bestOf (fun a b => decide (grantClass a.requester < grantClass b.requester))
    (c.queue.filter (fun r => c.holder.admits r.requester))

/-- The array state in which a request is served (R18). -/
def ArrayOp.serving : ArrayOp → ArrayState
  | .read _ => .reading
  | .program _ => .programming

/-- The arbiter at a free array: a waiting read or program is granted, else a suspended erase resumes, else a waiting
erase starts with a suspension count of 0, else the array stays IDLE (R23, R24, R26, R27). -/
def Controller.arbitrate (c : Controller) : Controller :=
  if c.state = .idle then
    match c.pick with
    | some r => { c with state := r.op.serving, current := some r, queue := c.queue.erase r }
    | none =>
      match c.erase with
      | some _ => { c with state := .erasing }
      | none =>
        match c.eraseWaiting with
        | some e =>
          if c.holder.admits e.requester then
            { c with state := .erasing, erase := some ⟨e, 0, false⟩, eraseWaiting := none }
          else c
        | none => c
  else c

/-- The arbiter acts (R23). -/
def State.arbitrate (s : State) : State := { s with ctl := s.ctl.arbitrate }

/-- The array is IDLE with nothing waiting (R27). -/
def Controller.quiet (c : Controller) : Bool :=
  c.state = .idle && c.queue.isEmpty && c.eraseWaiting.isNone && c.erase.isNone

/-- The request in service has completed: the array is free (R23, R28). -/
def State.arrayFree (s : State) : State :=
  { s with ctl := { s.ctl with state := .idle, current := none } }

/-- The erase has ended: the array is free and the context removed (R26). -/
def State.eraseEnded (s : State) : State :=
  { s with ctl := { s.ctl with state := .idle, erase := none } }

/-! ### Requests whose requester no longer waits (R28, R114, R151) -/

def Request.abandon (who : Requester) (r : Request) : Request :=
  if r.requester = who then { r with waited := false } else r

def EraseRequest.abandon (who : Requester) (e : EraseRequest) : EraseRequest :=
  if e.requester = who then { e with waited := false } else e

/-- The requests of a requester are served to their end, their results unused (R28). -/
def State.abandonRequests (s : State) (who : Requester) : State :=
  { s with ctl := { s.ctl with
      current := s.ctl.current.map (Request.abandon who)
      queue := s.ctl.queue.map (Request.abandon who)
      eraseWaiting := s.ctl.eraseWaiting.map (EraseRequest.abandon who)
      erase := s.ctl.erase.map (fun e => { e with request := e.request.abandon who }) } }

/-! ### Programs and erases that a reset cuts, and erases that fail (R22, R29, R30) -/

/-- Granules of a row under erase, from `granule` on, become what the free value says: blank, as they were, or reading
UNCORRECTABLE (R22, R29). -/
def State.applyRemnants (s : State) (row draw : Nat) : Nat → Nat → State
  | _, 0 => s
  | granule, n + 1 =>
    let s1 := match Config.eraseRemnant draw granule with
      | .blank => s.setGranule row granule .blank
      | .old => s
      | .broken raw => s.setGranule row granule (.written .bad raw)
    State.applyRemnants s1 row draw (granule + 1) n

/-- What a row under erase holds at a suspend point or where a reset cut it (R22, R29, log 10). -/
def State.eraseCut (s : State) (row : Nat) : State :=
  (s.applyRemnants row s.freeIdx 0 256).draw

/-- The erase begun on the array, if any, is stopped where it stands (R29, R30). -/
def State.cutErase (s : State) : State :=
  match s.ctl.erase with
  | none => s
  | some e => s.eraseCut e.request.row

/-- What a failed erase leaves after its first non-blank granule (R22, log 8). -/
def State.applyErasedRest (s : State) (row draw : Nat) : Nat → Nat → State
  | _, 0 => s
  | granule, n + 1 =>
    State.applyErasedRest (s.setGranule row granule (Config.failedEraseRest draw granule)) row draw (granule + 1) n

/-- The array after an erase that ended: blank, or with old contents gone and the granules from the first non-blank one on
uncertain (R22, log 8). -/
def State.eraseRow (s : State) (row : Nat) (firstNonBlank : Option (BitVec 8)) : State :=
  let s1 := { s with cells := blankRow s.cells row }
  match firstNonBlank with
  | none => s1
  | some g =>
    ((s1.setGranule row g.toNat
        (.written (Config.failedEraseEcc s.freeIdx) (Config.failedEraseData s.freeIdx))).applyErasedRest
          row s.freeIdx (g.toNat + 1) (255 - g.toNat)).draw

/-- A program request cut by a reset after `k` finished granules.  The granule under way is complete under the RESET
command (R30) and uncertain otherwise (R29); the later ones stay blank. -/
def State.cutProgramAt (s : State) (row first k : Nat) (granules : List Data) (completed : Bool) : State :=
  let s1 := s.writeGranules row first (granules.take k)
  match granules[k]? with
  | none => s1
  | some d =>
    s1.setGranule row (first + k) (if completed then .written .agrees d else Config.uncertainGranule s.freeIdx)

/-- The program in service, if any, is stopped (R29) or its granule under way completed (R30) (log 9). -/
def State.cutProgram (s : State) (completed : Bool) : State :=
  match s.ctl.current with
  | some ⟨_, _, row, first, .program granules, _⟩ =>
    (s.cutProgramAt row first (Config.granulesFinished s.freeIdx % granules.length) granules completed).draw
  | _ => s

/-- The array after a program request that ended: every granule written, or those before the failed one, which is programmed
with uncertain content (R1, R14, R21, log 7). -/
def State.programGranules (s : State) (row first : Nat) (granules : List Data) (failed : Option Nat) : State :=
  match failed with
  | none => s.writeGranules row first granules
  | some i =>
    ((s.writeGranules row first (granules.take i)).setGranule row (first + i)
      (.written (Config.failedVerifyEcc s.freeIdx) (Config.failedVerifyData s.freeIdx))).draw

end Sys2Proof.Machine
end

