-- ==== Sys2Proof/Machine/Crc.lean ====
section
/-! DEFINITION. The two cyclic checks (R10, R146) and the byte view of a granule's data. -/

namespace Sys2Proof.Machine

/-- One bit of the CRC-16 of R10: combined with the top bit, shifted toward the top, 0x1021 added where the combined bit
was 1. -/
def crc16Bit (r : BitVec 16) (b : Bool) : BitVec 16 :=
  if r.msb != b then (r <<< 1) ^^^ 0x1021 else r <<< 1

/-- One byte of the CRC-16, most significant bit first (R10). -/
def crc16Byte (r : BitVec 16) (b : Byte) : BitVec 16 :=
  [7, 6, 5, 4, 3, 2, 1, 0].foldl (fun acc i => crc16Bit acc (b.getLsbD i)) r

/-- The CRC-16 of R10. -/
def crc16 (bytes : List Byte) : BitVec 16 :=
  bytes.foldl crc16Byte 0xFFFF

/-- One shift of the CRC-32 of R146. -/
def crc32Bit (r : BitVec 32) : BitVec 32 :=
  if r.getLsbD 0 then (r >>> 1) ^^^ 0xEDB88320 else r >>> 1

/-- One byte of the CRC-32: combined into the low 8 bits, then eight shifts (R146). -/
def crc32Byte (r : BitVec 32) (b : Byte) : BitVec 32 :=
  [7, 6, 5, 4, 3, 2, 1, 0].foldl (fun acc _ => crc32Bit acc) (r ^^^ b.setWidth 32)

/-- The CRC-32 register's start value (R146). -/
def crc32Start : BitVec 32 := 0xFFFFFFFF

/-- Feeds bytes to the CRC-32 register (R146). -/
def crc32Feed (r : BitVec 32) (bytes : List Byte) : BitVec 32 :=
  bytes.foldl crc32Byte r

/-- The final exclusive-or that turns the register into the signature (R146). -/
def crc32Final (r : BitVec 32) : BitVec 32 := r ^^^ 0xFFFFFFFF

/-- Data byte `i` of a granule, byte 0 first in the header tables (R3, R8). -/
def dataByte (d : Data) (i : Nat) : Byte :=
  d.extractLsb' (8 * (15 - i)) 8

/-- The first `n` data bytes of a granule. -/
def dataBytes (d : Data) (n : Nat) : List Byte :=
  (List.range n).map (dataByte d)

/-- The 16 data bytes built from a list of at most 16, filled up with 0xFF (R10). -/
def packData (bytes : List Byte) : Data :=
  (List.range 16).foldl (fun acc i => (acc <<< 8) ||| ((bytes[i]?).getD 0xFF).setWidth 128) 0

/-- The `n` bytes of a number, most significant byte first (00_scope, Byte order). -/
def bytesOf (n value : Nat) : List Byte :=
  (List.range n).map (fun i => BitVec.ofNat 8 (value >>> (8 * (n - 1 - i))))

end Sys2Proof.Machine
end

