-- ==== Sys2Proof/Machine/Journal.lean ====
section
/-! DEFINITION. The journal's formats: row headers, record headers, extents, payload packing, and what makes a record
intact or unreadable (R3, R4, R8 to R12). -/

namespace Sys2Proof.Machine

/-- Payload granules of a payload of `length` bytes (R8, R10). -/
def payloadCount (length : Nat) : Nat := (length + 15) / 16

/-- A record's extent in granules (R8). -/
def extent (length : Nat) : Nat := 1 + payloadCount length

/-! ### Row header (R3, R4) -/

/-- The 12 bytes of a row header's four fields, before its check (R3). -/
def rowHeaderFields (h : RowHeader) : BitVec 96 :=
  (0xC3 : BitVec 8) ++ BitVec.ofNat 32 h.journalId ++ BitVec.ofNat 32 h.sequence ++ BitVec.ofNat 24 h.eraseCount

/-- The first `n` bytes of a field block of `8 * n` bits, in field order. -/
def fieldBytes (n : Nat) (f : BitVec (8 * n)) : List Byte :=
  (List.range n).map (fun i => f.extractLsb' (8 * (n - 1 - i)) 8)

/-- A row header as programmed into granule 0 (R3). -/
def encodeRowHeader (h : RowHeader) : Data :=
  rowHeaderFields h ++ crc16 (fieldBytes 12 (rowHeaderFields h)) ++ (0xFFFF : BitVec 16)

/-- The row header in a granule's data, when it passes R4's checks of kind, journal id, sequence and header check. -/
def decodeRowHeader (d : Data) : Option RowHeader :=
  let jid := (d.extractLsb' 88 32).toNat
  let seq := (d.extractLsb' 56 32).toNat
  if d.extractLsb' 120 8 = 0xC3 ∧ jid ≠ 0 ∧ seq ≠ 0 ∧ d.extractLsb' 16 16 = crc16 (dataBytes d 12) then
    some ⟨jid, seq, (d.extractLsb' 32 24).toNat⟩
  else none

/-- Classification of a row by the read of its granule 0 (R4). -/
def classifyRowHeader (g : GranuleRead) : HeaderClass :=
  match g.outcome with
  | .blank => .blank
  | .uncorrectable => .invalid
  | .clean | .corrected =>
    match decodeRowHeader g.data with
    | some h => .valid h
    | none => .invalid

/-! ### Record header (R8, R9, R11) -/

def kindCode : RecordKind → BitVec 8
  | .put => 0x01
  | .delete => 0x02
  | .commit => 0x03

def kindOf (b : BitVec 8) : Option RecordKind :=
  if b = 0x01 then some .put
  else if b = 0x02 then some .delete
  else if b = 0x03 then some .commit
  else none

/-- The 14 bytes of a record header's fields, before its check (R8). -/
def recordHeaderFields (h : RecordHeader) : BitVec 112 :=
  kindCode h.kind ++ (if h.moved then 0x01 else 0x00 : BitVec 8) ++ BitVec.ofNat 16 h.key ++
    BitVec.ofNat 16 h.version ++ BitVec.ofNat 32 h.setId ++ BitVec.ofNat 8 h.length ++ BitVec.ofNat 8 h.index ++
    h.payloadCheck

/-- A record header as programmed (R8). -/
def encodeRecordHeader (h : RecordHeader) : Data :=
  recordHeaderFields h ++ crc16 (fieldBytes 14 (recordHeaderFields h))

/-- The constraints R9 puts on each kind.  A PUT of length 0 carries check 0xFFFF (R8, R10); that of a longer PUT is
compared with the payload, not here (R11). -/
def headerAllowed (h : RecordHeader) : Bool :=
  match h.kind with
  | .put => decide (h.key ≤ 0xFFFE ∧ 1 ≤ h.version ∧ h.version ≤ 65535 ∧ 1 ≤ h.setId ∧ h.setId ≤ 4294967295 ∧
      h.length ≤ 240 ∧ h.index ≤ 15 ∧ (h.length = 0 → h.payloadCheck = 0xFFFF))
  | .delete => decide (h.key ≤ 0xFFFE ∧ 1 ≤ h.version ∧ h.version ≤ 65535 ∧ 1 ≤ h.setId ∧ h.setId ≤ 4294967295 ∧
      h.length = 0 ∧ h.index ≤ 15 ∧ h.payloadCheck = 0xFFFF)
  | .commit => decide (h.key = 0xFFFF ∧ h.version = 0 ∧ 1 ≤ h.setId ∧ h.setId ≤ 4294967295 ∧ h.length = 0 ∧
      1 ≤ h.index ∧ h.index ≤ 16 ∧ h.payloadCheck = 0xFFFF)

/-- The fields read from a granule's data, the kind and moved bytes given. -/
def headerOfData (d : Data) (kind : RecordKind) (moved : Bool) : RecordHeader where
  kind := kind
  moved := moved
  key := (d.extractLsb' 96 16).toNat
  version := (d.extractLsb' 80 16).toNat
  setId := (d.extractLsb' 48 32).toNat
  length := (d.extractLsb' 40 8).toNat
  index := (d.extractLsb' 32 8).toNat
  payloadCheck := d.extractLsb' 16 16

/-- The record header in a granule's data, when it passes R11's checks of kind, header check and constraints. -/
def decodeRecordHeader (d : Data) : Option RecordHeader :=
  match kindOf (d.extractLsb' 120 8) with
  | none => none
  | some kind =>
    if (d.extractLsb' 112 8 = 0x00 ∨ d.extractLsb' 112 8 = 0x01) ∧
        d.extractLsb' 0 16 = crc16 (dataBytes d 14) ∧
        headerAllowed (headerOfData d kind (d.extractLsb' 112 8 = 0x01)) = true then
      some (headerOfData d kind (d.extractLsb' 112 8 = 0x01))
    else none

/-! ### Records (R10, R11) -/

/-- The payload granules of a payload (R10). -/
def payloadGranules (payload : List Byte) : List Data :=
  (List.range (payloadCount payload.length)).map (fun i => packData ((payload.drop (16 * i)).take 16))

/-- The granules of a record, header first (R8, R10). -/
def recordGranules (h : RecordHeader) (payload : List Byte) : List Data :=
  encodeRecordHeader h :: payloadGranules payload

/-- What a reader finds in the granules of an extent (R11).  `checkFail` says that R32 calls for a CHECK_FAIL. -/
inductive RecordFinding where
  | intact (h : RecordHeader) (payload : List Byte)
  | unreadable (h : RecordHeader) (checkFail : Bool)
  | notIntact (checkFail : Bool)
  deriving DecidableEq, Repr

/-- The payload bytes of the granules read, cut to the header's length (R10). -/
def payloadBytes (length : Nat) (reads : List GranuleRead) : List Byte :=
  (reads.flatMap (fun g => dataBytes g.data 16)).take length

/-- R11 applied to the payload granules read behind an intact header.  An UNCORRECTABLE granule leaves the payload
unchecked (R32); fewer granules than the header's length asks for count as a failed check, and of granules read past the
header's own length one that reads BLANK makes no difference (log 22). -/
def findPayload (h : RecordHeader) (reads : List GranuleRead) : RecordFinding :=
  let own := reads.take (payloadCount h.length)
  if reads.any (fun g => g.outcome = .uncorrectable) then .unreadable h false
  else if own.any (fun g => g.outcome = .blank) then .unreadable h true
  else if own.length < payloadCount h.length then .unreadable h true
  else if crc16 (payloadBytes h.length own) = h.payloadCheck then .intact h (payloadBytes h.length own)
  else .unreadable h true

/-- R11 applied to the read of one header position: the intact header, or none with whether R32 calls for a CHECK_FAIL. -/
def findHeader (g : GranuleRead) : Option RecordHeader × Bool :=
  match g.outcome with
  | .blank => (none, false)
  | .uncorrectable => (none, false)
  | .clean | .corrected =>
    match decodeRecordHeader g.data with
    | some h => (some h, false)
    | none => (none, true)

/-- R11 applied to the granules of a record extent. -/
def findRecord (reads : List GranuleRead) : RecordFinding :=
  match reads with
  | [] => .notIntact false
  | g :: rest =>
    match findHeader g with
    | (some h, _) => findPayload h rest
    | (none, fail) => .notIntact fail

/-- Some granule of a read was CORRECTED (R112). -/
def anyCorrected (reads : List GranuleRead) : Bool :=
  reads.any (fun g => g.outcome = .corrected)

/-- A moved copy's header (R12). -/
def movedCopy (h : RecordHeader) : RecordHeader := { h with moved := true }

end Sys2Proof.Machine
end

