-- ==== Sys2Proof/Machine/Directory.lean ====
section
/-! DEFINITION. The directory: its lookups and the updates it takes from the other blocks, each with what it hands to the
row table (03_the_directory). -/

namespace Sys2Proof.Machine

/-- The highest stale count (R39, R44). -/
def staleLimit : Nat := 16320

/-- The number of keys the directory can hold (R38). -/
def dirCapacity : Nat := 512

/-! ### Lookups (R41) -/

/-- The entry of a key (R41, by key). -/
def dirFind (dir : List DirEntry) (key : Nat) : Option DirEntry :=
  dir.find? (fun e => e.key = key)

/-- Entries used (R52). -/
def entriesUsed (dir : List DirEntry) : Nat := dir.length

/-- The number of entries in a state (R52). -/
def entriesIn (dir : List DirEntry) (st : EntryState) : Nat :=
  (dir.filter (fun e => e.state = st)).length

/-- Free entries (R38). -/
def freeEntries (dir : List DirEntry) : Nat := dirCapacity - entriesUsed dir

/-- How many of some keys have no entry (R41, keys without entry). -/
def keysWithoutEntry (dir : List DirEntry) (keys : List Nat) : Nat :=
  (keys.filter (fun k => (dirFind dir k).isNone)).length

/-- An entry that enumeration and audit see: LIVE or DAMAGED (R41). -/
def DirEntry.readable (e : DirEntry) : Bool := e.state = .live || e.state = .damaged

/-- The entries of a row in ascending granule order (R41, by row). -/
def entriesInRow (dir : List DirEntry) (row : Nat) : List DirEntry :=
  sortBy (fun a b => decide (a.granule < b.granule)) (dir.filter (fun e => e.row = row))

/-- The version the next record of a key carries (R42). -/
def nextVersion (dir : List DirEntry) (key : Nat) : Nat :=
  match dirFind dir key with
  | none => 1
  | some e => if e.version = 65535 then 1 else e.version + 1

/-- Some row's record is located by a DAMAGED entry (R101, R108). -/
def damagedInRow (dir : List DirEntry) (row : Nat) : Bool :=
  dir.any (fun e => e.row = row && e.state = .damaged)

/-! ### Entries in key order (R38) -/

/-- Puts an entry in its place in key order, replacing the entry of its key. -/
def dirPut (e : DirEntry) : List DirEntry → List DirEntry
  | [] => [e]
  | d :: t => if e.key < d.key then e :: d :: t else if d.key = e.key then e :: t else d :: dirPut e t

/-- Removes the entry of a key. -/
def dirRemove (key : Nat) (dir : List DirEntry) : List DirEntry :=
  dir.filter (fun e => e.key ≠ key)

/-- A stale count raised, stopping at its limit (R44). -/
def DirEntry.addStale (e : DirEntry) (n : Nat) : DirEntry := { e with stale := min staleLimit (e.stale + n) }

/-! ### Publish (R45, R46) -/

/-- The state a published record gives its key (R45). -/
def publishedState : RecordKind → EntryState
  | .put => .live
  | .delete => .tombstone
  | .commit => .tombstone

/-- The entry after one published record (R45). -/
def publishedEntry (before : Option DirEntry) (p : Placed) : DirEntry where
  key := p.key
  state := publishedState p.kind
  version := p.version
  setId := p.setId
  row := p.row
  granule := p.granule
  length := p.length
  stale := match before with
    | none => min staleLimit p.failed
    | some e => min staleLimit (e.stale + 1 + p.failed)
  baseSetId := match before with
    | none => p.setId
    | some e => e.baseSetId

/-- One record of the set applied to the directory, and the superseded record's extent handed to the row table
(R45, R46). -/
def State.publishRecord (s : State) (p : Placed) : State :=
  let before := dirFind s.dir p.key
  let s1 := { s with dir := dirPut (publishedEntry before p) s.dir }
  match before with
  | none => s1
  | some e => s1.addDead e.row (extent e.length)

/-! ### Relocate (R47) -/

/-- The entry's state at a copy of this kind (R47).  A located record whose header reads as an intact COMMIT header, through an
array error that the checks do not detect (R19), makes the entry a TOMBSTONE (log 40). -/
def relocatedState : RecordKind → EntryState
  | .put => .live
  | .delete => .tombstone
  | .commit => .tombstone

/-- A relocate: the entry moves to the copy and the original's extent, by the entry's length, goes dead in its row, or the copy
is an orphan and its own extent goes dead (R39, R47). -/
def State.relocate (s : State) (c : Copy) : State :=
  match dirFind s.dir c.key with
  | none => s.addDead c.toRow (extent c.length)
  | some e =>
    if e.row = c.fromRow ∧ e.granule = c.fromGranule then
      let moved := { e with row := c.toRow, granule := c.toGranule, state := relocatedState c.kind }
      { s with dir := dirPut (moved.addStale (1 + c.failed)) s.dir }.addDead c.fromRow (extent e.length)
    else
      { s with dir := dirPut (e.addStale (1 + c.failed)) s.dir }.addDead c.toRow (extent c.length)

/-- The extent of a copy's original: by the length of the entry that locates it (R39), or by the copy's once the entry has moved
away (log 40). -/
def State.originalExtent (s : State) (c : Copy) : Nat :=
  match dirFind s.dir c.key with
  | none => extent c.length
  | some e => if e.row = c.fromRow ∧ e.granule = c.fromGranule then extent e.length else extent c.length

/-- The failed attempts of a copy that was never placed, counted for its key (R47, last sentences). -/
def State.countFailedCopy (s : State) (key failed : Nat) : State :=
  match dirFind s.dir key with
  | none => s
  | some e => { s with dir := dirPut (e.addStale failed) s.dir }

/-! ### Damage marking (R48) -/

/-- Mark damaged: takes hold only where the key's entry still locates the place that was read (R48). -/
def State.markDamaged (s : State) (key row granule : Nat) : State :=
  match dirFind s.dir key with
  | none => s
  | some e =>
    if e.row = row ∧ e.granule = granule then { s with dir := dirPut { e with state := .damaged } s.dir } else s

/-! ### Release and settle (R43, R49 to R51) -/

/-- A walk record is countable for an entry: its key, and a set id between the entry's base and its own (R43). -/
def countable (e : DirEntry) (w : WalkRec) : Bool :=
  w.key = e.key && decide (e.baseSetId ≤ w.setId) && decide (w.setId ≤ e.setId)

/-- How many records of a walk of `row` are countable for an entry, its own location left out (R49, R105). -/
def countableElsewhere (e : DirEntry) (row : Nat) (walk : List WalkRec) : Nat :=
  (walk.filter (fun w => countable e w && !(e.row = row && w.granule = e.granule))).length

/-- A release: the TOMBSTONE is freed when all its countable records lie in the victim (R49). -/
def State.release (s : State) (key row granule : Nat) (walk : List WalkRec) : State :=
  match dirFind s.dir key with
  | none => s
  | some e =>
    if e.state = .tombstone ∧ e.row = row ∧ e.granule = granule ∧ e.stale = countableElsewhere e row walk then
      { s with dir := dirRemove key s.dir }.addDead row 1
    else s

/-- An entry after the fall of a settle (R50). -/
def DirEntry.settled (walk : List WalkRec) (e : DirEntry) : DirEntry :=
  { e with stale := e.stale - (walk.filter (countable e)).length }

/-- A TOMBSTONE with stale count 0, which settle frees (R51). -/
def DirEntry.freeable (e : DirEntry) : Bool := e.state = .tombstone && e.stale = 0

/-- A settle: stale counts fall, TOMBSTONEs that reach 0 are freed and their DELETE granules go dead (R50, R51). -/
def State.settle (s : State) (walk : List WalkRec) : State :=
  let fallen := s.dir.map (DirEntry.settled walk)
  let s1 := { s with dir := fallen.filter (fun e => !e.freeable) }
  (fallen.filter DirEntry.freeable).foldl (fun acc e => acc.addDead e.row 1) s1

end Sys2Proof.Machine
end

