-- ==== Sys2Proof/Machine/Rows.lean ====
section
/-! DEFINITION. The row table's figures, the choice of rows, eligible victims and the closing of a row (R73, R91 to R93,
R96, R97, R101). -/

namespace Sys2Proof.Machine

/-- The OPEN row, if any (R90). -/
def State.openRow (s : State) : Option Nat := (s.rowsIn .opened).head?

/-- Number of ERASED rows, shown in ROWS_ERASED (R90, R93). -/
def State.erasedRows (s : State) : Nat := (s.rowsIn .erased).length

/-- Number of BAD rows (R93). -/
def State.badRows (s : State) : Nat := (s.rowsIn .bad).length

/-- Free granules of the open row; 0 with no open row (R72, R93). -/
def State.openRoom (s : State) : Nat :=
  match s.openRow with
  | none => 0
  | some r => 256 - (s.row r).nextFree

/-- Free granules: the open row's, plus 255 for each ERASED row but the reserve row, 0 when the sum is below 0 (R93). -/
def State.freeGranules (s : State) : Nat := s.openRoom + 255 * s.erasedRows - 255

/-- A commit job holds the row (R80). -/
def State.held (s : State) (r : Nat) : Bool :=
  (s.engine.state = .writing || s.engine.state = .closing) && s.engine.setRows.contains r

/-- The newest COMMIT record stands in the row. -/
def State.holdsNewest (s : State) (r : Nat) : Bool :=
  match s.table.newestCommit with
  | none => false
  | some l => l.row = r

/-- An eligible victim (R101). -/
def State.eligible (s : State) (r : Nat) : Bool :=
  (s.row r).state = some .full && !s.holdsNewest r && !damagedInRow s.dir r && !s.held r && !(s.row r).tainted &&
    decide (0 < (s.row r).dead)

/-- The eligible victims in ascending row index. -/
def State.eligibleVictims (s : State) : List Nat := (List.range 64).filter s.eligible

/-- The victim a pass takes: highest dead count, then lowest sequence (R101), then lowest row index (log 24). -/
def State.bestVictim (s : State) : Option Nat :=
  bestOf (fun a b => decide ((s.row b).dead < (s.row a).dead) ||
    ((s.row a).dead = (s.row b).dead && decide ((s.row a).sequence < (s.row b).sequence))) s.eligibleVictims

/-- Reclaimable granules: the dead granules of the eligible victims plus 255 for each DIRTY row (R93). -/
def State.reclaimable (s : State) : Nat :=
  (s.eligibleVictims.map (fun r => (s.row r).dead)).sum + 255 * (s.rowsIn .dirty).length

/-- Row `a` is taken before row `b`: lower erase count, then a known count before a guessed one (R96, R132). -/
def State.lessWorn (s : State) (a b : Nat) : Bool :=
  decide ((s.row a).eraseCount < (s.row b).eraseCount) ||
    ((s.row a).eraseCount = (s.row b).eraseCount && !(s.row a).guessed && (s.row b).guessed)

/-- The row an opening takes (R96). -/
def State.pickErased (s : State) : Option Nat := bestOf s.lessWorn (s.rowsIn .erased)

/-- The row becomes FULL and its free granules dead (R97). -/
def State.closeRow (s : State) (r : Nat) : State :=
  s.setRow r { s.row r with
    state := some .full, dead := (s.row r).dead + (256 - (s.row r).nextFree), nextFree := 0 }

/-- The open row, if any, is closed (R97). -/
def State.closeOpenRow (s : State) : State :=
  match s.openRow with
  | none => s
  | some r => s.closeRow r

/-- A row leaves the journal or stays out of it in the given state (R91). -/
def State.rowLeaves (s : State) (r : Nat) (st : RowState) : State := s.setRow r ((s.row r).leave st)

/-- The row table raises the count of a row whose erase has completed (R7, R91). -/
def State.countErase (s : State) (r : Nat) : State := s.setRow r (s.row r).erasedOnce

/-- A row's state after its erase: ERASED when the blank check passed, BAD when it failed (R91). -/
def State.rowAfterErase (s : State) (r : Nat) (passed : Bool) : State :=
  s.rowLeaves r (if passed then .erased else .bad)

/-- Changes a row's state and nothing else of its record. -/
def State.setRowState (s : State) (r : Nat) (st : RowState) : State :=
  s.setRow r { s.row r with state := some st }

/-- Rows in ascending sequence, then ascending row index (R6, R108, log 24). -/
def State.bySequence (s : State) (rows : List Nat) : List Nat :=
  sortBy (fun a b => decide ((s.row a).sequence < (s.row b).sequence)) rows

/-- The tainted rows (R108). -/
def State.taintedRows (s : State) : List Nat := (List.range 64).filter (fun r => (s.row r).tainted)

end Sys2Proof.Machine
end

