-- ==== Sys2Proof/Machine/Audit.lean ====
section
/-! DEFINITION. The audit unit: visits, reads, the signature, and every end of an audit (R144 to R151), and the refresh
queue's append that its reads share with GET (R112). -/

namespace Sys2Proof.Machine

/-- The refresh queue's size (R112). -/
def refreshQueueSize : Nat := 8

/-- A refresh request: dropped when the key is queued already or the queue is full (R112). -/
def State.appendRefresh (s : State) (key row granule : Nat) : State :=
  if s.recl.refresh.any (fun e => e.key = key) then s
  else if refreshQueueSize ≤ s.recl.refresh.length then s
  else { s with recl := { s.recl with refresh := s.recl.refresh ++ [⟨key, row, granule⟩] } }

/-- A GET or audit read appends when some granule was CORRECTED (R112). -/
def State.refreshIf (s : State) (wanted : Bool) (key row granule : Nat) : State :=
  if wanted then s.appendRefresh key row granule else s

/-- The bytes a signed record feeds, low byte first (R146). -/
def signedBytes (h : RecordHeader) (payload : List Byte) : List Byte :=
  [BitVec.ofNat 8 h.key, BitVec.ofNat 8 (h.key >>> 8), BitVec.ofNat 8 h.version, BitVec.ofNat 8 (h.version >>> 8),
    BitVec.ofNat 8 h.length] ++ payload

/-- An end of an audit: AUDIT_RESULT, SIG and ACOUNT written together, AUDIT_DONE set, the unit IDLE (R144).  A read still
outstanding is served to its end, its results unused (R28, R151): the controller holds its request, and the unit's read in
flight is absent from the end on.  Range, expected value, running signature, count and last key stay as they are until the
next AUDIT sets them (log 42). -/
def State.endAudit (s : State) (r : ResultCode) (sig : BitVec 32) : State :=
  { (s.abandonRequests .audit) with
    win := { s.win with auditResult := r, sig := sig, acount := BitVec.ofNat 16 s.aud.count }
    aud := { s.aud with running := false, reading := none } }.setEvent evAuditDone

/-- The next-in-range lookup of a visit: the first LIVE or DAMAGED entry above the last key visited, or from lo on, and at
most hi (R41, R147). -/
def State.auditNext (s : State) : Option DirEntry :=
  s.dir.find? (fun e => e.readable && decide (e.key ≤ s.aud.hi) &&
    (match s.aud.lastKey with
      | none => decide (s.aud.lo ≤ e.key)
      | some k => decide (k < e.key)))

/-- The end of an audit that has visited its whole range (R148). -/
def State.auditSigned (s : State) : State :=
  let sig := crc32Final s.aud.signature
  s.endAudit (if sig = s.aud.expected then .ok else .mismatch) sig

/-- A visit: the read of a LIVE entry's record, the end DAMAGED, or the end with the signature (R147 to R149). -/
def State.auditVisit (s : State) : State :=
  match s.auditNext with
  | none => s.auditSigned
  | some e =>
    match e.state with
    | .damaged => s.endAudit .damaged 0
    | .live | .tombstone =>
      { s with aud := { s.aud with lastKey := some e.key, reading := some (e.key, ⟨e.row, e.granule⟩) } }.issue
        ⟨.audit, .audit, e.row, e.granule, .read (extent e.length), true⟩

/-- An intact record is signed (R146, R147). -/
def State.auditFeed (s : State) (h : RecordHeader) (payload : List Byte) : State :=
  { s with aud := { s.aud with
      signature := crc32Feed s.aud.signature (signedBytes h payload), count := s.aud.count + 1, reading := none } }

/-- The completion of the audit's read: signed and the next visit made, or the end DAMAGED (R147, R149). -/
def State.auditReadDone (s : State) (reads : List GranuleRead) : State :=
  match s.aud.reading with
  | none => s
  | some (key, l) =>
    match findRecord reads with
    | .intact h payload =>
      ((s.auditFeed h payload).refreshIf (anyCorrected reads) key l.row l.granule).auditVisit
    | .unreadable _ fail | .notIntact fail =>
      (((s.captureCheck fail .audit l.row l.granule).refreshIf (anyCorrected reads) key l.row l.granule).markDamaged
        key l.row l.granule).endAudit .damaged 0

/-- A publish hands its keys to a running audit, which ends DISTURBED when one lies in its range (R46, R150). -/
def State.auditDisturb (s : State) (keys : List Nat) : State :=
  if s.aud.running && keys.any (fun k => decide (s.aud.lo ≤ k) && decide (k ≤ s.aud.hi)) then
    s.endAudit .disturbed 0
  else s

end Sys2Proof.Machine
end

