-- ==== Sys2Proof/Machine/JournalWriter.lean ====
section
/-! DEFINITION. The journal writer: granting appends, placing records, opening rows, retries and replies (R13, R14, R78 to
R80, R94 to R96). -/

namespace Sys2Proof.Machine

/-- The requester a class of append has at the array arbiter (R23, R95). -/
def AppendClass.requester : AppendClass → Requester
  | .commit => .commit
  | .reclaimer => .reclaimer

/-- The origin of a class's programs (R33, R95). -/
def AppendClass.origin : AppendClass → Origin
  | .commit => .commit
  | .reclaimer => .reclaim

/-- How many rows must be ERASED for an opening of this class (R96). -/
def AppendClass.erasedNeeded : AppendClass → Nat
  | .commit => 2
  | .reclaimer => 1

/-- The most attempts at one record (R78, R95). -/
def attemptLimit : Nat := 3

/-- The extent of an append's record in granules (R8). -/
def Append.size (a : Append) : Nat := extent a.header.length

/-- The highest journal id, sequence or set id a header field holds (R3, R8). -/
def fieldLimit : Nat := 4294967295

/-- The sequence the next opening takes (R6, R96); past the last value the spec states none (log 21). -/
def State.nextSequence (s : State) : Nat :=
  if s.table.highestSequence < fieldLimit then s.table.highestSequence + 1
  else (Config.sequenceAfterLast s.freeIdx).toNat

/-- A program request of the writer for an append (R95, R96). -/
def Append.request (a : Append) (row first : Nat) (granules : List Data) : Request :=
  ⟨a.cls.requester, a.cls.origin, row, first, .program granules, true⟩

/-- The append leaves service and its reply goes to its requester (R94, R95). -/
def State.replyTo (s : State) (a : Append) (r : Reply) : State × List Signal :=
  ({ s with writer := { s.writer with inService := none, wait := .nothing } }, [.reply a r])

/-- The header program of a row being opened: the row table's journal id, the next sequence, the row's erase count
(R96). -/
def State.openingHeader (s : State) (r : Nat) : RowHeader :=
  ⟨s.table.journalId, s.nextSequence, (s.row r).eraseCount⟩

/-- A row is opened for an append, or the reply is NO_ROW (R79, R96).  The highest sequence takes its new value when the
header program is issued. -/
def State.openRowFor (s : State) (a : Append) : State × List Signal :=
  if s.erasedRows < a.cls.erasedNeeded then s.replyTo a (.noRow a.failed)
  else
    match s.pickErased with
    | none => s.replyTo a (.noRow a.failed)
    | some r =>
      let header := s.openingHeader r
      let s1 := { s with
        table := { s.table with highestSequence := header.sequence }
        writer := { s.writer with inService := some a, wait := .rowHeader r header.sequence } }
      let s2 := if s.table.highestSequence < fieldLimit then s1 else s1.draw
      (s2.issue (a.request r 0 [encodeRowHeader header]), [])

/-- The record of an append is programmed at a place of the open row, whose pointer advances over it (R13, R95). -/
def State.programAt (s : State) (a : Append) (r : Nat) : State × List Signal :=
  let g := (s.row r).nextFree
  let s1 := s.setRow r { s.row r with nextFree := g + a.size }
  let s2 := { s1 with writer := { s1.writer with inService := some a, wait := .record r g } }
  (s2.issue (a.request r g (recordGranules a.header a.payload)), [])

/-- An attempt at an append's record: in the open row where it fits, else in a newly opened row, the open row closed
(R13, R95, R97). -/
def State.place (s : State) (a : Append) : State × List Signal :=
  match s.openRow with
  | some r =>
    if (s.row r).nextFree + a.size ≤ 256 then s.programAt a r else (s.closeRow r).openRowFor a
  | none => s.openRowFor a

/-- The writer grants a waiting append when none is in service, the commit engine's first (R94). -/
def State.grantAppend (s : State) : State × List Signal :=
  match s.writer.inService with
  | some _ => (s, [])
  | none =>
    match s.writer.waitingCommit with
    | some a => { s with writer := { s.writer with waitingCommit := none } }.place a
    | none =>
      match s.writer.waitingReclaimer with
      | some a => { s with writer := { s.writer with waitingReclaimer := none } }.place a
      | none => (s, [])

/-- A row enters the list of set's rows, once (R80). -/
def State.enterSetRow (s : State) (r : Nat) : State :=
  if s.engine.setRows.contains r then s
  else { s with engine := { s.engine with setRows := s.engine.setRows ++ [r] } }

/-- The header of a row being opened verified: the row is OPEN, and the record is placed in it (R96). -/
def State.rowOpened (s : State) (a : Append) (r sequence : Nat) : State × List Signal :=
  let s1 := s.setRow r { s.row r with
    state := some .opened, sequence := sequence, nextFree := 1, dead := 0, guessed := false, tainted := false }
  s1.place a

/-- The header of a row being opened failed: the row is DIRTY and the next ERASED row is tried (R79, R96). -/
def State.rowHeaderFailed (s : State) (a : Append) (r : Nat) : State × List Signal :=
  (s.rowLeaves r .dirty).openRowFor a

/-- An attempt failed at granule `i` of its request: its extent is dead, a header failure closes the row, and the record is
tried again or the reply is FAILED (R14, R78, R95). -/
def State.attemptFailed (s : State) (a : Append) (r i : Nat) : State × List Signal :=
  let s1 := s.addDead r a.size
  let s2 := if i = 0 ∧ (s1.row r).state = some .opened then s1.closeRow r else s1
  let a1 := { a with failed := a.failed + 1 }
  if a1.failed < attemptLimit then s2.place a1 else s2.replyTo a1 .failed

/-- The writer's part of the completion of a program request of its append in service (R78, R80, R95, R96). -/
def State.writerProgramDone (s : State) (failed : Option Nat) : State × List Signal :=
  match s.writer.inService with
  | none => (s, [])
  | some a =>
    match s.writer.wait, failed with
    | .rowHeader r sequence, none => s.rowOpened a r sequence
    | .rowHeader r _, some _ => s.rowHeaderFailed a r
    | .record r g, none =>
      (if a.cls = .commit then s.enterSetRow r else s).replyTo a (.placed r g a.failed)
    | .record r _, some i =>
      (if a.cls = .commit then s.enterSetRow r else s).attemptFailed a r i
    | .nothing, _ => (s, [])

end Sys2Proof.Machine
end

