-- ==== Sys2Proof/Machine/CommitControl.lean ====
section
/-! DEFINITION. The commit engine: planning, waiting, writing, publish and the ends of a job (R70 to R85). -/

namespace Sys2Proof.Machine

/-! ### The plan (R72, R73) -/

/-- The extents of the staged set in set order, the COMMIT record's last (R72). -/
def Staging.extents (g : Staging) : List Nat := g.entries.map (fun e => extent e.length) ++ [1]

/-- The walk of the plan: the room left, the rows opened so far, and the planned row of each record (R72). -/
def planWalk : Nat → Nat → List Nat → SetPlan
  | _, opens, [] => ⟨[], opens⟩
  | room, opens, n :: t =>
    if n ≤ room then
      let rest := planWalk (room - n) opens t
      ⟨opens :: rest.places, rest.opens⟩
    else
      let rest := planWalk (255 - n) (opens + 1) t
      ⟨(opens + 1) :: rest.places, rest.opens⟩

/-- The plan of the staged set as the row table stands (R72). -/
def State.setPlan (s : State) : SetPlan := planWalk s.openRoom 0 s.staging.extents

/-- The plan is admissible: k is at most the ERASED rows less one (R73). -/
def State.admissible (s : State) (p : SetPlan) : Bool := decide (p.opens + 1 ≤ s.erasedRows)

/-- The shortfall in granules of a plan that is not admissible: 255 × (k − (E − 1)) (R73). -/
def State.shortfall (s : State) (p : SetPlan) : Nat := 255 * (p.opens + 1 - s.erasedRows)

/-! ### Job ends (R62, R81, R84, R85) -/

/-- The engine's state between jobs: the next set id stays (R68, R81, R84), and the current record index is 0 (log 43). -/
def CommitEngine.cleared (e : CommitEngine) : CommitEngine := { CommitEngine.atReset with nextSetId := e.nextSetId }

/-- The end of a commit job: JOB_RESULT, JOB_DONE, the lock cleared, the engine IDLE (R85). -/
def State.endCommit (s : State) (r : ResultCode) : State :=
  { s with
    win := { s.win with jobResult := r }
    staging := { s.staging with lock := false }
    engine := s.engine.cleared }.setEvent evJobDone

/-- A row becomes tainted (R81). -/
def State.taintRow (s : State) (r : Nat) : State := s.setRow r { s.row r with tainted := true }

/-- The job ends with WRITE_FAILED: the set's rows tainted and a purge owed unless the list is empty, the placed extents
dead (R81). -/
def State.writeFailed (s : State) : State × List Signal :=
  let s1 := s.engine.setRows.foldl State.taintRow s
  let s2 := if s.engine.setRows.isEmpty then s1 else { s1 with table := { s1.table with purgePending := true } }
  let s3 := s.engine.placed.foldl (fun acc p => acc.addDead p.row (extent p.length)) s2
  (s3.endCommit .writeFailed, [.look])

/-! ### Writing (R75 to R77, R82) -/

/-- The next set id after one is taken (R75). -/
def NextSetId.after (n : Nat) : NextSetId := if n < fieldLimit then .id (n + 1) else .exhausted

/-- Entry into WRITING: the set id is assigned, or the job ends with NO_SPACE when the ids are exhausted (R75). -/
def State.enterWriting (s : State) : State × List Signal :=
  match s.engine.nextSetId with
  | .id n =>
    ({ s with engine := { s.engine with
        state := .writing, writingId := some n, nextSetId := NextSetId.after n, index := 0, placed := [], setRows := [] } },
      [.ask])
  | .exhausted => (s.endCommit .noSpace, [])
  | .unset => (s.endCommit .noSpace, [])

/-- The engine acts on a plan (R73, R74). -/
def State.actOnPlan (s : State) (cause : PlanCause) (p : SetPlan) : State × List Signal :=
  let s1 := { s with engine := { s.engine with plan := some p } }
  if s.admissible p then s1.enterWriting
  else
    match cause with
    | .first =>
      if s.shortfall p ≤ s.reclaimable then
        ({ s1 with engine := { s1.engine with state := .waitSpace } }, [.look])
      else (s1.endCommit .noSpace, [])
    | .rowErased => (s1, [])
    | .reclaimerIdle => (s1.endCommit .noSpace, [])

/-- The engine plans: at admission or the end of WAIT_PURGE, or again in WAIT_SPACE (R70, R71, R74). -/
def State.commitPlan (s : State) (cause : PlanCause) : State × List Signal :=
  match cause with
  | .first => s.actOnPlan .first s.setPlan
  | .rowErased => if s.engine.state = .waitSpace then s.actOnPlan .rowErased s.setPlan else (s, [])
  | .reclaimerIdle => if s.engine.state = .waitSpace then s.actOnPlan .reclaimerIdle s.setPlan else (s, [])

/-- The kind of record a staged change becomes (R76). -/
def ChangeOp.recordKind : ChangeOp → RecordKind
  | .put => .put
  | .delete => .delete

/-- A staged entry's payload in the pool (R55, R64). -/
def Staging.payload (g : Staging) (e : StagedEntry) : List Byte :=
  match e.poolOffset with
  | none => []
  | some off => readFrom g.pool off e.length

/-- The append of the staged entry at the current index, or of the COMMIT record after the last (R76). -/
def State.nextAppend (s : State) : Append :=
  let setId := s.engine.writingId.getD 0
  match s.staging.entries[s.engine.index]? with
  | some e =>
    let payload := s.staging.payload e
    ⟨.commit, ⟨e.op.recordKind, false, e.key, nextVersion s.dir e.key, setId, e.length, s.engine.index,
      crc16 payload⟩, payload, 0⟩
  | none => ⟨.commit, ⟨.commit, false, 0xFFFF, 0, setId, 0, s.staging.entries.length, 0xFFFF⟩, [], 0⟩

/-- The engine asks for its next append (R76, R77). -/
def State.commitAsk (s : State) : State × List Signal :=
  ({ s with writer := { s.writer with waitingCommit := some s.nextAppend } }, [.grant])

/-- What is kept of a placed record for the publish (R45, R77). -/
def Append.placed (a : Append) (row granule failed : Nat) : Placed :=
  ⟨a.header.key, a.header.kind, a.header.version, a.header.setId, row, granule, a.header.length, failed⟩

/-! ### Publish (R83, R84) -/

/-- The previous COMMIT record's granule goes dead and the newest-commit location moves (R83, 3 and 4). -/
def State.moveNewestCommit (s : State) (l : Loc) : State :=
  let s1 := match s.table.newestCommit with
    | none => s
    | some old => s.addDead old.row 1
  { s1 with table := { s1.table with newestCommit := some l } }

/-- The staging area emptied: no entries, pool fill 0 (R64, R84). -/
def Staging.emptied (g : Staging) : Staging := { g with entries := [], poolFill := 0 }

/-- The publish of the set whose COMMIT record stands at `l` (R83, R84). -/
def State.publish (s : State) (l : Loc) : State :=
  let s1 := s.engine.placed.foldl State.publishRecord s
  let s2 := s1.moveNewestCommit l
  let s3 := { s2 with staging := s2.staging.emptied }
  (s3.auditDisturb (s.engine.placed.map Placed.key)).endCommit .ok

/-- A record of the set is placed: the next one is asked for, the COMMIT record after the last, and the COMMIT record's
own placing publishes (R77, R82). -/
def State.commitPlaced (s : State) (a : Append) (row granule failed : Nat) : State × List Signal :=
  if s.engine.state = .closing then (s.publish ⟨row, granule⟩, [.look])
  else
    ({ s with engine := { s.engine with
        placed := s.engine.placed ++ [a.placed row granule failed]
        index := s.engine.index + 1
        state := if s.engine.index + 1 < s.staging.entries.length then s.engine.state else .closing } }, [.ask])

/-- The writer's reply to an append of the commit engine (R77). -/
def State.commitReply (s : State) (a : Append) (r : Reply) : State × List Signal :=
  match r with
  | .placed row granule failed => s.commitPlaced a row granule failed
  | .failed => s.writeFailed
  | .noRow _ => s.writeFailed

end Sys2Proof.Machine
end

