-- ==== Sys2Proof/Machine/ReclaimControl.lean ====
section
/-! DEFINITION. The reclaimer: due jobs, victim passes, the purge, DIRTY erases, refresh, and what FORMAT does to it (R98 to
R114). -/

namespace Sys2Proof.Machine

/-! ### Requests of the reclaimer (R33) -/

/-- A read of the reclaimer (R102, R104). -/
def State.reclaimRead (s : State) (row first count : Nat) (wait : ReclaimWait) : State :=
  { s with recl := { s.recl with wait := wait } }.issue ⟨.reclaimer, .reclaim, row, first, .read count, true⟩

/-- An erase request of the reclaimer (R105, R111). -/
def State.reclaimErase (s : State) (row : Nat) : State :=
  { s with recl := { s.recl with wait := .erase } }.issueErase row .reclaimer .reclaim

/-- The reclaimer asks the writer to append a moved copy (R12, R102). -/
def State.reclaimAppend (s : State) (h : RecordHeader) (payload : List Byte) (wait : ReclaimWait) :
    State × List Signal :=
  ({ s with
      recl := { s.recl with wait := wait }
      writer := { s.writer with waitingReclaimer := some ⟨.reclaimer, movedCopy h, payload, 0⟩ } }, [.grant])

/-- The reclaimer's job ends and it looks for the next (R99); no working state is kept between jobs (log 43). -/
def State.endReclaim (s : State) : State × List Signal :=
  ({ s with recl := { s.recl with
      job := .idle, phase := none, victim := none, cursor := 0, copyList := [], walkList := [], targets := [],
      wait := .nothing } }, [.look])

/-- The relocates of the copy list are sent in ascending order of the originals' granules, and the list emptied (R103,
R105, R110). -/
def State.sendRelocates (s : State) : State :=
  let s1 := (sortBy (fun a b => decide (a.fromGranule < b.fromGranule)) s.recl.copyList).foldl State.relocate s
  { s1 with recl := { s1.recl with copyList := [] } }

/-! ### Abandoning a pass, failing a purge (R103, R110) -/

/-- A VICTIM row becomes FULL again (R103, R110). -/
def State.victimBack (s : State) : State :=
  match s.recl.victim with
  | none => s
  | some r => if (s.row r).state = some .victim then s.setRowState r .full else s

/-- A pass is abandoned; after a failed append, passes are blocked (R103). -/
def State.abandonPass (s : State) (block : Bool) : State × List Signal :=
  let s1 := s.sendRelocates.victimBack
  { s1 with recl := { s1.recl with blocked := s1.recl.blocked || block } }.endReclaim

/-- A commit engine in WAIT_PURGE ends its job with READ_ONLY (R71, R110). -/
def State.commitPurgeFailed (s : State) : State :=
  if s.engine.state = .waitPurge then s.endCommit .readOnly else s

/-- READY becomes READ_ONLY with MODE_CHANGE; any other mode stays (R110, R173). -/
def State.readOnlyFromReady (s : State) : State :=
  if s.win.mode = .ready then { s with win := { s.win with mode := .readOnly } }.setEvent evModeChange else s

/-- PURGE_FAILED is set in MOUNT_FLAGS (R110, R128). -/
def State.flagPurgeFailed (s : State) : State :=
  { s with win := { s.win with mountFlags := { s.win.mountFlags with purgeFailed := true } } }

/-- The purge fails (R110). -/
def State.purgeFail (s : State) : State × List Signal :=
  s.sendRelocates.victimBack.flagPurgeFailed.readOnlyFromReady.commitPurgeFailed.endReclaim

/-- A record to be kept cannot be kept: the purge fails or the pass is abandoned (R103, R109). -/
def State.passFails (s : State) (block : Bool) : State × List Signal :=
  if s.recl.job = .purge then s.purgeFail else s.abandonPass block

/-! ### The pass (R102, R104, R105) -/

/-- The lowest-granule entry of a row that satisfies a condition (R41, by row). -/
def lowestInRow (dir : List DirEntry) (row : Nat) (cond : DirEntry → Bool) : Option DirEntry :=
  bestOf (fun a b => decide (a.granule < b.granule)) (dir.filter (fun e => e.row = row && cond e))

/-- The walk reads a header position (R104). -/
def State.walkAt (s : State) (victim granule : Nat) : State :=
  s.reclaimRead victim granule 1 (.walkRead granule)

/-- The pass reads a record to be kept (R102, R105). -/
def State.readKept (s : State) (e : DirEntry) : State :=
  s.reclaimRead e.row e.granule (extent e.length) (.recordRead e.key e.row e.granule)

/-- One step of COPY: the next LIVE or DAMAGED entry at or above the cursor is read, or the walk begins (R102). -/
def State.copyStep (s : State) (victim : Nat) : State :=
  match lowestInRow s.dir victim (fun e => decide (s.recl.cursor ≤ e.granule) && e.readable) with
  | some e => s.readKept e
  | none => { s with recl := { s.recl with phase := some .walk } }.walkAt victim 1

/-- The victim becomes VICTIM and the pass enters COPY (R102, R109). -/
def State.beginPass (s : State) (victim : Nat) : State :=
  let s1 := s.setRowState victim .victim
  { s1 with recl := { s1.recl with
      phase := some .copy, victim := some victim, cursor := 1, copyList := [], walkList := [] } }.copyStep victim

/-- A TOMBSTONE whose countable records all lie in the walk list, its own location left out (R105).  A stale count lower than
the list's number is no match either (log 44). -/
def releasable (walk : List WalkRec) (victim : Nat) (e : DirEntry) : Bool :=
  e.state = .tombstone && e.stale = countableElsewhere e victim walk

/-- The key's entry locates the place: a release reported as kept (R49, R105). -/
def State.locates (s : State) (key row granule : Nat) : Bool :=
  match dirFind s.dir key with
  | none => false
  | some e => e.row = row && e.granule = granule

/-- CHECK: TOMBSTONEs that go with the victim are released one by one, the first other entry is read to be copied, and
with none left the erase is requested; a release reported as kept leaves its entry to be copied (R105).  A TOMBSTONE whose
stale count is lower than the walk list's countable records is copied like one with a higher count (log 44).  The fuel is
the number of entries, each release removing one. -/
def State.checkStep : Nat → State → Nat → State
  | 0, s, victim => { s with recl := { s.recl with phase := some .erase } }.reclaimErase victim
  | fuel + 1, s, victim =>
    match lowestInRow s.dir victim (fun _ => true) with
    | none => { s with recl := { s.recl with phase := some .erase } }.reclaimErase victim
    | some e =>
      if releasable s.recl.walkList victim e then
        let s1 := s.release e.key e.row e.granule s.recl.walkList
        if s1.locates e.key e.row e.granule then s1.readKept e else State.checkStep fuel s1 victim
      else s.readKept e

/-- CHECK on the directory as it stands (R105). -/
def State.check (s : State) (victim : Nat) : State := State.checkStep (s.dir.length + 1) s victim

/-- The walk ends: CHECK begins, the relocates are sent, and the victim is looked at (R105). -/
def State.walkEnd (s : State) (victim : Nat) : State :=
  { s with recl := { s.recl with phase := some .check } }.sendRelocates.check victim

/-- The walk goes on at a granule, or ends past granule 255 (R104). -/
def State.walkOn (s : State) (victim granule : Nat) : State :=
  if granule ≤ 255 then s.walkAt victim granule else s.walkEnd victim

/-- A PUT or DELETE record joins the walk list (R104). -/
def State.walkList (s : State) (h : RecordHeader) (granule : Nat) : State :=
  { s with recl := { s.recl with walkList := s.recl.walkList ++ [⟨h.key, h.setId, granule⟩] } }

/-- The walk's read of a header position has completed (R104). -/
def State.walkRead (s : State) (victim granule : Nat) (g : GranuleRead) : State :=
  match findHeader g with
  | (some h, _) =>
    match h.kind with
    | .commit => s.walkOn victim (granule + 1)
    | .put | .delete => (s.walkList h granule).walkOn victim (granule + extent h.length)
  | (none, fail) => (s.captureCheck fail .reclaim victim granule).walkEnd victim

/-! ### The purge (R108, R109) -/

/-- The next target row is taken as the victim, or the purge ends: purge pending clears, a commit engine in WAIT_PURGE
plans, and the reclaimer looks (R109). -/
def State.nextTarget (s : State) : State × List Signal :=
  match s.recl.targets with
  | r :: t => ({ s with recl := { s.recl with targets := t } }.beginPass r, [])
  | [] =>
    let s1 := { s with table := { s.table with purgePending := false } }
    let (s2, more) := s1.endReclaim
    (s2, (if s.engine.state = .waitPurge then [.plan .first] else []) ++ more)

/-- The open row is closed when it is tainted (R97, R108 step 1). -/
def State.closeTaintedOpen (s : State) : State :=
  match s.openRow with
  | none => s
  | some r => if (s.row r).tainted then s.closeRow r else s

/-- The purge starts (R108). -/
def State.startPurge (s : State) : State × List Signal :=
  let targets := s.bySequence s.taintedRows
  let s1 := { s with recl := { s.recl with job := .purge, targets := targets } }
  if targets.any (damagedInRow s.dir) then s1.purgeFail
  else
    let s2 := s1.closeTaintedOpen
    match s2.table.newestCommit with
    | none => s2.nextTarget
    | some l =>
      if targets.contains l.row then (s2.reclaimRead l.row l.granule 1 (.commitRead l.row l.granule), [])
      else s2.nextTarget

/-- The read of the newest COMMIT record has completed: a moved copy is asked for, or the purge fails (R108 step 2). -/
def State.purgeCommitRead (s : State) (row granule : Nat) (g : GranuleRead) : State × List Signal :=
  match findHeader g with
  | (some h, _) =>
    if h.kind = .commit then s.reclaimAppend h [] (.commitAppend row granule) else s.purgeFail
  | (none, fail) => (s.captureCheck fail .reclaim row granule).purgeFail

/-! ### Starting a job (R99, R100, R111, R113) -/

/-- A DIRTY_ERASE job takes the DIRTY row of lowest index (R111). -/
def State.startDirtyErase (s : State) (r : Nat) : State :=
  { s with recl := { s.recl with job := .dirtyErase, victim := some r } }.reclaimErase r

/-- A REFRESH job removes the head of the queue and reads its record where the entry still locates it (R113). -/
def State.startRefresh (s : State) (head : RefreshEntry) (rest : List RefreshEntry) : State × List Signal :=
  let s1 := { s with recl := { s.recl with job := .refresh, refresh := rest } }
  match dirFind s.dir head.key with
  | some e => if e.row = head.row ∧ e.granule = head.granule then (s1.readKept e, []) else s1.endReclaim
  | none => s1.endReclaim

/-- A victim pass starts on the best eligible victim (R101, R102). -/
def State.startPass (s : State) (job : Job) : State × List Signal :=
  match s.bestVictim with
  | none => (s, [])
  | some r => ({ s with recl := { s.recl with job := job } }.beginPass r, [])

/-- PURGE is due (R99). -/
def State.purgeDue (s : State) : Bool :=
  (s.win.mode = .ready || s.win.mode = .readOnly) && s.table.purgePending && !s.win.mountFlags.purgeFailed

/-- DIRTY_ERASE is due: any row is DIRTY (R98, R99). -/
def State.dirtyDue (s : State) : Option Nat :=
  if s.win.mode = .ready || s.win.mode = .readOnly || s.win.mode = .unformatted then (s.rowsIn .dirty).head? else none

/-- URGENT_VICTIM is due (R99). -/
def State.urgentDue (s : State) : Bool :=
  s.win.mode = .ready && s.engine.state = .waitSpace && !s.eligibleVictims.isEmpty && !s.recl.blocked

/-- REFRESH is due (R98, R99). -/
def State.refreshDue (s : State) : Bool :=
  (s.win.mode = .ready || s.win.mode = .readOnly) && !s.recl.refresh.isEmpty

/-- BACKGROUND_VICTIM is due (R99). -/
def State.backgroundDue (s : State) : Bool :=
  s.win.mode = .ready && !s.recl.blocked &&
    ((decide (s.erasedRows ≤ 2) && s.eligibleVictims.any (fun r => decide (128 ≤ (s.row r).dead))) ||
      (s.recl.request && !s.eligibleVictims.isEmpty))

/-- In READY a request with no eligible victim clears (R99).  Every look of an IDLE reclaimer counts as such an event, also
when the event it ends has made no job due (log 41). -/
def State.dropIdleRequest (s : State) : State :=
  if s.win.mode = .ready && s.recl.request && s.eligibleVictims.isEmpty then
    { s with recl := { s.recl with request := false } }
  else s

/-- The first due job in the order of R99 starts; with none due a commit engine in WAIT_SPACE gets the IDLE report. -/
def State.startDueJob (s : State) : State × List Signal :=
  if s.purgeDue then s.startPurge
  else
    match s.dirtyDue with
    | some r => (s.startDirtyErase r, [])
    | none =>
      if s.urgentDue then s.startPass .urgentVictim
      else
        match s.refreshDue, s.recl.refresh with
        | true, head :: rest => s.startRefresh head rest
        | _, _ =>
          if s.backgroundDue then { s with recl := { s.recl with request := false } }.startPass .backgroundVictim
          else (s, if s.engine.state = .waitSpace then [.plan .reclaimerIdle] else [])

/-- The reclaimer looks for a due job when it is IDLE (R98, R99). -/
def State.reclaimLook (s : State) : State × List Signal :=
  if s.recl.job = .idle ∧ s.win.mode ≠ .mounting ∧ s.win.mode ≠ .formatting then s.dropIdleRequest.startDueJob
  else (s, [])

/-! ### Completions and replies -/

/-- The read of a record to be kept or refreshed has completed (R102, R103, R105, R109, R113). -/
def State.keptRead (s : State) (key row granule : Nat) (reads : List GranuleRead) : State × List Signal :=
  match findRecord reads with
  | .intact h payload => s.reclaimAppend h payload (.recordAppend key h.kind row granule h.length)
  | .unreadable _ fail | .notIntact fail =>
    let s1 := (s.captureCheck fail .reclaim row granule).markDamaged key row granule
    if s.recl.job = .refresh then s1.endReclaim else s1.passFails false

/-- A read of the reclaimer has completed (R28). -/
def State.reclaimReadDone (s : State) (reads : List GranuleRead) : State × List Signal :=
  match s.recl.wait with
  | .recordRead key row granule => s.keptRead key row granule reads
  | .commitRead row granule =>
    match reads with
    | g :: _ => s.purgeCommitRead row granule g
    | [] => s.purgeFail
  | .walkRead granule =>
    match s.recl.victim, reads with
    | some victim, g :: _ => (s.walkRead victim granule g, [])
    | _, _ => (s, [])
  | .recordAppend _ _ _ _ _ | .commitAppend _ _ | .erase | .nothing => (s, [])

/-- A copy is placed: kept in the list in COPY, relocated at once in CHECK and REFRESH (R102, R105, R113). -/
def State.copyPlaced (s : State) (c : Copy) : State × List Signal :=
  if s.recl.job = .refresh then (s.relocate c).endReclaim
  else
    match s.recl.phase, s.recl.victim with
    | some .copy, some victim =>
      ({ s with recl := { s.recl with
          copyList := s.recl.copyList ++ [c], cursor := c.fromGranule + s.originalExtent c } }.copyStep victim, [])
    | some .check, some victim => ((s.relocate c).check victim, [])
    | _, _ => (s, [])

/-- A copy was not placed: its failed attempts count for its key, and the pass, purge or refresh ends (R47, R103, R109,
R113). -/
def State.copyLost (s : State) (key failed : Nat) : State × List Signal :=
  let s1 := s.countFailedCopy key failed
  if s.recl.job = .refresh then s1.endReclaim else s1.passFails true

/-- The writer's reply to an append of the reclaimer (R102, R103, R105, R108, R113). -/
def State.reclaimReply (s : State) (r : Reply) : State × List Signal :=
  match s.recl.wait, r with
  | .recordAppend key kind row granule length, .placed toRow toGranule failed =>
    s.copyPlaced ⟨key, kind, row, granule, toRow, toGranule, length, failed⟩
  | .recordAppend key _ _ _ _, .failed => s.copyLost key attemptLimit
  | .recordAppend key _ _ _ _, .noRow failed => s.copyLost key failed
  | .commitAppend _ _, .placed toRow toGranule _ => (s.moveNewestCommit ⟨toRow, toGranule⟩).nextTarget
  | .commitAppend _ _, .failed => s.purgeFail
  | .commitAppend _ _, .noRow _ => s.purgeFail
  | .recordRead _ _ _, _ | .commitRead _ _, _ | .walkRead _, _ | .erase, _ | .nothing, _ => (s, [])

/-- Passes are no longer blocked after a passed erase (R103, R106, R111). -/
def State.unblockIf (s : State) (passed : Bool) : State :=
  if passed then { s with recl := { s.recl with blocked := false } } else s

/-- A commit engine in WAIT_SPACE re-plans on a row becoming ERASED (R74), before the reclaimer looks (log 19). -/
def replanIf (passed : Bool) : List Signal := if passed then [.plan .rowErased] else []

/-- An erase of the reclaimer has ended; its row's erase count has been raised (R106, R109, R111). -/
def State.reclaimEraseDone (s : State) (row : Nat) (passed : Bool) : State × List Signal :=
  let s1 := (s.rowAfterErase row passed).unblockIf passed
  match s.recl.job with
  | .dirtyErase =>
    let (s2, more) := s1.endReclaim
    (s2, replanIf passed ++ more)
  | .purge =>
    let (s2, more) := (s1.settle s.recl.walkList).nextTarget
    (s2, replanIf passed ++ more)
  | .urgentVictim | .backgroundVictim | .refresh | .idle =>
    let (s2, more) := (s1.settle s.recl.walkList).endReclaim
    (s2, replanIf passed ++ more)

/-! ### FORMAT taken (R114) -/

/-- The erase of a row has been requested, waits or is under way for the reclaimer. -/
def State.eraseRequested (s : State) (r : Nat) : Bool :=
  (match s.ctl.eraseWaiting with | some e => e.row = r && e.requester = .reclaimer | none => false) ||
    (match s.ctl.erase with | some e => e.request.row = r && e.request.requester = .reclaimer | none => false)

/-- A VICTIM row becomes DIRTY when its erase has been requested and FULL when not (R114). -/
def State.victimAtFormat (s : State) : State :=
  match s.recl.victim with
  | none => s
  | some r =>
    if (s.row r).state = some .victim then
      (if s.eraseRequested r then s.rowLeaves r .dirty else s.setRowState r .full)
    else s

/-- The reclaimer abandons its job as FORMAT is taken: its requests are served unused, its appends withdrawn, its state
cleared (R114, log 16). -/
def State.reclaimAtFormat (s : State) : State :=
  let s1 := s.victimAtFormat.abandonRequests .reclaimer
  { s1 with recl := .atReset, writer := .atReset }

end Sys2Proof.Machine
end

