-- ==== Sys2Proof/Machine/MountControl.lean ====
section
/-! DEFINITION. The mount engine: header scan, SELECT, blank check, PARSE, tail checks, RESOLVE, the build and completion
(R115 to R128). -/

namespace Sys2Proof.Machine

/-! ### Its reads and its tables -/

/-- The mount engine issues a read (R115). -/
def State.mountRead (s : State) (row first count : Nat) (wait : MountWait) : State :=
  { s with mnt := { s.mnt with wait := wait } }.issue ⟨.mount, .mount, row, first, .read count, true⟩

/-- A line of the row scan table. -/
def MountEngine.scanRow (m : MountEngine) (r : Nat) : RowScan := (m.scan[r]?).getD .empty

/-- Replaces a line of the row scan table. -/
def MountEngine.setScan (m : MountEngine) (r : Nat) (x : RowScan) : MountEngine :=
  { m with scan := m.scan.setIfInBounds r x }

/-- The header of a row found VALID. -/
def RowScan.header (x : RowScan) : Option RowHeader :=
  match x.cls with
  | some (.valid h) => some h
  | some .blank => none
  | some .invalid => none
  | none => none

/-- The row is of the selected journal (R117). -/
def MountEngine.inJournal (m : MountEngine) (r : Nat) : Bool := (m.scanRow r).disposition = some .journal

/-- The sequence of a row's valid header. -/
def MountEngine.sequenceOf (m : MountEngine) (r : Nat) : Nat :=
  match (m.scanRow r).header with
  | some h => h.sequence
  | none => 0

/-- Some VALID header exists (R117). -/
def MountEngine.anyValid (m : MountEngine) : Bool :=
  (List.range 64).any (fun r => (m.scanRow r).header.isSome)

/-- The journal's rows in ascending sequence, then ascending row index (R117, R119). -/
def MountEngine.journalRows (m : MountEngine) : List Nat :=
  sortBy (fun a b => decide (m.sequenceOf a < m.sequenceOf b)) ((List.range 64).filter m.inJournal)

/-- The newest row of the journal (R117). -/
def MountEngine.newestRow (m : MountEngine) : Option Nat :=
  (sortBy (fun a b => decide (m.sequenceOf a < m.sequenceOf b))
    ((List.range 64).filter (fun r =>
      match (m.scanRow r).header with
      | some h => h.journalId = m.highestJournalId
      | none => false))).getLast?

/-! ### SELECT and the blank check's outcomes (R117, R118) -/

/-- A row that becomes DIRTY or ERASED with the guessed count (R117, R118). -/
def MountEngine.guessRow (m : MountEngine) (r : Nat) (d : Disposition) : MountEngine :=
  let m1 := m.setScan r { m.scanRow r with disposition := some d, eraseCount := m.highestEraseCount, guessed := true }
  { m1 with gathered := { m1.gathered with
      eraseCountGuessed := true, dirtyFound := m1.gathered.dirtyFound || d = .dirty } }

/-- SELECT's decision for one row; BLANK rows are left to BLANK_CHECK (R117). -/
def MountEngine.selectRow (m : MountEngine) (r : Nat) : MountEngine :=
  match (m.scanRow r).cls with
  | some (.valid h) =>
    if h.journalId = m.highestJournalId then
      m.setScan r { m.scanRow r with disposition := some .journal, eraseCount := h.eraseCount, guessed := false }
    else
      let m1 := m.setScan r { m.scanRow r with disposition := some .stale, eraseCount := h.eraseCount, guessed := false }
      { m1 with gathered := { m1.gathered with staleRows := true } }
  | some .invalid => m.guessRow r .dirty
  | some .blank => m
  | none => m

/-- SELECT over the 64 rows (R117). -/
def MountEngine.select (m : MountEngine) : MountEngine := (List.range 64).foldl MountEngine.selectRow m

/-- The rows whose header read BLANK, in ascending row index (R118). -/
def MountEngine.blankRows (m : MountEngine) : List Nat :=
  (List.range 64).filter (fun r => (m.scanRow r).cls = some .blank)

/-! ### RESOLVE (R122 to R126) -/

/-- C: the highest set id of an intact COMMIT record or of a moved copy, 0 when there is none (R17, R122). -/
def boundaryC (records : List Noted) : Nat :=
  records.foldl (fun c n => if n.header.kind = .commit ∨ n.header.moved then max c n.header.setId else c) 0

/-- A PUT or DELETE record of a key. -/
def Noted.isChange (n : Noted) : Bool := n.header.kind = .put || n.header.kind = .delete

/-- The torn records (R122). -/
def tornRecords (records : List Noted) : List Noted :=
  records.filter (fun n => n.isChange && decide (boundaryC records < n.header.setId))

/-- The committed PUT and DELETE records, in journal order (R122). -/
def committedRecords (records : List Noted) : List Noted :=
  records.filter (fun n => n.isChange && decide (n.header.setId ≤ boundaryC records))

/-- The record with the highest set id, the latest in journal order among equals (R122, R123). -/
def latestOf (records : List Noted) : Option Noted :=
  records.foldl (fun best n =>
    match best with
    | none => some n
    | some b => if b.header.setId ≤ n.header.setId then some n else some b) none

/-- The newest-commit location: the intact COMMIT record of highest set id, the later of two (R122). -/
def newestCommitOf (records : List Noted) : Option Loc :=
  (latestOf (records.filter (fun n => n.header.kind = .commit))).map (fun n => ⟨n.row, n.granule⟩)

/-- Inserts a key into an ascending list without repeats. -/
def insertKey (k : Nat) : List Nat → List Nat
  | [] => [k]
  | x :: t => if k < x then k :: x :: t else if x = k then x :: t else x :: insertKey k t

/-- The keys of some records in ascending order, each once (R124). -/
def keysOf (records : List Noted) : List Nat := records.foldl (fun l n => insertKey n.header.key l) []

/-- The state a winner gives its key's entry (R123). -/
def winnerState (n : Noted) : EntryState :=
  if !n.intact then .damaged
  else
    match n.header.kind with
    | .put => .live
    | .delete => .tombstone
    | .commit => .tombstone

/-- The entry of a key from its committed records (R123). -/
def resolveKey (committed : List Noted) (key : Nat) : Option DirEntry :=
  let own := committed.filter (fun n => n.header.key = key)
  (latestOf own).map (fun w =>
    { key := key, state := winnerState w, version := w.header.version, setId := w.header.setId, row := w.row,
      granule := w.granule, length := w.header.length, stale := min staleLimit (own.length - 1), baseSetId := 1 })

/-- The entries of all keys, TOMBSTONEs with stale count 0 dropped, in ascending key order (R123, R124). -/
def resolvedEntries (records : List Noted) : List DirEntry :=
  let committed := committedRecords records
  ((keysOf committed).filterMap (resolveKey committed)).filter (fun e => !e.freeable)

/-- Two intact records of one key with an equal set id (R12, R123). -/
def hasDupMove : List Noted → Bool
  | [] => false
  | n :: t =>
    (n.intact && t.any (fun o => o.intact && o.header.key = n.header.key && o.header.setId = n.header.setId)) ||
      hasDupMove t

/-- The granules of a row that the directory locates, cut at the row's end, and the newest COMMIT's (R126, log 31). -/
def liveIn (dir : List DirEntry) (newest : Option Loc) (row : Nat) : Nat :=
  ((dir.filter (fun e => e.row = row)).map (fun e => min (extent e.length) (256 - e.granule))).sum +
    (match newest with
      | some l => if l.row = row then 1 else 0
      | none => 0)

/-- How the parse of a row ended. -/
def MountEngine.parseOf (m : MountEngine) (r : Nat) : Option RowParse := m.parses.find? (fun p => p.row = r)

/-- The granule at which the newest row is reopened, if it is (R125). -/
def MountEngine.reopenAt (m : MountEngine) (r : Nat) : Option Nat :=
  match m.parseOf r with
  | some ⟨_, .blank g, true⟩ => some g
  | _ => none

/-- The newest row ended EARLY or failed its tail check (R125). -/
def MountEngine.tornNewest (m : MountEngine) (r : Nat) : Bool :=
  match m.parseOf r with
  | some ⟨_, .early _, _⟩ => true
  | some ⟨_, .blank _, false⟩ => true
  | _ => false

/-- The built record of a row (R126). -/
def MountEngine.builtRow (m : MountEngine) (dir : List DirEntry) (newest : Option Loc) (torn : List Noted) (r : Nat) :
    RowRec :=
  let x := m.scanRow r
  match x.disposition with
  | some .journal =>
    let live := liveIn dir newest r
    let tainted := torn.any (fun n => n.row = r)
    match (if m.newestRow = some r then m.reopenAt r else none) with
    | some g => ⟨some .opened, m.sequenceOf r, x.eraseCount, false, g, 255 - live - (256 - g), tainted⟩
    | none => ⟨some .full, m.sequenceOf r, x.eraseCount, false, 0, 255 - live, tainted⟩
  | some .stale => ⟨some .dirty, 0, x.eraseCount, x.guessed, 0, 0, false⟩
  | some .dirty => ⟨some .dirty, 0, x.eraseCount, x.guessed, 0, 0, false⟩
  | some .erased => ⟨some .erased, 0, x.eraseCount, x.guessed, 0, 0, false⟩
  | none => .unbuilt

/-- The highest sequence among the valid headers of the selected journal (R122). -/
def MountEngine.highestSequence (m : MountEngine) : Nat :=
  (List.range 64).foldl (fun h r =>
    match (m.scanRow r).header with
    | some x => if x.journalId = m.highestJournalId then max h x.sequence else h
    | none => h) 0

/-- The next set id after the mount (R122). -/
def MountEngine.nextSetId (m : MountEngine) : NextSetId :=
  if m.highestSetId = 0 then .id 1 else NextSetId.after m.highestSetId

/-- The directory of the mount: the first 512 resolved entries (R124). -/
def MountEngine.builtDir (m : MountEngine) : List DirEntry := (resolvedEntries m.records).take dirCapacity

/-- The row table of the mount (R126). -/
def MountEngine.builtTable (m : MountEngine) : RowTable :=
  let torn := tornRecords m.records
  let newest := newestCommitOf m.records
  let rows := Vector.ofFn (fun (i : Fin 64) => m.builtRow m.builtDir newest torn i.val)
  { rows := rows
    journalId := m.highestJournalId
    highestSequence := if m.anyValid then m.highestSequence else 0
    newestCommit := newest
    purgePending := rows.toList.any (fun x => x.tainted) }

/-- The mount flags at completion (R122 to R125, R128).  DUP_MOVES looks at every PUT and DELETE record noted, torn ones
included; COMMIT records have no key (log 23). -/
def MountEngine.finalFlags (m : MountEngine) : MountFlags :=
  { m.gathered with
    tornSet := m.gathered.tornSet || !(tornRecords m.records).isEmpty
    dupMoves := m.gathered.dupMoves || hasDupMove (m.records.filter Noted.isChange)
    loss := m.gathered.loss || decide (dirCapacity < (resolvedEntries m.records).length)
    tornGranule := m.gathered.tornGranule ||
      (match m.newestRow with
        | some r => m.tornNewest r
        | none => false) }

/-- The mode a mount ends in (R127). -/
def MountEngine.outcomeMode (m : MountEngine) : Mode :=
  if !m.anyValid then .unformatted else if m.finalFlags.loss then .readOnly else .ready

/-- SPACE_LOW after a build or a FORMAT that leaves fewer than 255 free granules (R93, R171). -/
def State.spaceLowIfBelow (s : State) : State :=
  if s.freeGranules < 255 then s.setEvent evSpaceLow else s

/-- RESOLVE and the completion of the mount, in the order of R127.  The engine keeps its row scan table, record list, row parse
results, gathered flags and highest figures until the next reset (R115, log 45). -/
def State.resolve (s : State) : State × List Signal :=
  let s1 := { s with
    dir := s.mnt.builtDir
    table := s.mnt.builtTable
    engine := { s.engine with nextSetId := s.mnt.nextSetId }
    win := { s.win with mountFlags := s.mnt.finalFlags, mode := s.mnt.outcomeMode }
    mnt := { s.mnt with phase := .idle, wait := .nothing, todo := [] }
    ctl := { s.ctl with holder := .nobody } }
  ((s1.setEvent evMountDone).spaceLowIfBelow, [.look])

/-! ### Moving from read to read -/

/-- PARSE takes the next journal row, or RESOLVE is made (R119). -/
def State.nextParseRow (s : State) : State × List Signal :=
  match s.mnt.todo with
  | [] => s.resolve
  | r :: t => ({ s with mnt := { s.mnt with todo := t } }.mountRead r 1 1 (.position r 1), [])

/-- PARSE is entered, or RESOLVE made directly when no journal was selected (R117, R118). -/
def State.enterParse (s : State) : State × List Signal :=
  if s.mnt.anyValid then
    { s with mnt := { s.mnt with phase := .parse, todo := s.mnt.journalRows } }.nextParseRow
  else s.resolve

/-- BLANK_CHECK takes its next row, or PARSE follows (R118). -/
def State.nextBlankRow (s : State) : State × List Signal :=
  match s.mnt.todo with
  | [] => s.enterParse
  | r :: t => ({ s with mnt := { s.mnt with todo := t } }.mountRead r 0 16 (.blankChunk r 0), [])

/-- SELECT is made and BLANK_CHECK entered (R117). -/
def State.mountSelect (s : State) : State × List Signal :=
  let m := s.mnt.select
  { s with mnt := { m with phase := .blankCheck, todo := m.blankRows } }.nextBlankRow

/-- What a header read adds to the row scan table and the two highest figures (R116). -/
def MountEngine.noteHeader (m : MountEngine) (r : Nat) (c : HeaderClass) : MountEngine :=
  let m1 := m.setScan r { m.scanRow r with cls := some c }
  match c with
  | .valid h => { m1 with
      highestJournalId := max m1.highestJournalId h.journalId
      highestEraseCount := max m1.highestEraseCount h.eraseCount }
  | .blank => m1
  | .invalid => m1

/-- R32 calls for a CHECK_FAIL on a row header: read CLEAN or CORRECTED and invalid (R116). -/
def rowHeaderCheckFails (g : GranuleRead) : Bool :=
  (g.outcome = .clean || g.outcome = .corrected) && classifyRowHeader g = .invalid

/-- A header read of HEADER_SCAN has completed (R116). -/
def State.mountHeader (s : State) (r : Nat) (g : GranuleRead) : State × List Signal :=
  let s1 := s.captureCheck (rowHeaderCheckFails g) .mount r 0
  let s2 := { s1 with mnt := s1.mnt.noteHeader r (classifyRowHeader g) }
  if r + 1 < 64 then (s2.mountRead (r + 1) 0 1 (.header (r + 1)), []) else s2.mountSelect

/-- Every granule of a read is BLANK. -/
def allBlank (reads : List GranuleRead) : Bool := reads.all (fun g => g.outcome = .blank)

/-- A read of BLANK_CHECK has completed (R118). -/
def State.mountBlankChunk (s : State) (r chunk : Nat) (reads : List GranuleRead) : State × List Signal :=
  if !allBlank reads then { s with mnt := s.mnt.guessRow r .dirty }.nextBlankRow
  else if chunk + 1 < 16 then (s.mountRead r (16 * (chunk + 1)) 16 (.blankChunk r (chunk + 1)), [])
  else { s with mnt := s.mnt.guessRow r .erased }.nextBlankRow

/-- The parse of a row ends (R119, R121).  A row other than the newest whose tail check failed is DIRTY, its records
forgotten, its erase count the header's. -/
def MountEngine.endRow (m : MountEngine) (r : Nat) (ending : ParseEnd) (tailPassed : Bool) : MountEngine :=
  let m1 := { m with parses := m.parses ++ [⟨r, ending, tailPassed⟩] }
  if tailPassed || m.newestRow = some r then m1
  else
    let m2 := m1.setScan r { m1.scanRow r with disposition := some .dirty }
    { m2 with
      records := m2.records.filter (fun n => n.row ≠ r)
      gathered := { m2.gathered with dirtyFound := true } }

/-- The parse of a row ended and the next row is taken (R119). -/
def State.parseEnds (s : State) (r : Nat) (ending : ParseEnd) (tailPassed : Bool) : State × List Signal :=
  { s with mnt := s.mnt.endRow r ending tailPassed }.nextParseRow

/-- A tail check reads on from a granule, or has passed (R121). -/
def State.tailFrom (s : State) (r g first : Nat) : State × List Signal :=
  if first ≤ 255 then (s.mountRead r first (min 16 (256 - first)) (.tail r g first), [])
  else s.parseEnds r (.blank g) true

/-- PARSE steps to a header position, or the row ends END past granule 255 (R119). -/
def State.parseAt (s : State) (r g : Nat) : State × List Signal :=
  if g ≤ 255 then (s.mountRead r g 1 (.position r g), []) else s.parseEnds r .atEnd true

/-- A record is noted (R120). -/
def MountEngine.note (m : MountEngine) (r g : Nat) (h : RecordHeader) (intact : Bool) : MountEngine :=
  { m with records := m.records ++ [⟨r, g, h, intact⟩] }

/-- The highest set id of an intact header rises (R120). -/
def MountEngine.noteSetId (m : MountEngine) (h : RecordHeader) : MountEngine :=
  { m with highestSetId := max m.highestSetId h.setId }

/-- An intact header at a position: a PUT's payload is read, any other record noted (R119). -/
def State.parseHeader (s : State) (r g : Nat) (h : RecordHeader) : State × List Signal :=
  let s1 := { s with mnt := s.mnt.noteSetId h }
  if h.kind = .put ∧ 0 < h.length then
    (s1.mountRead r (g + 1) (payloadCount h.length) (.payload r g h), [])
  else { s1 with mnt := s1.mnt.note r g h true }.parseAt r (g + 1)

/-- A read of a header position has completed (R119). -/
def State.mountPosition (s : State) (r g : Nat) (read : GranuleRead) : State × List Signal :=
  match read.outcome with
  | .blank => s.tailFrom r g (g + 1)
  | .uncorrectable => s.parseEnds r (.early g) true
  | .clean | .corrected =>
    match findHeader read with
    | (some h, _) => s.parseHeader r g h
    | (none, fail) => (s.captureCheck fail .mount r g).parseEnds r (.early g) true

/-- The read of a PUT's payload has completed (R119, R120). -/
def State.mountPayload (s : State) (r g : Nat) (h : RecordHeader) (reads : List GranuleRead) : State × List Signal :=
  match findPayload h reads with
  | .intact _ _ => { s with mnt := s.mnt.note r g h true }.parseAt r (g + extent h.length)
  | .unreadable _ fail | .notIntact fail =>
    let s1 := s.captureCheck fail .mount r g
    { s1 with mnt := s1.mnt.note r g h false }.parseAt r (g + extent h.length)

/-- A read of a tail check has completed (R121). -/
def State.mountTail (s : State) (r g first : Nat) (reads : List GranuleRead) : State × List Signal :=
  if allBlank reads then s.tailFrom r g (first + 16) else s.parseEnds r (.blank g) false

/-- The first granule of a read. -/
def firstRead (reads : List GranuleRead) : GranuleRead := reads.headD ⟨.blank, .erased⟩

/-- A read of the mount engine has completed (R115). -/
def State.mountReadDone (s : State) (reads : List GranuleRead) : State × List Signal :=
  match s.mnt.wait with
  | .header r => s.mountHeader r (firstRead reads)
  | .blankChunk r chunk => s.mountBlankChunk r chunk reads
  | .position r g => s.mountPosition r g (firstRead reads)
  | .payload r g h => s.mountPayload r g h reads
  | .tail r g first => s.mountTail r g first reads
  | .nothing => (s, [])

end Sys2Proof.Machine
end

