-- ==== Sys2Proof/Machine/FormatControl.lean ====
section
/-! DEFINITION. The FORMAT job: its taking, the first row, the erase of the rest, and its end (R130 to R134). -/

namespace Sys2Proof.Machine

/-- The job's working state replaced. -/
def State.setFormat (s : State) (j : FormatJob) : State := { s with fmt := some j }

/-- A program or read request of the job (R33, R132, R133). -/
def formatRequest (row first : Nat) (op : ArrayOp) : Request := ⟨.format, .format, row, first, op, true⟩

/-! ### Taking FORMAT (R131) -/

/-- The OPEN row becomes FULL, its dead count as it was (R131, log 17). -/
def State.openBecomesFull (s : State) : State :=
  match s.openRow with
  | none => s
  | some r => s.setRow r { s.row r with state := some .full, nextFree := 0 }

/-- Every taint clears (R131). -/
def State.clearTaints (s : State) : State :=
  { s with table := { s.table with rows := s.table.rows.map (fun x => { x with tainted := false }) } }

/-- The row table as FORMAT is taken: no open row, no taint, no purge, no newest COMMIT, journal id and highest sequence 0
(R131). -/
def State.tableAtFormat (s : State) : State :=
  let s1 := s.openBecomesFull.clearTaints
  { s1 with table := { s1.table with
      purgePending := false, newestCommit := none, journalId := 0, highestSequence := 0 } }

/-- FORMAT is taken: everything R131 lists, but RESULT and CMD_DONE. -/
def State.takeFormat (s : State) : State :=
  let jid := s.mnt.highestJournalId + 1
  let s1 := s.reclaimAtFormat.tableAtFormat
  { s1 with
    dir := []
    staging := { s1.staging with entries := [], poolFill := 0, lock := false }
    engine := { s1.engine with nextSetId := .id 1 }
    win := { s1.win with mode := .formatting, mountFlags := .none }
    mnt := { s1.mnt with highestJournalId := jid }
    fmt := some ⟨.waitArray, jid, [], none, .nothing⟩ }

/-! ### Its end (R134) -/

/-- The number of rows ERASED or OPEN (R134). -/
def State.usableRows (s : State) : Nat := (s.rowsIn .erased).length + (s.rowsIn .opened).length

/-- The part of the end that differs with the outcome (R134). -/
def State.formatOutcome (s : State) (j : FormatJob) : State :=
  match j.firstRow with
  | some r =>
    if 4 ≤ s.usableRows then { s with win := { s.win with jobResult := .ok, mode := .ready } }
    else
      let s1 := s.rowLeaves r .dirty
      { s1 with
        table := { s1.table with journalId := 0, highestSequence := 0 }
        win := { s1.win with jobResult := .arrayFault, mode := .unformatted } }
  | none =>
    { s with
      table := { s.table with journalId := 0, highestSequence := 0 }
      win := { s.win with jobResult := .arrayFault, mode := .unformatted } }

/-- The FORMAT job ends (R134). -/
def State.formatEnd (s : State) (j : FormatJob) : State × List Signal :=
  let s1 := s.formatOutcome j
  let s2 := { s1 with fmt := none, ctl := { s1.ctl with holder := .nobody } }
  (((s2.setEvent evJobDone).setEvent evModeChange).spaceLowIfBelow, [.look])

/-! ### ERASE_REST (R133) -/

/-- The row is taken in ERASE_REST: erased, or read in full when it is BAD (R133). -/
def State.restRow (s : State) (j : FormatJob) (r : Nat) : State :=
  if (s.row r).state = some .bad then
    (s.setFormat { j with wait := .badRead r 0 }).issue (formatRequest r 0 (.read 16))
  else (s.setFormat { j with wait := .restErase r }).issueErase r .format .format

/-- The rows ERASE_REST takes from a row index on (R133). -/
def restFrom (j : FormatJob) (r : Nat) : List Nat :=
  (List.range 64).filter (fun x => decide (r ≤ x) && decide (j.firstRow ≠ some x))

/-- ERASE_REST goes on at a row index, or the job ends (R133, R134). -/
def State.eraseRestFrom (s : State) (j : FormatJob) (r : Nat) : State × List Signal :=
  match restFrom j r with
  | x :: _ => (s.restRow j x, [])
  | [] => s.formatEnd j

/-- The job enters ERASE_REST (R132). -/
def State.enterEraseRest (s : State) (j : FormatJob) : State × List Signal :=
  s.eraseRestFrom { j with phase := .eraseRest } 0

/-! ### FIRST_ROW (R132) -/

/-- The untried row of lowest erase count among some rows (R132). -/
def State.pickUntried (s : State) (j : FormatJob) (rows : List Nat) : Option Nat :=
  bestOf s.lessWorn (rows.filter (fun r => !j.tried.contains r))

/-- The candidate's header is programmed: the new journal id, sequence 1, the row's erase count (R132). -/
def State.formatHeader (s : State) (j : FormatJob) (r : Nat) : State :=
  (s.setFormat { j with wait := .header r }).issue
    (formatRequest r 0 (.program [encodeRowHeader ⟨j.journalId, 1, (s.row r).eraseCount⟩]))

/-- The untried DIRTY and FULL rows, in ascending row index (R132). -/
def State.dirtyOrFull (s : State) : List Nat :=
  (List.range 64).filter (fun r => (s.row r).state = some .dirty || (s.row r).state = some .full)

/-- The next candidate is taken, or ERASE_REST entered with no first row (R132). -/
def State.nextCandidate (s : State) (j : FormatJob) : State × List Signal :=
  match s.pickUntried j (s.rowsIn .erased) with
  | some r => (s.formatHeader { j with tried := j.tried ++ [r] } r, [])
  | none =>
    match s.pickUntried j s.dirtyOrFull with
    | some r =>
      ((s.setFormat { j with tried := j.tried ++ [r], wait := .candidateErase r }).issueErase r .format .format, [])
    | none => s.enterEraseRest { j with firstRow := none }

/-- Exclusive service begins and the job enters FIRST_ROW (R27, R131). -/
def State.formatBegin (s : State) (j : FormatJob) : State × List Signal :=
  { s with ctl := { s.ctl with holder := .format } }.nextCandidate { j with phase := .firstRow }

/-- The candidate's header verified: the new journal has its first row (R132). -/
def State.firstRowFound (s : State) (j : FormatJob) (r : Nat) : State × List Signal :=
  let s1 := s.setRow r { s.row r with
    state := some .opened, sequence := 1, nextFree := 1, dead := 0, guessed := false, tainted := false }
  let s2 := { s1 with table := { s1.table with journalId := j.journalId, highestSequence := 1 } }
  s2.enterEraseRest { j with firstRow := some r }

/-- The candidate's header failed: its row DIRTY, its journal id given up (R132). -/
def State.firstRowFailed (s : State) (j : FormatJob) (r : Nat) : State × List Signal :=
  let s1 := s.rowLeaves r .dirty
  if fieldLimit ≤ j.journalId then s1.enterEraseRest { j with firstRow := none }
  else
    { s1 with mnt := { s1.mnt with highestJournalId := j.journalId + 1 } }.nextCandidate
      { j with journalId := j.journalId + 1 }

/-! ### Completions -/

/-- The job's header program has completed (R132). -/
def State.formatProgramDone (s : State) (failed : Option Nat) : State × List Signal :=
  match s.fmt with
  | none => (s, [])
  | some j =>
    match j.wait, failed with
    | .header r, none => s.firstRowFound j r
    | .header r, some _ => s.firstRowFailed j r
    | .candidateErase _, _ | .restErase _, _ | .badRead _ _, _ | .nothing, _ => (s, [])

/-- An erase of the job has ended; its row's erase count has been raised (R132, R133). -/
def State.formatEraseDone (s : State) (passed : Bool) : State × List Signal :=
  match s.fmt with
  | none => (s, [])
  | some j =>
    match j.wait with
    | .candidateErase r =>
      let s1 := s.rowAfterErase r passed
      if passed then (s1.formatHeader j r, []) else s1.nextCandidate j
    | .restErase r => (s.rowAfterErase r passed).eraseRestFrom j (r + 1)
    | .header _ | .badRead _ _ | .nothing => (s, [])

/-- A read of a BAD row has completed (R133). -/
def State.formatReadDone (s : State) (reads : List GranuleRead) : State × List Signal :=
  match s.fmt with
  | none => (s, [])
  | some j =>
    match j.wait with
    | .badRead r chunk =>
      if !allBlank reads then s.eraseRestFrom j (r + 1)
      else if chunk + 1 < 16 then
        ((s.setFormat { j with wait := .badRead r (chunk + 1) }).issue
          (formatRequest r (16 * (chunk + 1)) (.read 16)), [])
      else (s.rowLeaves r .erased).eraseRestFrom j (r + 1)
    | .header _ | .candidateErase _ | .restErase _ | .nothing => (s, [])

end Sys2Proof.Machine
end

