-- ==== Sys2Proof/Machine/Events.lean ====
section
/-! DEFINITION. What one event sets in motion: the signals between the blocks, and the arbiter, exclusive service and
SPACE_LOW at its end (R23, R27, R93, R94, R99; spec/95). -/

namespace Sys2Proof.Machine

/-- The reply's requester, which is the append's class (R94). -/
def State.deliverReply (s : State) (a : Append) (r : Reply) : State × List Signal :=
  match a.cls with
  | .commit => s.commitReply a r
  | .reclaimer => s.reclaimReply r

/-- One block's reaction to a signal.  After a reply is delivered the writer grants the next append (R94). -/
def State.handle (s : State) : Signal → State × List Signal
  | .plan cause => s.commitPlan cause
  | .ask => s.commitAsk
  | .grant => s.grantAppend
  | .reply a r =>
    let (s1, more) := s.deliverReply a r
    (s1, more ++ [.grant])
  | .look => s.reclaimLook

/-- Signals are handled in order, those a reaction sends before those already waiting (log 19). -/
def drain : Nat → List Signal → State → State
  | _, [], s => s
  | 0, _ :: _, s => s
  | fuel + 1, x :: rest, s =>
    let (s1, more) := s.handle x
    drain fuel (more ++ rest) s1

/-- Enough reactions for any event: each REFRESH job that ends at once uses one entry of the queue, and no other chain is
long (log 30). -/
def State.fuel (s : State) : Nat := 64 + 2 * s.recl.refresh.length

/-- The signals of an event, and the reclaimer's look at the state they leave (R99). -/
def State.settleEvent (p : State × List Signal) : State :=
  drain p.1.fuel (p.2 ++ [.look]) p.1

/-- The FORMAT job begins when it waits for the array and the array is IDLE with nothing waiting (R27, R131). -/
def State.beginExclusive (s : State) : State :=
  match s.fmt with
  | some j =>
    if j.phase = .waitArray ∧ s.ctl.quiet = true then (s.formatBegin j).1.arbitrate else s
  | none => s

/-- SPACE_LOW for an event that lowers the free granules from 255 or more to below 255 (R93). -/
def State.spaceLowAfter (s : State) (before : Nat) : State :=
  if 255 ≤ before ∧ s.freeGranules < 255 then s.setEvent evSpaceLow else s

/-- The end of an event: the arbiter acts, exclusive service may begin, SPACE_LOW is set where it applies (log 20). -/
def State.finish (s : State) (before : Nat) : State :=
  (s.arbitrate.beginExclusive).spaceLowAfter before

/-- An event that set blocks in motion, from its first reactions to its end. -/
def State.runEvent (s0 : State) (p : State × List Signal) : State :=
  (State.settleEvent p).finish s0.freeGranules

end Sys2Proof.Machine
end

