-- ==== Sys2Proof/Machine/Flags.lean ====
section
/-! DEFINITION. The bits and codes the window shows: STATUS, IRQ#, the mount flags, mode, result, cause and fault codes
(R166, R172, R177). -/

namespace Sys2Proof.Machine

/-- A bit of a byte from its condition. -/
def bitIf (c : Bool) (mask : Byte) : Byte := if c then mask else 0

/-- JOB_BUSY: the commit engine is not IDLE, or a FORMAT job runs (R68, R166). -/
def State.jobBusy (s : State) : Bool := s.engine.state ≠ .idle || s.fmt.isSome

/-- STATUS (R166, R177). -/
def State.status (s : State) : Byte :=
  bitIf (s.win.cu = .executing) 0x01 ||| bitIf s.jobBusy 0x02 ||| bitIf s.aud.running 0x04 |||
    bitIf (s.recl.job ≠ .idle) 0x08 ||| bitIf s.table.purgePending 0x10 ||| bitIf s.win.overrun 0x20 |||
    bitIf s.wprotLow 0x40

/-- IRQ# is driven low: some flag is set together with its enable (R172). -/
def State.irqLow (s : State) : Bool := (s.ev.event &&& s.ev.enable) ≠ 0

/-- MOUNT_FLAGS (R128, R177). -/
def MountFlags.byte (f : MountFlags) : Byte :=
  bitIf f.tornSet 0x01 ||| bitIf f.tornGranule 0x02 ||| bitIf f.dupMoves 0x04 ||| bitIf f.staleRows 0x08 |||
    bitIf f.eraseCountGuessed 0x10 ||| bitIf f.loss 0x20 ||| bitIf f.purgeFailed 0x40 ||| bitIf f.dirtyFound 0x80

/-- MODE codes (R177). -/
def Mode.code : Mode → Byte
  | .mounting => 0
  | .unformatted => 1
  | .ready => 2
  | .readOnly => 3
  | .formatting => 4

/-- RESET_CAUSE codes (R177). -/
def ResetCause.code : ResetCause → Byte
  | .power => 1
  | .pin => 2
  | .command => 3

/-- Result codes (R177). -/
def ResultCode.code : ResultCode → Byte
  | .ok => 0x00
  | .notFound => 0x01
  | .badArg => 0x02
  | .badCommand => 0x03
  | .busy => 0x04
  | .notReady => 0x05
  | .notFormatted => 0x06
  | .readOnly => 0x07
  | .guarded => 0x08
  | .duplicate => 0x09
  | .stagingFull => 0x0A
  | .poolFull => 0x0B
  | .emptySet => 0x0C
  | .noSpace => 0x0D
  | .dirFull => 0x0E
  | .uncorrectable => 0x0F
  | .damaged => 0x10
  | .writeFailed => 0x11
  | .mismatch => 0x12
  | .disturbed => 0x13
  | .aborted => 0x14
  | .frozen => 0x15
  | .pinLocked => 0x16
  | .arrayFault => 0x17
  | .stagingLocked => 0x18

/-- Fault kind codes, bits 7 to 4 of FLT_KIND (R177). -/
def FaultKind.code : FaultKind → Byte
  | .corrected => 1
  | .uncorrectable => 2
  | .programFail => 3
  | .eraseFail => 4
  | .checkFail => 5

/-- Fault origin codes, bits 3 to 0 of FLT_KIND (R177). -/
def Origin.code : Origin → Byte
  | .host => 1
  | .commit => 2
  | .reclaim => 3
  | .mount => 4
  | .audit => 5
  | .format => 6

/-- FLT_KIND of a fault (R36, R177). -/
def ArrayFault.kindByte (f : ArrayFault) : Byte := (f.kind.code <<< 4) ||| f.origin.code

/-- Entry state codes of the STAT image (R177). -/
def EntryState.code : EntryState → Byte
  | .live => 1
  | .tombstone => 2
  | .damaged => 3

/-- Guard mode codes (R155, R157). -/
def GuardMode.code : GuardMode → Byte
  | .off => 0
  | .noWrite => 1
  | .noAccess => 2

/-- The guard mode a code names; none above 2 (R155). -/
def guardModeOf (n : Nat) : Option GuardMode :=
  match n with
  | 0 => some .off
  | 1 => some .noWrite
  | 2 => some .noAccess
  | _ => none

/-- The next set id as INFO shows it: 0 when exhausted or not yet given (R68, R143). -/
def NextSetId.shown : NextSetId → Nat
  | .unset => 0
  | .id n => n
  | .exhausted => 0

/-- The command of a code (R177). -/
def commandOf (code : Byte) : Option Command :=
  if code = 0x01 then some .stagePut
  else if code = 0x02 then some .stageDelete
  else if code = 0x03 then some .discard
  else if code = 0x04 then some .commit
  else if code = 0x10 then some .get
  else if code = 0x11 then some .stat
  else if code = 0x12 then some .nextKey
  else if code = 0x13 then some .info
  else if code = 0x20 then some .audit
  else if code = 0x21 then some .auditAbort
  else if code = 0x30 then some .guardSet
  else if code = 0x31 then some .guardFreeze
  else if code = 0x32 then some .guardRead
  else if code = 0x40 then some .faultPop
  else if code = 0x41 then some .reclaim
  else if code = 0x50 then some .format
  else if code = 0x5F then some .reset
  else none

/-- The code of a command (R177). -/
def Command.code : Command → Byte
  | .stagePut => 0x01
  | .stageDelete => 0x02
  | .discard => 0x03
  | .commit => 0x04
  | .get => 0x10
  | .stat => 0x11
  | .nextKey => 0x12
  | .info => 0x13
  | .audit => 0x20
  | .auditAbort => 0x21
  | .guardSet => 0x30
  | .guardFreeze => 0x31
  | .guardRead => 0x32
  | .faultPop => 0x40
  | .reclaim => 0x41
  | .format => 0x50
  | .reset => 0x5F

/-- The commands MOUNTING takes (R170). -/
def takenMounting : List Command := [.reset]

/-- The commands FORMATTING takes (R170). -/
def takenFormatting : List Command := [.info, .faultPop, .guardRead, .reset]

/-- The commands UNFORMATTED takes (R170). -/
def takenUnformatted : List Command :=
  [.format, .info, .faultPop, .guardSet, .guardFreeze, .guardRead, .reclaim, .reset]

/-- Acceptance by mode: none when the command goes on to its own rule, else the refusal (R170). -/
def refusedIn (m : Mode) (c : Command) : Option ResultCode :=
  match m with
  | .mounting => if takenMounting.contains c then none else some .notReady
  | .formatting => if takenFormatting.contains c then none else some .notReady
  | .unformatted => if takenUnformatted.contains c then none else some .notFormatted
  | .ready => none
  | .readOnly => none

end Sys2Proof.Machine
end

