-- ==== Sys2Proof/Machine/Guards.lean ====
section
/-! DEFINITION. The guard mode of a key and the ranges that meet NO_ACCESS (R153, R154). -/

namespace Sys2Proof.Machine

/-- A key lies in a guard entry (R153). -/
def Guard.covers (g : Guard) (key : KeyWord) : Bool := decide (g.lo ≤ key) && decide (key ≤ g.hi)

/-- The stricter of two guard modes (R154). -/
def stricter : GuardMode → GuardMode → GuardMode
  | .noAccess, _ => .noAccess
  | _, .noAccess => .noAccess
  | .noWrite, _ => .noWrite
  | _, .noWrite => .noWrite
  | .off, .off => .off

/-- The guard mode of a key: the strictest among the entries it lies in (R154). -/
def guardMode (guards : Vector Guard 4) (key : KeyWord) : GuardMode :=
  guards.toList.foldl (fun m g => if g.covers key then stricter m g.mode else m) .off

/-- The key may not be changed (R57, R69). -/
def writeGuarded (guards : Vector Guard 4) (key : KeyWord) : Bool := guardMode guards key != .off

/-- The key may not be read (R136, R141, R142). -/
def readGuarded (guards : Vector Guard 4) (key : KeyWord) : Bool := guardMode guards key == .noAccess

/-- A range of keys meets NO_ACCESS (R154). -/
def rangeMeetsNoAccess (guards : Vector Guard 4) (lo hi : KeyWord) : Bool :=
  guards.toList.any (fun g => g.mode == .noAccess && decide (g.lo ≤ hi) && decide (lo ≤ g.hi))

/-- Some entry is in a mode other than OFF (R130). -/
def anyGuardOn (guards : Vector Guard 4) : Bool := guards.toList.any (fun g => g.mode != .off)

/-- A guard entry. -/
def guardAt (guards : Vector Guard 4) (i : Nat) : Guard := (guards[i]?).getD .atReset

end Sys2Proof.Machine
end

