-- ==== Sys2Proof/Machine/Operands.lean ====
section
/-! DEFINITION. The arguments each command latches (R167), the register bytes of the host (R162), and the images the
commands leave in the transfer buffer (R141, R143, R157, R177). -/

namespace Sys2Proof.Machine

/-- How many bytes of the transfer buffer STAGE_PUT latches (R58). -/
def latchedLength (len : Byte) : Nat := min len.toNat 240

/-- The arguments a command latches when it is taken; the others keep what was latched before (R167). -/
def Window.latchFor (w : Window) (c : Command) : Latch :=
  match c with
  | .stagePut => { w.latch with key := w.key, len := w.len, payload := readFrom w.buffer 0 (latchedLength w.len) }
  | .stageDelete => { w.latch with key := w.key }
  | .get => { w.latch with key := w.key }
  | .stat => { w.latch with key := w.key }
  | .nextKey => { w.latch with key := w.key }
  | .guardSet => { w.latch with arg := w.arg, key := w.key, key2 := w.key2 }
  | .guardFreeze => { w.latch with arg := w.arg }
  | .guardRead => { w.latch with arg := w.arg }
  | .audit => { w.latch with key := w.key, key2 := w.key2, sig := w.sig }
  | .discard => w.latch
  | .commit => w.latch
  | .info => w.latch
  | .auditAbort => w.latch
  | .faultPop => w.latch
  | .reclaim => w.latch
  | .format => w.latch
  | .reset => w.latch

/-- The low byte of a pair replaced. -/
def setLow (w : BitVec 16) (b : Byte) : BitVec 16 := w.extractLsb' 8 8 ++ b

/-- The high byte of a pair replaced. -/
def setHigh (w : BitVec 16) (b : Byte) : BitVec 16 := b ++ w.extractLsb' 0 8

/-- Byte `i` of a 32-bit register replaced, byte 0 least significant (R177). -/
def setByte32 (w : BitVec 32) (i : Nat) (b : Byte) : BitVec 32 :=
  (w &&& ~~~((0xFF : BitVec 32) <<< (8 * i))) ||| (b.setWidth 32 <<< (8 * i))

/-- The STAT image (R141, R177). -/
def statImage (e : DirEntry) : List Byte :=
  bytesOf 2 e.key ++ [e.state.code] ++ bytesOf 2 e.version ++ bytesOf 4 e.setId ++ bytesOf 1 e.length ++
    bytesOf 1 e.row ++ bytesOf 1 e.granule ++ bytesOf 2 e.stale

/-- The open row as INFO shows it: 0xFF with none (R143). -/
def State.shownOpenRow (s : State) : Nat := s.openRow.getD 0xFF

/-- The open row's next free granule as INFO shows it: 0 at 256 or with no row OPEN (R143). -/
def State.shownNextFree (s : State) : Nat :=
  match s.openRow with
  | none => 0
  | some r => if (s.row r).nextFree = 256 then 0 else (s.row r).nextFree

/-- The INFO image (R143, R177). -/
def State.infoImage (s : State) : List Byte :=
  bytesOf 4 s.table.journalId ++ bytesOf 4 s.engine.nextSetId.shown ++ bytesOf 2 (entriesUsed s.dir) ++
    bytesOf 2 (entriesIn s.dir .live) ++ bytesOf 2 (entriesIn s.dir .tombstone) ++
    bytesOf 2 (entriesIn s.dir .damaged) ++ bytesOf 1 s.erasedRows ++ bytesOf 1 s.badRows ++
    bytesOf 1 s.shownOpenRow ++ bytesOf 1 s.shownNextFree ++ bytesOf 2 s.freeGranules ++
    bytesOf 2 s.reclaimable ++ bytesOf 2 s.ctl.corrected ++ bytesOf 2 s.ctl.uncorrectable ++
    bytesOf 2 s.ctl.overflow ++ bytesOf 1 s.recl.refresh.length ++ [s.win.mountFlags.byte]

/-- The GUARD_READ image (R157, R177). -/
def guardImage (g : Guard) : List Byte :=
  bytesOf 2 g.lo.toNat ++ bytesOf 2 g.hi.toNat ++ [g.mode.code, bitIf g.frozen 1]

end Sys2Proof.Machine
end

