-- ==== Sys2Proof/Machine/CommandUnit.lean ====
section
/-! DEFINITION. The command unit: taking, dropping and refusing a CMD write (R167 to R170, R175). -/

namespace Sys2Proof.Machine

/-- Bus writes are served: no reset is in force and none has been taken (R174, R175). -/
def State.busOpen (s : State) : Bool := s.resetPhase = .running

/-- A command is taken: its code stored, its arguments latched, the unit EXECUTING (R167). -/
def State.take (s : State) (c : Command) : State :=
  { s with win := { s.win with lastCode := c.code, latch := s.win.latchFor c, cu := .executing } }

/-- A CMD write of a known code other than RESET: lost or ignored during a reset (R174, R175), dropped with REFUSED while
the unit is EXECUTING (R169), else taken, checked against MODE (R170), and carried out by the command's own rule. -/
def State.hostCommand (s0 : State) (c : Command) (body : State → State) : State :=
  let s := s0.begin
  if s.busOpen then
    match s.win.cu with
    | .executing => s.setEvent evRefused
    | .idle =>
      match refusedIn s.win.mode c with
      | some r => (s.take c).complete r
      | none => body (s.take c)
  else s

/-- A CMD write of an unknown code (R167): dropped while the unit is EXECUTING, else stored as the last code taken and
answered with BAD_COMMAND, in every mode. -/
def State.unknownCommand (s0 : State) (code : Byte) : State :=
  let s := s0.begin
  if s.busOpen then
    match s.win.cu with
    | .executing => s.setEvent evRefused
    | .idle => { s with win := { s.win with lastCode := code } }.complete .badCommand
  else s

/-- A CMD write of 0x5F: taken in any mode and in either state of the unit (R175).  The array's steps of R30 begin; their
outcome stands at RESET_TAKES_EFFECT (log 36). -/
def State.resetCommand (s0 : State) : State :=
  let s := s0.begin
  if s.busOpen then { s.take .reset with resetPhase := .commandTaken } else s

/-- A command's body answers with the first failing check, or goes on. -/
def State.answerOr (s : State) (check : Option ResultCode) (go : State) : State :=
  match check with
  | some r => s.complete r
  | none => go

end Sys2Proof.Machine
end

