-- ==== Sys2Proof/Machine/GuardCommands.lean ====
section
/-! DEFINITION. GUARD_SET, GUARD_FREEZE and GUARD_READ (R155 to R157). -/

namespace Sys2Proof.Machine

/-- The index GUARD_SET takes: the low four bits of ARG (R155). -/
def guardSetIndex (arg : Byte) : Nat := (arg.extractLsb' 0 4).toNat

/-- The mode GUARD_SET takes: the high four bits of ARG, none above 2 (R155). -/
def guardSetMode (arg : Byte) : Option GuardMode := guardModeOf (arg.extractLsb' 4 4).toNat

/-- The range is not one a guard can take (R155, check 4). -/
def badGuardRange (lo hi : KeyWord) : Bool := lo = 0xFFFF || hi = 0xFFFF || decide (hi < lo)

/-- The checks of GUARD_SET in order (R155). -/
def State.guardSetCheck (s : State) : Option ResultCode :=
  let k := s.win.latch
  if 3 < guardSetIndex k.arg then some .badArg
  else if s.wprotLow then some .pinLocked
  else if (guardAt s.guards (guardSetIndex k.arg)).frozen then some .frozen
  else if (guardSetMode k.arg).isNone || badGuardRange k.key k.key2 then some .badArg
  else none

/-- The entry GUARD_SET writes (R155). -/
def newGuard (k : Latch) : Guard := ⟨k.key, k.key2, (guardSetMode k.arg).getD .off, false⟩

/-- An entry of the guard table replaced. -/
def State.setGuard (s : State) (i : Nat) (g : Guard) : State :=
  { s with guards := s.guards.setIfInBounds i g }

/-- GUARD_SET past the command unit (R155). -/
def State.guardSetBody (s : State) : State :=
  s.answerOr s.guardSetCheck
    ((s.setGuard (guardSetIndex s.win.latch.arg) (newGuard s.win.latch)).complete .ok)

/-- GUARD_SET. -/
def execGuardSet (s : State) : Host.Outcome State Fault Refusal :=
  .next (s.hostCommand .guardSet State.guardSetBody)

/-- The checks of GUARD_FREEZE in order (R156). -/
def State.guardFreezeCheck (s : State) : Option ResultCode :=
  if 3 < s.win.latch.arg.toNat then some .badArg
  else if s.wprotLow then some .pinLocked
  else none

/-- GUARD_FREEZE past the command unit (R156). -/
def State.guardFreezeBody (s : State) : State :=
  let i := s.win.latch.arg.toNat
  s.answerOr s.guardFreezeCheck ((s.setGuard i { guardAt s.guards i with frozen := true }).complete .ok)

/-- GUARD_FREEZE. -/
def execGuardFreeze (s : State) : Host.Outcome State Fault Refusal :=
  .next (s.hostCommand .guardFreeze State.guardFreezeBody)

/-- GUARD_READ past the command unit (R157). -/
def State.guardReadBody (s : State) : State :=
  let i := s.win.latch.arg.toNat
  s.answerOr (if 3 < i then some .badArg else none)
    ((s.fillBuffer (guardImage (guardAt s.guards i))).complete .ok)

/-- GUARD_READ. -/
def execGuardRead (s : State) : Host.Outcome State Fault Refusal :=
  .next (s.hostCommand .guardRead State.guardReadBody)

end Sys2Proof.Machine
end

