-- ==== Sys2Proof/Machine/ReadingCommands.lean ====
section
/-! DEFINITION. GET, STAT, NEXT_KEY, INFO, AUDIT and AUDIT_ABORT (R136, R137, R141 to R143, R145, R151). -/

namespace Sys2Proof.Machine

/-! ### GET -/

/-- GET's read of an entry's record (R137). -/
def getRequest (e : DirEntry) : Request := ⟨.get, .host, e.row, e.granule, .read (extent e.length), true⟩

/-- GET past the command unit: refused by its checks, or its read issued, the unit staying EXECUTING (R136, R137). -/
def State.getBody (s : State) : State :=
  let k := s.win.latch.key
  if k = 0xFFFF then s.complete .badArg
  else if readGuarded s.guards k then s.complete .guarded
  else
    match dirFind s.dir k.toNat with
    | none => s.complete .notFound
    | some e =>
      match e.state with
      | .tombstone => s.complete .notFound
      | .damaged => s.complete .damaged
      | .live => (s.issue (getRequest e)).finish s.freeGranules

/-- GET. -/
def execGet (s : State) : Host.Outcome State Fault Refusal :=
  .next (s.hostCommand .get State.getBody)

/-! ### STAT -/

/-- STAT past the command unit (R141). -/
def State.statBody (s : State) : State :=
  let k := s.win.latch.key
  if k = 0xFFFF then s.complete .badArg
  else if readGuarded s.guards k then s.complete .guarded
  else
    match dirFind s.dir k.toNat with
    | none => s.complete .notFound
    | some e => (s.fillBuffer (statImage e)).complete .ok

/-- STAT. -/
def execStat (s : State) : Host.Outcome State Fault Refusal :=
  .next (s.hostCommand .stat State.statBody)

/-! ### NEXT_KEY -/

/-- The next-key lookup: the first LIVE or DAMAGED entry at or above a key that no NO_ACCESS guard excludes (R41, R142). -/
def nextKeyFrom (dir : List DirEntry) (guards : Vector Guard 4) (start : Nat) : Option DirEntry :=
  dir.find? (fun e => decide (start ≤ e.key) && e.readable && !readGuarded guards (BitVec.ofNat 16 e.key))

/-- The result NEXT_KEY gives for an entry found (R142). -/
def nextKeyResult (e : DirEntry) : ResultCode := if e.state = .damaged then .damaged else .ok

/-- NEXT_KEY past the command unit (R142). -/
def State.nextKeyBody (s : State) : State :=
  let k := s.win.latch.key
  if k = 0xFFFF then s.complete .badArg
  else
    match nextKeyFrom s.dir s.guards k.toNat with
    | none => s.complete .notFound
    | some e => { s with win := { s.win with key := BitVec.ofNat 16 e.key } }.complete (nextKeyResult e)

/-- NEXT_KEY. -/
def execNextKey (s : State) : Host.Outcome State Fault Refusal :=
  .next (s.hostCommand .nextKey State.nextKeyBody)

/-! ### INFO -/

/-- INFO past the command unit (R143). -/
def State.infoBody (s : State) : State := (s.fillBuffer s.infoImage).complete .ok

/-- INFO. -/
def execInfo (s : State) : Host.Outcome State Fault Refusal :=
  .next (s.hostCommand .info State.infoBody)

/-! ### AUDIT and AUDIT_ABORT -/

/-- The checks of AUDIT in order (R145). -/
def State.auditCheck (s : State) : Option ResultCode :=
  let lo := s.win.latch.key
  let hi := s.win.latch.key2
  if lo = 0xFFFF ∨ hi = 0xFFFF ∨ hi < lo then some .badArg
  else if s.aud.running then some .busy
  else if rangeMeetsNoAccess s.guards lo hi then some .guarded
  else none

/-- The audit unit as an audit starts (R145). -/
def Window.newAudit (w : Window) : AuditUnit :=
  ⟨true, w.latch.key.toNat, w.latch.key2.toNat, w.latch.sig, crc32Start, 0, none, none⟩

/-- AUDIT past the command unit: the audit starts and makes its first visit (R145). -/
def State.auditBody (s : State) : State :=
  s.answerOr s.auditCheck
    ((({ s with aud := s.win.newAudit }.complete .ok).auditVisit).finish s.freeGranules)

/-- AUDIT. -/
def execAudit (s : State) : Host.Outcome State Fault Refusal :=
  .next (s.hostCommand .audit State.auditBody)

/-- AUDIT_ABORT past the command unit (R151). -/
def State.auditAbortBody (s : State) : State :=
  if s.aud.running then (s.endAudit .aborted 0).complete .ok else s.complete .notFound

/-- AUDIT_ABORT. -/
def execAuditAbort (s : State) : Host.Outcome State Fault Refusal :=
  .next (s.hostCommand .auditAbort State.auditAbortBody)

end Sys2Proof.Machine
end

