-- ==== Sys2Proof/Machine/StagingCommands.lean ====
section
/-! DEFINITION. STAGE_PUT, STAGE_DELETE and DISCARD (R57 to R61). -/

namespace Sys2Proof.Machine

/-- The most entries of a set (R55). -/
def setLimit : Nat := 16

/-- The pool's size (R55). -/
def poolSize : Nat := 1024

/-- An entry of the staged set has the key (R57, check 4). -/
def Staging.hasKey (g : Staging) (key : Nat) : Bool := g.entries.any (fun e => e.key = key)

/-- The checks of STAGE_PUT in order (R57). -/
def State.stagePutCheck (s : State) : Option ResultCode :=
  let k := s.win.latch.key
  let len := s.win.latch.len.toNat
  if s.staging.lock then some .stagingLocked
  else if k = 0xFFFF ∨ 240 < len then some .badArg
  else if writeGuarded s.guards k then some .guarded
  else if s.staging.hasKey k.toNat then some .duplicate
  else if setLimit ≤ s.staging.entries.length then some .stagingFull
  else if poolSize < s.staging.poolFill + len then some .poolFull
  else none

/-- The staged set with a PUT appended (R59). -/
def Staging.addPut (g : Staging) (key : Nat) (payload : List Byte) : Staging where
  entries := g.entries ++ [⟨.put, key, payload.length, some g.poolFill⟩]
  pool := writeFrom g.pool g.poolFill payload
  poolFill := g.poolFill + payload.length
  lock := g.lock

/-- The version forecast in VER (R59, R60). -/
def State.forecast (s : State) (key : Nat) : State :=
  { s with win := { s.win with ver := BitVec.ofNat 16 (nextVersion s.dir key) } }

/-- STAGE_PUT past the command unit (R57 to R59). -/
def State.stagePutBody (s : State) : State :=
  let k := s.win.latch.key.toNat
  s.answerOr s.stagePutCheck
    (({ s with staging := s.staging.addPut k s.win.latch.payload }.forecast k).complete .ok)

/-- STAGE_PUT. -/
def execStagePut (s : State) : Host.Outcome State Fault Refusal :=
  .next (s.hostCommand .stagePut State.stagePutBody)

/-- The directory has a LIVE or DAMAGED entry for the key (R57, check 7). -/
def hasValue (dir : List DirEntry) (key : Nat) : Bool :=
  match dirFind dir key with
  | none => false
  | some e => e.readable

/-- The checks of STAGE_DELETE in order (R57, R60). -/
def State.stageDeleteCheck (s : State) : Option ResultCode :=
  let k := s.win.latch.key
  if s.staging.lock then some .stagingLocked
  else if k = 0xFFFF then some .badArg
  else if writeGuarded s.guards k then some .guarded
  else if s.staging.hasKey k.toNat then some .duplicate
  else if setLimit ≤ s.staging.entries.length then some .stagingFull
  else if hasValue s.dir k.toNat then none
  else some .notFound

/-- The staged set with a DELETE appended (R60). -/
def Staging.addDelete (g : Staging) (key : Nat) : Staging :=
  { g with entries := g.entries ++ [⟨.delete, key, 0, none⟩] }

/-- STAGE_DELETE past the command unit (R60). -/
def State.stageDeleteBody (s : State) : State :=
  let k := s.win.latch.key.toNat
  s.answerOr s.stageDeleteCheck (({ s with staging := s.staging.addDelete k }.forecast k).complete .ok)

/-- STAGE_DELETE. -/
def execStageDelete (s : State) : Host.Outcome State Fault Refusal :=
  .next (s.hostCommand .stageDelete State.stageDeleteBody)

/-- DISCARD past the command unit (R61). -/
def State.discardBody (s : State) : State :=
  s.answerOr (if s.staging.lock then some .stagingLocked else none)
    ({ s with staging := s.staging.emptied }.complete .ok)

/-- DISCARD. -/
def execDiscard (s : State) : Host.Outcome State Fault Refusal :=
  .next (s.hostCommand .discard State.discardBody)

end Sys2Proof.Machine
end

