-- ==== Sys2Proof/Machine/SystemCommands.lean ====
section
/-! DEFINITION. COMMIT, FAULT_POP, RECLAIM, FORMAT and RESET (R37, R69, R70, R100, R130, R131, R175), and CMD writes by
their code: BAD_COMMAND and CMD_WRITE_DROPPED (R167, R169). -/

namespace Sys2Proof.Machine

/-! ### COMMIT -/

/-- Some staged key is guarded against change (R69, check 4). -/
def State.stagedGuarded (s : State) : Bool :=
  s.staging.entries.any (fun e => writeGuarded s.guards (BitVec.ofNat 16 e.key))

/-- The admission checks in order (R69). -/
def State.commitCheck (s : State) : Option ResultCode :=
  if s.jobBusy then some .busy
  else if s.staging.entries.isEmpty then some .emptySet
  else if s.win.mode = .readOnly then some .readOnly
  else if s.stagedGuarded then some .guarded
  else if freeEntries s.dir < keysWithoutEntry s.dir (s.staging.entries.map StagedEntry.key) then some .dirFull
  else none

/-- Admission: RESULT OK, CMD_DONE, the lock; then WAIT_PURGE when a purge is pending, else the plan (R70). -/
def State.commitAdmit (s : State) : State × List Signal :=
  let s1 := { s with staging := { s.staging with lock := true } }.complete .ok
  if s.table.purgePending then ({ s1 with engine := { s1.engine with state := .waitPurge } }, [])
  else (s1, [.plan .first])

/-- COMMIT past the command unit (R69, R70). -/
def State.commitBody (s : State) : State :=
  s.answerOr s.commitCheck (s.runEvent s.commitAdmit)

/-- COMMIT. -/
def execCommit (s : State) : Host.Outcome State Fault Refusal :=
  .next (s.hostCommand .commit State.commitBody)

/-! ### FAULT_POP -/

/-- FAULT_POP past the command unit (R37). -/
def State.faultPopBody (s : State) : State :=
  match s.ctl.faults with
  | [] => s.complete .notFound
  | _ :: t => { s with ctl := { s.ctl with faults := t } }.complete .ok

/-- FAULT_POP. -/
def execFaultPop (s : State) : Host.Outcome State Fault Refusal :=
  .next (s.hostCommand .faultPop State.faultPopBody)

/-! ### RECLAIM -/

/-- RECLAIM past the command unit (R100). -/
def State.reclaimBody (s : State) : State :=
  match s.win.mode with
  | .readOnly => s.complete .readOnly
  | .ready => s.runEvent ({ s with recl := { s.recl with request := true } }.complete .ok, [])
  | .unformatted => s.complete .ok
  | .mounting => s.complete .notReady
  | .formatting => s.complete .notReady

/-- RECLAIM. -/
def execReclaim (s : State) : Host.Outcome State Fault Refusal :=
  .next (s.hostCommand .reclaim State.reclaimBody)

/-! ### FORMAT -/

/-- The checks of FORMAT in order (R130). -/
def State.formatCheck (s : State) : Option ResultCode :=
  if s.engine.state ≠ .idle ∨ s.aud.running = true then some .busy
  else if s.wprotLow then some .pinLocked
  else if anyGuardOn s.guards then some .guarded
  else if fieldLimit ≤ s.mnt.highestJournalId then some .arrayFault
  else none

/-- FORMAT past the command unit (R130, R131). -/
def State.formatBody (s : State) : State :=
  s.answerOr s.formatCheck ((s.takeFormat.complete .ok).finish s.freeGranules)

/-- FORMAT. -/
def execFormat (s : State) : Host.Outcome State Fault Refusal :=
  .next (s.hostCommand .format State.formatBody)

/-! ### RESET and CMD writes by code -/

/-- RESET. -/
def execReset (s : State) : Host.Outcome State Fault Refusal := .next s.resetCommand

/-- What a known command does past the command unit; RESET is taken elsewhere (R175). -/
def commandBody : Command → State → State
  | .stagePut => State.stagePutBody
  | .stageDelete => State.stageDeleteBody
  | .discard => State.discardBody
  | .commit => State.commitBody
  | .get => State.getBody
  | .stat => State.statBody
  | .nextKey => State.nextKeyBody
  | .info => State.infoBody
  | .audit => State.auditBody
  | .auditAbort => State.auditAbortBody
  | .guardSet => State.guardSetBody
  | .guardFreeze => State.guardFreezeBody
  | .guardRead => State.guardReadBody
  | .faultPop => State.faultPopBody
  | .reclaim => State.reclaimBody
  | .format => State.formatBody
  | .reset => State.resetCommand

/-- A CMD write of any code (R167, R169, R175). -/
def State.cmdWrite (s : State) (code : Byte) : State :=
  match commandOf code with
  | none => s.unknownCommand code
  | some .reset => s.resetCommand
  | some c => s.hostCommand c (commandBody c)

/-- BAD_COMMAND: the CMD write of a code, which R167 answers with BAD_COMMAND when the unit is IDLE and the code unknown
(log 12). -/
def execBadCommand (code : Byte) (s : State) : Host.Outcome State Fault Refusal := .next (s.cmdWrite code)

/-- CMD_WRITE_DROPPED: the CMD write of a code, which R169 drops with REFUSED when the unit is EXECUTING and the code is
not RESET's (log 12). -/
def execCmdWriteDropped (code : Byte) (s : State) : Host.Outcome State Fault Refusal := .next (s.cmdWrite code)

end Sys2Proof.Machine
end

