-- ==== Sys2Proof/Machine/Bus.lean ====
section
/-! DEFINITION. Bus cycles other than the CMD writes: DATA, DPTR, STATUS, EVENT, EVENT_EN and the other registers (R161 to
R166, R172), and what each register reads (R177). -/

namespace Sys2Proof.Machine

/-- A write cycle: lost in a power-on or pin reset, ignored between a RESET and its effect, else served (R174, R175). -/
def State.busWrite (s0 : State) (effect : State → State) : State :=
  let s := s0.begin
  if s.busOpen then effect s else s

/-! ### What a register reads (R162, R177) -/

/-- The oldest fault (R36). -/
def State.oldestFault (s : State) : Option ArrayFault := s.ctl.faults.head?

/-- The register's value; DATA's read has its side effect in DATA_READ (R161, R164, R177).  What a read cycle drives is
`State.busRead`. -/
def State.registerValue (s : State) (offset : Nat) : Byte :=
  match offset with
  | 0x00 => s.win.lastCode
  | 0x01 => s.status
  | 0x02 => s.win.result.code
  | 0x03 => s.win.mode.code
  | 0x04 => s.ev.event
  | 0x05 => s.ev.enable
  | 0x06 => s.win.key.extractLsb' 0 8
  | 0x07 => s.win.key.extractLsb' 8 8
  | 0x08 => s.win.key2.extractLsb' 0 8
  | 0x09 => s.win.key2.extractLsb' 8 8
  | 0x0A => s.win.len
  | 0x0B => s.win.arg
  | 0x0C => if s.win.dptr < s.win.fill then (s.win.buffer[s.win.dptr]?).getD 0 else 0xFF
  | 0x0D => BitVec.ofNat 8 s.win.dptr
  | 0x0E => BitVec.ofNat 8 s.win.fill
  | 0x0F => s.win.ver.extractLsb' 0 8
  | 0x10 => s.win.ver.extractLsb' 8 8
  | 0x11 => s.win.jobResult.code
  | 0x12 => s.win.auditResult.code
  | 0x13 => s.win.sig.extractLsb' 0 8
  | 0x14 => s.win.sig.extractLsb' 8 8
  | 0x15 => s.win.sig.extractLsb' 16 8
  | 0x16 => s.win.sig.extractLsb' 24 8
  | 0x17 => s.win.acount.extractLsb' 0 8
  | 0x18 => s.win.acount.extractLsb' 8 8
  | 0x19 => (s.oldestFault.map ArrayFault.kindByte).getD 0
  | 0x1A => (s.oldestFault.map (fun f => BitVec.ofNat 8 f.row)).getD 0
  | 0x1B => (s.oldestFault.map (fun f => BitVec.ofNat 8 f.granule)).getD 0
  | 0x1C => BitVec.ofNat 8 s.ctl.faults.length
  | 0x1D => s.win.mountFlags.byte
  | 0x1E => s.win.resetCause.code
  | 0x1F => BitVec.ofNat 8 s.erasedRows
  | _ => 0

/-- What a read cycle at an offset drives on the data lines: the register's value, a RESET taken or not (R161, R175), and
nothing, the lines at high impedance, while a power-on or pin reset is in force (R161, R174). -/
def State.busRead (s : State) (offset : Nat) : Option Byte :=
  match s.resetPhase with
  | .held _ => none
  | .running | .commandTaken => some (s.registerValue offset)

/-! ### DATA (R163, R164) -/

/-- A write of DATA: stored at DPTR, or dropped with OVERRUN at 240 (R163). -/
def State.dataWritten (s : State) (b : Byte) : State :=
  if s.win.dptr < 240 then
    { s with win := { s.win with
        buffer := s.win.buffer.setIfInBounds s.win.dptr b
        dptr := s.win.dptr + 1
        fill := max s.win.fill (s.win.dptr + 1) } }
  else { s with win := { s.win with overrun := true } }

/-- DATA_WRITE. -/
def execDataWrite (value : Byte) (s : State) : Host.Outcome State Fault Refusal :=
  .next (s.busWrite (fun t => t.dataWritten value))

/-- A read of DATA: the byte at DPTR, or 0xFF with OVERRUN at or above FILL (R164).  In a power-on or pin reset nothing is
driven (R174). -/
def State.dataRead (s0 : State) : State :=
  let s := s0.begin
  let driven := { s.win with dataOut := s.busRead 0x0C }
  match s.resetPhase with
  | .held _ => { s with win := driven }
  | .running | .commandTaken =>
    if s.win.dptr < s.win.fill then { s with win := { driven with dptr := s.win.dptr + 1 } }
    else { s with win := { driven with overrun := true } }

/-- DATA_READ. -/
def execDataRead (s : State) : Host.Outcome State Fault Refusal := .next s.dataRead

/-! ### DPTR, STATUS, EVENT, EVENT_EN -/

/-- A write of DPTR, capped at 240 (R165). -/
def State.dptrWritten (s : State) (b : Byte) : State :=
  { s with win := { s.win with dptr := min b.toNat 240 } }

/-- DPTR_WRITE. -/
def execDptrWrite (value : Byte) (s : State) : Host.Outcome State Fault Refusal :=
  .next (s.busWrite (fun t => t.dptrWritten value))

/-- A write of STATUS: 1 in the OVERRUN position clears OVERRUN (R166). -/
def State.statusWritten (s : State) (b : Byte) : State :=
  if b.getLsbD 5 then { s with win := { s.win with overrun := false } } else s

/-- STATUS_WRITE. -/
def execStatusWrite (value : Byte) (s : State) : Host.Outcome State Fault Refusal :=
  .next (s.busWrite (fun t => t.statusWritten value))

/-- A write of EVENT clears the flags written 1, but for those in `kept`, set in the same instant (R172). -/
def State.eventWritten (s : State) (b kept : Byte) : State :=
  { s with ev := { s.ev with event := s.ev.event &&& ~~~(b &&& ~~~kept) } }

/-- The flags a write of EVENT may not clear: those the event it falls together with has set (R172, log 13). -/
def State.keptBy (s : State) (together : Bool) : Byte := if together then s.ev.justSet else 0

/-- EVENT_WRITE. -/
def execEventWrite (value : Byte) (together : Bool) (s : State) : Host.Outcome State Fault Refusal :=
  .next (s.busWrite (fun t => t.eventWritten value (s.keptBy together)))

/-- A write of EVENT_EN stores all eight enables (R172). -/
def State.enableWritten (s : State) (b : Byte) : State := { s with ev := { s.ev with enable := b } }

/-- EVENT_EN_WRITE. -/
def execEventEnWrite (value : Byte) (s : State) : Host.Outcome State Fault Refusal :=
  .next (s.busWrite (fun t => t.enableWritten value))

/-! ### The other registers (R162) -/

/-- A write to a register that is not one of the special ones: host registers store the byte, part registers ignore it
(R162, R177). -/
def State.plainWritten (s : State) (offset : Nat) (b : Byte) : State :=
  match offset with
  | 0x05 => s.enableWritten b
  | 0x06 => { s with win := { s.win with key := setLow s.win.key b } }
  | 0x07 => { s with win := { s.win with key := setHigh s.win.key b } }
  | 0x08 => { s with win := { s.win with key2 := setLow s.win.key2 b } }
  | 0x09 => { s with win := { s.win with key2 := setHigh s.win.key2 b } }
  | 0x0A => { s with win := { s.win with len := b } }
  | 0x0B => { s with win := { s.win with arg := b } }
  | 0x0D => s.dptrWritten b
  | 0x13 => { s with win := { s.win with sig := setByte32 s.win.sig 0 b } }
  | 0x14 => { s with win := { s.win with sig := setByte32 s.win.sig 1 b } }
  | 0x15 => { s with win := { s.win with sig := setByte32 s.win.sig 2 b } }
  | 0x16 => { s with win := { s.win with sig := setByte32 s.win.sig 3 b } }
  | _ => s

/-- A write cycle at any offset: the special registers by their own rules, the others by R162 (log 15). -/
def State.writeRegister (s : State) (offset : BitVec 5) (b : Byte) : State :=
  if offset = 0x00 then s.cmdWrite b
  else if offset = 0x01 then s.busWrite (fun t => t.statusWritten b)
  else if offset = 0x04 then s.busWrite (fun t => t.eventWritten b 0)
  else if offset = 0x0C then s.busWrite (fun t => t.dataWritten b)
  else s.busWrite (fun t => t.plainWritten offset.toNat b)

/-- HOST_REGISTER_WRITE. -/
def execHostRegisterWrite (offset : BitVec 5) (value : Byte) (s : State) : Host.Outcome State Fault Refusal :=
  .next (s.writeRegister offset value)

end Sys2Proof.Machine
end

