-- ==== Sys2Proof/Machine/Completions.lean ====
section
/-! DEFINITION. The array's events: READ_COMPLETE, PROGRAM_COMPLETE, ERASE_COMPLETE and ERASE_SUSPEND_POINT (R20 to R28,
R138, R139). -/

namespace Sys2Proof.Machine

/-! ### Reads -/

/-- GET's intact record placed in the buffer and registers (R138). -/
def State.getDelivered (s : State) (h : RecordHeader) (payload : List Byte) : State :=
  let s1 := s.fillBuffer payload
  { s1 with win := { s1.win with
      ver := BitVec.ofNat 16 h.version, len := BitVec.ofNat 8 payload.length } }.complete .ok

/-- The completion of GET's read (R138, R139). -/
def State.getReadDone (s : State) (row granule : Nat) (reads : List GranuleRead) : State :=
  let key := s.win.latch.key.toNat
  match findRecord reads with
  | .intact h payload =>
    (s.refreshIf (anyCorrected reads) key row granule).getDelivered h payload
  | .unreadable _ fail | .notIntact fail =>
    (((s.captureCheck fail .host row granule).refreshIf (anyCorrected reads) key row granule).markDamaged
      key row granule).complete .uncorrectable

/-- The results of a read go to the requester that waits for them (R28). -/
def State.deliverRead (s : State) (who : Requester) (row first : Nat) (reads : List GranuleRead) :
    State × List Signal :=
  match who with
  | .get => (s.getReadDone row first reads, [])
  | .audit => (s.auditReadDone reads, [])
  | .reclaimer => s.reclaimReadDone reads
  | .mount => s.mountReadDone reads
  | .format => s.formatReadDone reads
  | .commit => (s, [])

/-- The faults of a read; FORMAT's reads of a BAD row make none (R31). -/
def State.captureReadOf (s : State) (r : Request) (reads : List GranuleRead) : State :=
  if r.origin = .format then s else s.captureRead r.origin r.row r.first reads

/-- A read request completes: drift, faults, delivery, and what follows (R28). -/
def State.readDone (s : State) (r : Request) (count : Nat) (drift : List (BitVec 8 × Granule)) : State :=
  let s1 := s.applyDrift r.row drift
  let reads := s1.readExtent r.row r.first count
  let s2 := (s1.captureReadOf r reads).arrayFree
  s.runEvent (if r.waited then s2.deliverRead r.requester r.row r.first reads else (s2, []))

/-- READ_COMPLETE. -/
def execReadComplete (drift : List (BitVec 8 × Granule)) (s0 : State) : Host.Outcome State Fault Refusal :=
  let s := s0.begin
  match s.resetPhase, s.ctl.state, s.ctl.current with
  | .running, .reading, some r =>
    match r.op with
    | .read count => .next (s.readDone r count drift)
    | .program _ => .fault .noReadInService
  | _, _, _ => .fault .noReadInService

/-! ### Programs -/

/-- A program abandoned by its requester as FORMAT was taken (log 16): a row whose header it was holds a programmed granule
and becomes DIRTY; a record's program, verified or failed, adds nothing to its row's dead count. -/
def State.abandonedProgram (s : State) (row first : Nat) : State :=
  if first = 0 ∧ (s.row row).state = some .erased then s.rowLeaves row .dirty else s

/-- The results of a program go to the writer or to FORMAT (R21, R28). -/
def State.deliverProgram (s : State) (r : Request) (failed : Option Nat) : State × List Signal :=
  if r.waited then
    match r.requester with
    | .commit | .reclaimer => s.writerProgramDone failed
    | .format => s.formatProgramDone failed
    | .get | .audit | .mount => (s, [])
  else (s.abandonedProgram r.row r.first, [])

/-- The PROGRAM_FAIL fault of a failed granule (R31). -/
def State.captureProgram (s : State) (r : Request) (failed : Option Nat) : State :=
  match failed with
  | none => s
  | some i => s.capture ⟨.programFail, r.origin, r.row, r.first + i⟩

/-- A program request completes (R21, R28). -/
def State.programDone (s : State) (r : Request) (granules : List Data) (failed : Option Nat) : State :=
  let s1 := ((s.programGranules r.row r.first granules failed).captureProgram r failed).arrayFree
  s.runEvent (s1.deliverProgram r failed)

/-- The failed granule is one of the request's. -/
def withinRequest (granules : List Data) (failed : Option Nat) : Bool :=
  match failed with
  | none => true
  | some i => decide (i < granules.length)

/-- PROGRAM_COMPLETE. -/
def execProgramComplete (failed : Option (Fin 16)) (s0 : State) : Host.Outcome State Fault Refusal :=
  let s := s0.begin
  match s.resetPhase, s.ctl.state, s.ctl.current with
  | .running, .programming, some r =>
    match r.op with
    | .program granules =>
      if withinRequest granules (failed.map Fin.val) then .next (s.programDone r granules (failed.map Fin.val))
      else .fault .noSuchGranule
    | .read _ => .fault .noProgramInService
  | _, _, _ => .fault .noProgramInService

/-! ### Erases -/

/-- The ERASE_FAIL fault of a failed blank check (R22, R31). -/
def State.captureErase (s : State) (r : EraseRequest) (firstNonBlank : Option (BitVec 8)) : State :=
  match firstNonBlank with
  | none => s
  | some g => s.capture ⟨.eraseFail, r.origin, r.row, g.toNat⟩

/-- The result of an erase goes to the reclaimer or to FORMAT (R22, R28). -/
def State.deliverErase (s : State) (r : EraseRequest) (passed : Bool) : State × List Signal :=
  if r.waited then
    match r.requester with
    | .reclaimer => s.reclaimEraseDone r.row passed
    | .format => s.formatEraseDone passed
    | .get | .commit | .audit | .mount => (s, [])
  else (s, [])

/-- An erase ends: the array, the fault, the row's erase count, and the delivery (R7, R22, R28, log 18). -/
def State.eraseDone (s : State) (r : EraseRequest) (firstNonBlank : Option (BitVec 8)) : State :=
  let s1 := ((s.eraseRow r.row firstNonBlank).captureErase r firstNonBlank).eraseEnded.countErase r.row
  s.runEvent (s1.deliverErase r firstNonBlank.isNone)

/-- ERASE_COMPLETE. -/
def execEraseComplete (firstNonBlank : Option (BitVec 8)) (s0 : State) : Host.Outcome State Fault Refusal :=
  let s := s0.begin
  match s.resetPhase, s.ctl.state, s.ctl.erase with
  | .running, .erasing, some e =>
    if e.suspending then .fault .noEraseRunning else .next (s.eraseDone e.request firstNonBlank)
  | _, _, _ => .fault .noEraseRunning

/-- The erase stands at its suspend point: the array is free for the waiting requests (R25). -/
def State.suspended (s : State) (e : EraseContext) : State :=
  let s1 := s.eraseCut e.request.row
  { s1 with ctl := { s1.ctl with state := .idle, erase := some { e with suspending := false } } }

/-- ERASE_SUSPEND_POINT. -/
def execEraseSuspendPoint (s0 : State) : Host.Outcome State Fault Refusal :=
  let s := s0.begin
  match s.resetPhase, s.ctl.state, s.ctl.erase with
  | .running, .erasing, some e =>
    if e.suspending then .next ((s.suspended e).finish s.freeGranules) else .fault .noSuspensionAsked
  | _, _, _ => .fault .noSuspensionAsked

end Sys2Proof.Machine
end

