-- ==== Sys2Proof/Machine/Resets.lean ====
section
/-! DEFINITION. The WPROT# pin and the three resets (R29, R30, R158, R174 to R176). -/

namespace Sys2Proof.Machine

/-- WPROT_CHANGE: the pin takes a level; STATUS and later checks follow it (R158). -/
def execWprotChange (high : Bool) (s : State) : Host.Outcome State Fault Refusal :=
  .next { s.begin with wprotLow := !high }

/-- The controller after a reset; the RESET command keeps the fault list and the counters (R18, R30, R36). -/
def Controller.afterReset (c : Controller) (keepFaults : Bool) : Controller :=
  if keepFaults then
    { Controller.atReset with
      faults := c.faults, corrected := c.corrected, uncorrectable := c.uncorrectable, overflow := c.overflow }
  else .atReset

/-- Every block in its reset state; the array, the pin, the queue of events and the draw of free values stay (R2, R174 to
R176). -/
def State.resetBlocks (s : State) (keepFaults : Bool) (cause : ResetCause) (phase : ResetPhase) : State :=
  { State.poweringUp with
    win := .atReset cause
    ctl := s.ctl.afterReset keepFaults
    cells := s.cells
    wprotLow := s.wprotLow
    resetPhase := phase
    freeIdx := s.freeIdx
    pending := s.pending }

/-- The operation in flight is stopped at once (R29). -/
def State.stopArray (s : State) : State := (s.cutProgram false).cutErase

/-- A power-on reset was part of the reset in force (R174). -/
def ResetPhase.power : ResetPhase → Bool
  | .held p => p
  | .running => false
  | .commandTaken => false

/-- A power-on or pin reset begins (R174); RESET_CAUSE is written when it ends. -/
def State.holdReset (s : State) (power : Bool) : State :=
  s.stopArray.resetBlocks false s.win.resetCause (.held power)

/-- POWER_ON_RESET. -/
def execPowerOnReset (s : State) : Host.Outcome State Fault Refusal := .next (s.holdReset true)

/-- PIN_RESET: a power-on reset already in force stays part of it (R174). -/
def execPinReset (s : State) : Host.Outcome State Fault Refusal := .next (s.holdReset s.resetPhase.power)

/-- The mount engine issues its first read, which the arbiter grants (R27, R115). -/
def State.startMount (s : State) : State := (s.issue MountEngine.firstRead).arbitrate

/-- RESET_END: RESET_CAUSE is written, the window served, the mount begun (R174). -/
def execResetEnd (s : State) : Host.Outcome State Fault Refusal :=
  match s.resetPhase with
  | .held power =>
    .next { s with
      win := { s.win with resetCause := if power then .power else .pin }
      resetPhase := .running }.startMount
  | .running => .fault .noResetInForce
  | .commandTaken => .fault .noResetInForce

/-- The reset of a RESET command: the granule under way completed, an erase stopped, every block reset, faults and
counters kept, the mount begun (R30, R175). -/
def State.commandReset (s : State) : State :=
  (((s.cutProgram true).cutErase).resetBlocks true .command .running).startMount

/-- RESET_TAKES_EFFECT. -/
def execResetTakesEffect (s : State) : Host.Outcome State Fault Refusal :=
  match s.resetPhase with
  | .commandTaken => .next s.commandReset
  | .running => .fault .noResetTaken
  | .held _ => .fault .noResetTaken

end Sys2Proof.Machine
end

