-- ==== Sys2Proof/Machine/Dispatch.lean ====
section
/-! DEFINITION. One arm per command (spec/opcode_table.json). -/

namespace Sys2Proof.Machine

/-- The effect of a command on everything but the queue. -/
def exec (i : Instr) (s : State) : Host.Outcome State Fault Refusal :=
  match i with
  | .stagePut => Sys2Proof.Machine.execStagePut s
  | .stageDelete => Sys2Proof.Machine.execStageDelete s
  | .discard => Sys2Proof.Machine.execDiscard s
  | .commit => Sys2Proof.Machine.execCommit s
  | .get => Sys2Proof.Machine.execGet s
  | .stat => Sys2Proof.Machine.execStat s
  | .nextKey => Sys2Proof.Machine.execNextKey s
  | .info => Sys2Proof.Machine.execInfo s
  | .audit => Sys2Proof.Machine.execAudit s
  | .auditAbort => Sys2Proof.Machine.execAuditAbort s
  | .guardSet => Sys2Proof.Machine.execGuardSet s
  | .guardFreeze => Sys2Proof.Machine.execGuardFreeze s
  | .guardRead => Sys2Proof.Machine.execGuardRead s
  | .faultPop => Sys2Proof.Machine.execFaultPop s
  | .reclaim => Sys2Proof.Machine.execReclaim s
  | .format => Sys2Proof.Machine.execFormat s
  | .reset => Sys2Proof.Machine.execReset s
  | .badCommand code => Sys2Proof.Machine.execBadCommand code s
  | .cmdWriteDropped code => Sys2Proof.Machine.execCmdWriteDropped code s
  | .dataWrite value => Sys2Proof.Machine.execDataWrite value s
  | .dataRead => Sys2Proof.Machine.execDataRead s
  | .dptrWrite value => Sys2Proof.Machine.execDptrWrite value s
  | .statusWrite value => Sys2Proof.Machine.execStatusWrite value s
  | .eventWrite value together => Sys2Proof.Machine.execEventWrite value together s
  | .eventEnWrite value => Sys2Proof.Machine.execEventEnWrite value s
  | .hostRegisterWrite offset value => Sys2Proof.Machine.execHostRegisterWrite offset value s
  | .wprotChange high => Sys2Proof.Machine.execWprotChange high s
  | .powerOnReset => Sys2Proof.Machine.execPowerOnReset s
  | .pinReset => Sys2Proof.Machine.execPinReset s
  | .resetEnd => Sys2Proof.Machine.execResetEnd s
  | .resetTakesEffect => Sys2Proof.Machine.execResetTakesEffect s
  | .readComplete drift => Sys2Proof.Machine.execReadComplete drift s
  | .programComplete failed => Sys2Proof.Machine.execProgramComplete failed s
  | .eraseComplete firstNonBlank => Sys2Proof.Machine.execEraseComplete firstNonBlank s
  | .eraseSuspendPoint => Sys2Proof.Machine.execEraseSuspendPoint s

end Sys2Proof.Machine
end

