-- ==== Sys2Proof/Safety.lean ====
section
/-! DEFINITION. What counts as a safe state of the part, and the words in which the statements speak of a command that is
served and of one that only answers. -/

namespace Sys2Proof.Machine

/-! ### Commands served and answered -/

/-- A CMD write reaches the command unit and finds it IDLE (R167, R169, R174, R175). -/
abbrev State.unitFree (s : State) : Prop := s.resetPhase = .running ∧ s.win.cu = .idle

/-- A command is taken and passes the acceptance table (R167, R170). -/
abbrev State.accepts (s : State) (c : Command) : Prop :=
  s.resetPhase = .running ∧ s.win.cu = .idle ∧ refusedIn s.win.mode c = none

/-- The window after a command that was taken and has completed with this result: the code stored, the arguments latched,
RESULT posted, the unit IDLE (R167, R168). -/
def Window.answered (w : Window) (c : Command) (r : ResultCode) : Window :=
  { w with lastCode := c.code, latch := w.latchFor c, cu := .idle, result := r }

/-- The event unit after an event that set these flags and no other (R171, log 13). -/
def EventUnit.after (e : EventUnit) (mask : Byte) : EventUnit :=
  { e with event := e.event ||| mask, justSet := mask }

/-- The part after a command that was taken and did nothing but answer: RESULT and CMD_DONE (R168). -/
def State.answered (s : State) (c : Command) (r : ResultCode) : State :=
  { s with win := s.win.answered c r, ev := s.ev.after evCmdDone }

/-- A COMMIT is taken and passes every admission check (R69, R170). -/
structure State.admits (s : State) : Prop where
  taken : s.accepts .commit
  idle : s.engine.state = .idle
  noFormat : s.fmt = none
  filled : s.staging.entries ≠ []
  writable : s.win.mode ≠ .readOnly
  unguarded : ∀ e ∈ s.staging.entries, guardMode s.guards (BitVec.ofNat 16 e.key) = .off
  room : s.staging.entries.countP (fun e => (dirFind s.dir e.key).isNone) ≤ 512 - s.dir.length

/-- The part as an event that sets no flag finds it (log 13). -/
def State.quietly (s : State) : State := { s with ev := s.ev.after 0 }

/-- The command of the dispatch that writes this code to CMD (R177). -/
def Command.instr : Command → Instr
  | .stagePut => .stagePut
  | .stageDelete => .stageDelete
  | .discard => .discard
  | .commit => .commit
  | .get => .get
  | .stat => .stat
  | .nextKey => .nextKey
  | .info => .info
  | .audit => .audit
  | .auditAbort => .auditAbort
  | .guardSet => .guardSet
  | .guardFreeze => .guardFreeze
  | .guardRead => .guardRead
  | .faultPop => .faultPop
  | .reclaim => .reclaim
  | .format => .format
  | .reset => .reset

/-- The transfer buffer of `t` holds these bytes from position 0, FILL their number and DPTR 0, and the higher positions
hold what `w` held (R165). -/
def Window.filled (w t : Window) (bytes : List Byte) : Prop :=
  t.fill = bytes.length ∧ t.dptr = 0 ∧
    ∀ i, i < 240 → t.buffer[i]? = if i < bytes.length then bytes[i]? else w.buffer[i]?

/-- Nothing is owed that a reclaimer looking for work would pass on to the commit engine or to FORMAT: no purge is
pending, the commit engine does not wait for space, no FORMAT job runs. -/
abbrev State.calm (s : State) : Prop :=
  s.table.purgePending = false ∧ s.engine.state ≠ .waitSpace ∧ s.fmt = none

/-- A queued refresh whose key's entry still locates the place queued (R113). -/
def State.queuedAt (s : State) (q : RefreshEntry) : Prop :=
  ∃ e, dirFind s.dir q.key = some e ∧ e.row = q.row ∧ e.granule = q.granule

/-- The array asked to read a record's granules for the reclaimer (R102, R113). -/
def State.askedByReclaimer (s : State) (row first count : Nat) : Controller :=
  (s.issue ⟨.reclaimer, .reclaim, row, first, .read count, true⟩).ctl

/-- The reclaimer of `s` with the refresh queue and the request that `t` has: as it was, or, where queue entries have gone,
at rest. -/
def State.restingAs (s t : State) : Reclaimer :=
  { (if t.recl.refresh = s.recl.refresh then s.recl else Reclaimer.atReset) with
    refresh := t.recl.refresh, request := t.recl.request, blocked := s.recl.blocked }

/-- `t` is `s` after a reclaimer to which nothing is owed has looked for work at the end of an event (R98, R99, R111,
R113, logs 19 and 41). -/
structure State.reclaimerLooks (s t : State) : Prop where
  /-- it writes its own state, the array's requests and row states alone -/
  frame : t = { s with recl := t.recl, ctl := t.ctl, table := { s.table with rows := t.table.rows } }
  /-- at work, or in MOUNTING or FORMATTING, it does nothing -/
  busy : s.recl.job ≠ .idle ∨ s.win.mode = .mounting ∨ s.win.mode = .formatting → t = s
  /-- with nothing due and no request it stays as it is -/
  rest : (∀ x, x < 64 → (s.row x).state ≠ some .dirty) → s.recl.refresh = [] → s.recl.request = false →
    (s.win.mode = .ready → s.recl.blocked = false → 3 ≤ s.erasedRows ∨
      ∀ x, x < 64 → s.eligible x = true → (s.row x).dead < 128) → t = s
  blocked : t.recl.blocked = s.recl.blocked
  request : t.recl.request = true → s.recl.request = true
  /-- entries leave the refresh queue from its head: those whose key has moved on, and the one a REFRESH job takes -/
  queue : ∃ gone, s.recl.refresh = gone ++ t.recl.refresh ∧
    ∀ q ∈ gone, s.queuedAt q → t.recl.job = .refresh ∧ t.recl.wait = .recordRead q.key q.row q.granule
  /-- a row changes only from FULL to VICTIM, as the victim of the pass that has begun -/
  rows : ∀ r, t.row r = s.row r ∨ ((s.row r).state = some .full ∧ t.row r = { s.row r with state := some .victim } ∧
    t.recl.job = .backgroundVictim ∧ t.recl.victim = some r)
  /-- an IDLE one stays IDLE with no request made, or begins one job -/
  begins : s.recl.job = .idle →
    (t.recl = s.restingAs t ∧ t.ctl = s.ctl ∧ t.table = s.table) ∨
    (∃ x, x < 64 ∧ (s.row x).state = some .dirty ∧ t.ctl = (s.issueErase x .reclaimer .reclaim).ctl ∧ t.recl =
      { s.restingAs t with job := .dirtyErase, victim := some x, wait := .erase }) ∨
    (∃ e, t.recl.job = .refresh ∧ t.recl.wait = .recordRead e.key e.row e.granule ∧ dirFind s.dir e.key = some e ∧
      t.ctl = s.askedByReclaimer e.row e.granule (1 + (e.length + 15) / 16)) ∨
    ∃ v first count, t.recl.job = .backgroundVictim ∧ t.recl.victim = some v ∧ t.recl.cursor = 1 ∧
      t.recl.copyList = [] ∧ t.recl.walkList = [] ∧ s.win.mode = .ready ∧ s.recl.blocked = false ∧
      s.eligible v = true ∧ t.ctl = s.askedByReclaimer v first count

/-- `t` is `s` after the end of an event: the reclaimer, to which nothing is owed, has looked for work, a DIRTY row first of
all, and the arbiter has acted (R23, R99). -/
def State.reclaimerActs (s t : State) : Prop :=
  ∃ v, s.reclaimerLooks v ∧
    (s.recl.job = .idle → s.win.mode ≠ .mounting → s.win.mode ≠ .formatting →
      ∀ x, x < 64 → (s.row x).state = some .dirty → (∀ y, y < x → (s.row y).state ≠ some .dirty) →
      v.recl.job = .dirtyErase ∧ v.recl.victim = some x) ∧
    t = { v with ctl := v.ctl.arbitrate }

/-! ### Operations of the array in service -/

/-- The request is in service, with no reset in force: its completion can occur (R18, R28). -/
abbrev State.serves (s : State) (r : Request) : Prop :=
  s.resetPhase = .running ∧ s.ctl.state = r.op.serving ∧ s.ctl.current = some r

/-- What the completion of a read finds in the granules of its extent, after the drift of log 5 (R19, R20). -/
def State.readSeen (s : State) (r : Request) (count : Nat) (drift : List (BitVec 8 × Granule)) : List GranuleRead :=
  (s.applyDrift r.row drift).readExtent r.row r.first count

/-- The part as the requester of a completed read finds it: the faults captured, the array free (R28, R31). -/
def State.readTaken (s : State) (r : Request) (count : Nat) (drift : List (BitVec 8 × Granule)) : State :=
  ((s.begin.applyDrift r.row drift).captureReadOf r (s.readSeen r count drift)).arrayFree

/-- The refresh queue after a GET or audit read of a record: a CORRECTED granule appends the key and the place read, unless the
key is queued already or the queue holds 8 entries (R112). -/
def State.queueAfter (s : State) (reads : List GranuleRead) (key row granule : Nat) : List RefreshEntry :=
  if (∃ g ∈ reads, g.outcome = .corrected) ∧ (∀ q ∈ s.recl.refresh, q.key ≠ key) ∧ s.recl.refresh.length < 8 then
    s.recl.refresh ++ [⟨key, row, granule⟩]
  else s.recl.refresh

/-- The part as the requester of a completed program finds it: the granules written, a failed one captured, the array free
(R21, R28, R31). -/
def State.programTaken (s : State) (r : Request) (granules : List Data) (failed : Option (Fin 16)) : State :=
  ((s.begin.programGranules r.row r.first granules (failed.map Fin.val)).captureProgram r (failed.map Fin.val)).arrayFree

/-- The part as the requester of an ended erase finds it: the row blank or not, a failed blank check captured, the array free,
the row's erase count raised (R7, R22, R28, R31). -/
def State.eraseTaken (s : State) (e : EraseRequest) (nonBlank : Option (BitVec 8)) : State :=
  ((s.begin.eraseRow e.row nonBlank).captureErase e nonBlank).eraseEnded.countErase e.row

/-- The erase is running, neither suspended nor on its way to its suspend point, with no reset in force. -/
abbrev State.erases (s : State) (e : EraseContext) : Prop :=
  s.resetPhase = .running ∧ s.ctl.state = .erasing ∧ s.ctl.erase = some e ∧ e.suspending = false

/-- A granule of the program request in service or of the row under erase: what a reset may leave changed (R29, R30). -/
def State.inFlight (s : State) (row granule : Nat) : Prop :=
  (∃ r granules, s.ctl.current = some r ∧ r.op = .program granules ∧ row = r.row ∧ r.first ≤ granule ∧
    granule < r.first + granules.length) ∨ ∃ e, s.ctl.erase = some e ∧ row = e.request.row

/-! ### Safe states -/

/-- The list of programmed granules has its canonical form. -/
abbrev State.arrayOk (s : State) : Prop := s.cells.wf = true

/-- The entries stand in ascending key order, so no key has two (R38). -/
abbrev State.dirOk (s : State) : Prop := s.dir.Pairwise (fun a b => a.key < b.key)

/-- The fault list holds at most 8 entries and no counter passes 65535 (R34, R35). -/
abbrev State.faultsOk (s : State) : Prop :=
  s.ctl.faults.length ≤ 8 ∧ s.ctl.corrected ≤ 65535 ∧ s.ctl.uncorrectable ≤ 65535 ∧ s.ctl.overflow ≤ 65535

/-- No erase has used more than its 32 suspensions (R25). -/
abbrev State.suspensionsOk (s : State) : Prop :=
  ∀ e, s.ctl.erase = some e → e.count ≤ 32

/-- DPTR and FILL lie between 0 and 240 (The Host Window, Transfer buffer and data port). -/
abbrev State.bufferOk (s : State) : Prop := s.win.dptr ≤ 240 ∧ s.win.fill ≤ 240

/-- The refresh queue holds at most 8 entries, no key twice (R112). -/
abbrev State.refreshOk (s : State) : Prop :=
  s.recl.refresh.length ≤ 8 ∧ (s.recl.refresh.map RefreshEntry.key).Nodup

/-- The staged set: at most 16 entries, no key twice, and the pool filled without gaps: each PUT entry's payload begins where
the lengths of the entries before it end, a DELETE entry has none, and the pool fill is the sum of the lengths (R55). -/
abbrev State.stagingOk (s : State) : Prop :=
  s.staging.entries.length ≤ 16 ∧ (s.staging.entries.map StagedEntry.key).Nodup ∧
    s.staging.poolFill = (s.staging.entries.map StagedEntry.length).sum ∧ s.staging.poolFill ≤ 1024 ∧
    ∀ i e, s.staging.entries[i]? = some e →
      e.poolOffset = if e.op = .put then some ((s.staging.entries.take i).map StagedEntry.length).sum else none

/-- A safe state of the part. -/
structure State.Safe (s : State) : Prop where
  array : s.arrayOk
  dir : s.dirOk
  faults : s.faultsOk
  suspensions : s.suspensionsOk
  buffer : s.bufferOk
  refresh : s.refreshOk
  staging : s.stagingOk

end Sys2Proof.Machine
end

