-- ==== Sys2Proof/Certificates/Slice0/Obligations.lean ====
section
/-! DEFINITION. The statements about the model, one `def Obligations.<Name> : Prop` each.  A docstring names the rules of spec/
a statement formalises and the log entries it rests on. -/

section Statements

open Sys2Proof Sys2Proof.Machine

/-! ### The block -/

/-- A step takes the command at the front of the queue and is exec of it on the state with the queue's rest; on an empty
queue the part idles (the model's queue, log 1). -/
def Obligations.StepRunsTheFrontCommand : Prop :=
  (∀ (c : Instr) (rest : List Instr) (s : State),
    step { s with pending := c :: rest } = exec c { s with pending := rest }) ∧
  ∀ s : State, s.pending = [] → step s = .next s

/-- From a power-on reset in force, its end leads to State.reset (R174, R115), and both states are safe.  The blank array
and the high WPROT# pin are the model's choices (logs 3 and 27). -/
def Obligations.ResetIsSafe : Prop :=
  exec .resetEnd State.poweringUp = .next State.reset ∧ State.poweringUp.Safe ∧ State.reset.Safe

/-- Each completion and each end of a reset occurs exactly when what it completes is in service, and stops with its own
fault otherwise (logs 6, 11 and 29).  An operation still in service when a RESET is taken no longer completes: its last step is part
of the reset's effect (R30, log 36). -/
def Obligations.CompletionsOccurOnlyInService : Prop :=
  (∀ (s : State) (drift : List (BitVec 8 × Granule)),
    ((∃ t, exec (.readComplete drift) s = .next t) ↔
      ∃ r count, s.resetPhase = .running ∧ s.ctl.state = .reading ∧ s.ctl.current = some r ∧ r.op = .read count) ∧
    ((∃ t, exec (.readComplete drift) s = .next t) ∨ exec (.readComplete drift) s = .fault .noReadInService)) ∧
  (∀ (s : State) (failed : Option (Fin 16)),
    ((∃ t, exec (.programComplete failed) s = .next t) ↔
      ∃ r granules, s.resetPhase = .running ∧ s.ctl.state = .programming ∧ s.ctl.current = some r ∧
        r.op = .program granules ∧ ∀ i, failed = some i → i.val < granules.length) ∧
    ((∃ t, exec (.programComplete failed) s = .next t) ∨ exec (.programComplete failed) s = .fault .noProgramInService ∨
      exec (.programComplete failed) s = .fault .noSuchGranule)) ∧
  (∀ (s : State) (nonBlank : Option (BitVec 8)),
    ((∃ t, exec (.eraseComplete nonBlank) s = .next t) ↔ ∃ e, s.erases e) ∧
    ((∃ t, exec (.eraseComplete nonBlank) s = .next t) ∨ exec (.eraseComplete nonBlank) s = .fault .noEraseRunning)) ∧
  (∀ s : State,
    ((∃ t, exec .eraseSuspendPoint s = .next t) ↔
      ∃ e, s.resetPhase = .running ∧ s.ctl.state = .erasing ∧ s.ctl.erase = some e ∧ e.suspending = true) ∧
    ((∃ t, exec .eraseSuspendPoint s = .next t) ∨ exec .eraseSuspendPoint s = .fault .noSuspensionAsked)) ∧
  (∀ s : State,
    ((∃ t, exec .resetEnd s = .next t) ↔ ∃ power, s.resetPhase = .held power) ∧
    ((∃ t, exec .resetEnd s = .next t) ∨ exec .resetEnd s = .fault .noResetInForce)) ∧
  ∀ s : State,
    ((∃ t, exec .resetTakesEffect s = .next t) ↔ s.resetPhase = .commandTaken) ∧
    ((∃ t, exec .resetTakesEffect s = .next t) ∨ exec .resetTakesEffect s = .fault .noResetTaken)

/-! ### Invariants -/

/-- Every step keeps the canonical form of the list of programmed granules. -/
def Obligations.ArrayFormKept : Prop :=
  ∀ s t : State, s.arrayOk → step s = .next t → t.arrayOk

/-- Every step keeps the directory in ascending key order, so no key ever has two entries (R38). -/
def Obligations.DirectoryOrderKept : Prop :=
  ∀ s t : State, s.dirOk → step s = .next t → t.dirOk

/-- Every step keeps the fault list within 8 entries and the counters within 65535 (R34, R35), an erase within 32
suspensions (R25), DPTR and FILL within 240 (R163 to R165), the refresh queue within 8 entries without a key twice (R112), and
the staged set at 16 entries at most, no key twice, its pool filled without gaps, each PUT entry's payload beginning where the
lengths before it end, and never past 1024 bytes (R55). -/
def Obligations.LimitsKept : Prop :=
  (∀ s t : State, s.faultsOk → s.suspensionsOk → s.bufferOk → s.refreshOk → step s = .next t →
    t.faultsOk ∧ t.suspensionsOk ∧ t.bufferOk ∧ t.refreshOk) ∧
  ∀ s t : State, s.stagingOk → step s = .next t → t.stagingOk

/-- No command changes the array but the completions, the suspend point and the resets (00_scope; R21, R22, R29, R30), and no
granule goes blank but by the erase of its row or a reset: a read never leaves one blank, and a program, its failed granule
included, does not either (R1). -/
def Obligations.ArrayChangesOnlyByItsEvents : Prop :=
  ∀ (i : Instr) (s t : State), exec i s = .next t →
    (t.cells = s.cells ∨ (∃ d, i = .readComplete d) ∨ (∃ f, i = .programComplete f) ∨ (∃ g, i = .eraseComplete g) ∨
      i = .eraseSuspendPoint ∨ i = .powerOnReset ∨ i = .pinReset ∨ i = .resetTakesEffect) ∧
    (s.arrayOk → ((∃ d, i = .readComplete d) ∨ ∃ f, i = .programComplete f) →
      ∀ row g, g ≤ 255 → t.granule row g = .blank → s.granule row g = .blank)

/-- A frozen guard keeps its range, its mode and its freeze through every command but the three resets (R156). -/
def Obligations.FrozenGuardsHold : Prop :=
  ∀ (i : Instr) (s t : State) (n : Nat), exec i s = .next t → (guardAt s.guards n).frozen = true →
    guardAt t.guards n = guardAt s.guards n ∨ i = .powerOnReset ∨ i = .pinReset ∨ i = .resetTakesEffect

/-! ### The journal's formats and the array's granules -/

/-- A row header with fields in range is read back from its granule, CLEAN or CORRECTED, as the valid header it is; a
record header that meets the constraints of its kind is read back from its granule whole, and so is its moved copy (R3, R4, R8,
R9, R11, R12). -/
def Obligations.HeadersRoundTrip : Prop :=
  (∀ h : RowHeader, 1 ≤ h.journalId → h.journalId ≤ 4294967295 → 1 ≤ h.sequence → h.sequence ≤ 4294967295 →
    h.eraseCount ≤ 16777215 →
    classifyRowHeader ⟨.clean, encodeRowHeader h⟩ = .valid h ∧
      classifyRowHeader ⟨.corrected, encodeRowHeader h⟩ = .valid h) ∧
  ∀ h : RecordHeader, headerAllowed h = true →
    findHeader ⟨.clean, encodeRecordHeader h⟩ = (some h, false) ∧
      findHeader ⟨.corrected, encodeRecordHeader (movedCopy h)⟩ = (some { h with moved := true }, false)

/-- A record programmed into a row, its extent within the row, reads back intact with its header and its payload
(R8 to R11, R19 to R21). -/
def Obligations.RecordReadsBackWhole : Prop :=
  ∀ (s : State) (row first : Nat) (h : RecordHeader) (payload : List Byte), s.arrayOk → headerAllowed h = true →
    h.length = payload.length → h.payloadCheck = crc16 payload → first + (1 + (payload.length + 15) / 16) ≤ 256 →
    findRecord ((s.writeGranules row first (recordGranules h payload)).readExtent row first
      (1 + (payload.length + 15) / 16)) = .intact h payload

/-- A completed program request wrote each granule before the failed one with its data, reading CLEAN, left every granule
after it and every other granule of the array as it was, and left the failed one programmed with uncertain content (R1, R14, R21;
log 7). -/
def Obligations.ProgramWritesItsGranules : Prop :=
  ∀ (s t : State) (r : Request) (granules : List Data) (failed : Option (Fin 16)), s.arrayOk → s.serves r →
    r.op = .program granules → exec (.programComplete failed) s = .next t →
    ∀ row g, g ≤ 255 →
      (¬ (row = r.row ∧ r.first ≤ g ∧ g < r.first + granules.length) → t.granule row g = s.granule row g) ∧
      ∀ i d, granules[i]? = some d → row = r.row → g = r.first + i →
        ((∀ j, failed = some j → i < j.val) → t.granule row g = .written .agrees d) ∧
        (∀ j, failed = some j → i = j.val → t.granule row g ≠ .blank) ∧
        ((∃ j, failed = some j ∧ j.val < i) → t.granule row g = s.granule row g)

/-- A completed erase left its row blank up to the first non-blank granule, that granule not blank, and every other row as
it was (R22); what the granules after the first non-blank one hold is free (log 8). -/
def Obligations.EraseClearsItsRow : Prop :=
  ∀ (s t : State) (e : EraseContext) (nonBlank : Option (BitVec 8)), s.arrayOk → s.erases e →
    exec (.eraseComplete nonBlank) s = .next t →
    ∀ row g, g ≤ 255 →
      (row ≠ e.request.row → t.granule row g = s.granule row g) ∧
      (row = e.request.row → nonBlank = none → t.granule row g = .blank) ∧
      (row = e.request.row → ∀ n, nonBlank = some n →
        (g < n.toNat → t.granule row g = .blank) ∧ (g = n.toNat → t.granule row g ≠ .blank))

/-- An erase that reaches its suspend point leaves each granule of its row blank, as it was, or reading UNCORRECTABLE, and
every other row as it was; its context stays with its count, and the array serves what waits (R22, R23, R25). -/
def Obligations.SuspendPointFreesTheArray : Prop :=
  ∀ (s : State) (e : EraseContext), s.arrayOk → s.resetPhase = .running → s.ctl.state = .erasing →
    s.ctl.erase = some e → e.suspending = true →
    ∃ t, exec .eraseSuspendPoint s = .next t ∧
      t = { s with
        ev := s.ev.after 0
        ctl := { s.ctl with state := .idle, erase := some { e with suspending := false } }.arbitrate
        cells := t.cells
        freeIdx := t.freeIdx } ∧
      ∀ row g, g ≤ 255 →
        (row ≠ e.request.row → t.granule row g = s.granule row g) ∧
        (t.granule row g = s.granule row g ∨ t.granule row g = .blank ∨ ∃ raw, t.granule row g = .written .bad raw)

/-- A read returns what its granules hold, BLANK past granule 255 (R19, R20). -/
def Obligations.ReadsReturnTheGranules : Prop :=
  ∀ (s : State) (row first count i : Nat), i < count →
    (s.readExtent row first count).length = count ∧
    (255 < first + i → (s.readExtent row first count)[i]? = some ⟨.blank, BitVec.allOnes 128⟩) ∧
    (first + i ≤ 255 →
      (s.granule row (first + i) = .blank → (s.readExtent row first count)[i]? = some ⟨.blank, BitVec.allOnes 128⟩) ∧
      ∀ d, (s.granule row (first + i) = .written .agrees d →
          (s.readExtent row first count)[i]? = some ⟨.clean, d⟩) ∧
        (s.granule row (first + i) = .written .oneBit d →
          (s.readExtent row first count)[i]? = some ⟨.corrected, d⟩) ∧
        (s.granule row (first + i) = .written .bad d →
          (s.readExtent row first count)[i]? = some ⟨.uncorrectable, d⟩))

/-! ### The arbiter and the faults -/

/-- At a free array without exclusive service the arbiter grants a waiting read or program of the lowest class, taking it
from the queue; with none waiting it resumes the suspended erase, else starts the waiting one with a count of 0, else the
array stays IDLE (R23, R24, R26).  Under exclusive service it grants the holder's requests alone, in the order they were issued, and
starts the holder's erase alone; what others have issued waits (R27).  A read or program that arrives while an erase runs joins the
queue and suspends the erase once, its count rising by 1, unless the count stands at 32, the erase is on its way to its suspend
point, or it is FORMAT's (R25, R27). -/
def Obligations.ArbiterGrantsAndSuspends : Prop :=
  (∀ (s : State) (r : Request) (e : EraseContext), s.ctl.state = .erasing → s.ctl.erase = some e →
    s.issue r = { s with ctl := { s.ctl with
      queue := s.ctl.queue ++ [r]
      erase := some (if e.suspending = false ∧ e.count < 32 ∧ e.request.requester ≠ .format then
        { e with count := e.count + 1, suspending := true } else e) } }) ∧
  (∀ c : Controller, c.state = .idle → c.holder = .nobody →
    (c.queue ≠ [] → ∃ r, r ∈ c.queue ∧ (∀ q ∈ c.queue, grantClass r.requester ≤ grantClass q.requester) ∧
      c.arbitrate = { c with state := r.op.serving, current := some r, queue := c.queue.erase r }) ∧
    (c.queue = [] → ∀ e, c.erase = some e → c.arbitrate = { c with state := .erasing }) ∧
    (c.queue = [] → c.erase = none → ∀ e, c.eraseWaiting = some e →
      c.arbitrate = { c with state := .erasing, erase := some ⟨e, 0, false⟩, eraseWaiting := none }) ∧
    (c.queue = [] → c.erase = none → c.eraseWaiting = none → c.arbitrate = c)) ∧
  ∀ (c : Controller) (who : Requester), c.state = .idle →
    (c.holder = .mount ∧ who = .mount ∨ c.holder = .format ∧ who = .format) →
    (∀ before r after, c.queue = before ++ r :: after → r.requester = who → (∀ q ∈ before, q.requester ≠ who) →
      c.arbitrate = { c with state := r.op.serving, current := some r, queue := before ++ after }) ∧
    ((∀ q ∈ c.queue, q.requester ≠ who) →
      (∀ e, c.erase = some e → c.arbitrate = { c with state := .erasing }) ∧
      (c.erase = none → ∀ e, c.eraseWaiting = some e → c.arbitrate =
        if e.requester = who then { c with state := .erasing, erase := some ⟨e, 0, false⟩, eraseWaiting := none } else c) ∧
      (c.erase = none → c.eraseWaiting = none → c.arbitrate = c))

/-- A completion captures its faults, frees the array and hands its result to the requester that waits for it; one no longer
waited for is used by nobody, but for a row left with a header (R28, R31; log 16).  A reply of the writer goes to the requester of
its append, and the writer then grants the next append (R94). -/
def Obligations.CompletionsReachTheirRequester : Prop :=
  (∀ (s : State) (r : Request) (count : Nat) (drift : List (BitVec 8 × Granule)), s.serves r → r.op = .read count →
    let u := s.readTaken r count drift
    let reads := s.readSeen r count drift
    exec (.readComplete drift) s = .next (s.begin.runEvent (if r.waited = true then
      match r.requester with
      | .get => (u.getReadDone r.row r.first reads, [])
      | .commit => (u, [])
      | .audit => (u.auditReadDone reads, [])
      | .reclaimer => u.reclaimReadDone reads
      | .mount => u.mountReadDone reads
      | .format => u.formatReadDone reads
      else (u, [])))) ∧
  (∀ (s : State) (r : Request) (granules : List Data) (failed : Option (Fin 16)), s.serves r → r.op = .program granules →
    (∀ i, failed = some i → i.val < granules.length) →
    let u := s.programTaken r granules failed
    exec (.programComplete failed) s = .next (s.begin.runEvent (if r.waited = true then
      match r.requester with
      | .commit | .reclaimer => u.writerProgramDone (failed.map Fin.val)
      | .format => u.formatProgramDone (failed.map Fin.val)
      | .get | .audit | .mount => (u, [])
      else (if r.first = 0 ∧ (u.row r.row).state = some .erased then
        { u with table := (u.setRow r.row { u.row r.row with
          state := some .dirty, sequence := 0, nextFree := 0, dead := 0, tainted := false }).table } else u, [])))) ∧
  (∀ (s : State) (e : EraseContext) (nonBlank : Option (BitVec 8)), s.erases e →
    let u := s.eraseTaken e.request nonBlank
    exec (.eraseComplete nonBlank) s = .next (s.begin.runEvent (if e.request.waited = true then
      match e.request.requester with
      | .reclaimer => u.reclaimEraseDone e.request.row nonBlank.isNone
      | .format => u.formatEraseDone nonBlank.isNone
      | .get | .commit | .audit | .mount => (u, [])
      else (u, [])))) ∧
  ∀ (s : State) (a : Append) (reply : Reply),
    (a.cls = .commit → s.handle (.reply a reply) = ((s.commitReply a reply).1, (s.commitReply a reply).2 ++ [.grant])) ∧
    (a.cls = .reclaimer → s.handle (.reply a reply) = ((s.reclaimReply reply).1, (s.reclaimReply reply).2 ++ [.grant]))

/-- A captured fault joins the end of the list and sets FAULT, or, with 8 entries in the list, leaves it and raises the
overflow counter; its kind's counter rises in either case, and each counter stops at 65535 (R34, R35).  FAULT_POP removes the
oldest fault and answers OK, or answers NOT_FOUND on an empty list; FAULT in EVENT stays, and the fault registers show the list that
is left (R36, R37). -/
def Obligations.FaultsCapturedAndPopped : Prop :=
  (∀ (s : State) (f : ArrayFault),
    let up := fun n : Nat => min (n + 1) 65535
    s.ctl.corrected ≤ 65535 → s.ctl.uncorrectable ≤ 65535 → s.ctl.overflow ≤ 65535 →
    s.capture f =
      { s with
        ev := if s.ctl.faults.length < 8 then
            { s.ev with event := s.ev.event ||| 0x10, justSet := s.ev.justSet ||| 0x10 } else s.ev
        ctl := { s.ctl with
          faults := if s.ctl.faults.length < 8 then s.ctl.faults ++ [f] else s.ctl.faults
          corrected := if f.kind = .corrected then up s.ctl.corrected else s.ctl.corrected
          uncorrectable := if f.kind = .uncorrectable ∨ f.kind = .checkFail then up s.ctl.uncorrectable
            else s.ctl.uncorrectable
          overflow := if s.ctl.faults.length < 8 then s.ctl.overflow else up s.ctl.overflow } }) ∧
  ∀ s : State, s.accepts .faultPop →
    (s.ctl.faults = [] → exec .faultPop s = .next (s.answered .faultPop .notFound)) ∧
    ∀ f rest, s.ctl.faults = f :: rest →
      ∃ t, exec .faultPop s = .next t ∧
        t = { s.answered .faultPop .ok with ctl := { s.ctl with faults := rest } } ∧
        t.registerValue 0x1C = BitVec.ofNat 8 rest.length ∧
        (rest = [] → t.registerValue 0x19 = 0 ∧ t.registerValue 0x1A = 0 ∧ t.registerValue 0x1B = 0) ∧
        ∀ g more, rest = g :: more → t.registerValue 0x19 = (g.kind.code <<< 4) ||| g.origin.code ∧
          t.registerValue 0x1A = BitVec.ofNat 8 g.row ∧ t.registerValue 0x1B = BitVec.ofNat 8 g.granule

/-! ### The command unit -/

/-- A known command other than RESET, written while the unit is IDLE, is refused by MODE with the table's code and no other
effect, or goes on to its own rule (R167, R168, R170). -/
def Obligations.ModeTable : Prop :=
  ∀ (s : State) (c : Command), c ≠ .reset → s.unitFree →
    (s.win.mode = .mounting → exec c.instr s = .next (s.answered c .notReady)) ∧
    (s.win.mode = .formatting → c ≠ .info → c ≠ .faultPop → c ≠ .guardRead →
      exec c.instr s = .next (s.answered c .notReady)) ∧
    (s.win.mode = .unformatted → c ∈ [Command.stagePut, .stageDelete, .discard, .commit, .get, .stat, .nextKey, .audit,
        .auditAbort] → exec c.instr s = .next (s.answered c .notFormatted)) ∧
    ((s.win.mode = .ready ∨ s.win.mode = .readOnly ∨
        (s.win.mode = .formatting ∧ c ∈ [Command.info, .faultPop, .guardRead]) ∨
        (s.win.mode = .unformatted ∧ c ∈ [Command.format, .info, .faultPop, .guardSet, .guardFreeze, .guardRead,
          .reclaim])) →
      s.accepts c ∧ exec c.instr s = .next (commandBody c (s.begin.take c)))

/-- A CMD write of a code outside the command table is stored as the last code taken and answered with BAD_COMMAND, in
every mode (R167).  While the unit is EXECUTING, a CMD write of any code but RESET's is dropped: REFUSED is set and nothing else
changes (R169).  A RESET is taken in any mode and in either state of the unit: CMD reads 0x5F and the unit is EXECUTING; from then
on, as in a power-on or pin reset, every bus write is ignored (R169, R174, R175). -/
def Obligations.OtherCmdWritesAndReset : Prop :=
  ((∀ (s : State) (code : Byte), s.unitFree → code ∉ commandCodes →
    exec (.badCommand code) s = .next { s with
      win := { s.win with lastCode := code, cu := .idle, result := .badCommand }
      ev := s.ev.after 0x01 }) ∧
  ∀ (s : State), s.resetPhase = .running → s.win.cu = .executing →
    (∀ c : Command, c ≠ .reset → exec c.instr s = .next { s with ev := s.ev.after 0x80 }) ∧
    ∀ code : Byte, code ≠ 0x5F →
      exec (.cmdWriteDropped code) s = .next { s with ev := s.ev.after 0x80 } ∧
      exec (.badCommand code) s = .next { s with ev := s.ev.after 0x80 }) ∧
  (∀ s : State, s.resetPhase = .running →
    exec .reset s = .next { s with
      win := { s.win with lastCode := 0x5F, cu := .executing }, ev := s.ev.after 0, resetPhase := .commandTaken }) ∧
  ∀ s : State, s.resetPhase ≠ .running →
    (∀ c : Command, exec c.instr s = .next s.quietly) ∧
    (∀ b : Byte, exec (.badCommand b) s = .next s.quietly ∧ exec (.cmdWriteDropped b) s = .next s.quietly ∧
      exec (.dataWrite b) s = .next s.quietly ∧ exec (.dptrWrite b) s = .next s.quietly ∧
      exec (.statusWrite b) s = .next s.quietly ∧ exec (.eventEnWrite b) s = .next s.quietly ∧
      (∀ together, exec (.eventWrite b together) s = .next s.quietly) ∧
      ∀ offset, exec (.hostRegisterWrite offset b) s = .next s.quietly)

/-! ### The bus -/

/-- A write of DATA stores the byte at DPTR, raises DPTR and brings FILL up to it, or at 240 drops the byte and sets OVERRUN
(R163), whatever the command unit and the mode are. -/
def Obligations.DataWriteStores : Prop :=
  ∀ (s : State) (b : Byte), s.resetPhase = .running →
    (s.win.dptr < 240 →
      ∃ t, exec (.dataWrite b) s = .next t ∧
        t = { s with
          win := { s.win with buffer := t.win.buffer, dptr := s.win.dptr + 1, fill := max s.win.fill (s.win.dptr + 1) }
          ev := s.ev.after 0 } ∧
        ∀ i : Nat, i < 240 → t.win.buffer[i]? = if i = s.win.dptr then some b else s.win.buffer[i]?) ∧
    (s.win.dptr = 240 →
      exec (.dataWrite b) s = .next { s with win := { s.win with overrun := true }, ev := s.ev.after 0 })

/-- A read of DATA returns the byte at DPTR and raises DPTR, or at or above FILL returns 0xFF, sets OVERRUN and leaves DPTR
(R164); it is served too between a RESET's taking and its effect (R175), and drives nothing in a power-on or pin reset
(R174).  The byte driven is held in the model's own field (log 14).  A read cycle at any register drives its value, a RESET taken
or not, and while a power-on or pin reset is in force it drives nothing (R161, R174, R175). -/
def Obligations.DataReadReturns : Prop :=
  (∀ (s : State) (offset : Nat),
    ((s.resetPhase = .running ∨ s.resetPhase = .commandTaken) → s.busRead offset = some (s.registerValue offset)) ∧
    ∀ power, s.resetPhase = .held power → s.busRead offset = none) ∧
  ∀ s : State,
    ((s.resetPhase = .running ∨ s.resetPhase = .commandTaken) → s.win.fill ≤ 240 →
      (∀ b, s.win.dptr < s.win.fill → s.win.buffer[s.win.dptr]? = some b →
        exec .dataRead s = .next { s with
          win := { s.win with dataOut := some b, dptr := s.win.dptr + 1 }, ev := s.ev.after 0 }) ∧
      (s.win.dptr < s.win.fill → ∃ b, s.win.buffer[s.win.dptr]? = some b) ∧
      (s.win.fill ≤ s.win.dptr →
        exec .dataRead s = .next { s with
          win := { s.win with dataOut := some 0xFF, overrun := true }, ev := s.ev.after 0 })) ∧
    ∀ power, s.resetPhase = .held power →
      exec .dataRead s = .next { s with win := { s.win with dataOut := none }, ev := s.ev.after 0 }

/-- A write of DPTR sets it, to 240 above 240 (R165); a write of STATUS clears OVERRUN where its bit is 1 and does nothing
else (R166).  STATUS shows its seven conditions, each in its bit, and bit 7 reads 0; the WPROT# pin takes the new level, and the
WPROT bit reads 1 while it is low (R158, R166, R177). -/
def Obligations.PointerStatusAndPin : Prop :=
  (∀ (s : State) (b : Byte), s.resetPhase = .running →
    exec (.dptrWrite b) s = .next { s with
      win := { s.win with dptr := if 240 < b.toNat then 240 else b.toNat }, ev := s.ev.after 0 } ∧
    exec (.statusWrite b) s = .next { s with
      win := { s.win with overrun := s.win.overrun && !b.getLsbD 5 }, ev := s.ev.after 0 }) ∧
  (∀ s : State,
    (s.registerValue 0x01).getLsbD 0 = decide (s.win.cu = .executing) ∧
    (s.registerValue 0x01).getLsbD 1 = (decide (s.engine.state ≠ .idle) || s.fmt.isSome) ∧
    (s.registerValue 0x01).getLsbD 2 = s.aud.running ∧
    (s.registerValue 0x01).getLsbD 3 = decide (s.recl.job ≠ .idle) ∧
    (s.registerValue 0x01).getLsbD 4 = s.table.purgePending ∧
    (s.registerValue 0x01).getLsbD 5 = s.win.overrun ∧
    (s.registerValue 0x01).getLsbD 6 = s.wprotLow ∧
    (s.registerValue 0x01).getLsbD 7 = false) ∧
  ∀ (s : State) (high : Bool), ∃ t, exec (.wprotChange high) s = .next t ∧
    t = { s with wprotLow := !high, ev := s.ev.after 0 } ∧ (t.registerValue 0x01).getLsbD 6 = !high

/-- A write of EVENT clears the flags written 1, but for one set in the same instant; a write of EVENT_EN stores all eight
enables; IRQ# is low while some flag is set together with its enable (R172).  Which flags fall together with the write is the
model's operand (log 13). -/
def Obligations.EventWrites : Prop :=
  ∀ (s : State) (b : Byte), s.resetPhase = .running →
    (∀ together : Bool, ∃ t, exec (.eventWrite b together) s = .next t ∧
      t = { s with ev := { event := t.ev.event, enable := s.ev.enable, justSet := 0 } } ∧
      ∀ i, i < 8 → t.ev.event.getLsbD i =
        (s.ev.event.getLsbD i && (!b.getLsbD i || (together && s.ev.justSet.getLsbD i)))) ∧
    exec (.eventEnWrite b) s = .next { s with ev := { event := s.ev.event, enable := b, justSet := 0 } } ∧
    (s.irqLow = true ↔ ∃ i, i < 8 ∧ s.ev.event.getLsbD i = true ∧ s.ev.enable.getLsbD i = true)

/-- A write of a host register stores the byte, which a read of it then returns (DPTR stops at 240), and changes nothing
else; a write of a part register is ignored; the special registers go by their own rules (R162, R165, R177).  That a write
cycle to a special register's offset is that register's own command is the model's reading (log 15). -/
def Obligations.RegisterWrites : Prop :=
  (∀ (s : State) (b : Byte), s.resetPhase = .running →
    let wrote : Window → Host.Outcome State Fault Refusal := fun w => .next { s with win := w, ev := s.ev.after 0 }
    exec (.hostRegisterWrite 0x05 b) s = .next { s with ev := { event := s.ev.event, enable := b, justSet := 0 } } ∧
    exec (.hostRegisterWrite 0x06 b) s = wrote { s.win with key := s.win.key.extractLsb' 8 8 ++ b } ∧
    exec (.hostRegisterWrite 0x07 b) s = wrote { s.win with key := b ++ s.win.key.extractLsb' 0 8 } ∧
    exec (.hostRegisterWrite 0x08 b) s = wrote { s.win with key2 := s.win.key2.extractLsb' 8 8 ++ b } ∧
    exec (.hostRegisterWrite 0x09 b) s = wrote { s.win with key2 := b ++ s.win.key2.extractLsb' 0 8 } ∧
    exec (.hostRegisterWrite 0x0A b) s = wrote { s.win with len := b } ∧
    exec (.hostRegisterWrite 0x0B b) s = wrote { s.win with arg := b } ∧
    exec (.hostRegisterWrite 0x0D b) s = wrote { s.win with dptr := if 240 < b.toNat then 240 else b.toNat } ∧
    exec (.hostRegisterWrite 0x13 b) s = wrote { s.win with sig := s.win.sig.extractLsb' 8 24 ++ b } ∧
    exec (.hostRegisterWrite 0x14 b) s =
      wrote { s.win with sig := s.win.sig.extractLsb' 16 16 ++ b ++ s.win.sig.extractLsb' 0 8 } ∧
    exec (.hostRegisterWrite 0x15 b) s =
      wrote { s.win with sig := s.win.sig.extractLsb' 24 8 ++ b ++ s.win.sig.extractLsb' 0 16 } ∧
    exec (.hostRegisterWrite 0x16 b) s = wrote { s.win with sig := b ++ s.win.sig.extractLsb' 0 24 } ∧
    (∀ offset ∈ [0x02#5, 0x03#5, 0x0E#5, 0x0F#5, 0x10#5, 0x11#5, 0x12#5, 0x17#5, 0x18#5, 0x19#5, 0x1A#5, 0x1B#5, 0x1C#5,
        0x1D#5, 0x1E#5, 0x1F#5], exec (.hostRegisterWrite offset b) s = .next s.quietly) ∧
    exec (.hostRegisterWrite 0x00 b) s = exec (.badCommand b) s ∧
    exec (.hostRegisterWrite 0x01 b) s = exec (.statusWrite b) s ∧
    exec (.hostRegisterWrite 0x04 b) s = exec (.eventWrite b false) s ∧
    exec (.hostRegisterWrite 0x0C b) s = exec (.dataWrite b) s) ∧
  ∀ s : State,
    s.registerValue 0x05 = s.ev.enable ∧
    s.registerValue 0x06 = s.win.key.extractLsb' 0 8 ∧ s.registerValue 0x07 = s.win.key.extractLsb' 8 8 ∧
    s.registerValue 0x08 = s.win.key2.extractLsb' 0 8 ∧ s.registerValue 0x09 = s.win.key2.extractLsb' 8 8 ∧
    s.registerValue 0x0A = s.win.len ∧ s.registerValue 0x0B = s.win.arg ∧
    s.registerValue 0x0D = BitVec.ofNat 8 s.win.dptr ∧
    s.registerValue 0x13 = s.win.sig.extractLsb' 0 8 ∧ s.registerValue 0x14 = s.win.sig.extractLsb' 8 8 ∧
    s.registerValue 0x15 = s.win.sig.extractLsb' 16 8 ∧ s.registerValue 0x16 = s.win.sig.extractLsb' 24 8

/-! ### Staging -/

/-- STAGE_PUT's checks in their order, and STAGE_DELETE's, which asks the directory last; a refusal posts its code with
CMD_DONE and changes nothing else (R57, R60). -/
def Obligations.StagingChecksInOrder : Prop :=
  (∀ (s : State) (r : ResultCode), s.accepts .stagePut →
    (if s.staging.lock = true then some ResultCode.stagingLocked
      else if s.win.key = 0xFFFF ∨ 240 < s.win.len.toNat then some .badArg
      else if guardMode s.guards s.win.key ≠ .off then some .guarded
      else if s.win.key.toNat ∈ s.staging.entries.map StagedEntry.key then some .duplicate
      else if 16 ≤ s.staging.entries.length then some .stagingFull
      else if 1024 < s.staging.poolFill + s.win.len.toNat then some .poolFull
      else none) = some r →
    exec .stagePut s = .next (s.answered .stagePut r)) ∧
  ∀ (s : State) (r : ResultCode), s.accepts .stageDelete →
    (if s.staging.lock = true then some ResultCode.stagingLocked
      else if s.win.key = 0xFFFF then some .badArg
      else if guardMode s.guards s.win.key ≠ .off then some .guarded
      else if s.win.key.toNat ∈ s.staging.entries.map StagedEntry.key then some .duplicate
      else if 16 ≤ s.staging.entries.length then some .stagingFull
      else match dirFind s.dir s.win.key.toNat with
        | none => some .notFound
        | some e => if e.state = .tombstone then some .notFound else none) = some r →
    exec .stageDelete s = .next (s.answered .stageDelete r)

/-- A STAGE_PUT that passes its checks appends the entry, writes the first LEN bytes of the transfer buffer into the pool
from the pool fill on, forecasts the version in VER, and answers OK (R58, R59).  A STAGE_DELETE that passes its checks appends the
entry, leaves the pool, forecasts the version in VER, and answers OK (R60).  DISCARD empties an unlocked staged set and sets the pool
fill to 0; a locked one answers STAGING_LOCKED (R61). -/
def Obligations.StagedSetCommands : Prop :=
  (∀ s : State, s.accepts .stagePut → s.staging.lock = false → s.win.key ≠ 0xFFFF → s.win.len.toNat ≤ 240 →
    guardMode s.guards s.win.key = .off → s.win.key.toNat ∉ s.staging.entries.map StagedEntry.key →
    s.staging.entries.length < 16 → s.staging.poolFill + s.win.len.toNat ≤ 1024 →
    ∃ t, exec .stagePut s = .next t ∧
      t = { s.answered .stagePut .ok with
        win := { s.win.answered .stagePut .ok with ver := BitVec.ofNat 16 (
          match dirFind s.dir s.win.key.toNat with
          | none => 1
          | some e => if e.version = 65535 then 1 else e.version + 1) }
        staging := {
          entries := s.staging.entries ++ [⟨.put, s.win.key.toNat, s.win.len.toNat, some s.staging.poolFill⟩]
          pool := t.staging.pool
          poolFill := s.staging.poolFill + s.win.len.toNat
          lock := false } } ∧
      ∀ i : Nat, i < 1024 → t.staging.pool[i]? =
        if s.staging.poolFill ≤ i ∧ i < s.staging.poolFill + s.win.len.toNat
        then s.win.buffer[i - s.staging.poolFill]? else s.staging.pool[i]?) ∧
  (∀ (s : State) (e : DirEntry), s.accepts .stageDelete → s.staging.lock = false → s.win.key ≠ 0xFFFF →
    guardMode s.guards s.win.key = .off → s.win.key.toNat ∉ s.staging.entries.map StagedEntry.key →
    s.staging.entries.length < 16 → dirFind s.dir s.win.key.toNat = some e → (e.state = .live ∨ e.state = .damaged) →
    exec .stageDelete s = .next { s.answered .stageDelete .ok with
      win := { s.win.answered .stageDelete .ok with
        ver := BitVec.ofNat 16 (if e.version = 65535 then 1 else e.version + 1) }
      staging := { s.staging with entries := s.staging.entries ++ [⟨.delete, s.win.key.toNat, 0, none⟩] } }) ∧
  ∀ s : State, s.accepts .discard →
    (s.staging.lock = true → exec .discard s = .next (s.answered .discard .stagingLocked)) ∧
    (s.staging.lock = false → exec .discard s = .next { s.answered .discard .ok with
      staging := { s.staging with entries := [], poolFill := 0 } })

/-! ### Reading -/

/-- GET's checks in their order; a refused GET answers and changes nothing else (R136). -/
def Obligations.GetChecksInOrder : Prop :=
  ∀ (s : State) (r : ResultCode), s.accepts .get →
    (if s.win.key = 0xFFFF then some ResultCode.badArg
      else if guardMode s.guards s.win.key = .noAccess then some .guarded
      else match dirFind s.dir s.win.key.toNat with
        | none => some .notFound
        | some e =>
          match e.state with
          | .tombstone => some .notFound
          | .damaged => some .damaged
          | .live => none) = some r →
    exec .get s = .next (s.answered .get r)

/-- A GET of a LIVE key asks the array for the record's extent with origin HOST, and the unit stays EXECUTING with the key
latched (R137, R168).  When GET's read finds the record intact, its payload goes to the transfer buffer, FILL and LEN take its
length, DPTR 0, VER its version, and GET answers OK; found unreadable, GET captures the CHECK_FAIL that R32 calls for, marks the entry
damaged and answers UNCORRECTABLE, and buffer, FILL, DPTR, VER and LEN stay; a CORRECTED granule queues a refresh either way (R32,
R48, R112, R138, R139).  Only a reclaimer that was IDLE may have begun a job besides. -/
def Obligations.GetReadsAndEnds : Prop :=
  (∀ (s : State) (e : DirEntry), s.accepts .get → s.win.key ≠ 0xFFFF → guardMode s.guards s.win.key ≠ .noAccess →
    dirFind s.dir s.win.key.toNat = some e → e.state = .live →
    exec .get s = .next { s with
      win := { s.win with lastCode := 0x10, latch := { s.win.latch with key := s.win.key }, cu := .executing }
      ev := s.ev.after 0
      ctl := (s.issue ⟨.get, .host, e.row, e.granule, .read (1 + (e.length + 15) / 16), true⟩).ctl.arbitrate }) ∧
  (∀ (s : State) (drift : List (BitVec 8 × Granule)) (row first count : Nat) (h : RecordHeader) (payload : List Byte),
    let r : Request := ⟨.get, .host, row, first, .read count, true⟩
    s.serves r → s.calm → findRecord (s.readSeen r count drift) = .intact h payload →
    ∃ t, exec (.readComplete drift) s = .next t ∧ s.win.filled t.win payload ∧
      State.reclaimerActs
        (let u := s.readTaken r count drift
        { u with
          win := { s.win with
            buffer := t.win.buffer, fill := payload.length, dptr := 0, ver := BitVec.ofNat 16 h.version
            len := BitVec.ofNat 8 payload.length, result := .ok, cu := .idle }
          ev := { u.ev with event := u.ev.event ||| 0x01, justSet := u.ev.justSet ||| 0x01 }
          recl := { s.recl with
            refresh := s.queueAfter (s.readSeen r count drift) s.win.latch.key.toNat row first } }) t) ∧
  ∀ (s : State) (drift : List (BitVec 8 × Granule)) (row first count : Nat) (h : RecordHeader) (fail : Bool),
    let r : Request := ⟨.get, .host, row, first, .read count, true⟩
    s.serves r → s.calm →
    (findRecord (s.readSeen r count drift) = .unreadable h fail ∨
      findRecord (s.readSeen r count drift) = .notIntact fail) →
    ∃ t, exec (.readComplete drift) s = .next t ∧
      State.reclaimerActs
        (let u := ((s.readTaken r count drift).captureCheck fail .host row first).markDamaged s.win.latch.key.toNat row first
        { u with
          win := { s.win with result := .uncorrectable, cu := .idle }
          ev := { u.ev with event := u.ev.event ||| 0x01, justSet := u.ev.justSet ||| 0x01 }
          recl := { s.recl with
            refresh := s.queueAfter (s.readSeen r count drift) s.win.latch.key.toNat row first } }) t

/-- STAT refuses a bad or unreadable key or answers with the 14-byte image of the key's entry, in any state (R141, R177). -/
def Obligations.StatShowsTheEntry : Prop :=
  ∀ s : State, s.accepts .stat →
    (s.win.key = 0xFFFF → exec .stat s = .next (s.answered .stat .badArg)) ∧
    (s.win.key ≠ 0xFFFF → guardMode s.guards s.win.key = .noAccess →
      exec .stat s = .next (s.answered .stat .guarded)) ∧
    (s.win.key ≠ 0xFFFF → guardMode s.guards s.win.key ≠ .noAccess →
      (dirFind s.dir s.win.key.toNat = none → exec .stat s = .next (s.answered .stat .notFound)) ∧
      ∀ e, dirFind s.dir s.win.key.toNat = some e →
        ∃ t, exec .stat s = .next t ∧
          t = { s.answered .stat .ok with
            win := { s.win.answered .stat .ok with buffer := t.win.buffer, fill := 14, dptr := 0 } } ∧
          s.win.filled t.win (bytesOf 2 e.key ++
            [match e.state with | .live => (1 : Byte) | .tombstone => 2 | .damaged => 3] ++ bytesOf 2 e.version ++
            bytesOf 4 e.setId ++ bytesOf 1 e.length ++ bytesOf 1 e.row ++ bytesOf 1 e.granule ++ bytesOf 2 e.stale))

/-- NEXT_KEY returns the smallest key at or above KEY that is LIVE or DAMAGED and not NO_ACCESS, with OK or DAMAGED, or
answers NOT_FOUND (R142). -/
def Obligations.NextKeyFindsTheNext : Prop :=
  ∀ s : State, s.accepts .nextKey →
    let shown := fun e : DirEntry => s.win.key.toNat ≤ e.key ∧ e.state ≠ .tombstone ∧
      guardMode s.guards (BitVec.ofNat 16 e.key) ≠ .noAccess
    (s.win.key = 0xFFFF → exec .nextKey s = .next (s.answered .nextKey .badArg)) ∧
    (s.win.key ≠ 0xFFFF → (∀ e ∈ s.dir, ¬ shown e) → exec .nextKey s = .next (s.answered .nextKey .notFound)) ∧
    (s.win.key ≠ 0xFFFF → s.dirOk → ∀ e ∈ s.dir, shown e → (∀ o ∈ s.dir, shown o → e.key ≤ o.key) →
      exec .nextKey s = .next { s.answered .nextKey .ok with
        win := { s.win.answered .nextKey (if e.state = .damaged then .damaged else .ok) with
          key := BitVec.ofNat 16 e.key } })

/-- INFO answers OK with the 32-byte status image: each item from its owning block, at its position (R143, R177). -/
def Obligations.InfoShowsTheStatus : Prop :=
  ∀ s : State, s.accepts .info →
    ∃ t, exec .info s = .next t ∧
      t = { s.answered .info .ok with
        win := { s.win.answered .info .ok with buffer := t.win.buffer, fill := 32, dptr := 0 } } ∧
      s.win.filled t.win (
        bytesOf 4 s.table.journalId ++
        bytesOf 4 (match s.engine.nextSetId with | .id n => n | .exhausted => 0 | .unset => 0) ++
        bytesOf 2 s.dir.length ++
        bytesOf 2 (s.dir.countP (fun e => e.state = .live)) ++
        bytesOf 2 (s.dir.countP (fun e => e.state = .tombstone)) ++
        bytesOf 2 (s.dir.countP (fun e => e.state = .damaged)) ++
        bytesOf 1 ((List.range 64).countP (fun r => (s.row r).state = some .erased)) ++
        bytesOf 1 ((List.range 64).countP (fun r => (s.row r).state = some .bad)) ++
        bytesOf 1 (s.openRow.getD 255) ++
        bytesOf 1 (match s.openRow with
          | none => 0
          | some r => if (s.row r).nextFree = 256 then 0 else (s.row r).nextFree) ++
        bytesOf 2 s.freeGranules ++ bytesOf 2 s.reclaimable ++ bytesOf 2 s.ctl.corrected ++
        bytesOf 2 s.ctl.uncorrectable ++ bytesOf 2 s.ctl.overflow ++ bytesOf 1 s.recl.refresh.length ++
        [s.win.mountFlags.byte])

/-! ### The audit -/

/-- AUDIT's checks in their order; a refusal leaves the unit and its registers (R145).  AUDIT_ABORT ends a running audit
ABORTED with SIG 0 and ACOUNT the records signed, its outstanding read served unused; with no audit running it answers NOT_FOUND and
changes nothing else (R144, R151, R28).  What the idle unit keeps of its range, signature, count and last key is the model's
(log 42). -/
def Obligations.AuditRefusedAndAborted : Prop :=
  (∀ (s : State) (r : ResultCode), s.accepts .audit →
    (if s.win.key = 0xFFFF ∨ s.win.key2 = 0xFFFF ∨ s.win.key2 < s.win.key then some ResultCode.badArg
      else if s.aud.running = true then some .busy
      else if ∃ i : Fin 4, (guardAt s.guards i).mode = .noAccess ∧ (guardAt s.guards i).lo ≤ s.win.key2 ∧
        s.win.key ≤ (guardAt s.guards i).hi then some .guarded
      else none) = some r →
    exec .audit s = .next (s.answered .audit r)) ∧
  ∀ s : State, s.accepts .auditAbort →
    (s.aud.running = false → exec .auditAbort s = .next (s.answered .auditAbort .notFound)) ∧
    (s.aud.running = true → exec .auditAbort s = .next { s with
      win := { s.win.answered .auditAbort .ok with
        auditResult := .aborted, sig := 0, acount := BitVec.ofNat 16 s.aud.count }
      ev := s.ev.after 0x05
      aud := { s.aud with running := false, reading := none }
      ctl := { s.ctl with
        current := s.ctl.current.map (fun r => if r.requester = .audit then { r with waited := false } else r)
        queue := s.ctl.queue.map (fun r => if r.requester = .audit then { r with waited := false } else r)
        eraseWaiting := s.ctl.eraseWaiting.map (fun e => if e.requester = .audit then { e with waited := false } else e)
        erase := s.ctl.erase.map (fun e =>
          if e.request.requester = .audit then { e with request := { e.request with waited := false } } else e) } })

/-- An AUDIT that passes its checks starts and makes its first visit: the read of the first LIVE entry in range, or an end
DAMAGED with SIG 0 and ACOUNT 0 at a DAMAGED one, or, with neither, the end with SIG 0 and OK or MISMATCH (R145, R147 to
R149).  What the unit keeps after such an end, and that its read is queued whatever audit reads are outstanding, is the
model's (logs 42 and 46). -/
def Obligations.AuditStarts : Prop :=
  ∀ s : State, s.accepts .audit → s.fmt = none → s.dirOk →
    s.win.key ≠ 0xFFFF → s.win.key2 ≠ 0xFFFF → s.win.key ≤ s.win.key2 → s.aud.running = false →
    (∀ i, i < 4 → (guardAt s.guards i).mode = .noAccess → (guardAt s.guards i).lo ≤ s.win.key2 →
      ¬ s.win.key ≤ (guardAt s.guards i).hi) →
    let seen := fun e : DirEntry => e.state ≠ .tombstone ∧ s.win.key.toNat ≤ e.key ∧ e.key ≤ s.win.key2.toNat
    let started : AuditUnit := ⟨true, s.win.key.toNat, s.win.key2.toNat, s.win.sig, 0xFFFFFFFF, 0, none, none⟩
    (∀ e ∈ s.dir, seen e → (∀ o ∈ s.dir, seen o → e.key ≤ o.key) →
      (e.state = .live → exec .audit s = .next { s.answered .audit .ok with
        aud := { started with lastKey := some e.key, reading := some (e.key, ⟨e.row, e.granule⟩) }
        ctl := (s.issue ⟨.audit, .audit, e.row, e.granule, .read (1 + (e.length + 15) / 16), true⟩).ctl.arbitrate }) ∧
      (e.state = .damaged → exec .audit s = .next { s with
        win := { s.win.answered .audit .ok with auditResult := .damaged, sig := 0, acount := 0 }
        ev := s.ev.after 0x05
        aud := { started with running := false }
        ctl := (s.abandonRequests .audit).ctl.arbitrate })) ∧
    ((∀ e ∈ s.dir, ¬ seen e) → exec .audit s = .next { s with
      win := { s.win.answered .audit .ok with
        auditResult := if s.win.sig = 0 then .ok else .mismatch, sig := 0, acount := 0 }
      ev := s.ev.after 0x05
      aud := { started with running := false }
      ctl := (s.abandonRequests .audit).ctl.arbitrate })

/-- When the audit's read finds its record intact, the record feeds the signature and raises the count, a CORRECTED granule
queues a refresh, and the next visit is made in the same event: the read of the next LIVE entry in range, the end DAMAGED with SIG 0
at a DAMAGED one, or, with neither, the end with the signature and OK or MISMATCH (R112, R146 to R149).  Found unreadable, the unit
captures the CHECK_FAIL that R32 calls for, marks the entry damaged and ends DAMAGED with SIG 0; ACOUNT is the records signed (R149).
What the unit keeps after an end is the model's (log 42).  Only a reclaimer that was IDLE may have begun a job besides. -/
def Obligations.AuditReadEnds : Prop :=
  ∀ (s : State) (drift : List (BitVec 8 × Granule)) (key row first count last : Nat),
    let r : Request := ⟨.audit, .audit, row, first, .read count, true⟩
    s.serves r → s.calm → s.dirOk → s.aud.reading = some (key, ⟨row, first⟩) → s.aud.lastKey = some last →
    let reads := s.readSeen r count drift
    let queued : Reclaimer := { s.recl with refresh := s.queueAfter reads key row first }
    let ended := fun (u : State) (result : ResultCode) (sig : BitVec 32) => ({ u with
      win := { s.win with auditResult := result, sig := sig, acount := BitVec.ofNat 16 u.aud.count }
      ev := { u.ev with event := u.ev.event ||| 0x04, justSet := u.ev.justSet ||| 0x04 }
      aud := { u.aud with running := false, reading := none }
      ctl := (u.abandonRequests .audit).ctl } : State)
    (∀ h payload, findRecord reads = .intact h payload →
      let fed := crc32Feed s.aud.signature ([BitVec.ofNat 8 h.key, BitVec.ofNat 8 (h.key / 256), BitVec.ofNat 8 h.version,
        BitVec.ofNat 8 (h.version / 256), BitVec.ofNat 8 h.length] ++ payload)
      let u : State := { s.readTaken r count drift with
        recl := queued, aud := { s.aud with signature := fed, count := s.aud.count + 1, reading := none } }
      let seen := fun e : DirEntry => e.state ≠ .tombstone ∧ last < e.key ∧ e.key ≤ s.aud.hi
      ∃ t, exec (.readComplete drift) s = .next t ∧
        (∀ e ∈ s.dir, seen e → (∀ o ∈ s.dir, seen o → e.key ≤ o.key) →
          (e.state = .live → State.reclaimerActs { u with
            aud := { u.aud with lastKey := some e.key, reading := some (e.key, ⟨e.row, e.granule⟩) }
            ctl := (u.issue ⟨.audit, .audit, e.row, e.granule, .read (1 + (e.length + 15) / 16), true⟩).ctl } t) ∧
          (e.state = .damaged → (ended u .damaged 0).reclaimerActs t)) ∧
        ((∀ e ∈ s.dir, ¬ seen e) →
          (ended u (if fed ^^^ 0xFFFFFFFF = s.aud.expected then .ok else .mismatch) (fed ^^^ 0xFFFFFFFF)).reclaimerActs t)) ∧
    ∀ h fail, (findRecord reads = .unreadable h fail ∨ findRecord reads = .notIntact fail) →
      ∃ t, exec (.readComplete drift) s = .next t ∧
        (ended { ((s.readTaken r count drift).captureCheck fail .audit row first).markDamaged key row first with
          recl := queued } .damaged 0).reclaimerActs t

/-- The two cyclic checks give the spec's example values (R10, R146). -/
def Obligations.ChecksGiveTheExamples : Prop :=
  crc16 [0x31, 0x32, 0x33, 0x34, 0x35, 0x36, 0x37, 0x38, 0x39] = 0x29B1 ∧ crc16 [0x00] = 0xE1F0 ∧ crc16 [] = 0xFFFF ∧
  crc32Final (crc32Feed crc32Start [0x31, 0x32, 0x33, 0x34, 0x35, 0x36, 0x37, 0x38, 0x39]) = 0xCBF43926 ∧
  crc32Final (crc32Feed crc32Start []) = 0

/-! ### Guards -/

/-- The guard mode of a key is the strictest among the modes of the entries the key lies in, OFF without any (R154). -/
def Obligations.GuardModeIsTheStrictest : Prop :=
  ∀ (guards : Vector Guard 4) (key : KeyWord),
    let lies := fun i : Nat => i < 4 ∧ (guardAt guards i).lo ≤ key ∧ key ≤ (guardAt guards i).hi
    (guardMode guards key = .noAccess ↔ ∃ i, lies i ∧ (guardAt guards i).mode = .noAccess) ∧
    (guardMode guards key = .noWrite ↔
      (∃ i, lies i ∧ (guardAt guards i).mode = .noWrite) ∧ ¬ ∃ i, lies i ∧ (guardAt guards i).mode = .noAccess) ∧
    (guardMode guards key = .off ↔ ∀ i, lies i → (guardAt guards i).mode = .off)

/-- GUARD_SET refuses by its checks in their order, or replaces the entry's range and mode whole and answers OK (R155). -/
def Obligations.GuardSetWrites : Prop :=
  ∀ s : State, s.accepts .guardSet →
    let index := (s.win.arg.extractLsb' 0 4).toNat
    let code := (s.win.arg.extractLsb' 4 4).toNat
    let check :=
      if 3 < index then some ResultCode.badArg
      else if s.wprotLow = true then some .pinLocked
      else if (guardAt s.guards index).frozen = true then some .frozen
      else if 2 < code ∨ s.win.key = 0xFFFF ∨ s.win.key2 = 0xFFFF ∨ s.win.key2 < s.win.key then some .badArg
      else none
    (∀ r, check = some r → exec .guardSet s = .next (s.answered .guardSet r)) ∧
    (check = none → ∃ t, exec .guardSet s = .next t ∧
      t = { s.answered .guardSet .ok with guards := t.guards } ∧
      ∀ i, i < 4 → guardAt t.guards i = if i = index then
        ⟨s.win.key, s.win.key2, if code = 0 then .off else if code = 1 then .noWrite else .noAccess, false⟩
        else guardAt s.guards i)

/-- GUARD_FREEZE refuses by its checks in their order, or sets the entry's frozen field and answers OK (R156).  GUARD_READ
refuses an index above 3, or answers OK with the 6-byte image of the entry (R157, R177). -/
def Obligations.GuardFreezeAndRead : Prop :=
  (∀ s : State, s.accepts .guardFreeze →
    (3 < s.win.arg.toNat → exec .guardFreeze s = .next (s.answered .guardFreeze .badArg)) ∧
    (s.win.arg.toNat ≤ 3 → s.wprotLow = true → exec .guardFreeze s = .next (s.answered .guardFreeze .pinLocked)) ∧
    (s.win.arg.toNat ≤ 3 → s.wprotLow = false → ∃ t, exec .guardFreeze s = .next t ∧
      t = { s.answered .guardFreeze .ok with guards := t.guards } ∧
      ∀ i, i < 4 → guardAt t.guards i =
        if i = s.win.arg.toNat then { guardAt s.guards i with frozen := true } else guardAt s.guards i)) ∧
  ∀ s : State, s.accepts .guardRead →
    (3 < s.win.arg.toNat → exec .guardRead s = .next (s.answered .guardRead .badArg)) ∧
    (s.win.arg.toNat ≤ 3 → ∃ t, exec .guardRead s = .next t ∧
      t = { s.answered .guardRead .ok with
        win := { s.win.answered .guardRead .ok with buffer := t.win.buffer, fill := 6, dptr := 0 } } ∧
      s.win.filled t.win (
        bytesOf 2 (guardAt s.guards s.win.arg.toNat).lo.toNat ++
        bytesOf 2 (guardAt s.guards s.win.arg.toNat).hi.toNat ++
        [match (guardAt s.guards s.win.arg.toNat).mode with | .off => (0 : Byte) | .noWrite => 1 | .noAccess => 2,
          if (guardAt s.guards s.win.arg.toNat).frozen = true then 1 else 0]))

/-! ### Commit -/

/-- COMMIT's admission checks in their order, and FORMAT's; a refusal answers and changes nothing else (R69, R130). -/
def Obligations.JobChecksInOrder : Prop :=
  (∀ (s : State) (r : ResultCode), s.accepts .commit →
    (if s.engine.state ≠ .idle ∨ s.fmt ≠ none then some ResultCode.busy
      else if s.staging.entries = [] then some .emptySet
      else if s.win.mode = .readOnly then some .readOnly
      else if ∃ e ∈ s.staging.entries, guardMode s.guards (BitVec.ofNat 16 e.key) ≠ .off then some .guarded
      else if 512 - s.dir.length < s.staging.entries.countP (fun e => (dirFind s.dir e.key).isNone) then some .dirFull
      else none) = some r →
    exec .commit s = .next (s.answered .commit r)) ∧
  ∀ (s : State) (r : ResultCode), s.accepts .format →
    (if s.engine.state ≠ .idle ∨ s.aud.running = true then some ResultCode.busy
      else if s.wprotLow = true then some .pinLocked
      else if ∃ i : Fin 4, (guardAt s.guards i).mode ≠ .off then some .guarded
      else if 4294967295 ≤ s.mnt.highestJournalId then some .arrayFault
      else none) = some r →
    exec .format s = .next (s.answered .format r)

/-- An admitted COMMIT that finds a purge pending, the reclaimer at work, answers OK, locks the set and waits for the purge
(R70, R71).  It ends at once with NO_SPACE when its plan is not admissible and the shortfall is above the reclaimable granules, or
when it is admissible and the set ids are exhausted; the set stays, unlocked (R70, R73, R75).  With the shortfall within the
reclaimable granules it answers OK, locks the set and waits in WAIT_SPACE (R73, R74).  The record index between jobs is the
model's (log 43). -/
def Obligations.CommitWaitsOrFindsNoSpace : Prop :=
  (∀ s : State, s.admits → s.table.purgePending = true → s.recl.job ≠ .idle →
    exec .commit s = .next { s.answered .commit .ok with
      staging := { s.staging with lock := true }
      engine := { s.engine with state := .waitPurge }
      ctl := s.ctl.arbitrate }) ∧
  (∀ s : State, s.admits → s.table.purgePending = false →
    (s.erasedRows < s.setPlan.opens + 1 ∧ s.reclaimable < 255 * (s.setPlan.opens + 1 - s.erasedRows) ∨
      s.setPlan.opens + 1 ≤ s.erasedRows ∧ s.engine.nextSetId = .exhausted) →
    ∃ t, exec .commit s = .next t ∧
      State.reclaimerActs { s with
        win := { s.win.answered .commit .ok with jobResult := .noSpace }
        ev := s.ev.after 0x03
        staging := { s.staging with lock := false }
        engine := { CommitEngine.atReset with nextSetId := s.engine.nextSetId } } t) ∧
  ∀ s : State, s.admits → s.table.purgePending = false → s.recl.job ≠ .idle →
    s.erasedRows < s.setPlan.opens + 1 → 255 * (s.setPlan.opens + 1 - s.erasedRows) ≤ s.reclaimable →
    exec .commit s = .next { s.answered .commit .ok with
      staging := { s.staging with lock := true }
      engine := { s.engine with state := .waitSpace, plan := some s.setPlan }
      ctl := s.ctl.arbitrate }

/-- The engine that enters WAIT_SPACE reports it to the reclaimer, which at an IDLE look with no DIRTY row starts an urgent
pass on the eligible victim with the most dead granules (ties: log 24), and with none, or with passes blocked, reports IDLE (R74, R99,
R101).
In WAIT_SPACE the engine plans again when a row has become ERASED and at the IDLE report, and only there: an admissible plan enters
WRITING with the next set id, or ends NO_SPACE when they are exhausted; with none it stays, or at the IDLE report ends NO_SPACE, the
set staying, unlocked (R73 to R75).  The record index between jobs is the model's (log 43). -/
def Obligations.WaitSpacePlansAgain : Prop :=
  ∀ s : State,
    let planned : CommitEngine := { s.engine with plan := some s.setPlan }
    let spent : State := { s with
      win := { s.win with jobResult := .noSpace }
      ev := { s.ev with event := s.ev.event ||| 0x02, justSet := s.ev.justSet ||| 0x02 }
      staging := { s.staging with lock := false }
      engine := { CommitEngine.atReset with nextSetId := s.engine.nextSetId } }
    (s.erasedRows < s.setPlan.opens + 1 → 255 * (s.setPlan.opens + 1 - s.erasedRows) ≤ s.reclaimable →
      s.commitPlan .first = ({ s with engine := { planned with state := .waitSpace } }, [.look])) ∧
    (∀ cause, cause = .rowErased ∨ cause = .reclaimerIdle →
      (s.engine.state ≠ .waitSpace → s.commitPlan cause = (s, [])) ∧
      (s.engine.state = .waitSpace → s.setPlan.opens + 1 ≤ s.erasedRows →
        (∀ n, s.engine.nextSetId = .id n → s.commitPlan cause = ({ s with engine :=
          ⟨.writing, some s.setPlan, some n, 0, [], [], if n < 4294967295 then .id (n + 1) else .exhausted⟩ }, [.ask])) ∧
        (s.engine.nextSetId = .exhausted → s.commitPlan cause = (spent, [])))) ∧
    (s.engine.state = .waitSpace → s.erasedRows < s.setPlan.opens + 1 →
      s.commitPlan .rowErased = ({ s with engine := planned }, []) ∧ s.commitPlan .reclaimerIdle = (spent, [])) ∧
    (s.engine.state = .waitSpace → s.recl.job = .idle → s.win.mode = .ready → s.table.purgePending = false →
      (∀ x, x < 64 → (s.row x).state ≠ some .dirty) →
      (s.recl.blocked = false → ∀ v, v < 64 → s.eligible v = true → (∀ x, x < 64 → s.eligible x = true →
          (s.row x).dead < (s.row v).dead ∨ ((s.row x).dead = (s.row v).dead ∧ ((s.row v).sequence < (s.row x).sequence ∨
            ((s.row v).sequence = (s.row x).sequence ∧ v ≤ x)))) →
        s.reclaimLook = (State.beginPass { s with recl := { s.recl with job := .urgentVictim } } v, [])) ∧
      (s.recl.refresh = [] →
        (s.recl.blocked = true → s.eligibleVictims ≠ [] → s.reclaimLook = (s, [.plan .reclaimerIdle])) ∧
        ((∀ x, x < 64 → s.eligible x = false) →
          s.reclaimLook = ({ s with recl := { s.recl with request := false } }, [.plan .reclaimerIdle]))))

/-- An admitted COMMIT with an admissible plan enters WRITING with the next set id; a free writer whose open row has room
programs the set's first record at the row's next free granule (R70, R73, R75 to R77, R95, R93).  Only a reclaimer that was
IDLE may have begun a job besides; one at work has not. -/
def Obligations.CommitStartsWriting : Prop :=
  ∀ (s : State) (n r : Nat) (e : StagedEntry) (rest : List StagedEntry), s.admits → s.table.purgePending = false →
    s.setPlan.opens + 1 ≤ s.erasedRows → s.engine.nextSetId = .id n → s.writer.inService = none →
    s.openRow = some r → s.staging.entries = e :: rest → (s.row r).nextFree + (1 + (e.length + 15) / 16) ≤ 256 →
    let g := (s.row r).nextFree
    let payload := s.staging.payload e
    let h : RecordHeader := ⟨match e.op with | .put => .put | .delete => .delete, false, e.key,
      nextVersion s.dir e.key, n, e.length, 0, crc16 payload⟩
    let u : State := { s with
      win := s.win.answered .commit .ok
      ev := s.ev.after (if 255 ≤ s.freeGranules ∧ s.freeGranules - (1 + (e.length + 15) / 16) < 255 then 0x21 else 0x01)
      staging := { s.staging with lock := true }
      table := (s.setRow r { s.row r with nextFree := g + (1 + (e.length + 15) / 16) }).table
      writer := ⟨some ⟨.commit, h, payload, 0⟩, .record r g, none, s.writer.waitingReclaimer⟩
      engine := ⟨.writing, some s.setPlan, some n, 0, [], [], if n < 4294967295 then .id (n + 1) else .exhausted⟩
      ctl := (s.issue ⟨.commit, .commit, r, g, .program (recordGranules h payload), true⟩).ctl }
    ∃ t, exec .commit s = .next t ∧ u.reclaimerActs t ∧
      (s.recl.job ≠ .idle → t = { u with ctl := u.ctl.arbitrate })

/-- When the COMMIT record of a set verifies, the set is published in one event: every key of the set has the entry its
record gives, every other key the one it had, each superseded record and the previous COMMIT record go dead in their rows, the
newest-commit location moves, the staging area is emptied and unlocked, a running audit whose range holds a key of the set
ends DISTURBED, and the job ends OK (R45, R46, R82 to R84, R150).  Only a reclaimer that was IDLE may have begun a
job besides.  What the engine's record index and the ended audit's items hold then is the model's (logs 42 and 43). -/
def Obligations.CommitPublishesTheSet : Prop :=
  ∀ (s : State) (r : Request) (a : Append) (row g : Nat) (granules : List Data), s.dirOk → s.calm → s.serves r →
    r.requester = .commit → r.waited = true → r.op = .program granules →
    s.writer = ⟨some a, .record row g, none, none⟩ → a.cls = .commit → s.engine.state = .closing →
    (s.engine.placed.map Placed.key).Nodup →
    let disturbed := s.aud.running = true ∧ ∃ p ∈ s.engine.placed, s.aud.lo ≤ p.key ∧ p.key ≤ s.aud.hi
    ∃ t u, exec (.programComplete none) s = .next t ∧ State.reclaimerActs u t ∧
      u = { s with
        win := { s.win with
          jobResult := .ok
          auditResult := if disturbed then .disturbed else s.win.auditResult
          sig := if disturbed then 0 else s.win.sig
          acount := if disturbed then BitVec.ofNat 16 s.aud.count else s.win.acount }
        ev := s.ev.after (if disturbed then 0x06 else 0x02)
        staging := { s.staging with entries := [], poolFill := 0, lock := false }
        dir := u.dir
        table := { s.table with rows := u.table.rows, newestCommit := some ⟨row, g⟩ }
        writer := ⟨none, .nothing, none, none⟩
        engine := { CommitEngine.atReset with nextSetId := s.engine.nextSetId }
        aud := if disturbed then { s.aud with running := false, reading := none } else s.aud
        ctl := { (if disturbed then (s.abandonRequests .audit).ctl else s.ctl) with state := .idle, current := none }
        cells := (s.writeGranules r.row r.first granules).cells } ∧
      u.dirOk ∧
      (∀ k, (∀ p ∈ s.engine.placed, p.key ≠ k) → dirFind u.dir k = dirFind s.dir k) ∧
      (∀ p ∈ s.engine.placed, dirFind u.dir p.key = some {
        key := p.key
        state := match p.kind with | .put => .live | .delete => .tombstone | .commit => .tombstone
        version := p.version
        setId := p.setId
        row := p.row
        granule := p.granule
        length := p.length
        stale := min 16320 (match dirFind s.dir p.key with | none => p.failed | some e => e.stale + 1 + p.failed)
        baseSetId := match dirFind s.dir p.key with | none => p.setId | some e => e.baseSetId }) ∧
      ∀ x, x < 64 → u.row x = { s.row x with
          dead := (s.row x).dead +
            (s.engine.placed.map (fun p => match dirFind s.dir p.key with
              | none => 0
              | some e => if e.row = x then 1 + (e.length + 15) / 16 else 0)).sum +
            (match s.table.newestCommit with | none => 0 | some l => if l.row = x then 1 else 0) }

/-- A record whose granules all verify is PLACED with its failed attempts.  An attempt that fails at one of its granules leaves
its whole extent dead, and a failed header closes the open row; the first two failures are followed at once by another attempt with
the same fields, the third by the reply FAILED (R14, R78, R95).  A row enters the set's rows with the first record granule
programmed in it for the set (R80).  An attempt goes at the open row's next free granule where it fits, the pointer advancing over
it; where it does not, the row is closed, its blank granules dead, and a row is opened (R13, R95, R97). -/
def Obligations.WriterPlacesAndRetries : Prop :=
  (∀ (s : State) (a : Append) (row g : Nat), s.writer.inService = some a → s.writer.wait = .record row g →
    let n := 1 + (a.header.length + 15) / 16
    let entered : CommitEngine := { s.engine with setRows :=
      if a.cls = .commit ∧ row ∉ s.engine.setRows then s.engine.setRows ++ [row] else s.engine.setRows }
    s.writerProgramDone none = ({ s with
      engine := entered, writer := { s.writer with inService := none, wait := .nothing } }, [.reply a (.placed row g a.failed)]) ∧
    ∀ i : Nat,
      let left : State := { s with
        engine := entered
        table := (s.setRow row (if i = 0 ∧ (s.row row).state = some .opened then
          { s.row row with
            state := some .full, nextFree := 0, dead := (s.row row).dead + n + (256 - (s.row row).nextFree) }
          else { s.row row with dead := (s.row row).dead + n })).table }
      (a.failed < 2 → row < 64 → s.writerProgramDone (some i) = left.place { a with failed := a.failed + 1 }) ∧
      (2 ≤ a.failed → row < 64 → s.writerProgramDone (some i) = ({ left with
        writer := { s.writer with inService := none, wait := .nothing } },
        [.reply { a with failed := a.failed + 1 } .failed]))) ∧
  ∀ (s : State) (a : Append),
    let n := 1 + (a.header.length + 15) / 16
    (∀ r, s.openRow = some r → (s.row r).nextFree + n ≤ 256 →
      s.place a = ({ s with
        table := (s.setRow r { s.row r with nextFree := (s.row r).nextFree + n }).table
        writer := { s.writer with inService := some a, wait := .record r (s.row r).nextFree }
        ctl := (s.issue ⟨match a.cls with | .commit => .commit | .reclaimer => .reclaimer,
          match a.cls with | .commit => .commit | .reclaimer => .reclaim, r, (s.row r).nextFree,
          .program (recordGranules a.header a.payload), true⟩).ctl }, [])) ∧
    (∀ r, s.openRow = some r → 256 < (s.row r).nextFree + n →
      s.place a = State.openRowFor { s with table := (s.setRow r { s.row r with
        state := some .full, nextFree := 0, dead := (s.row r).dead + (256 - (s.row r).nextFree) }).table } a) ∧
    (s.openRow = none → s.place a = s.openRowFor a)

/-- A row is opened only while two rows, for the reclaimer one, are ERASED, else the reply is NO_ROW with the failed attempts;
it is the ERASED row of lowest erase count, a known count before a guessed one, then the lowest index.  Its header carries the
journal id, the next sequence, which the row table takes at once, and the erase count (R79, R96).  A verified header makes the row
OPEN and places the record, at granule 1 when no other row is OPEN; a failed one makes it DIRTY, and the next row is tried (R13,
R96). -/
def Obligations.WriterOpensRows : Prop :=
  (∀ (s : State) (a : Append),
    let needed := match a.cls with | .commit => 2 | .reclaimer => 1
    (s.erasedRows < needed → s.openRowFor a = ({ s with
      writer := { s.writer with inService := none, wait := .nothing } }, [.reply a (.noRow a.failed)])) ∧
    (needed ≤ s.erasedRows → s.table.highestSequence < 4294967295 → ∃ r, r < 64 ∧ (s.row r).state = some .erased ∧
      (∀ x, x < 64 → (s.row x).state = some .erased → (s.row r).eraseCount < (s.row x).eraseCount ∨
        ((s.row r).eraseCount = (s.row x).eraseCount ∧ (((s.row r).guessed = false ∧ (s.row x).guessed = true) ∨
          ((s.row r).guessed = (s.row x).guessed ∧ r ≤ x)))) ∧
      s.openRowFor a = ({ s with
        table := { s.table with highestSequence := s.table.highestSequence + 1 }
        writer := { s.writer with inService := some a, wait := .rowHeader r (s.table.highestSequence + 1) }
        ctl := (s.issue ⟨match a.cls with | .commit => .commit | .reclaimer => .reclaimer,
          match a.cls with | .commit => .commit | .reclaimer => .reclaim, r, 0,
          .program [encodeRowHeader ⟨s.table.journalId, s.table.highestSequence + 1, (s.row r).eraseCount⟩], true⟩).ctl },
        []))) ∧
  ∀ (s : State) (a : Append) (r sequence : Nat), s.writer.inService = some a → s.writer.wait = .rowHeader r sequence →
    r < 64 →
    let opened : State := { s with
      table := (s.setRow r ⟨some .opened, sequence, (s.row r).eraseCount, false, 1, 0, false⟩).table }
    s.writerProgramDone none = opened.place a ∧
    ((∀ x, x < 64 → x ≠ r → (s.row x).state ≠ some .opened) → a.header.length ≤ 240 →
      opened.openRow = some r ∧ (opened.place a).1.writer.wait = .record r 1) ∧
    ∀ i, s.writerProgramDone (some i) = State.openRowFor { s with table := (s.setRow r
      ⟨some .dirty, 0, (s.row r).eraseCount, (s.row r).guessed, 0, 0, false⟩).table } a

/-- A FAILED or NO_ROW reply ends the job with WRITE_FAILED: the set's rows are tainted and a purge is owed, the placed
records are dead, the directory and the staged set stay, and the lock clears (R77, R81, R85).  The record index between jobs is
the model's (log 43). -/
def Obligations.WriteFailedKeepsTheSet : Prop :=
  ∀ (s : State) (a : Append) (reply : Reply), (reply = .failed ∨ ∃ n, reply = .noRow n) →
    (s.commitReply a reply).2 = [.look] ∧
    let t := (s.commitReply a reply).1
    t = { s with
      win := { s.win with jobResult := .writeFailed }
      ev := { s.ev with event := s.ev.event ||| 0x02, justSet := s.ev.justSet ||| 0x02 }
      staging := { s.staging with lock := false }
      engine := { CommitEngine.atReset with nextSetId := s.engine.nextSetId }
      table := { s.table with
        rows := t.table.rows, purgePending := s.table.purgePending || !s.engine.setRows.isEmpty } } ∧
    ∀ x, x < 64 → t.row x = { s.row x with
      tainted := (s.row x).tainted || s.engine.setRows.contains x
      dead := (s.row x).dead +
        (s.engine.placed.map (fun p => if p.row = x then 1 + (p.length + 15) / 16 else 0)).sum }

/-! ### The directory's updates -/

/-- A relocate moves the entry that locates the original to the copy, live or a tombstone again, or finds the copy an
orphan; the stale count rises by 1 and the copy's failed attempts, and the record left behind goes dead in its row: the original
by the entry's length, an orphan by its own (R39, R47).  A mark damaged takes hold only where the entry still locates the place
that was read (R48). -/
def Obligations.RelocateMovesTheEntry : Prop :=
  (∀ (s : State) (c : Copy), s.dirOk → c.kind ≠ .commit →
    (dirFind s.dir c.key = none → s.relocate c = s.addDead c.toRow (1 + (c.length + 15) / 16)) ∧
    ∀ e, dirFind s.dir c.key = some e →
      let here := e.row = c.fromRow ∧ e.granule = c.fromGranule
      s.relocate c = { s.addDead (if here then c.fromRow else c.toRow)
          (1 + ((if here then e.length else c.length) + 15) / 16) with dir := (s.relocate c).dir } ∧
      ∀ k, dirFind (s.relocate c).dir k = if k = c.key then some { e with
          row := if here then c.toRow else e.row
          granule := if here then c.toGranule else e.granule
          state := if here then (if c.kind = .put then .live else .tombstone) else e.state
          stale := min 16320 (e.stale + 1 + c.failed) }
        else dirFind s.dir k) ∧
  ∀ (s : State) (key row granule : Nat), s.dirOk →
    s.markDamaged key row granule = { s with dir := (s.markDamaged key row granule).dir } ∧
    ∀ k, dirFind (s.markDamaged key row granule).dir k =
      match dirFind s.dir k with
      | none => none
      | some e => if k = key ∧ e.row = row ∧ e.granule = granule then some { e with state := .damaged } else some e

/-- A publish and a relocate of one key give the same part in either order, when the entry locates the original (R45, R47). -/
def Obligations.PublishAndRelocateAgree : Prop :=
  ∀ (s : State) (c : Copy) (p : Placed) (e : DirEntry), s.dirOk → p.key = c.key → dirFind s.dir c.key = some e →
    e.row = c.fromRow → e.granule = c.fromGranule → c.length = e.length →
    ¬ (p.row = c.fromRow ∧ p.granule = c.fromGranule) →
    (s.relocate c).publishRecord p = (s.publishRecord p).relocate c

/-! ### The reclaimer -/

/-- RECLAIM is refused in READ_ONLY and answers OK in UNFORMATTED and READY; in READY it sets the request, which a reclaimer
at work leaves set and one that is IDLE, with nothing due before it, takes at once as a pass over the eligible victim with the
most dead granules, the lowest sequence among equals (R99 to R102).  Ties in both figures are the model's (log 24). -/
def Obligations.ReclaimAsksForAPass : Prop :=
  ∀ s : State, s.accepts .reclaim →
    (s.win.mode = .readOnly → exec .reclaim s = .next (s.answered .reclaim .readOnly)) ∧
    (s.win.mode = .unformatted → exec .reclaim s = .next (s.answered .reclaim .ok)) ∧
    (s.win.mode = .ready → s.fmt = none → s.recl.job ≠ .idle →
      exec .reclaim s = .next { s.answered .reclaim .ok with
        recl := { s.recl with request := true }, ctl := s.ctl.arbitrate }) ∧
    (s.win.mode = .ready → s.calm → s.recl.job = .idle → s.recl.blocked = false → s.recl.refresh = [] →
      (∀ x, x < 64 → (s.row x).state ≠ some .dirty) → (∃ x, x < 64 ∧ s.eligible x = true) →
      ∃ t v, exec .reclaim s = .next t ∧
        State.reclaimerActs { s.answered .reclaim .ok with recl := { s.recl with request := true } } t ∧
        t.recl.job = .backgroundVictim ∧ t.recl.request = false ∧ t.recl.victim = some v ∧ v < 64 ∧
        s.eligible v = true ∧ (t.row v).state = some .victim ∧
        ∀ x, x < 64 → s.eligible x = true → (s.row x).dead < (s.row v).dead ∨
          ((s.row x).dead = (s.row v).dead ∧ (s.row v).sequence ≤ (s.row x).sequence))

/-- COPY reads the LIVE or DAMAGED entry of the victim at the lowest granule from the cursor on, and with none left enters
WALK (R102).  A record found intact is appended as a moved copy; its place joins the copy list and the cursor passes the original's
extent (R12, R102).  A record found unreadable is marked damaged, with the CHECK_FAIL that R32 calls for, and a copy that was not
placed blocks passes: either abandons the pass, which relocates the copies made, in ascending order of their originals, and makes
the victim FULL again (R47, R48, R103).  The original's extent is the entry's (R39); by which length the cursor passes an original
that its entry has left, and that no working state stays between jobs, is the model's (logs 40 and 43). -/
def Obligations.PassCopiesItsVictim : Prop :=
  ∀ (s : State) (v : Nat),
    let kept := fun e : DirEntry => e ∈ s.dir ∧ e.row = v ∧ s.recl.cursor ≤ e.granule ∧ e.state ≠ .tombstone
    let abandoned := fun (u t : State) (block : Bool) => ∃ copies : List Copy, copies.Perm s.recl.copyList ∧
      copies.Pairwise (fun a b => a.fromGranule ≤ b.fromGranule) ∧
      t = (let w : State := copies.foldl State.relocate u
        { w with
          table := (if (w.row v).state = some .victim then w.setRow v { w.row v with state := some .full } else w).table
          recl := { Reclaimer.atReset with
            refresh := s.recl.refresh, request := s.recl.request, blocked := s.recl.blocked || block } })
    ((∃ e, kept e) → ∃ e, kept e ∧ (∀ o, kept o → e.granule ≤ o.granule) ∧
      s.copyStep v = { s with
        recl := { s.recl with wait := .recordRead e.key v e.granule }
        ctl := s.askedByReclaimer v e.granule (1 + (e.length + 15) / 16) }) ∧
    ((∀ e, ¬ kept e) → s.copyStep v = { s with
      recl := { s.recl with phase := some .walk, wait := .walkRead 1 }, ctl := s.askedByReclaimer v 1 1 }) ∧
    (∀ key row granule reads, s.recl.wait = .recordRead key row granule →
      (∀ h payload, findRecord reads = .intact h payload →
        s.reclaimReadDone reads = ({ s with
          recl := { s.recl with wait := .recordAppend key h.kind row granule h.length }
          writer := { s.writer with waitingReclaimer := some ⟨.reclaimer, { h with moved := true }, payload, 0⟩ } },
          [.grant])) ∧
      ∀ h fail, (findRecord reads = .unreadable h fail ∨ findRecord reads = .notIntact fail) →
        s.recl.victim = some v → s.recl.job ≠ .refresh → s.recl.job ≠ .purge →
        (s.reclaimReadDone reads).2 = [.look] ∧
          abandoned ((s.captureCheck fail .reclaim row granule).markDamaged key row granule)
            (s.reclaimReadDone reads).1 false) ∧
    ∀ key kind row granule length, s.recl.wait = .recordAppend key kind row granule length → s.recl.victim = some v →
      s.recl.job ≠ .refresh → s.recl.job ≠ .purge →
      (∀ toRow toGranule failed, s.recl.phase = some .copy →
        s.reclaimReply (.placed toRow toGranule failed) = (State.copyStep { s with recl := { s.recl with
          copyList := s.recl.copyList ++ [⟨key, kind, row, granule, toRow, toGranule, length, failed⟩]
          cursor := granule + (1 + ((match dirFind s.dir key with
            | none => length
            | some e => if e.row = row ∧ e.granule = granule then e.length else length) + 15) / 16) } } v, [])) ∧
      (s.reclaimReply .failed).2 = [.look] ∧
      abandoned (s.countFailedCopy key 3) (s.reclaimReply .failed).1 true ∧
      ∀ failed, (s.reclaimReply (.noRow failed)).2 = [.look] ∧
        abandoned (s.countFailedCopy key failed) (s.reclaimReply (.noRow failed)).1 true

/-- WALK lists each intact PUT or DELETE header and steps over its extent, steps over a COMMIT record, and ends at a granule
that shows no intact header, with the CHECK_FAIL that R32 calls for, or past granule 255 (R104).  Its end relocates the copies in
ascending order of their originals and enters CHECK, which takes the victim's entry at the lowest granule: a TOMBSTONE whose stale
count is that of the listed records countable for it elsewhere is released, its granule dead, any other entry is read to be copied,
and with none left the erase of the victim is requested (R43, R49, R105).  A copy made in CHECK is relocated at once and CHECK goes
on; one made by a REFRESH job is relocated too, and ends the job, as does a record not read or not placed (R105, R113).  That a
TOMBSTONE with a lower stale count is copied too, and that no working state stays between jobs, is the model's (logs 43 and
44). -/
def Obligations.PassWalksAndChecks : Prop :=
  (∀ (s : State) (v granule : Nat) (g : GranuleRead) (rest : List GranuleRead), s.recl.wait = .walkRead granule →
    s.recl.victim = some v →
    let onward := fun (u : State) (next : Nat) => if next ≤ 255 then
      { u with recl := { u.recl with wait := .walkRead next }, ctl := u.askedByReclaimer v next 1 } else u.walkEnd v
    (∀ h f, findHeader g = (some h, f) →
      (h.kind = .commit → s.reclaimReadDone (g :: rest) = (onward s (granule + 1), [])) ∧
      (h.kind ≠ .commit → s.reclaimReadDone (g :: rest) = (onward { s with recl := { s.recl with
        walkList := s.recl.walkList ++ [⟨h.key, h.setId, granule⟩] } } (granule + (1 + (h.length + 15) / 16)), []))) ∧
    ∀ fail, findHeader g = (none, fail) →
      s.reclaimReadDone (g :: rest) = ((s.captureCheck fail .reclaim v granule).walkEnd v, [])) ∧
  (∀ (s : State) (v : Nat), ∃ copies : List Copy, copies.Perm s.recl.copyList ∧
    copies.Pairwise (fun a b => a.fromGranule ≤ b.fromGranule) ∧
    s.walkEnd v = State.check { copies.foldl State.relocate s with
      recl := { s.recl with phase := some .check, copyList := [] } } v) ∧
  (∀ (s : State) (v : Nat), s.dirOk →
    let countableElsewhere := fun e : DirEntry => s.recl.walkList.countP (fun w => decide (w.key = e.key ∧
      e.baseSetId ≤ w.setId ∧ w.setId ≤ e.setId ∧ w.granule ≠ e.granule))
    ((∀ e ∈ s.dir, e.row ≠ v) → s.check v = { s with
      recl := { s.recl with phase := some .erase, wait := .erase }
      ctl := { s.ctl with eraseWaiting := some ⟨v, .reclaimer, .reclaim, true⟩ } }) ∧
    ((∃ e ∈ s.dir, e.row = v) → ∃ e ∈ s.dir, e.row = v ∧ (∀ o ∈ s.dir, o.row = v → e.granule ≤ o.granule) ∧
      (e.state = .tombstone → e.stale = countableElsewhere e →
        ∃ d : List DirEntry, s.check v = State.check { s with
            dir := d, table := (s.setRow v { s.row v with dead := (s.row v).dead + 1 }).table } v ∧
          d.Pairwise (fun a b => a.key < b.key) ∧ ∀ k, dirFind d k = if k = e.key then none else dirFind s.dir k) ∧
      ((e.state ≠ .tombstone ∨ e.stale ≠ countableElsewhere e) → s.check v = { s with
        recl := { s.recl with wait := .recordRead e.key v e.granule }
        ctl := s.askedByReclaimer v e.granule (1 + (e.length + 15) / 16) }))) ∧
  ∀ s : State,
    let rests := fun u : State => ({ u with recl := { Reclaimer.atReset with
      refresh := s.recl.refresh, request := s.recl.request, blocked := s.recl.blocked } } : State)
    (∀ key kind row granule length, s.recl.wait = .recordAppend key kind row granule length →
      (∀ toRow toGranule failed,
        let c : Copy := ⟨key, kind, row, granule, toRow, toGranule, length, failed⟩
        (∀ v, s.recl.job ≠ .refresh → s.recl.phase = some .check → s.recl.victim = some v →
          s.reclaimReply (.placed toRow toGranule failed) = ((s.relocate c).check v, [])) ∧
        (s.recl.job = .refresh → s.reclaimReply (.placed toRow toGranule failed) = (rests (s.relocate c), [.look]))) ∧
      (s.recl.job = .refresh → s.reclaimReply .failed = (rests (s.countFailedCopy key 3), [.look]) ∧
        ∀ failed, s.reclaimReply (.noRow failed) = (rests (s.countFailedCopy key failed), [.look]))) ∧
    ∀ key row granule reads h fail, s.recl.wait = .recordRead key row granule → s.recl.job = .refresh →
      (findRecord reads = .unreadable h fail ∨ findRecord reads = .notIntact fail) →
      s.reclaimReadDone reads =
        (rests ((s.captureCheck fail .reclaim row granule).markDamaged key row granule), [.look])

/-- The end of a DIRTY_ERASE: the row is ERASED, passes no longer blocked, or BAD with the ERASE_FAIL fault captured; its
erase count rises by 1 up to its limit, a guess stays a guess, and the job ends (R7, R22, R91, R111); the reclaimer, IDLE then, may
have begun its next job, a DIRTY row's erase first of all (R99).  The end of a pass's erase does the same to the victim and settles
the walk list: every entry's stale count falls by its countable records, TOMBSTONEs that reach 0 are freed and their granules go
dead; a purge takes its next target, a pass ends, and a passed erase lets a waiting COMMIT plan again (R43, R50, R51, R74, R106,
R109).  That no working state stays between jobs is the model's (log 43). -/
def Obligations.ReclaimerErasesEnd : Prop :=
  (∀ (s : State) (x : Nat) (e : EraseContext) (nonBlank : Option (BitVec 8)), s.calm → s.erases e →
    e.request = ⟨x, .reclaimer, .reclaim, true⟩ → s.recl.job = .dirtyErase → x < 64 →
    (s.row x).state = some .dirty →
    ∃ t, exec (.eraseComplete nonBlank) s = .next t ∧
      State.reclaimerActs
        (let u := match nonBlank with
          | none => s.quietly
          | some g => s.quietly.capture ⟨.eraseFail, .reclaim, x, g.toNat⟩
        { u with
          ctl := { u.ctl with state := .idle, erase := none }
          cells := t.cells
          freeIdx := t.freeIdx
          table := (s.setRow x ⟨some (if nonBlank = none then .erased else .bad), 0,
            if (s.row x).eraseCount < 16777215 then (s.row x).eraseCount + 1 else (s.row x).eraseCount,
            (s.row x).guessed, 0, 0, false⟩).table
          recl := { Reclaimer.atReset with
            refresh := s.recl.refresh, request := s.recl.request
            blocked := if nonBlank = none then false else s.recl.blocked } }) t) ∧
  ∀ (s : State) (x : Nat) (passed : Bool), s.dirOk → x < 64 → s.recl.job ≠ .dirtyErase →
    let fall := fun e : DirEntry => s.recl.walkList.countP (fun w => decide (w.key = e.key ∧
      e.baseSetId ≤ w.setId ∧ w.setId ≤ e.setId))
    let freed := fun e : DirEntry => e.state = .tombstone ∧ e.stale ≤ fall e
    ∃ u : State, u = { s with
        dir := u.dir
        table := { s.table with rows := u.table.rows }
        recl := { s.recl with blocked := if passed = true then false else s.recl.blocked } } ∧
      u.dirOk ∧
      (∀ k, dirFind u.dir k = match dirFind s.dir k with
        | none => none
        | some e => if freed e then none else some { e with stale := e.stale - fall e }) ∧
      (∀ y, y < 64 → u.row y = (let leaving : RowRec := if y = x then
          ⟨some (if passed = true then .erased else .bad), 0, (s.row x).eraseCount, (s.row x).guessed, 0, 0, false⟩ else s.row y
        { leaving with dead := leaving.dead + s.dir.countP (fun e => decide (freed e ∧ e.row = y)) })) ∧
      (s.recl.job = .purge → s.reclaimEraseDone x passed =
        (u.nextTarget.1, (if passed = true then [.plan .rowErased] else []) ++ u.nextTarget.2)) ∧
      (s.recl.job ≠ .purge → s.reclaimEraseDone x passed = ({ u with recl := { Reclaimer.atReset with
        refresh := s.recl.refresh, request := s.recl.request, blocked := u.recl.blocked } },
        (if passed = true then [.plan .rowErased] else []) ++ [.look]))

/-- The purge takes every tainted row as a target, in ascending sequence.  A DAMAGED entry in one makes it fail at once; else
the open row is closed when tainted, the newest COMMIT record is read when it stands in a target, and the first target becomes the
victim of a pass (R97, R108, R109).  With no target left purge pending clears, a COMMIT in WAIT_PURGE plans, and the job ends (R109).
A purge that fails relocates its copies, makes its victim FULL again, sets PURGE_FAILED, turns READY into READ_ONLY with MODE_CHANGE,
and ends a COMMIT in WAIT_PURGE with READ_ONLY; purge pending stays set (R71, R110).  Equal sequences, and what
the engine and the reclaimer keep between jobs, are the model's (logs 24 and 43). -/
def Obligations.PurgeRuns : Prop :=
  (∀ s : State, ∃ targets : List Nat, targets.Nodup ∧
    (∀ x, x ∈ targets ↔ x < 64 ∧ (s.row x).tainted = true) ∧
    targets.Pairwise (fun a b => (s.row a).sequence ≤ (s.row b).sequence) ∧
    let u : State := { s with recl := { s.recl with job := .purge, targets := targets } }
    let closed : State := match s.openRow with
      | none => u
      | some r => if (s.row r).tainted = true then { u with table := (s.setRow r { s.row r with
          state := some .full, nextFree := 0, dead := (s.row r).dead + (256 - (s.row r).nextFree) }).table } else u
    ((∃ e ∈ s.dir, e.row ∈ targets ∧ e.state = .damaged) → s.startPurge = u.purgeFail) ∧
    ((∀ e ∈ s.dir, e.row ∈ targets → e.state ≠ .damaged) →
      (∀ l, s.table.newestCommit = some l → l.row ∈ targets → s.startPurge = ({ closed with
        recl := { closed.recl with wait := .commitRead l.row l.granule }
        ctl := s.askedByReclaimer l.row l.granule 1 }, [])) ∧
      ((∀ l, s.table.newestCommit = some l → l.row ∉ targets) → s.startPurge = closed.nextTarget))) ∧
  (∀ (s : State) (row granule : Nat) (g : GranuleRead) (rest : List GranuleRead),
    s.recl.wait = .commitRead row granule →
    (∀ h f, findHeader g = (some h, f) → h.kind = .commit → s.reclaimReadDone (g :: rest) = ({ s with
      recl := { s.recl with wait := .commitAppend row granule }
      writer := { s.writer with waitingReclaimer := some ⟨.reclaimer, { h with moved := true }, [], 0⟩ } }, [.grant])) ∧
    ∀ fail, findHeader g = (none, fail) →
      s.reclaimReadDone (g :: rest) = (s.captureCheck fail .reclaim row granule).purgeFail) ∧
  (∀ (s : State) (row granule : Nat), s.recl.wait = .commitAppend row granule →
    (∀ toRow toGranule failed, ∃ u : State, s.reclaimReply (.placed toRow toGranule failed) = u.nextTarget ∧
      u = { s with table := { s.table with rows := u.table.rows, newestCommit := some ⟨toRow, toGranule⟩ } } ∧
      ∀ x, x < 64 → u.row x = { s.row x with dead := (s.row x).dead +
        (match s.table.newestCommit with | none => 0 | some l => if l.row = x then 1 else 0) }) ∧
    s.reclaimReply .failed = s.purgeFail ∧ ∀ n, s.reclaimReply (.noRow n) = s.purgeFail) ∧
  (∀ s : State,
    (∀ r rest, s.recl.targets = r :: rest →
      s.nextTarget = (State.copyStep { s with
        table := (s.setRow r { s.row r with state := some .victim }).table
        recl := { s.recl with
          targets := rest, phase := some .copy, victim := some r, cursor := 1, copyList := [], walkList := [] } } r, [])) ∧
    (s.recl.targets = [] → s.nextTarget = ({ s with
      table := { s.table with purgePending := false }
      recl := { Reclaimer.atReset with
        refresh := s.recl.refresh, request := s.recl.request, blocked := s.recl.blocked } },
      if s.engine.state = .waitPurge then [.plan .first, .look] else [.look]))) ∧
  ∀ s : State, ∃ copies : List Copy, copies.Perm s.recl.copyList ∧ copies.Pairwise (fun a b => a.fromGranule ≤ b.fromGranule) ∧
    let w : State := copies.foldl State.relocate s
    let toReadOnly := s.win.mode = .ready
    let waiting := s.engine.state = .waitPurge
    let mask : Byte := (if toReadOnly then 0x40 else 0) ||| (if waiting then 0x02 else 0)
    s.purgeFail = ({ w with
      win := { s.win with
        mountFlags := { s.win.mountFlags with purgeFailed := true }
        mode := if toReadOnly then .readOnly else s.win.mode
        jobResult := if waiting then .readOnly else s.win.jobResult }
      ev := { s.ev with event := s.ev.event ||| mask, justSet := s.ev.justSet ||| mask }
      staging := if waiting then { s.staging with lock := false } else s.staging
      engine := if waiting then { CommitEngine.atReset with nextSetId := s.engine.nextSetId } else s.engine
      table := (match s.recl.victim with
        | none => w
        | some v => if (w.row v).state = some RowState.victim then w.setRow v { w.row v with state := some .full } else w).table
      recl := { Reclaimer.atReset with
        refresh := s.recl.refresh, request := s.recl.request, blocked := s.recl.blocked } }, [.look])

/-! ### FORMAT -/

/-- A FORMAT that passes its checks is taken: OK, MODE FORMATTING, directory and staging area empty, the row table without an
open row, taint, purge, newest COMMIT, journal id and sequence, the reclaimer's job abandoned, and the job waiting for a busy
array or, at a free one, begun (R114, R130, R131, R93).  The reclaimer's pending append and a taken OPEN row's dead count are
the model's readings (logs 16 and 17), as is the reclaimer's empty working state (log 43). -/
def Obligations.FormatTaken : Prop :=
  ∀ s : State, s.accepts .format → s.engine.state = .idle → s.aud.running = false → s.wprotLow = false →
    (∀ i, i < 4 → (guardAt s.guards i).mode = .off) → s.mnt.highestJournalId < 4294967295 →
    ∃ t, exec .format s = .next t ∧
      t = { s with
        win := { s.win.answered .format .ok with mode := .formatting, mountFlags := .none }
        ev := s.ev.after (if 255 ≤ s.freeGranules ∧ t.freeGranules < 255 then 0x21 else 0x01)
        staging := { s.staging with entries := [], poolFill := 0, lock := false }
        dir := []
        table := ⟨t.table.rows, 0, 0, none, false⟩
        writer := .atReset
        engine := { s.engine with nextSetId := .id 1 }
        recl := .atReset
        mnt := { s.mnt with highestJournalId := s.mnt.highestJournalId + 1 }
        fmt := t.fmt
        ctl := t.ctl } ∧
      (∀ x, x < 64 → t.row x = { (
        if s.openRow = some x then { s.row x with state := some .full, nextFree := 0 }
        else if s.recl.victim = some x ∧ (s.row x).state = some .victim then
          (if s.eraseRequested x = true then (s.row x).leave .dirty else { s.row x with state := some .full })
        else s.row x) with tainted := false }) ∧
      (s.ctl.state ≠ .idle →
        t.fmt = some ⟨.waitArray, s.mnt.highestJournalId + 1, [], none, .nothing⟩ ∧
        t.ctl = (s.abandonRequests .reclaimer).ctl) ∧
      (s.ctl.state = .idle → s.ctl.queue = [] → s.ctl.eraseWaiting = none → s.ctl.erase = none →
        t.ctl.holder = .format ∧ ∃ j, t.fmt = some j ∧ j.phase ≠ .waitArray ∧
          j.journalId = s.mnt.highestJournalId + 1)

/-- FIRST_ROW takes the untried ERASED row of lowest erase count, a known count before a guessed one, then the lowest index,
and programs the new journal's header there; with none it takes the untried DIRTY or FULL row by the same order, erasing it first,
and with none at all it enters ERASE_REST without a first row.  A verified header makes the row OPEN under the new journal id with
sequence 1; a failed one makes it DIRTY and raises the journal id, unless it is the last one; a failed erase makes it BAD (R132). -/
def Obligations.FormatFindsItsFirstRow : Prop :=
  (∀ (s : State) (j : FormatJob),
    let erased := fun r : Nat => r < 64 ∧ r ∉ j.tried ∧ (s.row r).state = some .erased
    let other := fun r : Nat => r < 64 ∧ r ∉ j.tried ∧ ((s.row r).state = some .dirty ∨ (s.row r).state = some .full)
    let first := fun (among : Nat → Prop) (r : Nat) => among r ∧ ∀ x, among x → (s.row r).eraseCount < (s.row x).eraseCount ∨
      ((s.row r).eraseCount = (s.row x).eraseCount ∧ (((s.row r).guessed = false ∧ (s.row x).guessed = true) ∨
        ((s.row r).guessed = (s.row x).guessed ∧ r ≤ x)))
    ((∃ r, erased r) → ∃ r, first erased r ∧ s.nextCandidate j = ({ s with
      fmt := some { j with tried := j.tried ++ [r], wait := .header r }
      ctl := (s.issue ⟨.format, .format, r, 0,
        .program [encodeRowHeader ⟨j.journalId, 1, (s.row r).eraseCount⟩], true⟩).ctl }, [])) ∧
    ((∀ r, ¬ erased r) → (∃ r, other r) → ∃ r, first other r ∧ s.nextCandidate j = ({ s with
      fmt := some { j with tried := j.tried ++ [r], wait := .candidateErase r }
      ctl := { s.ctl with eraseWaiting := some ⟨r, .format, .format, true⟩ } }, [])) ∧
    ((∀ r, ¬ erased r) → (∀ r, ¬ other r) →
      s.nextCandidate j = s.eraseRestFrom { j with phase := .eraseRest, firstRow := none } 0)) ∧
  (∀ (s : State) (j : FormatJob) (r : Nat), s.fmt = some j → j.wait = .header r →
    s.formatProgramDone none = State.eraseRestFrom { s with table := { s.table with
      rows := (s.setRow r ⟨some .opened, 1, (s.row r).eraseCount, false, 1, 0, false⟩).table.rows
      journalId := j.journalId
      highestSequence := 1 } } { j with phase := .eraseRest, firstRow := some r } 0 ∧
    ∀ i,
      let u : State := { s with table := (s.setRow r
        ⟨some .dirty, 0, (s.row r).eraseCount, (s.row r).guessed, 0, 0, false⟩).table }
      (j.journalId < 4294967295 → s.formatProgramDone (some i) =
        State.nextCandidate { u with mnt := { s.mnt with highestJournalId := j.journalId + 1 } }
          { j with journalId := j.journalId + 1 }) ∧
      (j.journalId = 4294967295 → s.formatProgramDone (some i) =
        u.eraseRestFrom { j with phase := .eraseRest, firstRow := none } 0)) ∧
  ∀ (s : State) (j : FormatJob) (r : Nat), s.fmt = some j → j.wait = .candidateErase r → r < 64 →
    let u := fun st : RowState => ({ s with table := (s.setRow r
      ⟨some st, 0, (s.row r).eraseCount, (s.row r).guessed, 0, 0, false⟩).table } : State)
    s.formatEraseDone true = ({ u .erased with
      fmt := some { j with wait := .header r }
      ctl := (s.issue ⟨.format, .format, r, 0,
        .program [encodeRowHeader ⟨j.journalId, 1, (s.row r).eraseCount⟩], true⟩).ctl }, []) ∧
    s.formatEraseDone false = (u .bad).nextCandidate j

/-- ERASE_REST takes every row but the first row in ascending index: a row that is not BAD is erased, ERASED or BAD by its
result; a BAD one is read in sixteen requests of 16 granules, ERASED when all read BLANK, and left BAD at the first that does not
(R133).  After the last row the job ends: with a first row and at least 4 rows ERASED or OPEN it is OK and READY, else ARRAY_FAULT
and UNFORMATTED, the first row DIRTY and journal id and highest sequence 0; JOB_DONE and MODE_CHANGE are set, SPACE_LOW below 255
free granules, exclusive service ends, and the reclaimer looks (R93, R134). -/
def Obligations.FormatErasesTheRestAndEnds : Prop :=
  (∀ (s : State) (j : FormatJob) (r : Nat),
    let due := fun x : Nat => x < 64 ∧ r ≤ x ∧ j.firstRow ≠ some x
    (∀ x, due x → (∀ y, due y → x ≤ y) → s.eraseRestFrom j r = (
      if (s.row x).state = some .bad then { s with
        fmt := some { j with wait := .badRead x 0 }
        ctl := (s.issue ⟨.format, .format, x, 0, .read 16, true⟩).ctl }
      else { s with
        fmt := some { j with wait := .restErase x }
        ctl := { s.ctl with eraseWaiting := some ⟨x, .format, .format, true⟩ } }, [])) ∧
    ((∀ x, ¬ due x) → s.eraseRestFrom j r = s.formatEnd j)) ∧
  (∀ (s : State) (j : FormatJob) (r : Nat), s.fmt = some j →
    let u := fun st : RowState => ({ s with table := (s.setRow r
      ⟨some st, 0, (s.row r).eraseCount, (s.row r).guessed, 0, 0, false⟩).table } : State)
    (j.wait = .restErase r → ∀ passed : Bool,
      s.formatEraseDone passed = (u (if passed = true then .erased else .bad)).eraseRestFrom j (r + 1)) ∧
    ∀ (chunk : Nat) (reads : List GranuleRead), j.wait = .badRead r chunk →
      ((∃ g ∈ reads, g.outcome ≠ .blank) → s.formatReadDone reads = s.eraseRestFrom j (r + 1)) ∧
      ((∀ g ∈ reads, g.outcome = .blank) →
        (chunk < 15 → s.formatReadDone reads = ({ s with
          fmt := some { j with wait := .badRead r (chunk + 1) }
          ctl := (s.issue ⟨.format, .format, r, 16 * (chunk + 1), .read 16, true⟩).ctl }, [])) ∧
        (15 ≤ chunk → s.formatReadDone reads = (u .erased).eraseRestFrom j (r + 1)))) ∧
  ∀ (s : State) (j : FormatJob),
    let usable := (List.range 64).countP (fun x => decide ((s.row x).state = some .erased ∨ (s.row x).state = some .opened))
    let good := j.firstRow ≠ none ∧ 4 ≤ usable
    (s.formatEnd j).2 = [.look] ∧
    ∃ t, t = (s.formatEnd j).1 ∧ t = { s with
      win := { s.win with
        jobResult := if good then .ok else .arrayFault, mode := if good then .ready else .unformatted }
      ev := t.ev
      table := if good then s.table else { (match j.firstRow with
        | none => s
        | some r => s.setRow r
          ⟨some .dirty, 0, (s.row r).eraseCount, (s.row r).guessed, 0, 0, false⟩).table with
          journalId := 0, highestSequence := 0 }
      fmt := none
      ctl := { s.ctl with holder := .nobody } } ∧
    let mask : Byte := if t.freeGranules < 255 then 0x62 else 0x42
    t.ev = { s.ev with event := s.ev.event ||| mask, justSet := s.ev.justSet ||| mask }

/-! ### The mount -/

/-- A header read of HEADER_SCAN enters the row's class in the row scan table, raises the two highest figures with a valid
header, captures a CHECK_FAIL for a header read CLEAN or CORRECTED that is not valid, and asks for the next row's header
(R4, R32, R116). -/
def Obligations.MountReadsTheHeaders : Prop :=
  ∀ (s : State) (drift : List (BitVec 8 × Granule)) (r : Nat) (g : GranuleRead),
    let q : Request := ⟨.mount, .mount, r, 0, .read 1, true⟩
    s.serves q → s.mnt.wait = .header r → r < 63 → s.win.mode = .mounting → s.fmt = none →
    s.readSeen q 1 drift = [g] →
    let cls := classifyRowHeader g
    let u := (s.readTaken q 1 drift).captureCheck
      (decide ((g.outcome = .clean ∨ g.outcome = .corrected) ∧ cls = .invalid)) .mount r 0
    ∃ t, exec (.readComplete drift) s = .next t ∧
      t = { u with
        mnt := { s.mnt with
          wait := .header (r + 1)
          scan := t.mnt.scan
          highestJournalId := match cls with
            | .valid h => max s.mnt.highestJournalId h.journalId
            | .blank => s.mnt.highestJournalId
            | .invalid => s.mnt.highestJournalId
          highestEraseCount := match cls with
            | .valid h => max s.mnt.highestEraseCount h.eraseCount
            | .blank => s.mnt.highestEraseCount
            | .invalid => s.mnt.highestEraseCount }
        ctl := (u.issue ⟨.mount, .mount, r + 1, 0, .read 1, true⟩).ctl.arbitrate } ∧
      ∀ x, x < 64 → t.mnt.scanRow x = if x = r then { s.mnt.scanRow r with cls := some cls } else s.mnt.scanRow x

/-- RESOLVE fixes the set boundary C, drops every change above it as torn, and gives each key the committed record of highest
set id, the latest in journal order among equals: LIVE, TOMBSTONE or DAMAGED, its other committed records counted stale; only
a tombstone without stale records is dropped.  The directory is the first 512 entries (R17, R122 to R124). -/
def Obligations.WinnersOfTheJournal : Prop :=
  ∀ records : List Noted,
    let c := boundaryC records
    let own := fun (k : Nat) (n : Noted) => n.header.kind ≠ .commit ∧ n.header.setId ≤ c ∧ n.header.key = k
    let winner := fun (k : Nat) (w : Noted) => ∃ before after, records = before ++ w :: after ∧ own k w ∧
      (∀ o ∈ before, own k o → o.header.setId ≤ w.header.setId) ∧
      ∀ o ∈ after, own k o → o.header.setId < w.header.setId
    let stale := fun k : Nat => min 16320 (records.countP (fun n => decide (own k n)) - 1)
    (∀ n ∈ records, n.header.kind = .commit ∨ n.header.moved = true → n.header.setId ≤ c) ∧
    (c ≠ 0 → ∃ n ∈ records, (n.header.kind = .commit ∨ n.header.moved = true) ∧ n.header.setId = c) ∧
    (∀ e ∈ resolvedEntries records, ∃ w, winner e.key w ∧
      e = ⟨e.key, if w.intact = false then .damaged else if w.header.kind = .put then .live else .tombstone,
        w.header.version, w.header.setId, w.row, w.granule, w.header.length, stale e.key, 1⟩) ∧
    (∀ n ∈ records, own n.header.key n → (∃ e ∈ resolvedEntries records, e.key = n.header.key) ∨
      (stale n.header.key = 0 ∧ ∃ w, winner n.header.key w ∧ w.intact = true ∧ w.header.kind = .delete)) ∧
    ∀ s : State, s.mnt.records = records → s.resolve.1.dir = (resolvedEntries records).take 512

/-! ### Resets -/

/-- A RESET takes effect: every block is as after a power-on reset but for RESET_CAUSE, the fault list and the counters, and
the mount begins; the granule under program is complete, the later ones are as they were, a row under erase is left blank,
old or UNCORRECTABLE granule by granule, and the rest of the array stays (R30, R36, R115, R175, R176).  How many granules
were finished and what an erase leaves are free (logs 9 and 10).  What no rule gives a value, the latched arguments, the buffer's and
the pool's bytes, row figures, record index and copy cursor among it, the model sets as at power-on (log 25). -/
def Obligations.ResetTakesEffect : Prop :=
  ∀ s : State, s.resetPhase = .commandTaken →
    ∃ t, exec .resetTakesEffect s = .next t ∧
      t = { State.reset with
        win := { State.reset.win with resetCause := .command }
        ctl := { State.reset.ctl with
          faults := s.ctl.faults, corrected := s.ctl.corrected, uncorrectable := s.ctl.uncorrectable
          overflow := s.ctl.overflow }
        cells := t.cells
        wprotLow := s.wprotLow
        freeIdx := t.freeIdx
        pending := s.pending } ∧
      (s.arrayOk → ∀ row g, g ≤ 255 →
        (¬ s.inFlight row g → t.granule row g = s.granule row g) ∧
        ∀ e, s.ctl.erase = some e → (∀ r granules, s.ctl.current = some r → r.op = .program granules → row ≠ r.row) →
          t.granule row g = s.granule row g ∨ t.granule row g = .blank ∨ ∃ raw, t.granule row g = .written .bad raw) ∧
      (s.arrayOk → ∀ r granules, s.ctl.current = some r → r.op = .program granules → granules ≠ [] →
        (∀ e, s.ctl.erase = some e → e.request.row ≠ r.row) →
        ∃ k, k < granules.length ∧ ∀ i d, granules[i]? = some d → r.first + i ≤ 255 →
          t.granule r.row (r.first + i) = if i ≤ k then .written .agrees d else s.granule r.row (r.first + i))

/-- A power-on or a pin reset puts every block in its reset state at once, whatever was under way: of a program in service the
finished granules stay written, the one under way is uncertain and the later ones are as they were; a row under erase is left blank,
old or UNCORRECTABLE granule by granule.  Its end writes RESET_CAUSE, POWER when a power-on reset was part of it, and the mount asks
for its first read (R29, R115, R174, R176; logs 9 and 10).  What no rule gives a value the model sets as at power-on (log 25), and
RESET_CAUSE keeps its value while the reset is in force (log 39). -/
def Obligations.PowerAndPinResets : Prop :=
  (∀ (s : State) (i : Instr) (power : Bool),
    (i = .powerOnReset ∧ power = true ∨ i = .pinReset ∧ (power = true ↔ s.resetPhase = .held true)) →
    ∃ t, exec i s = .next t ∧
      t = { State.poweringUp with
        win := { State.poweringUp.win with resetCause := s.win.resetCause }
        cells := t.cells
        wprotLow := s.wprotLow
        resetPhase := .held power
        freeIdx := t.freeIdx
        pending := s.pending } ∧
      (s.arrayOk → ∀ row g, g ≤ 255 →
        (¬ s.inFlight row g → t.granule row g = s.granule row g) ∧
        ∀ e, s.ctl.erase = some e → (∀ r granules, s.ctl.current = some r → r.op = .program granules → row ≠ r.row) →
          t.granule row g = s.granule row g ∨ t.granule row g = .blank ∨ ∃ raw, t.granule row g = .written .bad raw) ∧
      (s.arrayOk → ∀ r granules, s.ctl.current = some r → r.op = .program granules → granules ≠ [] →
        (∀ e, s.ctl.erase = some e → e.request.row ≠ r.row) →
        ∃ k, k < granules.length ∧ ∀ i d, granules[i]? = some d → r.first + i ≤ 255 → i ≠ k →
          t.granule r.row (r.first + i) = if i < k then .written .agrees d else s.granule r.row (r.first + i))) ∧
  ∀ (s : State) (power : Bool), s.resetPhase = .held power →
    exec .resetEnd s = .next { s with
      win := { s.win with resetCause := if power = true then .power else .pin }
      resetPhase := .running
      ctl := (s.issue ⟨.mount, .mount, 0, 0, .read 1, true⟩).ctl.arbitrate }

end Statements
end

