-- ==== Sys2Proof/Laws/Bits.lean ====
section
/-! SUPPORT. Bits of the byte operations: a byte of a register pair or of SIG replaced, the bits of STATUS, a flag that meets
its enable. -/

namespace Sys2Proof.Machine

theorem getLsbD_cat {n m : Nat} (x : BitVec n) (y : BitVec m) (k : Nat) :
    (x ++ y).getLsbD k = if k < m then y.getLsbD k else x.getLsbD (k - m) := by
  rw [BitVec.getLsbD_append]

/-- Each byte of a 32-bit register replaced, as a concatenation. -/
theorem setByte32_cat (w : BitVec 32) (b : Byte) :
    setByte32 w 0 b = w.extractLsb' 8 24 ++ b ∧ setByte32 w 1 b = w.extractLsb' 16 16 ++ b ++ w.extractLsb' 0 8 ∧
    setByte32 w 2 b = w.extractLsb' 24 8 ++ b ++ w.extractLsb' 0 16 ∧ setByte32 w 3 b = b ++ w.extractLsb' 0 24 := by
  refine ⟨?_, ?_, ?_, ?_⟩ <;>
  · apply BitVec.eq_of_getLsbD_eq
    intro k hk
    conv => rhs; erw [getLsbD_cat]
    try (conv => rhs; erw [getLsbD_cat])
    interval_cases k <;> simp [setByte32]

/-- The bits of a byte put together from seven conditions, as STATUS is. -/
theorem statusBits (a b c d e f g : Bool) :
    let x : Byte := bitIf a 0x01 ||| bitIf b 0x02 ||| bitIf c 0x04 ||| bitIf d 0x08 ||| bitIf e 0x10 ||| bitIf f 0x20 |||
      bitIf g 0x40
    x.getLsbD 0 = a ∧ x.getLsbD 1 = b ∧ x.getLsbD 2 = c ∧ x.getLsbD 3 = d ∧ x.getLsbD 4 = e ∧ x.getLsbD 5 = f ∧
      x.getLsbD 6 = g ∧ x.getLsbD 7 = false := by
  revert a b c d e f g
  decide

/-- Two bytes meet in some bit exactly when their conjunction is not 0. -/
theorem and_ne_zero_iff (e n : Byte) : (e &&& n) ≠ 0 ↔ ∃ i, i < 8 ∧ e.getLsbD i = true ∧ n.getLsbD i = true := by
  constructor
  · intro h
    by_contra hn
    apply h
    apply BitVec.eq_of_getLsbD_eq
    intro i hi
    simp only [BitVec.getLsbD_and]
    by_contra h2
    apply hn
    refine ⟨i, hi, ?_⟩
    cases h3 : e.getLsbD i <;> cases h4 : n.getLsbD i <;> simp_all
  · rintro ⟨i, hi, h1, h2⟩ h
    have : (e &&& n).getLsbD i = true := by simp [h1, h2]
    rw [h] at this
    simp at this

end Sys2Proof.Machine
end

