-- ==== Sys2Proof/Laws/Formats.lean ====
section
/-! SUPPORT. The fields of the headers read back from their granules, and payload bytes packed into granules read back. -/

set_option Elab.async false

namespace Sys2Proof.Machine

theorem extract_high {n m : Nat} (x : BitVec n) (y : BitVec m) (k w : Nat) :
    (x ++ y).extractLsb' (m + k) w = x.extractLsb' k w := by
  apply BitVec.eq_of_getLsbD_eq
  intro i hi
  simp only [BitVec.getLsbD_extractLsb', getLsbD_cat]
  rw [if_neg (by omega), show m + k + i - m = k + i by omega]

theorem extract_low {n m : Nat} (x : BitVec n) (y : BitVec m) (k w : Nat) (h : k + w ≤ m) :
    (x ++ y).extractLsb' k w = y.extractLsb' k w := by
  apply BitVec.eq_of_getLsbD_eq
  intro i hi
  simp only [BitVec.getLsbD_extractLsb', getLsbD_cat]
  rw [if_pos (by omega)]

theorem extract_all {n : Nat} (x : BitVec n) : x.extractLsb' 0 n = x := by
  apply BitVec.eq_of_getLsbD_eq
  intro i hi
  simp [hi]

/-! ### Row header -/

theorem rowHeader_field (h : RowHeader) (k w : Nat) :
    (encodeRowHeader h).extractLsb' (32 + k) w = (rowHeaderFields h).extractLsb' k w := by
  unfold encodeRowHeader
  have := extract_high (rowHeaderFields h ++ crc16 (fieldBytes 12 (rowHeaderFields h))) (0xFFFF : BitVec 16) (16 + k) w
  rw [show 32 + k = 16 + (16 + k) by omega]
  exact this.trans (extract_high _ _ _ _)

theorem rowHeader_check (h : RowHeader) :
    (encodeRowHeader h).extractLsb' 16 16 = crc16 (fieldBytes 12 (rowHeaderFields h)) := by
  unfold encodeRowHeader
  have := extract_high (rowHeaderFields h ++ crc16 (fieldBytes 12 (rowHeaderFields h))) (0xFFFF : BitVec 16) 0 16
  refine this.trans ((extract_low _ _ _ _ (by omega)).trans (extract_all _))

theorem rowHeader_bytes (h : RowHeader) :
    dataBytes (encodeRowHeader h) 12 = fieldBytes 12 (rowHeaderFields h) := by
  unfold dataBytes fieldBytes dataByte
  apply List.map_congr_left
  intro i hi
  have hi := List.mem_range.1 hi
  rw [show 8 * (15 - i) = 32 + 8 * (12 - 1 - i) by omega]
  exact rowHeader_field h _ 8

theorem rowHeaderFields_eraseCount (h : RowHeader) :
    (rowHeaderFields h).extractLsb' 0 24 = BitVec.ofNat 24 h.eraseCount := by
  unfold rowHeaderFields
  exact (extract_low _ _ _ _ (by omega)).trans (extract_all _)

theorem rowHeaderFields_sequence (h : RowHeader) :
    (rowHeaderFields h).extractLsb' 24 32 = BitVec.ofNat 32 h.sequence := by
  unfold rowHeaderFields
  exact (extract_high _ _ 0 32).trans ((extract_low _ _ _ _ (by omega)).trans (extract_all _))

theorem rowHeaderFields_journalId (h : RowHeader) :
    (rowHeaderFields h).extractLsb' 56 32 = BitVec.ofNat 32 h.journalId := by
  unfold rowHeaderFields
  exact (extract_high _ _ 32 32).trans ((extract_high _ _ 0 32).trans
    ((extract_low _ _ _ _ (by omega)).trans (extract_all _)))

theorem rowHeaderFields_kind (h : RowHeader) : (rowHeaderFields h).extractLsb' 88 8 = 0xC3 := by
  unfold rowHeaderFields
  exact (extract_high _ _ 64 8).trans ((extract_high _ _ 32 8).trans
    ((extract_high _ _ 0 8).trans (extract_all _)))

/-- A row header with its fields in range decodes to itself. -/
theorem decodeRowHeader_encode (h : RowHeader) (j1 : 1 ≤ h.journalId) (j2 : h.journalId ≤ 4294967295)
    (s1 : 1 ≤ h.sequence) (s2 : h.sequence ≤ 4294967295) (e : h.eraseCount ≤ 16777215) :
    decodeRowHeader (encodeRowHeader h) = some h := by
  unfold decodeRowHeader
  dsimp only
  have hj : ((encodeRowHeader h).extractLsb' 88 32).toNat = h.journalId := by
    rw [show (88 : Nat) = 32 + 56 from rfl, rowHeader_field, rowHeaderFields_journalId, BitVec.toNat_ofNat]
    exact Nat.mod_eq_of_lt (by omega)
  have hs : ((encodeRowHeader h).extractLsb' 56 32).toNat = h.sequence := by
    rw [show (56 : Nat) = 32 + 24 from rfl, rowHeader_field, rowHeaderFields_sequence, BitVec.toNat_ofNat]
    exact Nat.mod_eq_of_lt (by omega)
  have he : ((encodeRowHeader h).extractLsb' 32 24).toNat = h.eraseCount := by
    have h32 := rowHeader_field h 0 24
    rw [Nat.add_zero] at h32
    rw [h32, rowHeaderFields_eraseCount, BitVec.toNat_ofNat]
    exact Nat.mod_eq_of_lt (by omega)
  have hk : (encodeRowHeader h).extractLsb' 120 8 = 0xC3 := by
    rw [show (120 : Nat) = 32 + 88 from rfl, rowHeader_field, rowHeaderFields_kind]
  rw [hj, hs, he, hk, rowHeader_check, rowHeader_bytes]
  rw [if_pos ⟨rfl, by omega, by omega, rfl⟩]

/-! ### Record header -/

theorem recordHeader_field (h : RecordHeader) (k w : Nat) :
    (encodeRecordHeader h).extractLsb' (16 + k) w = (recordHeaderFields h).extractLsb' k w := by
  unfold encodeRecordHeader
  exact extract_high _ _ _ _

theorem recordHeader_check (h : RecordHeader) :
    (encodeRecordHeader h).extractLsb' 0 16 = crc16 (fieldBytes 14 (recordHeaderFields h)) := by
  unfold encodeRecordHeader
  exact (extract_low _ _ _ _ (by omega)).trans (extract_all _)

theorem recordHeader_bytes (h : RecordHeader) :
    dataBytes (encodeRecordHeader h) 14 = fieldBytes 14 (recordHeaderFields h) := by
  unfold dataBytes fieldBytes dataByte
  apply List.map_congr_left
  intro i hi
  have hi := List.mem_range.1 hi
  rw [show 8 * (15 - i) = 16 + 8 * (14 - 1 - i) by omega]
  exact recordHeader_field h _ 8

theorem recordFields_check (h : RecordHeader) : (recordHeaderFields h).extractLsb' 0 16 = h.payloadCheck := by
  unfold recordHeaderFields
  exact (extract_low _ _ _ _ (by omega)).trans (extract_all _)

theorem recordFields_index (h : RecordHeader) : (recordHeaderFields h).extractLsb' 16 8 = BitVec.ofNat 8 h.index := by
  unfold recordHeaderFields
  exact (extract_high _ _ 0 8).trans ((extract_low _ _ _ _ (by omega)).trans (extract_all _))

theorem recordFields_length (h : RecordHeader) : (recordHeaderFields h).extractLsb' 24 8 = BitVec.ofNat 8 h.length := by
  unfold recordHeaderFields
  exact (extract_high _ _ 8 8).trans ((extract_high _ _ 0 8).trans
    ((extract_low _ _ _ _ (by omega)).trans (extract_all _)))

theorem recordFields_setId (h : RecordHeader) : (recordHeaderFields h).extractLsb' 32 32 = BitVec.ofNat 32 h.setId := by
  unfold recordHeaderFields
  exact (extract_high _ _ 16 32).trans ((extract_high _ _ 8 32).trans ((extract_high _ _ 0 32).trans
    ((extract_low _ _ _ _ (by omega)).trans (extract_all _))))

theorem recordFields_version (h : RecordHeader) :
    (recordHeaderFields h).extractLsb' 64 16 = BitVec.ofNat 16 h.version := by
  unfold recordHeaderFields
  exact (extract_high _ _ 48 16).trans ((extract_high _ _ 40 16).trans ((extract_high _ _ 32 16).trans
    ((extract_high _ _ 0 16).trans ((extract_low _ _ _ _ (by omega)).trans (extract_all _)))))

theorem recordFields_key (h : RecordHeader) : (recordHeaderFields h).extractLsb' 80 16 = BitVec.ofNat 16 h.key := by
  unfold recordHeaderFields
  exact (extract_high _ _ 64 16).trans ((extract_high _ _ 56 16).trans ((extract_high _ _ 48 16).trans
    ((extract_high _ _ 16 16).trans ((extract_high _ _ 0 16).trans
      ((extract_low _ _ _ _ (by omega)).trans (extract_all _))))))

theorem recordFields_moved (h : RecordHeader) :
    (recordHeaderFields h).extractLsb' 96 8 = (if h.moved then 0x01 else 0x00 : BitVec 8) := by
  unfold recordHeaderFields
  exact (extract_high _ _ 80 8).trans ((extract_high _ _ 72 8).trans ((extract_high _ _ 64 8).trans
    ((extract_high _ _ 32 8).trans ((extract_high _ _ 16 8).trans ((extract_high _ _ 0 8).trans
      ((extract_low _ _ _ _ (by omega)).trans (extract_all _)))))))

theorem recordFields_kind (h : RecordHeader) : (recordHeaderFields h).extractLsb' 104 8 = kindCode h.kind := by
  unfold recordHeaderFields
  exact (extract_high _ _ 88 8).trans ((extract_high _ _ 80 8).trans ((extract_high _ _ 72 8).trans
    ((extract_high _ _ 40 8).trans ((extract_high _ _ 24 8).trans ((extract_high _ _ 8 8).trans
      ((extract_high _ _ 0 8).trans (extract_all _)))))))

theorem kindOf_kindCode (k : RecordKind) : kindOf (kindCode k) = some k := by cases k <;> rfl

/-- What R9 allows of any header: each field within its width. -/
theorem headerAllowed_range {h : RecordHeader} (a : headerAllowed h = true) :
    h.key ≤ 65535 ∧ h.version ≤ 65535 ∧ h.setId ≤ 4294967295 ∧ h.length ≤ 240 ∧ h.index ≤ 16 := by
  unfold headerAllowed at a
  split at a <;> simp only [decide_eq_true_eq] at a <;> omega

/-- A record header that R9 allows decodes to itself. -/
theorem decodeRecordHeader_encode (h : RecordHeader) (a : headerAllowed h = true) :
    decodeRecordHeader (encodeRecordHeader h) = some h := by
  obtain ⟨r1, r2, r3, r4, r5⟩ := headerAllowed_range a
  have hk : (encodeRecordHeader h).extractLsb' 120 8 = kindCode h.kind := by
    rw [show (120 : Nat) = 16 + 104 from rfl, recordHeader_field, recordFields_kind]
  have hm : (encodeRecordHeader h).extractLsb' 112 8 = (if h.moved then 0x01 else 0x00 : BitVec 8) := by
    rw [show (112 : Nat) = 16 + 96 from rfl, recordHeader_field, recordFields_moved]
  have hd : headerOfData (encodeRecordHeader h) h.kind
      ((encodeRecordHeader h).extractLsb' 112 8 = (0x01 : BitVec 8)) = h := by
    unfold headerOfData
    rw [hm]
    have k1 : ((encodeRecordHeader h).extractLsb' 96 16).toNat = h.key := by
      rw [show (96 : Nat) = 16 + 80 from rfl, recordHeader_field, recordFields_key, BitVec.toNat_ofNat]
      exact Nat.mod_eq_of_lt (by omega)
    have k2 : ((encodeRecordHeader h).extractLsb' 80 16).toNat = h.version := by
      rw [show (80 : Nat) = 16 + 64 from rfl, recordHeader_field, recordFields_version, BitVec.toNat_ofNat]
      exact Nat.mod_eq_of_lt (by omega)
    have k3 : ((encodeRecordHeader h).extractLsb' 48 32).toNat = h.setId := by
      rw [show (48 : Nat) = 16 + 32 from rfl, recordHeader_field, recordFields_setId, BitVec.toNat_ofNat]
      exact Nat.mod_eq_of_lt (by omega)
    have k4 : ((encodeRecordHeader h).extractLsb' 40 8).toNat = h.length := by
      rw [show (40 : Nat) = 16 + 24 from rfl, recordHeader_field, recordFields_length, BitVec.toNat_ofNat]
      exact Nat.mod_eq_of_lt (by omega)
    have k5 : ((encodeRecordHeader h).extractLsb' 32 8).toNat = h.index := by
      rw [show (32 : Nat) = 16 + 16 from rfl, recordHeader_field, recordFields_index, BitVec.toNat_ofNat]
      exact Nat.mod_eq_of_lt (by omega)
    have k6 : (encodeRecordHeader h).extractLsb' 16 16 = h.payloadCheck := by
      have h16 := recordHeader_field h 0 16
      rw [Nat.add_zero] at h16
      rw [h16, recordFields_check]
    rw [k1, k2, k3, k4, k5, k6]
    cases h with
    | mk kind moved key version setId length index check => cases moved <;> rfl
  unfold decodeRecordHeader
  rw [hk, kindOf_kindCode]
  simp only
  rw [hd, recordHeader_check, recordHeader_bytes, if_pos]
  refine ⟨?_, rfl, a⟩
  rw [hm]
  cases h.moved <;> simp

end Sys2Proof.Machine
end

