-- ==== Sys2Proof/Laws/Lists.lean ====
section
/-! SUPPORT. The data structures under the state: the cells of the array, the directory in key order, byte vectors, and
the orderings. -/

namespace Sys2Proof.Machine

/-! ### The cells of the array -/

/-- Reading after giving a granule its content. -/
theorem cellAt_setCell (c : Cells) (a b : Nat) (g : Granule) (low : Nat) (h : cellsWfFrom low c = true) :
    cellAt (setCell c a g) b = if b = a then g else cellAt c b := by
  induction c generalizing low with
  | nil =>
    by_cases hg : g = .blank <;> by_cases hb : b = a <;> simp [setCell, cellAt, hg, hb]
    intro hab; exact absurd hab.symm hb
  | cons e t ih =>
    obtain ⟨k, v⟩ := e
    simp only [cellsWfFrom, Bool.and_eq_true, decide_eq_true_eq] at h
    obtain ⟨⟨hlow, hv⟩, ht⟩ := h
    have below : ∀ (t : Cells) (lo x : Nat), cellsWfFrom lo t = true → x < lo → cellAt t x = .blank := by
      intro t
      induction t with
      | nil => intros; rfl
      | cons e t ih =>
        intro lo x hw hx
        obtain ⟨k, v⟩ := e
        simp only [cellsWfFrom, Bool.and_eq_true, decide_eq_true_eq] at hw
        have hne : k ≠ x := by omega
        simp only [cellAt, if_neg hne]
        exact ih (k + 1) x hw.2 (by omega)
    simp only [setCell]
    by_cases hak : a < k
    · simp only [if_pos hak]
      have hka : k ≠ a := by omega
      have hta := below t (k + 1) a ht (by omega)
      by_cases hg : g = .blank
      · by_cases hb : b = a
        · subst hb; simp [cellAt, hg, hka, hta]
        · simp [hg, hb]
      · by_cases hb : b = a
        · subst hb; simp [cellAt, hg]
        · have hab : a ≠ b := fun e => hb e.symm
          simp [cellAt, hg, hb, hab]
    · simp only [if_neg hak]
      by_cases hk : a = k
      · subst hk
        have hta := below t (a + 1) a ht (by omega)
        by_cases hg : g = .blank
        · by_cases hb : b = a
          · subst hb; simp [hg, hta]
          · have hab : a ≠ b := fun e => hb e.symm
            simp [cellAt, hg, hb, hab]
        · by_cases hb : b = a
          · subst hb; simp [cellAt, hg]
          · have hab : a ≠ b := fun e => hb e.symm
            simp [cellAt, hg, hb, hab]
      · simp only [if_neg hk, cellAt, ih (k + 1) ht]
        by_cases hb : b = a
        · subst hb
          have hkb : k ≠ b := fun e => hk e.symm
          simp [hkb]
        · simp [hb]

/-- The canonical form from a higher start holds from a lower one. -/
theorem cellsWf_mono (t : Cells) (lo lo2 : Nat) (h : cellsWfFrom lo t = true) (hle : lo2 ≤ lo) :
    cellsWfFrom lo2 t = true := by
  cases t with
  | nil => rfl
  | cons e t => simp_all [cellsWfFrom]; omega

/-- Giving a granule its content keeps the canonical form. -/
theorem setCell_wf (c : Cells) (a : Nat) (g : Granule) (low : Nat) (h : cellsWfFrom low c = true) (hl : low ≤ a) :
    cellsWfFrom low (setCell c a g) = true := by
  induction c generalizing low with
  | nil => by_cases hg : g = .blank <;> simp [setCell, cellsWfFrom, hg, hl]
  | cons e t ih =>
    obtain ⟨k, v⟩ := e
    have h0 := h
    simp only [cellsWfFrom, Bool.and_eq_true, decide_eq_true_eq] at h
    obtain ⟨⟨hlow, hv⟩, ht⟩ := h
    simp only [setCell]
    split
    · split
      · exact h0
      · simp_all [cellsWfFrom]
    · split
      · rename_i heq
        subst heq
        split
        · exact cellsWf_mono t (a + 1) low ht (by omega)
        · simp_all [cellsWfFrom]
      · have := ih (k + 1) ht (by omega)
        simp_all [cellsWfFrom]

/-- Dropping entries keeps the canonical form. -/
theorem filter_wf (c : Cells) (p : Nat × Granule → Bool) (low : Nat) (h : cellsWfFrom low c = true) :
    cellsWfFrom low (c.filter p) = true := by
  induction c generalizing low with
  | nil => rfl
  | cons e t ih =>
    obtain ⟨k, v⟩ := e
    simp only [cellsWfFrom, Bool.and_eq_true, decide_eq_true_eq] at h
    obtain ⟨⟨hlow, hv⟩, ht⟩ := h
    have iht := ih (k + 1) ht
    rw [List.filter_cons]
    split
    · simp [cellsWfFrom, hlow, hv, iht]
    · exact cellsWf_mono _ _ _ iht (by omega)

/-- The canonical form survives giving a granule its content. -/
theorem Cells.wf_setCell (c : Cells) (a : Nat) (g : Granule) (h : c.wf = true) : Cells.wf (setCell c a g) = true :=
  setCell_wf c a g 0 h (Nat.zero_le a)

/-- The canonical form survives the erase of a row. -/
theorem Cells.wf_blankRow (c : Cells) (row : Nat) (h : c.wf = true) : Cells.wf (blankRow c row) = true :=
  filter_wf c _ 0 h

/-- An erased row reads blank, every other row as before (R22). -/
theorem cellAt_blankRow (c : Cells) (row a : Nat) :
    cellAt (blankRow c row) a = if a / 256 = row then .blank else cellAt c a := by
  induction c with
  | nil => simp [blankRow, cellAt]
  | cons e t ih =>
    obtain ⟨k, v⟩ := e
    simp only [blankRow, List.filter_cons] at ih ⊢
    by_cases hk : k / 256 = row
    · simp only [hk, ne_eq, not_true_eq_false, decide_false, Bool.false_eq_true, if_false, ih, cellAt]
      by_cases hka : k = a
      · subst hka; simp [hk]
      · simp [hka]
    · simp only [hk, ne_eq, not_false_eq_true, decide_true, if_true, cellAt, ih]
      by_cases hka : k = a
      · subst hka; simp [hk]
      · simp [hka]

/-! ### The directory in key order -/

/-- Ascending key order, no key twice (R38). -/
abbrev Ascending (d : List DirEntry) : Prop := d.Pairwise (fun a b => a.key < b.key)

theorem mem_dirPut (e x : DirEntry) (d : List DirEntry) (h : x ∈ dirPut e d) : x = e ∨ x ∈ d := by
  induction d with
  | nil => simpa [dirPut] using h
  | cons y t ih =>
    simp only [dirPut] at h
    split at h
    · simpa using h
    · split at h
      · rcases List.mem_cons.1 h with rfl | h
        · exact .inl rfl
        · exact .inr (List.mem_cons_of_mem _ h)
      · rcases List.mem_cons.1 h with rfl | h
        · exact .inr (List.mem_cons_self ..)
        · rcases ih h with h | h
          · exact .inl h
          · exact .inr (List.mem_cons_of_mem _ h)

/-- Adding or replacing an entry keeps the key order. -/
theorem dirPut_ascending (e : DirEntry) (d : List DirEntry) (h : Ascending d) : Ascending (dirPut e d) := by
  induction d with
  | nil => simp [dirPut]
  | cons y t ih =>
    have hy := (List.pairwise_cons.1 h).1
    have ht := (List.pairwise_cons.1 h).2
    simp only [dirPut]
    split
    · rename_i hlt
      refine List.pairwise_cons.2 ⟨?_, h⟩
      intro x hx
      rcases List.mem_cons.1 hx with rfl | hx
      · exact hlt
      · exact Nat.lt_trans hlt (hy x hx)
    · split
      · rename_i hne heq
        exact List.pairwise_cons.2 ⟨fun x hx => heq ▸ hy x hx, ht⟩
      · rename_i hnl hne
        refine List.pairwise_cons.2 ⟨?_, ih ht⟩
        intro x hx
        rcases mem_dirPut e x t hx with rfl | hx
        · omega
        · exact hy x hx

/-- Removing entries keeps the key order. -/
theorem filter_ascending (p : DirEntry → Bool) (d : List DirEntry) (h : Ascending d) : Ascending (d.filter p) :=
  h.filter p

/-- Changing entries but not their keys keeps the key order. -/
theorem map_ascending (f : DirEntry → DirEntry) (hf : ∀ e, (f e).key = e.key) (d : List DirEntry) (h : Ascending d) :
    Ascending (d.map f) := by
  refine List.pairwise_map.2 (h.imp ?_)
  intro a b hab
  rw [hf, hf]; exact hab

/-- A lookup by key after an update: the entry of its own key is the new one, every other lookup answers as before. -/
theorem dirFind_dirPut (e : DirEntry) (d : List DirEntry) (h : Ascending d) (k : Nat) :
    dirFind (dirPut e d) k = if k = e.key then some e else dirFind d k := by
  unfold dirFind
  induction d with
  | nil =>
    by_cases hk : k = e.key
    · simp [dirPut, hk]
    · have : ¬ e.key = k := fun x => hk x.symm
      simp [dirPut, hk, this]
  | cons y t ih =>
    have hy := (List.pairwise_cons.1 h).1
    have ht := (List.pairwise_cons.1 h).2
    simp only [dirPut]
    by_cases hk : k = e.key
    · subst hk
      split
      · simp
      · split
        · simp
        · rename_i h1 h2
          rw [List.find?_cons_of_neg (by simpa using h2), ih ht]; simp
    · have hke : ¬ e.key = k := fun x => hk x.symm
      split
      · simp [hke]
      · split
        · rename_i h1 h2
          have : ¬ y.key = k := fun x => hk (by omega)
          simp [hke, this]
        · by_cases hyk : y.key = k
          · simp [hyk]
          · rw [List.find?_cons_of_neg (by simpa using hyk), List.find?_cons_of_neg (by simpa using hyk), ih ht, if_neg hk]

/-- A lookup by key after a removal. -/
theorem dirFind_dirRemove (key k : Nat) (d : List DirEntry) :
    dirFind (dirRemove key d) k = if k = key then none else dirFind d k := by
  unfold dirFind dirRemove
  induction d with
  | nil => simp
  | cons y t ih =>
    by_cases hy : y.key = key
    · simp only [List.filter_cons, hy, ne_eq, not_true_eq_false, decide_false, Bool.false_eq_true, if_false, ih]
      by_cases hk : k = key
      · simp [hk]
      · have : ¬ y.key = k := fun x => hk (by omega)
        simp [hk, this]
    · simp only [List.filter_cons, hy, ne_eq, not_false_eq_true, decide_true, if_true]
      by_cases hyk : y.key = k
      · have : ¬ k = key := fun x => hy (by omega)
        simp [hyk, this]
      · rw [List.find?_cons_of_neg (by simpa using hyk), List.find?_cons_of_neg (by simpa using hyk), ih]

/-- An entry found by key has the key and stands in the directory. -/
theorem dirFind_some (d : List DirEntry) (k : Nat) (e : DirEntry) (h : dirFind d k = some e) : e.key = k ∧ e ∈ d := by
  unfold dirFind at h
  exact ⟨by simpa using List.find?_some h, List.mem_of_find?_eq_some h⟩

/-- In key order the entry of a key is the only one with it. -/
theorem dirFind_of_mem (d : List DirEntry) (h : Ascending d) (e : DirEntry) (he : e ∈ d) : dirFind d e.key = some e := by
  unfold dirFind
  induction d with
  | nil => cases he
  | cons y t ih =>
    have hy := (List.pairwise_cons.1 h).1
    have ht := (List.pairwise_cons.1 h).2
    rcases List.mem_cons.1 he with rfl | he
    · simp
    · have : ¬ y.key = e.key := by have := hy e he; omega
      rw [List.find?_cons_of_neg (by simpa using this)]
      exact ih ht he

/-! ### Bytes in vectors -/

/-- A byte of a vector after bytes were written from a position on. -/
theorem writeFrom_getElem? {n : Nat} (bytes : List Byte) (v : Vector Byte n) (p i : Nat) (hi : i < n) :
    (writeFrom v p bytes)[i]? = if p ≤ i ∧ i < p + bytes.length then bytes[i - p]? else v[i]? := by
  induction bytes generalizing v p with
  | nil =>
    simp [writeFrom]
  | cons b t ih =>
    simp only [writeFrom, ih, List.length_cons]
    by_cases h1 : p + 1 ≤ i ∧ i < p + 1 + t.length
    · have h2 : p ≤ i ∧ i < p + (t.length + 1) := by omega
      have h3 : i - p = (i - (p + 1)) + 1 := by omega
      simp [h1, h2, h3]
    · by_cases h4 : p = i
      · subst h4
        have h2 : p ≤ p ∧ p < p + (t.length + 1) := by omega
        simp only [if_neg h1, if_pos h2, Nat.sub_self, List.getElem?_cons_zero]
        simp [hi]
      · have h2 : ¬ (p ≤ i ∧ i < p + (t.length + 1)) := by omega
        simp only [if_neg h1, if_neg h2]
        simp [h4]

/-- Bytes read from a vector, one by one. -/
theorem readFrom_length {n : Nat} (v : Vector Byte n) (p len : Nat) : (readFrom v p len).length = len := by
  simp [readFrom]

/-! ### Keys of a mount in ascending order -/

theorem mem_insertKey (k x : Nat) (l : List Nat) (h : x ∈ insertKey k l) : x = k ∨ x ∈ l := by
  induction l with
  | nil => simpa [insertKey] using h
  | cons y t ih =>
    simp only [insertKey] at h
    split at h
    · simpa using h
    · split at h
      · exact .inr h
      · rcases List.mem_cons.1 h with rfl | h
        · exact .inr (List.mem_cons_self ..)
        · rcases ih h with h | h
          · exact .inl h
          · exact .inr (List.mem_cons_of_mem _ h)

theorem insertKey_ascending (k : Nat) (l : List Nat) (h : l.Pairwise (· < ·)) : (insertKey k l).Pairwise (· < ·) := by
  induction l with
  | nil => simp [insertKey]
  | cons y t ih =>
    have hy := (List.pairwise_cons.1 h).1
    have ht := (List.pairwise_cons.1 h).2
    simp only [insertKey]
    split
    · rename_i hlt
      refine List.pairwise_cons.2 ⟨?_, h⟩
      intro x hx
      rcases List.mem_cons.1 hx with rfl | hx
      · exact hlt
      · exact Nat.lt_trans hlt (hy x hx)
    · split
      · exact h
      · refine List.pairwise_cons.2 ⟨?_, ih ht⟩
        intro x hx
        rcases mem_insertKey k x t hx with rfl | hx
        · omega
        · exact hy x hx

theorem keysOf_ascending (records : List Noted) : (keysOf records).Pairwise (· < ·) := by
  unfold keysOf
  suffices h : ∀ (l : List Nat), l.Pairwise (· < ·) →
      (records.foldl (fun l n => insertKey n.header.key l) l).Pairwise (· < ·) from h [] List.Pairwise.nil
  induction records with
  | nil => intro l h; exact h
  | cons n t ih => intro l h; exact ih _ (insertKey_ascending _ _ h)

theorem resolveKey_key (committed : List Noted) (k : Nat) (e : DirEntry) (h : resolveKey committed k = some e) :
    e.key = k := by
  simp only [resolveKey, Option.map_eq_some_iff] at h
  obtain ⟨w, -, rfl⟩ := h
  rfl

/-- The entries a mount resolves stand in ascending key order (R124). -/
theorem resolvedEntries_ascending (records : List Noted) : Ascending (resolvedEntries records) := by
  unfold resolvedEntries
  refine filter_ascending _ _ ?_
  have hk := keysOf_ascending (committedRecords records)
  refine List.pairwise_filterMap.2 (hk.imp ?_)
  intro a b hab x hx y hy
  rw [resolveKey_key _ _ _ hx, resolveKey_key _ _ _ hy]; exact hab

/-- The built directory stands in ascending key order (R124). -/
theorem builtDir_ascending (m : MountEngine) : Ascending m.builtDir :=
  (resolvedEntries_ascending m.records).sublist (List.take_sublist ..)

end Sys2Proof.Machine
end

