-- ==== Sys2Proof/Laws/State.lean ====
section
/-! SUPPORT. One lemma per field per update: what each basic operation over the state leaves in each field. -/

namespace Sys2Proof.Machine

/-! ### draw -/

@[simp] theorem State.draw_win (s : State) : (s.draw).win = s.win := rfl
@[simp] theorem State.draw_ev (s : State) : (s.draw).ev = s.ev := rfl
@[simp] theorem State.draw_guards (s : State) : (s.draw).guards = s.guards := rfl
@[simp] theorem State.draw_staging (s : State) : (s.draw).staging = s.staging := rfl
@[simp] theorem State.draw_dir (s : State) : (s.draw).dir = s.dir := rfl
@[simp] theorem State.draw_table (s : State) : (s.draw).table = s.table := rfl
@[simp] theorem State.draw_writer (s : State) : (s.draw).writer = s.writer := rfl
@[simp] theorem State.draw_engine (s : State) : (s.draw).engine = s.engine := rfl
@[simp] theorem State.draw_recl (s : State) : (s.draw).recl = s.recl := rfl
@[simp] theorem State.draw_aud (s : State) : (s.draw).aud = s.aud := rfl
@[simp] theorem State.draw_mnt (s : State) : (s.draw).mnt = s.mnt := rfl
@[simp] theorem State.draw_fmt (s : State) : (s.draw).fmt = s.fmt := rfl
@[simp] theorem State.draw_ctl (s : State) : (s.draw).ctl = s.ctl := rfl
@[simp] theorem State.draw_cells (s : State) : (s.draw).cells = s.cells := rfl
@[simp] theorem State.draw_wprotLow (s : State) : (s.draw).wprotLow = s.wprotLow := rfl
@[simp] theorem State.draw_resetPhase (s : State) : (s.draw).resetPhase = s.resetPhase := rfl
@[simp] theorem State.draw_freeIdx (s : State) : (s.draw).freeIdx = s.freeIdx + 1 := rfl
@[simp] theorem State.draw_pending (s : State) : (s.draw).pending = s.pending := rfl

/-! ### setRow -/

@[simp] theorem State.setRow_win (s : State) (r : Nat) (rec : RowRec) : (s.setRow r rec).win = s.win := rfl
@[simp] theorem State.setRow_ev (s : State) (r : Nat) (rec : RowRec) : (s.setRow r rec).ev = s.ev := rfl
@[simp] theorem State.setRow_guards (s : State) (r : Nat) (rec : RowRec) : (s.setRow r rec).guards = s.guards := rfl
@[simp] theorem State.setRow_staging (s : State) (r : Nat) (rec : RowRec) : (s.setRow r rec).staging = s.staging := rfl
@[simp] theorem State.setRow_dir (s : State) (r : Nat) (rec : RowRec) : (s.setRow r rec).dir = s.dir := rfl
@[simp] theorem State.setRow_table (s : State) (r : Nat) (rec : RowRec) : (s.setRow r rec).table = { s.table with rows := s.table.rows.setIfInBounds r rec } := rfl
@[simp] theorem State.setRow_writer (s : State) (r : Nat) (rec : RowRec) : (s.setRow r rec).writer = s.writer := rfl
@[simp] theorem State.setRow_engine (s : State) (r : Nat) (rec : RowRec) : (s.setRow r rec).engine = s.engine := rfl
@[simp] theorem State.setRow_recl (s : State) (r : Nat) (rec : RowRec) : (s.setRow r rec).recl = s.recl := rfl
@[simp] theorem State.setRow_aud (s : State) (r : Nat) (rec : RowRec) : (s.setRow r rec).aud = s.aud := rfl
@[simp] theorem State.setRow_mnt (s : State) (r : Nat) (rec : RowRec) : (s.setRow r rec).mnt = s.mnt := rfl
@[simp] theorem State.setRow_fmt (s : State) (r : Nat) (rec : RowRec) : (s.setRow r rec).fmt = s.fmt := rfl
@[simp] theorem State.setRow_ctl (s : State) (r : Nat) (rec : RowRec) : (s.setRow r rec).ctl = s.ctl := rfl
@[simp] theorem State.setRow_cells (s : State) (r : Nat) (rec : RowRec) : (s.setRow r rec).cells = s.cells := rfl
@[simp] theorem State.setRow_wprotLow (s : State) (r : Nat) (rec : RowRec) : (s.setRow r rec).wprotLow = s.wprotLow := rfl
@[simp] theorem State.setRow_resetPhase (s : State) (r : Nat) (rec : RowRec) : (s.setRow r rec).resetPhase = s.resetPhase := rfl
@[simp] theorem State.setRow_freeIdx (s : State) (r : Nat) (rec : RowRec) : (s.setRow r rec).freeIdx = s.freeIdx := rfl
@[simp] theorem State.setRow_pending (s : State) (r : Nat) (rec : RowRec) : (s.setRow r rec).pending = s.pending := rfl

/-! ### addDead -/

@[simp] theorem State.addDead_win (s : State) (r n : Nat) : (s.addDead r n).win = s.win := rfl
@[simp] theorem State.addDead_ev (s : State) (r n : Nat) : (s.addDead r n).ev = s.ev := rfl
@[simp] theorem State.addDead_guards (s : State) (r n : Nat) : (s.addDead r n).guards = s.guards := rfl
@[simp] theorem State.addDead_staging (s : State) (r n : Nat) : (s.addDead r n).staging = s.staging := rfl
@[simp] theorem State.addDead_dir (s : State) (r n : Nat) : (s.addDead r n).dir = s.dir := rfl
@[simp] theorem State.addDead_table (s : State) (r n : Nat) : (s.addDead r n).table = { s.table with rows := s.table.rows.setIfInBounds r { s.row r with dead := (s.row r).dead + n } } := rfl
@[simp] theorem State.addDead_writer (s : State) (r n : Nat) : (s.addDead r n).writer = s.writer := rfl
@[simp] theorem State.addDead_engine (s : State) (r n : Nat) : (s.addDead r n).engine = s.engine := rfl
@[simp] theorem State.addDead_recl (s : State) (r n : Nat) : (s.addDead r n).recl = s.recl := rfl
@[simp] theorem State.addDead_aud (s : State) (r n : Nat) : (s.addDead r n).aud = s.aud := rfl
@[simp] theorem State.addDead_mnt (s : State) (r n : Nat) : (s.addDead r n).mnt = s.mnt := rfl
@[simp] theorem State.addDead_fmt (s : State) (r n : Nat) : (s.addDead r n).fmt = s.fmt := rfl
@[simp] theorem State.addDead_ctl (s : State) (r n : Nat) : (s.addDead r n).ctl = s.ctl := rfl
@[simp] theorem State.addDead_cells (s : State) (r n : Nat) : (s.addDead r n).cells = s.cells := rfl
@[simp] theorem State.addDead_wprotLow (s : State) (r n : Nat) : (s.addDead r n).wprotLow = s.wprotLow := rfl
@[simp] theorem State.addDead_resetPhase (s : State) (r n : Nat) : (s.addDead r n).resetPhase = s.resetPhase := rfl
@[simp] theorem State.addDead_freeIdx (s : State) (r n : Nat) : (s.addDead r n).freeIdx = s.freeIdx := rfl
@[simp] theorem State.addDead_pending (s : State) (r n : Nat) : (s.addDead r n).pending = s.pending := rfl

/-! ### setEvent -/

@[simp] theorem State.setEvent_win (s : State) (m : Byte) : (s.setEvent m).win = s.win := rfl
@[simp] theorem State.setEvent_ev (s : State) (m : Byte) : (s.setEvent m).ev = { s.ev with event := s.ev.event ||| m, justSet := s.ev.justSet ||| m } := rfl
@[simp] theorem State.setEvent_guards (s : State) (m : Byte) : (s.setEvent m).guards = s.guards := rfl
@[simp] theorem State.setEvent_staging (s : State) (m : Byte) : (s.setEvent m).staging = s.staging := rfl
@[simp] theorem State.setEvent_dir (s : State) (m : Byte) : (s.setEvent m).dir = s.dir := rfl
@[simp] theorem State.setEvent_table (s : State) (m : Byte) : (s.setEvent m).table = s.table := rfl
@[simp] theorem State.setEvent_writer (s : State) (m : Byte) : (s.setEvent m).writer = s.writer := rfl
@[simp] theorem State.setEvent_engine (s : State) (m : Byte) : (s.setEvent m).engine = s.engine := rfl
@[simp] theorem State.setEvent_recl (s : State) (m : Byte) : (s.setEvent m).recl = s.recl := rfl
@[simp] theorem State.setEvent_aud (s : State) (m : Byte) : (s.setEvent m).aud = s.aud := rfl
@[simp] theorem State.setEvent_mnt (s : State) (m : Byte) : (s.setEvent m).mnt = s.mnt := rfl
@[simp] theorem State.setEvent_fmt (s : State) (m : Byte) : (s.setEvent m).fmt = s.fmt := rfl
@[simp] theorem State.setEvent_ctl (s : State) (m : Byte) : (s.setEvent m).ctl = s.ctl := rfl
@[simp] theorem State.setEvent_cells (s : State) (m : Byte) : (s.setEvent m).cells = s.cells := rfl
@[simp] theorem State.setEvent_wprotLow (s : State) (m : Byte) : (s.setEvent m).wprotLow = s.wprotLow := rfl
@[simp] theorem State.setEvent_resetPhase (s : State) (m : Byte) : (s.setEvent m).resetPhase = s.resetPhase := rfl
@[simp] theorem State.setEvent_freeIdx (s : State) (m : Byte) : (s.setEvent m).freeIdx = s.freeIdx := rfl
@[simp] theorem State.setEvent_pending (s : State) (m : Byte) : (s.setEvent m).pending = s.pending := rfl

/-! ### begin -/

@[simp] theorem State.begin_win (s : State) : (s.begin).win = s.win := rfl
@[simp] theorem State.begin_ev (s : State) : (s.begin).ev = { s.ev with justSet := 0 } := rfl
@[simp] theorem State.begin_guards (s : State) : (s.begin).guards = s.guards := rfl
@[simp] theorem State.begin_staging (s : State) : (s.begin).staging = s.staging := rfl
@[simp] theorem State.begin_dir (s : State) : (s.begin).dir = s.dir := rfl
@[simp] theorem State.begin_table (s : State) : (s.begin).table = s.table := rfl
@[simp] theorem State.begin_writer (s : State) : (s.begin).writer = s.writer := rfl
@[simp] theorem State.begin_engine (s : State) : (s.begin).engine = s.engine := rfl
@[simp] theorem State.begin_recl (s : State) : (s.begin).recl = s.recl := rfl
@[simp] theorem State.begin_aud (s : State) : (s.begin).aud = s.aud := rfl
@[simp] theorem State.begin_mnt (s : State) : (s.begin).mnt = s.mnt := rfl
@[simp] theorem State.begin_fmt (s : State) : (s.begin).fmt = s.fmt := rfl
@[simp] theorem State.begin_ctl (s : State) : (s.begin).ctl = s.ctl := rfl
@[simp] theorem State.begin_cells (s : State) : (s.begin).cells = s.cells := rfl
@[simp] theorem State.begin_wprotLow (s : State) : (s.begin).wprotLow = s.wprotLow := rfl
@[simp] theorem State.begin_resetPhase (s : State) : (s.begin).resetPhase = s.resetPhase := rfl
@[simp] theorem State.begin_freeIdx (s : State) : (s.begin).freeIdx = s.freeIdx := rfl
@[simp] theorem State.begin_pending (s : State) : (s.begin).pending = s.pending := rfl

/-! ### complete -/

@[simp] theorem State.complete_win (s : State) (c : ResultCode) : (s.complete c).win = { s.win with result := c, cu := .idle } := rfl
@[simp] theorem State.complete_ev (s : State) (c : ResultCode) : (s.complete c).ev = { s.ev with event := s.ev.event ||| evCmdDone, justSet := s.ev.justSet ||| evCmdDone } := rfl
@[simp] theorem State.complete_guards (s : State) (c : ResultCode) : (s.complete c).guards = s.guards := rfl
@[simp] theorem State.complete_staging (s : State) (c : ResultCode) : (s.complete c).staging = s.staging := rfl
@[simp] theorem State.complete_dir (s : State) (c : ResultCode) : (s.complete c).dir = s.dir := rfl
@[simp] theorem State.complete_table (s : State) (c : ResultCode) : (s.complete c).table = s.table := rfl
@[simp] theorem State.complete_writer (s : State) (c : ResultCode) : (s.complete c).writer = s.writer := rfl
@[simp] theorem State.complete_engine (s : State) (c : ResultCode) : (s.complete c).engine = s.engine := rfl
@[simp] theorem State.complete_recl (s : State) (c : ResultCode) : (s.complete c).recl = s.recl := rfl
@[simp] theorem State.complete_aud (s : State) (c : ResultCode) : (s.complete c).aud = s.aud := rfl
@[simp] theorem State.complete_mnt (s : State) (c : ResultCode) : (s.complete c).mnt = s.mnt := rfl
@[simp] theorem State.complete_fmt (s : State) (c : ResultCode) : (s.complete c).fmt = s.fmt := rfl
@[simp] theorem State.complete_ctl (s : State) (c : ResultCode) : (s.complete c).ctl = s.ctl := rfl
@[simp] theorem State.complete_cells (s : State) (c : ResultCode) : (s.complete c).cells = s.cells := rfl
@[simp] theorem State.complete_wprotLow (s : State) (c : ResultCode) : (s.complete c).wprotLow = s.wprotLow := rfl
@[simp] theorem State.complete_resetPhase (s : State) (c : ResultCode) : (s.complete c).resetPhase = s.resetPhase := rfl
@[simp] theorem State.complete_freeIdx (s : State) (c : ResultCode) : (s.complete c).freeIdx = s.freeIdx := rfl
@[simp] theorem State.complete_pending (s : State) (c : ResultCode) : (s.complete c).pending = s.pending := rfl

/-! ### fillBuffer -/

@[simp] theorem State.fillBuffer_win (s : State) (b : List Byte) : (s.fillBuffer b).win = { s.win with buffer := writeFrom s.win.buffer 0 b, fill := b.length, dptr := 0 } := rfl
@[simp] theorem State.fillBuffer_ev (s : State) (b : List Byte) : (s.fillBuffer b).ev = s.ev := rfl
@[simp] theorem State.fillBuffer_guards (s : State) (b : List Byte) : (s.fillBuffer b).guards = s.guards := rfl
@[simp] theorem State.fillBuffer_staging (s : State) (b : List Byte) : (s.fillBuffer b).staging = s.staging := rfl
@[simp] theorem State.fillBuffer_dir (s : State) (b : List Byte) : (s.fillBuffer b).dir = s.dir := rfl
@[simp] theorem State.fillBuffer_table (s : State) (b : List Byte) : (s.fillBuffer b).table = s.table := rfl
@[simp] theorem State.fillBuffer_writer (s : State) (b : List Byte) : (s.fillBuffer b).writer = s.writer := rfl
@[simp] theorem State.fillBuffer_engine (s : State) (b : List Byte) : (s.fillBuffer b).engine = s.engine := rfl
@[simp] theorem State.fillBuffer_recl (s : State) (b : List Byte) : (s.fillBuffer b).recl = s.recl := rfl
@[simp] theorem State.fillBuffer_aud (s : State) (b : List Byte) : (s.fillBuffer b).aud = s.aud := rfl
@[simp] theorem State.fillBuffer_mnt (s : State) (b : List Byte) : (s.fillBuffer b).mnt = s.mnt := rfl
@[simp] theorem State.fillBuffer_fmt (s : State) (b : List Byte) : (s.fillBuffer b).fmt = s.fmt := rfl
@[simp] theorem State.fillBuffer_ctl (s : State) (b : List Byte) : (s.fillBuffer b).ctl = s.ctl := rfl
@[simp] theorem State.fillBuffer_cells (s : State) (b : List Byte) : (s.fillBuffer b).cells = s.cells := rfl
@[simp] theorem State.fillBuffer_wprotLow (s : State) (b : List Byte) : (s.fillBuffer b).wprotLow = s.wprotLow := rfl
@[simp] theorem State.fillBuffer_resetPhase (s : State) (b : List Byte) : (s.fillBuffer b).resetPhase = s.resetPhase := rfl
@[simp] theorem State.fillBuffer_freeIdx (s : State) (b : List Byte) : (s.fillBuffer b).freeIdx = s.freeIdx := rfl
@[simp] theorem State.fillBuffer_pending (s : State) (b : List Byte) : (s.fillBuffer b).pending = s.pending := rfl

/-! ### take -/

@[simp] theorem State.take_win (s : State) (c : Command) : (s.take c).win = { s.win with lastCode := c.code, latch := s.win.latchFor c, cu := .executing } := rfl
@[simp] theorem State.take_ev (s : State) (c : Command) : (s.take c).ev = s.ev := rfl
@[simp] theorem State.take_guards (s : State) (c : Command) : (s.take c).guards = s.guards := rfl
@[simp] theorem State.take_staging (s : State) (c : Command) : (s.take c).staging = s.staging := rfl
@[simp] theorem State.take_dir (s : State) (c : Command) : (s.take c).dir = s.dir := rfl
@[simp] theorem State.take_table (s : State) (c : Command) : (s.take c).table = s.table := rfl
@[simp] theorem State.take_writer (s : State) (c : Command) : (s.take c).writer = s.writer := rfl
@[simp] theorem State.take_engine (s : State) (c : Command) : (s.take c).engine = s.engine := rfl
@[simp] theorem State.take_recl (s : State) (c : Command) : (s.take c).recl = s.recl := rfl
@[simp] theorem State.take_aud (s : State) (c : Command) : (s.take c).aud = s.aud := rfl
@[simp] theorem State.take_mnt (s : State) (c : Command) : (s.take c).mnt = s.mnt := rfl
@[simp] theorem State.take_fmt (s : State) (c : Command) : (s.take c).fmt = s.fmt := rfl
@[simp] theorem State.take_ctl (s : State) (c : Command) : (s.take c).ctl = s.ctl := rfl
@[simp] theorem State.take_cells (s : State) (c : Command) : (s.take c).cells = s.cells := rfl
@[simp] theorem State.take_wprotLow (s : State) (c : Command) : (s.take c).wprotLow = s.wprotLow := rfl
@[simp] theorem State.take_resetPhase (s : State) (c : Command) : (s.take c).resetPhase = s.resetPhase := rfl
@[simp] theorem State.take_freeIdx (s : State) (c : Command) : (s.take c).freeIdx = s.freeIdx := rfl
@[simp] theorem State.take_pending (s : State) (c : Command) : (s.take c).pending = s.pending := rfl

/-! ### forecast -/

@[simp] theorem State.forecast_win (s : State) (k : Nat) : (s.forecast k).win = { s.win with ver := BitVec.ofNat 16 (nextVersion s.dir k) } := rfl
@[simp] theorem State.forecast_ev (s : State) (k : Nat) : (s.forecast k).ev = s.ev := rfl
@[simp] theorem State.forecast_guards (s : State) (k : Nat) : (s.forecast k).guards = s.guards := rfl
@[simp] theorem State.forecast_staging (s : State) (k : Nat) : (s.forecast k).staging = s.staging := rfl
@[simp] theorem State.forecast_dir (s : State) (k : Nat) : (s.forecast k).dir = s.dir := rfl
@[simp] theorem State.forecast_table (s : State) (k : Nat) : (s.forecast k).table = s.table := rfl
@[simp] theorem State.forecast_writer (s : State) (k : Nat) : (s.forecast k).writer = s.writer := rfl
@[simp] theorem State.forecast_engine (s : State) (k : Nat) : (s.forecast k).engine = s.engine := rfl
@[simp] theorem State.forecast_recl (s : State) (k : Nat) : (s.forecast k).recl = s.recl := rfl
@[simp] theorem State.forecast_aud (s : State) (k : Nat) : (s.forecast k).aud = s.aud := rfl
@[simp] theorem State.forecast_mnt (s : State) (k : Nat) : (s.forecast k).mnt = s.mnt := rfl
@[simp] theorem State.forecast_fmt (s : State) (k : Nat) : (s.forecast k).fmt = s.fmt := rfl
@[simp] theorem State.forecast_ctl (s : State) (k : Nat) : (s.forecast k).ctl = s.ctl := rfl
@[simp] theorem State.forecast_cells (s : State) (k : Nat) : (s.forecast k).cells = s.cells := rfl
@[simp] theorem State.forecast_wprotLow (s : State) (k : Nat) : (s.forecast k).wprotLow = s.wprotLow := rfl
@[simp] theorem State.forecast_resetPhase (s : State) (k : Nat) : (s.forecast k).resetPhase = s.resetPhase := rfl
@[simp] theorem State.forecast_freeIdx (s : State) (k : Nat) : (s.forecast k).freeIdx = s.freeIdx := rfl
@[simp] theorem State.forecast_pending (s : State) (k : Nat) : (s.forecast k).pending = s.pending := rfl

/-! ### setGuard -/

@[simp] theorem State.setGuard_win (s : State) (i : Nat) (g : Guard) : (s.setGuard i g).win = s.win := rfl
@[simp] theorem State.setGuard_ev (s : State) (i : Nat) (g : Guard) : (s.setGuard i g).ev = s.ev := rfl
@[simp] theorem State.setGuard_guards (s : State) (i : Nat) (g : Guard) : (s.setGuard i g).guards = s.guards.setIfInBounds i g := rfl
@[simp] theorem State.setGuard_staging (s : State) (i : Nat) (g : Guard) : (s.setGuard i g).staging = s.staging := rfl
@[simp] theorem State.setGuard_dir (s : State) (i : Nat) (g : Guard) : (s.setGuard i g).dir = s.dir := rfl
@[simp] theorem State.setGuard_table (s : State) (i : Nat) (g : Guard) : (s.setGuard i g).table = s.table := rfl
@[simp] theorem State.setGuard_writer (s : State) (i : Nat) (g : Guard) : (s.setGuard i g).writer = s.writer := rfl
@[simp] theorem State.setGuard_engine (s : State) (i : Nat) (g : Guard) : (s.setGuard i g).engine = s.engine := rfl
@[simp] theorem State.setGuard_recl (s : State) (i : Nat) (g : Guard) : (s.setGuard i g).recl = s.recl := rfl
@[simp] theorem State.setGuard_aud (s : State) (i : Nat) (g : Guard) : (s.setGuard i g).aud = s.aud := rfl
@[simp] theorem State.setGuard_mnt (s : State) (i : Nat) (g : Guard) : (s.setGuard i g).mnt = s.mnt := rfl
@[simp] theorem State.setGuard_fmt (s : State) (i : Nat) (g : Guard) : (s.setGuard i g).fmt = s.fmt := rfl
@[simp] theorem State.setGuard_ctl (s : State) (i : Nat) (g : Guard) : (s.setGuard i g).ctl = s.ctl := rfl
@[simp] theorem State.setGuard_cells (s : State) (i : Nat) (g : Guard) : (s.setGuard i g).cells = s.cells := rfl
@[simp] theorem State.setGuard_wprotLow (s : State) (i : Nat) (g : Guard) : (s.setGuard i g).wprotLow = s.wprotLow := rfl
@[simp] theorem State.setGuard_resetPhase (s : State) (i : Nat) (g : Guard) : (s.setGuard i g).resetPhase = s.resetPhase := rfl
@[simp] theorem State.setGuard_freeIdx (s : State) (i : Nat) (g : Guard) : (s.setGuard i g).freeIdx = s.freeIdx := rfl
@[simp] theorem State.setGuard_pending (s : State) (i : Nat) (g : Guard) : (s.setGuard i g).pending = s.pending := rfl

/-! ### setFormat -/

@[simp] theorem State.setFormat_win (s : State) (j : FormatJob) : (s.setFormat j).win = s.win := rfl
@[simp] theorem State.setFormat_ev (s : State) (j : FormatJob) : (s.setFormat j).ev = s.ev := rfl
@[simp] theorem State.setFormat_guards (s : State) (j : FormatJob) : (s.setFormat j).guards = s.guards := rfl
@[simp] theorem State.setFormat_staging (s : State) (j : FormatJob) : (s.setFormat j).staging = s.staging := rfl
@[simp] theorem State.setFormat_dir (s : State) (j : FormatJob) : (s.setFormat j).dir = s.dir := rfl
@[simp] theorem State.setFormat_table (s : State) (j : FormatJob) : (s.setFormat j).table = s.table := rfl
@[simp] theorem State.setFormat_writer (s : State) (j : FormatJob) : (s.setFormat j).writer = s.writer := rfl
@[simp] theorem State.setFormat_engine (s : State) (j : FormatJob) : (s.setFormat j).engine = s.engine := rfl
@[simp] theorem State.setFormat_recl (s : State) (j : FormatJob) : (s.setFormat j).recl = s.recl := rfl
@[simp] theorem State.setFormat_aud (s : State) (j : FormatJob) : (s.setFormat j).aud = s.aud := rfl
@[simp] theorem State.setFormat_mnt (s : State) (j : FormatJob) : (s.setFormat j).mnt = s.mnt := rfl
@[simp] theorem State.setFormat_fmt (s : State) (j : FormatJob) : (s.setFormat j).fmt = some j := rfl
@[simp] theorem State.setFormat_ctl (s : State) (j : FormatJob) : (s.setFormat j).ctl = s.ctl := rfl
@[simp] theorem State.setFormat_cells (s : State) (j : FormatJob) : (s.setFormat j).cells = s.cells := rfl
@[simp] theorem State.setFormat_wprotLow (s : State) (j : FormatJob) : (s.setFormat j).wprotLow = s.wprotLow := rfl
@[simp] theorem State.setFormat_resetPhase (s : State) (j : FormatJob) : (s.setFormat j).resetPhase = s.resetPhase := rfl
@[simp] theorem State.setFormat_freeIdx (s : State) (j : FormatJob) : (s.setFormat j).freeIdx = s.freeIdx := rfl
@[simp] theorem State.setFormat_pending (s : State) (j : FormatJob) : (s.setFormat j).pending = s.pending := rfl

/-! ### issueErase -/

@[simp] theorem State.issueErase_win (s : State) (r : Nat) (q : Requester) (o : Origin) : (s.issueErase r q o).win = s.win := rfl
@[simp] theorem State.issueErase_ev (s : State) (r : Nat) (q : Requester) (o : Origin) : (s.issueErase r q o).ev = s.ev := rfl
@[simp] theorem State.issueErase_guards (s : State) (r : Nat) (q : Requester) (o : Origin) : (s.issueErase r q o).guards = s.guards := rfl
@[simp] theorem State.issueErase_staging (s : State) (r : Nat) (q : Requester) (o : Origin) : (s.issueErase r q o).staging = s.staging := rfl
@[simp] theorem State.issueErase_dir (s : State) (r : Nat) (q : Requester) (o : Origin) : (s.issueErase r q o).dir = s.dir := rfl
@[simp] theorem State.issueErase_table (s : State) (r : Nat) (q : Requester) (o : Origin) : (s.issueErase r q o).table = s.table := rfl
@[simp] theorem State.issueErase_writer (s : State) (r : Nat) (q : Requester) (o : Origin) : (s.issueErase r q o).writer = s.writer := rfl
@[simp] theorem State.issueErase_engine (s : State) (r : Nat) (q : Requester) (o : Origin) : (s.issueErase r q o).engine = s.engine := rfl
@[simp] theorem State.issueErase_recl (s : State) (r : Nat) (q : Requester) (o : Origin) : (s.issueErase r q o).recl = s.recl := rfl
@[simp] theorem State.issueErase_aud (s : State) (r : Nat) (q : Requester) (o : Origin) : (s.issueErase r q o).aud = s.aud := rfl
@[simp] theorem State.issueErase_mnt (s : State) (r : Nat) (q : Requester) (o : Origin) : (s.issueErase r q o).mnt = s.mnt := rfl
@[simp] theorem State.issueErase_fmt (s : State) (r : Nat) (q : Requester) (o : Origin) : (s.issueErase r q o).fmt = s.fmt := rfl
@[simp] theorem State.issueErase_ctl (s : State) (r : Nat) (q : Requester) (o : Origin) : (s.issueErase r q o).ctl = { s.ctl with eraseWaiting := some ⟨r, q, o, true⟩ } := rfl
@[simp] theorem State.issueErase_cells (s : State) (r : Nat) (q : Requester) (o : Origin) : (s.issueErase r q o).cells = s.cells := rfl
@[simp] theorem State.issueErase_wprotLow (s : State) (r : Nat) (q : Requester) (o : Origin) : (s.issueErase r q o).wprotLow = s.wprotLow := rfl
@[simp] theorem State.issueErase_resetPhase (s : State) (r : Nat) (q : Requester) (o : Origin) : (s.issueErase r q o).resetPhase = s.resetPhase := rfl
@[simp] theorem State.issueErase_freeIdx (s : State) (r : Nat) (q : Requester) (o : Origin) : (s.issueErase r q o).freeIdx = s.freeIdx := rfl
@[simp] theorem State.issueErase_pending (s : State) (r : Nat) (q : Requester) (o : Origin) : (s.issueErase r q o).pending = s.pending := rfl

/-! ### arbitrate -/

@[simp] theorem State.arbitrate_win (s : State) : (s.arbitrate).win = s.win := rfl
@[simp] theorem State.arbitrate_ev (s : State) : (s.arbitrate).ev = s.ev := rfl
@[simp] theorem State.arbitrate_guards (s : State) : (s.arbitrate).guards = s.guards := rfl
@[simp] theorem State.arbitrate_staging (s : State) : (s.arbitrate).staging = s.staging := rfl
@[simp] theorem State.arbitrate_dir (s : State) : (s.arbitrate).dir = s.dir := rfl
@[simp] theorem State.arbitrate_table (s : State) : (s.arbitrate).table = s.table := rfl
@[simp] theorem State.arbitrate_writer (s : State) : (s.arbitrate).writer = s.writer := rfl
@[simp] theorem State.arbitrate_engine (s : State) : (s.arbitrate).engine = s.engine := rfl
@[simp] theorem State.arbitrate_recl (s : State) : (s.arbitrate).recl = s.recl := rfl
@[simp] theorem State.arbitrate_aud (s : State) : (s.arbitrate).aud = s.aud := rfl
@[simp] theorem State.arbitrate_mnt (s : State) : (s.arbitrate).mnt = s.mnt := rfl
@[simp] theorem State.arbitrate_fmt (s : State) : (s.arbitrate).fmt = s.fmt := rfl
@[simp] theorem State.arbitrate_ctl (s : State) : (s.arbitrate).ctl = s.ctl.arbitrate := rfl
@[simp] theorem State.arbitrate_cells (s : State) : (s.arbitrate).cells = s.cells := rfl
@[simp] theorem State.arbitrate_wprotLow (s : State) : (s.arbitrate).wprotLow = s.wprotLow := rfl
@[simp] theorem State.arbitrate_resetPhase (s : State) : (s.arbitrate).resetPhase = s.resetPhase := rfl
@[simp] theorem State.arbitrate_freeIdx (s : State) : (s.arbitrate).freeIdx = s.freeIdx := rfl
@[simp] theorem State.arbitrate_pending (s : State) : (s.arbitrate).pending = s.pending := rfl

/-! ### arrayFree -/

@[simp] theorem State.arrayFree_win (s : State) : (s.arrayFree).win = s.win := rfl
@[simp] theorem State.arrayFree_ev (s : State) : (s.arrayFree).ev = s.ev := rfl
@[simp] theorem State.arrayFree_guards (s : State) : (s.arrayFree).guards = s.guards := rfl
@[simp] theorem State.arrayFree_staging (s : State) : (s.arrayFree).staging = s.staging := rfl
@[simp] theorem State.arrayFree_dir (s : State) : (s.arrayFree).dir = s.dir := rfl
@[simp] theorem State.arrayFree_table (s : State) : (s.arrayFree).table = s.table := rfl
@[simp] theorem State.arrayFree_writer (s : State) : (s.arrayFree).writer = s.writer := rfl
@[simp] theorem State.arrayFree_engine (s : State) : (s.arrayFree).engine = s.engine := rfl
@[simp] theorem State.arrayFree_recl (s : State) : (s.arrayFree).recl = s.recl := rfl
@[simp] theorem State.arrayFree_aud (s : State) : (s.arrayFree).aud = s.aud := rfl
@[simp] theorem State.arrayFree_mnt (s : State) : (s.arrayFree).mnt = s.mnt := rfl
@[simp] theorem State.arrayFree_fmt (s : State) : (s.arrayFree).fmt = s.fmt := rfl
@[simp] theorem State.arrayFree_ctl (s : State) : (s.arrayFree).ctl = { s.ctl with state := .idle, current := none } := rfl
@[simp] theorem State.arrayFree_cells (s : State) : (s.arrayFree).cells = s.cells := rfl
@[simp] theorem State.arrayFree_wprotLow (s : State) : (s.arrayFree).wprotLow = s.wprotLow := rfl
@[simp] theorem State.arrayFree_resetPhase (s : State) : (s.arrayFree).resetPhase = s.resetPhase := rfl
@[simp] theorem State.arrayFree_freeIdx (s : State) : (s.arrayFree).freeIdx = s.freeIdx := rfl
@[simp] theorem State.arrayFree_pending (s : State) : (s.arrayFree).pending = s.pending := rfl

/-! ### eraseEnded -/

@[simp] theorem State.eraseEnded_win (s : State) : (s.eraseEnded).win = s.win := rfl
@[simp] theorem State.eraseEnded_ev (s : State) : (s.eraseEnded).ev = s.ev := rfl
@[simp] theorem State.eraseEnded_guards (s : State) : (s.eraseEnded).guards = s.guards := rfl
@[simp] theorem State.eraseEnded_staging (s : State) : (s.eraseEnded).staging = s.staging := rfl
@[simp] theorem State.eraseEnded_dir (s : State) : (s.eraseEnded).dir = s.dir := rfl
@[simp] theorem State.eraseEnded_table (s : State) : (s.eraseEnded).table = s.table := rfl
@[simp] theorem State.eraseEnded_writer (s : State) : (s.eraseEnded).writer = s.writer := rfl
@[simp] theorem State.eraseEnded_engine (s : State) : (s.eraseEnded).engine = s.engine := rfl
@[simp] theorem State.eraseEnded_recl (s : State) : (s.eraseEnded).recl = s.recl := rfl
@[simp] theorem State.eraseEnded_aud (s : State) : (s.eraseEnded).aud = s.aud := rfl
@[simp] theorem State.eraseEnded_mnt (s : State) : (s.eraseEnded).mnt = s.mnt := rfl
@[simp] theorem State.eraseEnded_fmt (s : State) : (s.eraseEnded).fmt = s.fmt := rfl
@[simp] theorem State.eraseEnded_ctl (s : State) : (s.eraseEnded).ctl = { s.ctl with state := .idle, erase := none } := rfl
@[simp] theorem State.eraseEnded_cells (s : State) : (s.eraseEnded).cells = s.cells := rfl
@[simp] theorem State.eraseEnded_wprotLow (s : State) : (s.eraseEnded).wprotLow = s.wprotLow := rfl
@[simp] theorem State.eraseEnded_resetPhase (s : State) : (s.eraseEnded).resetPhase = s.resetPhase := rfl
@[simp] theorem State.eraseEnded_freeIdx (s : State) : (s.eraseEnded).freeIdx = s.freeIdx := rfl
@[simp] theorem State.eraseEnded_pending (s : State) : (s.eraseEnded).pending = s.pending := rfl

/-! ### closeRow -/

@[simp] theorem State.closeRow_win (s : State) (r : Nat) : (s.closeRow r).win = s.win := rfl
@[simp] theorem State.closeRow_ev (s : State) (r : Nat) : (s.closeRow r).ev = s.ev := rfl
@[simp] theorem State.closeRow_guards (s : State) (r : Nat) : (s.closeRow r).guards = s.guards := rfl
@[simp] theorem State.closeRow_staging (s : State) (r : Nat) : (s.closeRow r).staging = s.staging := rfl
@[simp] theorem State.closeRow_dir (s : State) (r : Nat) : (s.closeRow r).dir = s.dir := rfl
@[simp] theorem State.closeRow_writer (s : State) (r : Nat) : (s.closeRow r).writer = s.writer := rfl
@[simp] theorem State.closeRow_engine (s : State) (r : Nat) : (s.closeRow r).engine = s.engine := rfl
@[simp] theorem State.closeRow_recl (s : State) (r : Nat) : (s.closeRow r).recl = s.recl := rfl
@[simp] theorem State.closeRow_aud (s : State) (r : Nat) : (s.closeRow r).aud = s.aud := rfl
@[simp] theorem State.closeRow_mnt (s : State) (r : Nat) : (s.closeRow r).mnt = s.mnt := rfl
@[simp] theorem State.closeRow_fmt (s : State) (r : Nat) : (s.closeRow r).fmt = s.fmt := rfl
@[simp] theorem State.closeRow_ctl (s : State) (r : Nat) : (s.closeRow r).ctl = s.ctl := rfl
@[simp] theorem State.closeRow_cells (s : State) (r : Nat) : (s.closeRow r).cells = s.cells := rfl
@[simp] theorem State.closeRow_wprotLow (s : State) (r : Nat) : (s.closeRow r).wprotLow = s.wprotLow := rfl
@[simp] theorem State.closeRow_resetPhase (s : State) (r : Nat) : (s.closeRow r).resetPhase = s.resetPhase := rfl
@[simp] theorem State.closeRow_freeIdx (s : State) (r : Nat) : (s.closeRow r).freeIdx = s.freeIdx := rfl
@[simp] theorem State.closeRow_pending (s : State) (r : Nat) : (s.closeRow r).pending = s.pending := rfl

/-! ### rowLeaves -/

@[simp] theorem State.rowLeaves_win (s : State) (r : Nat) (st : RowState) : (s.rowLeaves r st).win = s.win := rfl
@[simp] theorem State.rowLeaves_ev (s : State) (r : Nat) (st : RowState) : (s.rowLeaves r st).ev = s.ev := rfl
@[simp] theorem State.rowLeaves_guards (s : State) (r : Nat) (st : RowState) : (s.rowLeaves r st).guards = s.guards := rfl
@[simp] theorem State.rowLeaves_staging (s : State) (r : Nat) (st : RowState) : (s.rowLeaves r st).staging = s.staging := rfl
@[simp] theorem State.rowLeaves_dir (s : State) (r : Nat) (st : RowState) : (s.rowLeaves r st).dir = s.dir := rfl
@[simp] theorem State.rowLeaves_writer (s : State) (r : Nat) (st : RowState) : (s.rowLeaves r st).writer = s.writer := rfl
@[simp] theorem State.rowLeaves_engine (s : State) (r : Nat) (st : RowState) : (s.rowLeaves r st).engine = s.engine := rfl
@[simp] theorem State.rowLeaves_recl (s : State) (r : Nat) (st : RowState) : (s.rowLeaves r st).recl = s.recl := rfl
@[simp] theorem State.rowLeaves_aud (s : State) (r : Nat) (st : RowState) : (s.rowLeaves r st).aud = s.aud := rfl
@[simp] theorem State.rowLeaves_mnt (s : State) (r : Nat) (st : RowState) : (s.rowLeaves r st).mnt = s.mnt := rfl
@[simp] theorem State.rowLeaves_fmt (s : State) (r : Nat) (st : RowState) : (s.rowLeaves r st).fmt = s.fmt := rfl
@[simp] theorem State.rowLeaves_ctl (s : State) (r : Nat) (st : RowState) : (s.rowLeaves r st).ctl = s.ctl := rfl
@[simp] theorem State.rowLeaves_cells (s : State) (r : Nat) (st : RowState) : (s.rowLeaves r st).cells = s.cells := rfl
@[simp] theorem State.rowLeaves_wprotLow (s : State) (r : Nat) (st : RowState) : (s.rowLeaves r st).wprotLow = s.wprotLow := rfl
@[simp] theorem State.rowLeaves_resetPhase (s : State) (r : Nat) (st : RowState) : (s.rowLeaves r st).resetPhase = s.resetPhase := rfl
@[simp] theorem State.rowLeaves_freeIdx (s : State) (r : Nat) (st : RowState) : (s.rowLeaves r st).freeIdx = s.freeIdx := rfl
@[simp] theorem State.rowLeaves_pending (s : State) (r : Nat) (st : RowState) : (s.rowLeaves r st).pending = s.pending := rfl

/-! ### countErase -/

@[simp] theorem State.countErase_win (s : State) (r : Nat) : (s.countErase r).win = s.win := rfl
@[simp] theorem State.countErase_ev (s : State) (r : Nat) : (s.countErase r).ev = s.ev := rfl
@[simp] theorem State.countErase_guards (s : State) (r : Nat) : (s.countErase r).guards = s.guards := rfl
@[simp] theorem State.countErase_staging (s : State) (r : Nat) : (s.countErase r).staging = s.staging := rfl
@[simp] theorem State.countErase_dir (s : State) (r : Nat) : (s.countErase r).dir = s.dir := rfl
@[simp] theorem State.countErase_writer (s : State) (r : Nat) : (s.countErase r).writer = s.writer := rfl
@[simp] theorem State.countErase_engine (s : State) (r : Nat) : (s.countErase r).engine = s.engine := rfl
@[simp] theorem State.countErase_recl (s : State) (r : Nat) : (s.countErase r).recl = s.recl := rfl
@[simp] theorem State.countErase_aud (s : State) (r : Nat) : (s.countErase r).aud = s.aud := rfl
@[simp] theorem State.countErase_mnt (s : State) (r : Nat) : (s.countErase r).mnt = s.mnt := rfl
@[simp] theorem State.countErase_fmt (s : State) (r : Nat) : (s.countErase r).fmt = s.fmt := rfl
@[simp] theorem State.countErase_ctl (s : State) (r : Nat) : (s.countErase r).ctl = s.ctl := rfl
@[simp] theorem State.countErase_cells (s : State) (r : Nat) : (s.countErase r).cells = s.cells := rfl
@[simp] theorem State.countErase_wprotLow (s : State) (r : Nat) : (s.countErase r).wprotLow = s.wprotLow := rfl
@[simp] theorem State.countErase_resetPhase (s : State) (r : Nat) : (s.countErase r).resetPhase = s.resetPhase := rfl
@[simp] theorem State.countErase_freeIdx (s : State) (r : Nat) : (s.countErase r).freeIdx = s.freeIdx := rfl
@[simp] theorem State.countErase_pending (s : State) (r : Nat) : (s.countErase r).pending = s.pending := rfl

/-! ### setRowState -/

@[simp] theorem State.setRowState_win (s : State) (r : Nat) (st : RowState) : (s.setRowState r st).win = s.win := rfl
@[simp] theorem State.setRowState_ev (s : State) (r : Nat) (st : RowState) : (s.setRowState r st).ev = s.ev := rfl
@[simp] theorem State.setRowState_guards (s : State) (r : Nat) (st : RowState) : (s.setRowState r st).guards = s.guards := rfl
@[simp] theorem State.setRowState_staging (s : State) (r : Nat) (st : RowState) : (s.setRowState r st).staging = s.staging := rfl
@[simp] theorem State.setRowState_dir (s : State) (r : Nat) (st : RowState) : (s.setRowState r st).dir = s.dir := rfl
@[simp] theorem State.setRowState_writer (s : State) (r : Nat) (st : RowState) : (s.setRowState r st).writer = s.writer := rfl
@[simp] theorem State.setRowState_engine (s : State) (r : Nat) (st : RowState) : (s.setRowState r st).engine = s.engine := rfl
@[simp] theorem State.setRowState_recl (s : State) (r : Nat) (st : RowState) : (s.setRowState r st).recl = s.recl := rfl
@[simp] theorem State.setRowState_aud (s : State) (r : Nat) (st : RowState) : (s.setRowState r st).aud = s.aud := rfl
@[simp] theorem State.setRowState_mnt (s : State) (r : Nat) (st : RowState) : (s.setRowState r st).mnt = s.mnt := rfl
@[simp] theorem State.setRowState_fmt (s : State) (r : Nat) (st : RowState) : (s.setRowState r st).fmt = s.fmt := rfl
@[simp] theorem State.setRowState_ctl (s : State) (r : Nat) (st : RowState) : (s.setRowState r st).ctl = s.ctl := rfl
@[simp] theorem State.setRowState_cells (s : State) (r : Nat) (st : RowState) : (s.setRowState r st).cells = s.cells := rfl
@[simp] theorem State.setRowState_wprotLow (s : State) (r : Nat) (st : RowState) : (s.setRowState r st).wprotLow = s.wprotLow := rfl
@[simp] theorem State.setRowState_resetPhase (s : State) (r : Nat) (st : RowState) : (s.setRowState r st).resetPhase = s.resetPhase := rfl
@[simp] theorem State.setRowState_freeIdx (s : State) (r : Nat) (st : RowState) : (s.setRowState r st).freeIdx = s.freeIdx := rfl
@[simp] theorem State.setRowState_pending (s : State) (r : Nat) (st : RowState) : (s.setRowState r st).pending = s.pending := rfl

/-! ### taintRow -/

@[simp] theorem State.taintRow_win (s : State) (r : Nat) : (s.taintRow r).win = s.win := rfl
@[simp] theorem State.taintRow_ev (s : State) (r : Nat) : (s.taintRow r).ev = s.ev := rfl
@[simp] theorem State.taintRow_guards (s : State) (r : Nat) : (s.taintRow r).guards = s.guards := rfl
@[simp] theorem State.taintRow_staging (s : State) (r : Nat) : (s.taintRow r).staging = s.staging := rfl
@[simp] theorem State.taintRow_dir (s : State) (r : Nat) : (s.taintRow r).dir = s.dir := rfl
@[simp] theorem State.taintRow_writer (s : State) (r : Nat) : (s.taintRow r).writer = s.writer := rfl
@[simp] theorem State.taintRow_engine (s : State) (r : Nat) : (s.taintRow r).engine = s.engine := rfl
@[simp] theorem State.taintRow_recl (s : State) (r : Nat) : (s.taintRow r).recl = s.recl := rfl
@[simp] theorem State.taintRow_aud (s : State) (r : Nat) : (s.taintRow r).aud = s.aud := rfl
@[simp] theorem State.taintRow_mnt (s : State) (r : Nat) : (s.taintRow r).mnt = s.mnt := rfl
@[simp] theorem State.taintRow_fmt (s : State) (r : Nat) : (s.taintRow r).fmt = s.fmt := rfl
@[simp] theorem State.taintRow_ctl (s : State) (r : Nat) : (s.taintRow r).ctl = s.ctl := rfl
@[simp] theorem State.taintRow_cells (s : State) (r : Nat) : (s.taintRow r).cells = s.cells := rfl
@[simp] theorem State.taintRow_wprotLow (s : State) (r : Nat) : (s.taintRow r).wprotLow = s.wprotLow := rfl
@[simp] theorem State.taintRow_resetPhase (s : State) (r : Nat) : (s.taintRow r).resetPhase = s.resetPhase := rfl
@[simp] theorem State.taintRow_freeIdx (s : State) (r : Nat) : (s.taintRow r).freeIdx = s.freeIdx := rfl
@[simp] theorem State.taintRow_pending (s : State) (r : Nat) : (s.taintRow r).pending = s.pending := rfl

/-! ### endCommit -/

@[simp] theorem State.endCommit_win (s : State) (c : ResultCode) : (s.endCommit c).win = { s.win with jobResult := c } := rfl
@[simp] theorem State.endCommit_ev (s : State) (c : ResultCode) : (s.endCommit c).ev = { s.ev with event := s.ev.event ||| evJobDone, justSet := s.ev.justSet ||| evJobDone } := rfl
@[simp] theorem State.endCommit_guards (s : State) (c : ResultCode) : (s.endCommit c).guards = s.guards := rfl
@[simp] theorem State.endCommit_staging (s : State) (c : ResultCode) : (s.endCommit c).staging = { s.staging with lock := false } := rfl
@[simp] theorem State.endCommit_dir (s : State) (c : ResultCode) : (s.endCommit c).dir = s.dir := rfl
@[simp] theorem State.endCommit_table (s : State) (c : ResultCode) : (s.endCommit c).table = s.table := rfl
@[simp] theorem State.endCommit_writer (s : State) (c : ResultCode) : (s.endCommit c).writer = s.writer := rfl
@[simp] theorem State.endCommit_engine (s : State) (c : ResultCode) : (s.endCommit c).engine = s.engine.cleared := rfl
@[simp] theorem State.endCommit_recl (s : State) (c : ResultCode) : (s.endCommit c).recl = s.recl := rfl
@[simp] theorem State.endCommit_aud (s : State) (c : ResultCode) : (s.endCommit c).aud = s.aud := rfl
@[simp] theorem State.endCommit_mnt (s : State) (c : ResultCode) : (s.endCommit c).mnt = s.mnt := rfl
@[simp] theorem State.endCommit_fmt (s : State) (c : ResultCode) : (s.endCommit c).fmt = s.fmt := rfl
@[simp] theorem State.endCommit_ctl (s : State) (c : ResultCode) : (s.endCommit c).ctl = s.ctl := rfl
@[simp] theorem State.endCommit_cells (s : State) (c : ResultCode) : (s.endCommit c).cells = s.cells := rfl
@[simp] theorem State.endCommit_wprotLow (s : State) (c : ResultCode) : (s.endCommit c).wprotLow = s.wprotLow := rfl
@[simp] theorem State.endCommit_resetPhase (s : State) (c : ResultCode) : (s.endCommit c).resetPhase = s.resetPhase := rfl
@[simp] theorem State.endCommit_freeIdx (s : State) (c : ResultCode) : (s.endCommit c).freeIdx = s.freeIdx := rfl
@[simp] theorem State.endCommit_pending (s : State) (c : ResultCode) : (s.endCommit c).pending = s.pending := rfl

/-! ### issue -/

@[simp] theorem State.issue_win (s : State) (q : Request) : (s.issue q).win = s.win := rfl
@[simp] theorem State.issue_ev (s : State) (q : Request) : (s.issue q).ev = s.ev := rfl
@[simp] theorem State.issue_guards (s : State) (q : Request) : (s.issue q).guards = s.guards := rfl
@[simp] theorem State.issue_staging (s : State) (q : Request) : (s.issue q).staging = s.staging := rfl
@[simp] theorem State.issue_dir (s : State) (q : Request) : (s.issue q).dir = s.dir := rfl
@[simp] theorem State.issue_table (s : State) (q : Request) : (s.issue q).table = s.table := rfl
@[simp] theorem State.issue_writer (s : State) (q : Request) : (s.issue q).writer = s.writer := rfl
@[simp] theorem State.issue_engine (s : State) (q : Request) : (s.issue q).engine = s.engine := rfl
@[simp] theorem State.issue_recl (s : State) (q : Request) : (s.issue q).recl = s.recl := rfl
@[simp] theorem State.issue_aud (s : State) (q : Request) : (s.issue q).aud = s.aud := rfl
@[simp] theorem State.issue_mnt (s : State) (q : Request) : (s.issue q).mnt = s.mnt := rfl
@[simp] theorem State.issue_fmt (s : State) (q : Request) : (s.issue q).fmt = s.fmt := rfl
@[simp] theorem State.issue_cells (s : State) (q : Request) : (s.issue q).cells = s.cells := rfl
@[simp] theorem State.issue_wprotLow (s : State) (q : Request) : (s.issue q).wprotLow = s.wprotLow := rfl
@[simp] theorem State.issue_resetPhase (s : State) (q : Request) : (s.issue q).resetPhase = s.resetPhase := rfl
@[simp] theorem State.issue_freeIdx (s : State) (q : Request) : (s.issue q).freeIdx = s.freeIdx := rfl
@[simp] theorem State.issue_pending (s : State) (q : Request) : (s.issue q).pending = s.pending := rfl

/-! ### setGranule -/

@[simp] theorem State.setGranule_win (s : State) (r g : Nat) (c : Granule) : (s.setGranule r g c).win = s.win := by unfold State.setGranule; split <;> rfl
@[simp] theorem State.setGranule_ev (s : State) (r g : Nat) (c : Granule) : (s.setGranule r g c).ev = s.ev := by unfold State.setGranule; split <;> rfl
@[simp] theorem State.setGranule_guards (s : State) (r g : Nat) (c : Granule) : (s.setGranule r g c).guards = s.guards := by unfold State.setGranule; split <;> rfl
@[simp] theorem State.setGranule_staging (s : State) (r g : Nat) (c : Granule) : (s.setGranule r g c).staging = s.staging := by unfold State.setGranule; split <;> rfl
@[simp] theorem State.setGranule_dir (s : State) (r g : Nat) (c : Granule) : (s.setGranule r g c).dir = s.dir := by unfold State.setGranule; split <;> rfl
@[simp] theorem State.setGranule_table (s : State) (r g : Nat) (c : Granule) : (s.setGranule r g c).table = s.table := by unfold State.setGranule; split <;> rfl
@[simp] theorem State.setGranule_writer (s : State) (r g : Nat) (c : Granule) : (s.setGranule r g c).writer = s.writer := by unfold State.setGranule; split <;> rfl
@[simp] theorem State.setGranule_engine (s : State) (r g : Nat) (c : Granule) : (s.setGranule r g c).engine = s.engine := by unfold State.setGranule; split <;> rfl
@[simp] theorem State.setGranule_recl (s : State) (r g : Nat) (c : Granule) : (s.setGranule r g c).recl = s.recl := by unfold State.setGranule; split <;> rfl
@[simp] theorem State.setGranule_aud (s : State) (r g : Nat) (c : Granule) : (s.setGranule r g c).aud = s.aud := by unfold State.setGranule; split <;> rfl
@[simp] theorem State.setGranule_mnt (s : State) (r g : Nat) (c : Granule) : (s.setGranule r g c).mnt = s.mnt := by unfold State.setGranule; split <;> rfl
@[simp] theorem State.setGranule_fmt (s : State) (r g : Nat) (c : Granule) : (s.setGranule r g c).fmt = s.fmt := by unfold State.setGranule; split <;> rfl
@[simp] theorem State.setGranule_ctl (s : State) (r g : Nat) (c : Granule) : (s.setGranule r g c).ctl = s.ctl := by unfold State.setGranule; split <;> rfl
@[simp] theorem State.setGranule_cells (s : State) (r g : Nat) (c : Granule) : (s.setGranule r g c).cells = if g ≤ 255 then setCell s.cells (cellKey r g) c else s.cells := by unfold State.setGranule; split <;> rfl
@[simp] theorem State.setGranule_wprotLow (s : State) (r g : Nat) (c : Granule) : (s.setGranule r g c).wprotLow = s.wprotLow := by unfold State.setGranule; split <;> rfl
@[simp] theorem State.setGranule_resetPhase (s : State) (r g : Nat) (c : Granule) : (s.setGranule r g c).resetPhase = s.resetPhase := by unfold State.setGranule; split <;> rfl
@[simp] theorem State.setGranule_freeIdx (s : State) (r g : Nat) (c : Granule) : (s.setGranule r g c).freeIdx = s.freeIdx := by unfold State.setGranule; split <;> rfl
@[simp] theorem State.setGranule_pending (s : State) (r g : Nat) (c : Granule) : (s.setGranule r g c).pending = s.pending := by unfold State.setGranule; split <;> rfl

/-! ### capture -/

@[simp] theorem State.capture_win (s : State) (f : ArrayFault) : (s.capture f).win = s.win := by unfold State.capture; dsimp only; split <;> rfl
@[simp] theorem State.capture_guards (s : State) (f : ArrayFault) : (s.capture f).guards = s.guards := by unfold State.capture; dsimp only; split <;> rfl
@[simp] theorem State.capture_staging (s : State) (f : ArrayFault) : (s.capture f).staging = s.staging := by unfold State.capture; dsimp only; split <;> rfl
@[simp] theorem State.capture_dir (s : State) (f : ArrayFault) : (s.capture f).dir = s.dir := by unfold State.capture; dsimp only; split <;> rfl
@[simp] theorem State.capture_table (s : State) (f : ArrayFault) : (s.capture f).table = s.table := by unfold State.capture; dsimp only; split <;> rfl
@[simp] theorem State.capture_writer (s : State) (f : ArrayFault) : (s.capture f).writer = s.writer := by unfold State.capture; dsimp only; split <;> rfl
@[simp] theorem State.capture_engine (s : State) (f : ArrayFault) : (s.capture f).engine = s.engine := by unfold State.capture; dsimp only; split <;> rfl
@[simp] theorem State.capture_recl (s : State) (f : ArrayFault) : (s.capture f).recl = s.recl := by unfold State.capture; dsimp only; split <;> rfl
@[simp] theorem State.capture_aud (s : State) (f : ArrayFault) : (s.capture f).aud = s.aud := by unfold State.capture; dsimp only; split <;> rfl
@[simp] theorem State.capture_mnt (s : State) (f : ArrayFault) : (s.capture f).mnt = s.mnt := by unfold State.capture; dsimp only; split <;> rfl
@[simp] theorem State.capture_fmt (s : State) (f : ArrayFault) : (s.capture f).fmt = s.fmt := by unfold State.capture; dsimp only; split <;> rfl
@[simp] theorem State.capture_cells (s : State) (f : ArrayFault) : (s.capture f).cells = s.cells := by unfold State.capture; dsimp only; split <;> rfl
@[simp] theorem State.capture_wprotLow (s : State) (f : ArrayFault) : (s.capture f).wprotLow = s.wprotLow := by unfold State.capture; dsimp only; split <;> rfl
@[simp] theorem State.capture_resetPhase (s : State) (f : ArrayFault) : (s.capture f).resetPhase = s.resetPhase := by unfold State.capture; dsimp only; split <;> rfl
@[simp] theorem State.capture_freeIdx (s : State) (f : ArrayFault) : (s.capture f).freeIdx = s.freeIdx := by unfold State.capture; dsimp only; split <;> rfl
@[simp] theorem State.capture_pending (s : State) (f : ArrayFault) : (s.capture f).pending = s.pending := by unfold State.capture; dsimp only; split <;> rfl

/-! ### captureCheck -/

@[simp] theorem State.captureCheck_win (s : State) (b : Bool) (o : Origin) (r g : Nat) : (s.captureCheck b o r g).win = s.win := by unfold State.captureCheck; split <;> simp
@[simp] theorem State.captureCheck_guards (s : State) (b : Bool) (o : Origin) (r g : Nat) : (s.captureCheck b o r g).guards = s.guards := by unfold State.captureCheck; split <;> simp
@[simp] theorem State.captureCheck_staging (s : State) (b : Bool) (o : Origin) (r g : Nat) : (s.captureCheck b o r g).staging = s.staging := by unfold State.captureCheck; split <;> simp
@[simp] theorem State.captureCheck_dir (s : State) (b : Bool) (o : Origin) (r g : Nat) : (s.captureCheck b o r g).dir = s.dir := by unfold State.captureCheck; split <;> simp
@[simp] theorem State.captureCheck_table (s : State) (b : Bool) (o : Origin) (r g : Nat) : (s.captureCheck b o r g).table = s.table := by unfold State.captureCheck; split <;> simp
@[simp] theorem State.captureCheck_writer (s : State) (b : Bool) (o : Origin) (r g : Nat) : (s.captureCheck b o r g).writer = s.writer := by unfold State.captureCheck; split <;> simp
@[simp] theorem State.captureCheck_engine (s : State) (b : Bool) (o : Origin) (r g : Nat) : (s.captureCheck b o r g).engine = s.engine := by unfold State.captureCheck; split <;> simp
@[simp] theorem State.captureCheck_recl (s : State) (b : Bool) (o : Origin) (r g : Nat) : (s.captureCheck b o r g).recl = s.recl := by unfold State.captureCheck; split <;> simp
@[simp] theorem State.captureCheck_aud (s : State) (b : Bool) (o : Origin) (r g : Nat) : (s.captureCheck b o r g).aud = s.aud := by unfold State.captureCheck; split <;> simp
@[simp] theorem State.captureCheck_mnt (s : State) (b : Bool) (o : Origin) (r g : Nat) : (s.captureCheck b o r g).mnt = s.mnt := by unfold State.captureCheck; split <;> simp
@[simp] theorem State.captureCheck_fmt (s : State) (b : Bool) (o : Origin) (r g : Nat) : (s.captureCheck b o r g).fmt = s.fmt := by unfold State.captureCheck; split <;> simp
@[simp] theorem State.captureCheck_cells (s : State) (b : Bool) (o : Origin) (r g : Nat) : (s.captureCheck b o r g).cells = s.cells := by unfold State.captureCheck; split <;> simp
@[simp] theorem State.captureCheck_wprotLow (s : State) (b : Bool) (o : Origin) (r g : Nat) : (s.captureCheck b o r g).wprotLow = s.wprotLow := by unfold State.captureCheck; split <;> simp
@[simp] theorem State.captureCheck_resetPhase (s : State) (b : Bool) (o : Origin) (r g : Nat) : (s.captureCheck b o r g).resetPhase = s.resetPhase := by unfold State.captureCheck; split <;> simp
@[simp] theorem State.captureCheck_freeIdx (s : State) (b : Bool) (o : Origin) (r g : Nat) : (s.captureCheck b o r g).freeIdx = s.freeIdx := by unfold State.captureCheck; split <;> simp
@[simp] theorem State.captureCheck_pending (s : State) (b : Bool) (o : Origin) (r g : Nat) : (s.captureCheck b o r g).pending = s.pending := by unfold State.captureCheck; split <;> simp

/-! ### appendRefresh -/

@[simp] theorem State.appendRefresh_win (s : State) (k r g : Nat) : (s.appendRefresh k r g).win = s.win := by unfold State.appendRefresh; split; rfl; split <;> rfl
@[simp] theorem State.appendRefresh_ev (s : State) (k r g : Nat) : (s.appendRefresh k r g).ev = s.ev := by unfold State.appendRefresh; split; rfl; split <;> rfl
@[simp] theorem State.appendRefresh_guards (s : State) (k r g : Nat) : (s.appendRefresh k r g).guards = s.guards := by unfold State.appendRefresh; split; rfl; split <;> rfl
@[simp] theorem State.appendRefresh_staging (s : State) (k r g : Nat) : (s.appendRefresh k r g).staging = s.staging := by unfold State.appendRefresh; split; rfl; split <;> rfl
@[simp] theorem State.appendRefresh_dir (s : State) (k r g : Nat) : (s.appendRefresh k r g).dir = s.dir := by unfold State.appendRefresh; split; rfl; split <;> rfl
@[simp] theorem State.appendRefresh_table (s : State) (k r g : Nat) : (s.appendRefresh k r g).table = s.table := by unfold State.appendRefresh; split; rfl; split <;> rfl
@[simp] theorem State.appendRefresh_writer (s : State) (k r g : Nat) : (s.appendRefresh k r g).writer = s.writer := by unfold State.appendRefresh; split; rfl; split <;> rfl
@[simp] theorem State.appendRefresh_engine (s : State) (k r g : Nat) : (s.appendRefresh k r g).engine = s.engine := by unfold State.appendRefresh; split; rfl; split <;> rfl
@[simp] theorem State.appendRefresh_aud (s : State) (k r g : Nat) : (s.appendRefresh k r g).aud = s.aud := by unfold State.appendRefresh; split; rfl; split <;> rfl
@[simp] theorem State.appendRefresh_mnt (s : State) (k r g : Nat) : (s.appendRefresh k r g).mnt = s.mnt := by unfold State.appendRefresh; split; rfl; split <;> rfl
@[simp] theorem State.appendRefresh_fmt (s : State) (k r g : Nat) : (s.appendRefresh k r g).fmt = s.fmt := by unfold State.appendRefresh; split; rfl; split <;> rfl
@[simp] theorem State.appendRefresh_ctl (s : State) (k r g : Nat) : (s.appendRefresh k r g).ctl = s.ctl := by unfold State.appendRefresh; split; rfl; split <;> rfl
@[simp] theorem State.appendRefresh_cells (s : State) (k r g : Nat) : (s.appendRefresh k r g).cells = s.cells := by unfold State.appendRefresh; split; rfl; split <;> rfl
@[simp] theorem State.appendRefresh_wprotLow (s : State) (k r g : Nat) : (s.appendRefresh k r g).wprotLow = s.wprotLow := by unfold State.appendRefresh; split; rfl; split <;> rfl
@[simp] theorem State.appendRefresh_resetPhase (s : State) (k r g : Nat) : (s.appendRefresh k r g).resetPhase = s.resetPhase := by unfold State.appendRefresh; split; rfl; split <;> rfl
@[simp] theorem State.appendRefresh_freeIdx (s : State) (k r g : Nat) : (s.appendRefresh k r g).freeIdx = s.freeIdx := by unfold State.appendRefresh; split; rfl; split <;> rfl
@[simp] theorem State.appendRefresh_pending (s : State) (k r g : Nat) : (s.appendRefresh k r g).pending = s.pending := by unfold State.appendRefresh; split; rfl; split <;> rfl

/-! ### refreshIf -/

@[simp] theorem State.refreshIf_win (s : State) (b : Bool) (k r g : Nat) : (s.refreshIf b k r g).win = s.win := by unfold State.refreshIf; split <;> simp
@[simp] theorem State.refreshIf_ev (s : State) (b : Bool) (k r g : Nat) : (s.refreshIf b k r g).ev = s.ev := by unfold State.refreshIf; split <;> simp
@[simp] theorem State.refreshIf_guards (s : State) (b : Bool) (k r g : Nat) : (s.refreshIf b k r g).guards = s.guards := by unfold State.refreshIf; split <;> simp
@[simp] theorem State.refreshIf_staging (s : State) (b : Bool) (k r g : Nat) : (s.refreshIf b k r g).staging = s.staging := by unfold State.refreshIf; split <;> simp
@[simp] theorem State.refreshIf_dir (s : State) (b : Bool) (k r g : Nat) : (s.refreshIf b k r g).dir = s.dir := by unfold State.refreshIf; split <;> simp
@[simp] theorem State.refreshIf_table (s : State) (b : Bool) (k r g : Nat) : (s.refreshIf b k r g).table = s.table := by unfold State.refreshIf; split <;> simp
@[simp] theorem State.refreshIf_writer (s : State) (b : Bool) (k r g : Nat) : (s.refreshIf b k r g).writer = s.writer := by unfold State.refreshIf; split <;> simp
@[simp] theorem State.refreshIf_engine (s : State) (b : Bool) (k r g : Nat) : (s.refreshIf b k r g).engine = s.engine := by unfold State.refreshIf; split <;> simp
@[simp] theorem State.refreshIf_aud (s : State) (b : Bool) (k r g : Nat) : (s.refreshIf b k r g).aud = s.aud := by unfold State.refreshIf; split <;> simp
@[simp] theorem State.refreshIf_mnt (s : State) (b : Bool) (k r g : Nat) : (s.refreshIf b k r g).mnt = s.mnt := by unfold State.refreshIf; split <;> simp
@[simp] theorem State.refreshIf_fmt (s : State) (b : Bool) (k r g : Nat) : (s.refreshIf b k r g).fmt = s.fmt := by unfold State.refreshIf; split <;> simp
@[simp] theorem State.refreshIf_ctl (s : State) (b : Bool) (k r g : Nat) : (s.refreshIf b k r g).ctl = s.ctl := by unfold State.refreshIf; split <;> simp
@[simp] theorem State.refreshIf_cells (s : State) (b : Bool) (k r g : Nat) : (s.refreshIf b k r g).cells = s.cells := by unfold State.refreshIf; split <;> simp
@[simp] theorem State.refreshIf_wprotLow (s : State) (b : Bool) (k r g : Nat) : (s.refreshIf b k r g).wprotLow = s.wprotLow := by unfold State.refreshIf; split <;> simp
@[simp] theorem State.refreshIf_resetPhase (s : State) (b : Bool) (k r g : Nat) : (s.refreshIf b k r g).resetPhase = s.resetPhase := by unfold State.refreshIf; split <;> simp
@[simp] theorem State.refreshIf_freeIdx (s : State) (b : Bool) (k r g : Nat) : (s.refreshIf b k r g).freeIdx = s.freeIdx := by unfold State.refreshIf; split <;> simp
@[simp] theorem State.refreshIf_pending (s : State) (b : Bool) (k r g : Nat) : (s.refreshIf b k r g).pending = s.pending := by unfold State.refreshIf; split <;> simp

/-! ### enterSetRow -/

@[simp] theorem State.enterSetRow_win (s : State) (r : Nat) : (s.enterSetRow r).win = s.win := by unfold State.enterSetRow; split <;> rfl
@[simp] theorem State.enterSetRow_ev (s : State) (r : Nat) : (s.enterSetRow r).ev = s.ev := by unfold State.enterSetRow; split <;> rfl
@[simp] theorem State.enterSetRow_guards (s : State) (r : Nat) : (s.enterSetRow r).guards = s.guards := by unfold State.enterSetRow; split <;> rfl
@[simp] theorem State.enterSetRow_staging (s : State) (r : Nat) : (s.enterSetRow r).staging = s.staging := by unfold State.enterSetRow; split <;> rfl
@[simp] theorem State.enterSetRow_dir (s : State) (r : Nat) : (s.enterSetRow r).dir = s.dir := by unfold State.enterSetRow; split <;> rfl
@[simp] theorem State.enterSetRow_table (s : State) (r : Nat) : (s.enterSetRow r).table = s.table := by unfold State.enterSetRow; split <;> rfl
@[simp] theorem State.enterSetRow_writer (s : State) (r : Nat) : (s.enterSetRow r).writer = s.writer := by unfold State.enterSetRow; split <;> rfl
@[simp] theorem State.enterSetRow_recl (s : State) (r : Nat) : (s.enterSetRow r).recl = s.recl := by unfold State.enterSetRow; split <;> rfl
@[simp] theorem State.enterSetRow_aud (s : State) (r : Nat) : (s.enterSetRow r).aud = s.aud := by unfold State.enterSetRow; split <;> rfl
@[simp] theorem State.enterSetRow_mnt (s : State) (r : Nat) : (s.enterSetRow r).mnt = s.mnt := by unfold State.enterSetRow; split <;> rfl
@[simp] theorem State.enterSetRow_fmt (s : State) (r : Nat) : (s.enterSetRow r).fmt = s.fmt := by unfold State.enterSetRow; split <;> rfl
@[simp] theorem State.enterSetRow_ctl (s : State) (r : Nat) : (s.enterSetRow r).ctl = s.ctl := by unfold State.enterSetRow; split <;> rfl
@[simp] theorem State.enterSetRow_cells (s : State) (r : Nat) : (s.enterSetRow r).cells = s.cells := by unfold State.enterSetRow; split <;> rfl
@[simp] theorem State.enterSetRow_wprotLow (s : State) (r : Nat) : (s.enterSetRow r).wprotLow = s.wprotLow := by unfold State.enterSetRow; split <;> rfl
@[simp] theorem State.enterSetRow_resetPhase (s : State) (r : Nat) : (s.enterSetRow r).resetPhase = s.resetPhase := by unfold State.enterSetRow; split <;> rfl
@[simp] theorem State.enterSetRow_freeIdx (s : State) (r : Nat) : (s.enterSetRow r).freeIdx = s.freeIdx := by unfold State.enterSetRow; split <;> rfl
@[simp] theorem State.enterSetRow_pending (s : State) (r : Nat) : (s.enterSetRow r).pending = s.pending := by unfold State.enterSetRow; split <;> rfl

/-! ### markDamaged -/

@[simp] theorem State.markDamaged_win (s : State) (k r g : Nat) : (s.markDamaged k r g).win = s.win := by unfold State.markDamaged; split; rfl; split <;> rfl
@[simp] theorem State.markDamaged_ev (s : State) (k r g : Nat) : (s.markDamaged k r g).ev = s.ev := by unfold State.markDamaged; split; rfl; split <;> rfl
@[simp] theorem State.markDamaged_guards (s : State) (k r g : Nat) : (s.markDamaged k r g).guards = s.guards := by unfold State.markDamaged; split; rfl; split <;> rfl
@[simp] theorem State.markDamaged_staging (s : State) (k r g : Nat) : (s.markDamaged k r g).staging = s.staging := by unfold State.markDamaged; split; rfl; split <;> rfl
@[simp] theorem State.markDamaged_table (s : State) (k r g : Nat) : (s.markDamaged k r g).table = s.table := by unfold State.markDamaged; split; rfl; split <;> rfl
@[simp] theorem State.markDamaged_writer (s : State) (k r g : Nat) : (s.markDamaged k r g).writer = s.writer := by unfold State.markDamaged; split; rfl; split <;> rfl
@[simp] theorem State.markDamaged_engine (s : State) (k r g : Nat) : (s.markDamaged k r g).engine = s.engine := by unfold State.markDamaged; split; rfl; split <;> rfl
@[simp] theorem State.markDamaged_recl (s : State) (k r g : Nat) : (s.markDamaged k r g).recl = s.recl := by unfold State.markDamaged; split; rfl; split <;> rfl
@[simp] theorem State.markDamaged_aud (s : State) (k r g : Nat) : (s.markDamaged k r g).aud = s.aud := by unfold State.markDamaged; split; rfl; split <;> rfl
@[simp] theorem State.markDamaged_mnt (s : State) (k r g : Nat) : (s.markDamaged k r g).mnt = s.mnt := by unfold State.markDamaged; split; rfl; split <;> rfl
@[simp] theorem State.markDamaged_fmt (s : State) (k r g : Nat) : (s.markDamaged k r g).fmt = s.fmt := by unfold State.markDamaged; split; rfl; split <;> rfl
@[simp] theorem State.markDamaged_ctl (s : State) (k r g : Nat) : (s.markDamaged k r g).ctl = s.ctl := by unfold State.markDamaged; split; rfl; split <;> rfl
@[simp] theorem State.markDamaged_cells (s : State) (k r g : Nat) : (s.markDamaged k r g).cells = s.cells := by unfold State.markDamaged; split; rfl; split <;> rfl
@[simp] theorem State.markDamaged_wprotLow (s : State) (k r g : Nat) : (s.markDamaged k r g).wprotLow = s.wprotLow := by unfold State.markDamaged; split; rfl; split <;> rfl
@[simp] theorem State.markDamaged_resetPhase (s : State) (k r g : Nat) : (s.markDamaged k r g).resetPhase = s.resetPhase := by unfold State.markDamaged; split; rfl; split <;> rfl
@[simp] theorem State.markDamaged_freeIdx (s : State) (k r g : Nat) : (s.markDamaged k r g).freeIdx = s.freeIdx := by unfold State.markDamaged; split; rfl; split <;> rfl
@[simp] theorem State.markDamaged_pending (s : State) (k r g : Nat) : (s.markDamaged k r g).pending = s.pending := by unfold State.markDamaged; split; rfl; split <;> rfl

/-! ### spaceLowAfter -/

@[simp] theorem State.spaceLowAfter_win (s : State) (n : Nat) : (s.spaceLowAfter n).win = s.win := by unfold State.spaceLowAfter; split <;> rfl
@[simp] theorem State.spaceLowAfter_guards (s : State) (n : Nat) : (s.spaceLowAfter n).guards = s.guards := by unfold State.spaceLowAfter; split <;> rfl
@[simp] theorem State.spaceLowAfter_staging (s : State) (n : Nat) : (s.spaceLowAfter n).staging = s.staging := by unfold State.spaceLowAfter; split <;> rfl
@[simp] theorem State.spaceLowAfter_dir (s : State) (n : Nat) : (s.spaceLowAfter n).dir = s.dir := by unfold State.spaceLowAfter; split <;> rfl
@[simp] theorem State.spaceLowAfter_table (s : State) (n : Nat) : (s.spaceLowAfter n).table = s.table := by unfold State.spaceLowAfter; split <;> rfl
@[simp] theorem State.spaceLowAfter_writer (s : State) (n : Nat) : (s.spaceLowAfter n).writer = s.writer := by unfold State.spaceLowAfter; split <;> rfl
@[simp] theorem State.spaceLowAfter_engine (s : State) (n : Nat) : (s.spaceLowAfter n).engine = s.engine := by unfold State.spaceLowAfter; split <;> rfl
@[simp] theorem State.spaceLowAfter_recl (s : State) (n : Nat) : (s.spaceLowAfter n).recl = s.recl := by unfold State.spaceLowAfter; split <;> rfl
@[simp] theorem State.spaceLowAfter_aud (s : State) (n : Nat) : (s.spaceLowAfter n).aud = s.aud := by unfold State.spaceLowAfter; split <;> rfl
@[simp] theorem State.spaceLowAfter_mnt (s : State) (n : Nat) : (s.spaceLowAfter n).mnt = s.mnt := by unfold State.spaceLowAfter; split <;> rfl
@[simp] theorem State.spaceLowAfter_fmt (s : State) (n : Nat) : (s.spaceLowAfter n).fmt = s.fmt := by unfold State.spaceLowAfter; split <;> rfl
@[simp] theorem State.spaceLowAfter_ctl (s : State) (n : Nat) : (s.spaceLowAfter n).ctl = s.ctl := by unfold State.spaceLowAfter; split <;> rfl
@[simp] theorem State.spaceLowAfter_cells (s : State) (n : Nat) : (s.spaceLowAfter n).cells = s.cells := by unfold State.spaceLowAfter; split <;> rfl
@[simp] theorem State.spaceLowAfter_wprotLow (s : State) (n : Nat) : (s.spaceLowAfter n).wprotLow = s.wprotLow := by unfold State.spaceLowAfter; split <;> rfl
@[simp] theorem State.spaceLowAfter_resetPhase (s : State) (n : Nat) : (s.spaceLowAfter n).resetPhase = s.resetPhase := by unfold State.spaceLowAfter; split <;> rfl
@[simp] theorem State.spaceLowAfter_freeIdx (s : State) (n : Nat) : (s.spaceLowAfter n).freeIdx = s.freeIdx := by unfold State.spaceLowAfter; split <;> rfl
@[simp] theorem State.spaceLowAfter_pending (s : State) (n : Nat) : (s.spaceLowAfter n).pending = s.pending := by unfold State.spaceLowAfter; split <;> rfl

/-! ### spaceLowIfBelow -/

@[simp] theorem State.spaceLowIfBelow_win (s : State) : (s.spaceLowIfBelow).win = s.win := by unfold State.spaceLowIfBelow; split <;> rfl
@[simp] theorem State.spaceLowIfBelow_guards (s : State) : (s.spaceLowIfBelow).guards = s.guards := by unfold State.spaceLowIfBelow; split <;> rfl
@[simp] theorem State.spaceLowIfBelow_staging (s : State) : (s.spaceLowIfBelow).staging = s.staging := by unfold State.spaceLowIfBelow; split <;> rfl
@[simp] theorem State.spaceLowIfBelow_dir (s : State) : (s.spaceLowIfBelow).dir = s.dir := by unfold State.spaceLowIfBelow; split <;> rfl
@[simp] theorem State.spaceLowIfBelow_table (s : State) : (s.spaceLowIfBelow).table = s.table := by unfold State.spaceLowIfBelow; split <;> rfl
@[simp] theorem State.spaceLowIfBelow_writer (s : State) : (s.spaceLowIfBelow).writer = s.writer := by unfold State.spaceLowIfBelow; split <;> rfl
@[simp] theorem State.spaceLowIfBelow_engine (s : State) : (s.spaceLowIfBelow).engine = s.engine := by unfold State.spaceLowIfBelow; split <;> rfl
@[simp] theorem State.spaceLowIfBelow_recl (s : State) : (s.spaceLowIfBelow).recl = s.recl := by unfold State.spaceLowIfBelow; split <;> rfl
@[simp] theorem State.spaceLowIfBelow_aud (s : State) : (s.spaceLowIfBelow).aud = s.aud := by unfold State.spaceLowIfBelow; split <;> rfl
@[simp] theorem State.spaceLowIfBelow_mnt (s : State) : (s.spaceLowIfBelow).mnt = s.mnt := by unfold State.spaceLowIfBelow; split <;> rfl
@[simp] theorem State.spaceLowIfBelow_fmt (s : State) : (s.spaceLowIfBelow).fmt = s.fmt := by unfold State.spaceLowIfBelow; split <;> rfl
@[simp] theorem State.spaceLowIfBelow_ctl (s : State) : (s.spaceLowIfBelow).ctl = s.ctl := by unfold State.spaceLowIfBelow; split <;> rfl
@[simp] theorem State.spaceLowIfBelow_cells (s : State) : (s.spaceLowIfBelow).cells = s.cells := by unfold State.spaceLowIfBelow; split <;> rfl
@[simp] theorem State.spaceLowIfBelow_wprotLow (s : State) : (s.spaceLowIfBelow).wprotLow = s.wprotLow := by unfold State.spaceLowIfBelow; split <;> rfl
@[simp] theorem State.spaceLowIfBelow_resetPhase (s : State) : (s.spaceLowIfBelow).resetPhase = s.resetPhase := by unfold State.spaceLowIfBelow; split <;> rfl
@[simp] theorem State.spaceLowIfBelow_freeIdx (s : State) : (s.spaceLowIfBelow).freeIdx = s.freeIdx := by unfold State.spaceLowIfBelow; split <;> rfl
@[simp] theorem State.spaceLowIfBelow_pending (s : State) : (s.spaceLowIfBelow).pending = s.pending := by unfold State.spaceLowIfBelow; split <;> rfl

/-! ### abandonRequests -/

@[simp] theorem State.abandonRequests_win (s : State) (q : Requester) : (s.abandonRequests q).win = s.win := rfl
@[simp] theorem State.abandonRequests_ev (s : State) (q : Requester) : (s.abandonRequests q).ev = s.ev := rfl
@[simp] theorem State.abandonRequests_guards (s : State) (q : Requester) : (s.abandonRequests q).guards = s.guards := rfl
@[simp] theorem State.abandonRequests_staging (s : State) (q : Requester) : (s.abandonRequests q).staging = s.staging := rfl
@[simp] theorem State.abandonRequests_dir (s : State) (q : Requester) : (s.abandonRequests q).dir = s.dir := rfl
@[simp] theorem State.abandonRequests_table (s : State) (q : Requester) : (s.abandonRequests q).table = s.table := rfl
@[simp] theorem State.abandonRequests_writer (s : State) (q : Requester) : (s.abandonRequests q).writer = s.writer := rfl
@[simp] theorem State.abandonRequests_engine (s : State) (q : Requester) : (s.abandonRequests q).engine = s.engine := rfl
@[simp] theorem State.abandonRequests_recl (s : State) (q : Requester) : (s.abandonRequests q).recl = s.recl := rfl
@[simp] theorem State.abandonRequests_aud (s : State) (q : Requester) : (s.abandonRequests q).aud = s.aud := rfl
@[simp] theorem State.abandonRequests_mnt (s : State) (q : Requester) : (s.abandonRequests q).mnt = s.mnt := rfl
@[simp] theorem State.abandonRequests_fmt (s : State) (q : Requester) : (s.abandonRequests q).fmt = s.fmt := rfl
@[simp] theorem State.abandonRequests_cells (s : State) (q : Requester) : (s.abandonRequests q).cells = s.cells := rfl
@[simp] theorem State.abandonRequests_wprotLow (s : State) (q : Requester) : (s.abandonRequests q).wprotLow = s.wprotLow := rfl
@[simp] theorem State.abandonRequests_resetPhase (s : State) (q : Requester) : (s.abandonRequests q).resetPhase = s.resetPhase := rfl
@[simp] theorem State.abandonRequests_freeIdx (s : State) (q : Requester) : (s.abandonRequests q).freeIdx = s.freeIdx := rfl
@[simp] theorem State.abandonRequests_pending (s : State) (q : Requester) : (s.abandonRequests q).pending = s.pending := rfl

/-! ### endAudit -/

@[simp] theorem State.endAudit_win (s : State) (c : ResultCode) (sig : BitVec 32) : (s.endAudit c sig).win = { s.win with auditResult := c, sig := sig, acount := BitVec.ofNat 16 s.aud.count } := rfl
@[simp] theorem State.endAudit_ev (s : State) (c : ResultCode) (sig : BitVec 32) : (s.endAudit c sig).ev = { s.ev with event := s.ev.event ||| evAuditDone, justSet := s.ev.justSet ||| evAuditDone } := rfl
@[simp] theorem State.endAudit_guards (s : State) (c : ResultCode) (sig : BitVec 32) : (s.endAudit c sig).guards = s.guards := rfl
@[simp] theorem State.endAudit_staging (s : State) (c : ResultCode) (sig : BitVec 32) : (s.endAudit c sig).staging = s.staging := rfl
@[simp] theorem State.endAudit_dir (s : State) (c : ResultCode) (sig : BitVec 32) : (s.endAudit c sig).dir = s.dir := rfl
@[simp] theorem State.endAudit_table (s : State) (c : ResultCode) (sig : BitVec 32) : (s.endAudit c sig).table = s.table := rfl
@[simp] theorem State.endAudit_writer (s : State) (c : ResultCode) (sig : BitVec 32) : (s.endAudit c sig).writer = s.writer := rfl
@[simp] theorem State.endAudit_engine (s : State) (c : ResultCode) (sig : BitVec 32) : (s.endAudit c sig).engine = s.engine := rfl
@[simp] theorem State.endAudit_recl (s : State) (c : ResultCode) (sig : BitVec 32) : (s.endAudit c sig).recl = s.recl := rfl
@[simp] theorem State.endAudit_aud (s : State) (c : ResultCode) (sig : BitVec 32) : (s.endAudit c sig).aud = { s.aud with running := false, reading := none } := rfl
@[simp] theorem State.endAudit_mnt (s : State) (c : ResultCode) (sig : BitVec 32) : (s.endAudit c sig).mnt = s.mnt := rfl
@[simp] theorem State.endAudit_fmt (s : State) (c : ResultCode) (sig : BitVec 32) : (s.endAudit c sig).fmt = s.fmt := rfl
@[simp] theorem State.endAudit_cells (s : State) (c : ResultCode) (sig : BitVec 32) : (s.endAudit c sig).cells = s.cells := rfl
@[simp] theorem State.endAudit_wprotLow (s : State) (c : ResultCode) (sig : BitVec 32) : (s.endAudit c sig).wprotLow = s.wprotLow := rfl
@[simp] theorem State.endAudit_resetPhase (s : State) (c : ResultCode) (sig : BitVec 32) : (s.endAudit c sig).resetPhase = s.resetPhase := rfl
@[simp] theorem State.endAudit_freeIdx (s : State) (c : ResultCode) (sig : BitVec 32) : (s.endAudit c sig).freeIdx = s.freeIdx := rfl
@[simp] theorem State.endAudit_pending (s : State) (c : ResultCode) (sig : BitVec 32) : (s.endAudit c sig).pending = s.pending := rfl

end Sys2Proof.Machine
end

