-- ==== Sys2Proof/Laws/Array.lean ====
section
/-! SUPPORT. Reading the array after writing it: one granule, a run of granules, the bytes packed into a granule, and what a
read returns. -/

set_option Elab.async false

namespace Sys2Proof.Machine

/-! ### One granule -/

theorem cellKey_inj {r g r' g' : Nat} (h : g ≤ 255) (h' : g' ≤ 255) : cellKey r g = cellKey r' g' ↔ r = r' ∧ g = g' := by
  unfold cellKey
  constructor
  · intro e
    have : r = r' := by omega
    exact ⟨this, by omega⟩
  · rintro ⟨rfl, rfl⟩
    rfl

/-- Reading one granule after another or the same has been given a content. -/
theorem granule_setGranule (s : State) (r g r' g' : Nat) (c : Granule) (h : s.arrayOk) (hg : g ≤ 255) (hg' : g' ≤ 255) :
    (s.setGranule r g c).granule r' g' = if r' = r ∧ g' = g then c else s.granule r' g' := by
  unfold State.setGranule State.granule
  rw [if_pos hg]
  simp only [if_pos hg']
  rw [cellAt_setCell _ _ _ _ 0 h]
  by_cases e : r' = r ∧ g' = g
  · rw [if_pos e, if_pos ((cellKey_inj hg hg').2 ⟨e.1.symm, e.2.symm⟩).symm]
  · rw [if_neg e, if_neg]
    intro hk
    obtain ⟨a, b⟩ := (cellKey_inj hg hg').1 hk.symm
    exact e ⟨a.symm, b.symm⟩

theorem setGranule_arrayOk (s : State) (r g : Nat) (c : Granule) (h : s.arrayOk) : (s.setGranule r g c).arrayOk := by
  unfold State.setGranule
  split
  · exact Cells.wf_setCell _ _ _ h
  · exact h

/-- A granule written in a run holds its data; every other granule is as it was. -/
theorem granule_writeGranules (s : State) (row first : Nat) (ds : List Data) (h : s.arrayOk) (r g : Nat) (hg : g ≤ 255) :
    (s.writeGranules row first ds).arrayOk ∧
    (¬ (r = row ∧ first ≤ g ∧ g < first + ds.length) → (s.writeGranules row first ds).granule r g = s.granule r g) ∧
    ∀ d, ds[g - first]? = some d → r = row → first ≤ g →
      (s.writeGranules row first ds).granule r g = .written .agrees d := by
  induction ds generalizing s first with
  | nil =>
    refine ⟨h, fun _ => rfl, fun d hd => ?_⟩
    simp at hd
  | cons x t ih =>
    have h1 := setGranule_arrayOk s row first (.written .agrees x) h
    obtain ⟨i1, i2, i3⟩ := ih (s.setGranule row first (.written .agrees x)) (first + 1) h1
    have hset : r = row ∧ g = first → first ≤ 255 →
        (s.setGranule row first (.written .agrees x)).granule r g = .written .agrees x := by
      intro e hf
      rw [granule_setGranule _ _ _ _ _ _ h hf hg, if_pos e]
    have hkeep : ¬ (r = row ∧ g = first) →
        (s.setGranule row first (.written .agrees x)).granule r g = s.granule r g := by
      intro e
      by_cases hf : first ≤ 255
      · rw [granule_setGranule _ _ _ _ _ _ h hf hg, if_neg e]
      · unfold State.setGranule
        rw [if_neg hf]
    refine ⟨i1, fun hn => ?_, fun d hd hr hf => ?_⟩
    · rw [State.writeGranules, i2, hkeep]
      · intro e
        exact hn ⟨e.1, by omega, by simp; omega⟩
      · intro e
        exact hn ⟨e.1, by omega, by simp at e ⊢; omega⟩
    · rw [State.writeGranules]
      by_cases e : g = first
      · have hx : x = d := by
          rw [e] at hd
          simpa using hd
        rw [i2 (by omega), hset ⟨hr, e⟩ (by omega), hx]
      · refine i3 d ?_ hr (by omega)
        rw [show g - first = (g - (first + 1)) + 1 by omega] at hd
        simpa using hd

/-! ### Bytes of a granule -/

theorem packFold_bytes (bytes : List Byte) (n : Nat) (hn : n ≤ 16) (j : Nat) (hj : j < n) :
    ((List.range n).foldl (fun (acc : Data) i => (acc <<< 8) ||| ((bytes[i]?).getD 0xFF).setWidth 128) 0).extractLsb'
      (8 * j) 8 = (bytes[n - 1 - j]?).getD 0xFF := by
  induction n generalizing j with
  | zero => omega
  | succ n ih =>
    rw [List.range_succ, List.foldl_append, List.foldl_cons, List.foldl_nil]
    generalize hacc : (List.range n).foldl (fun (acc : Data) i => (acc <<< 8) ||| ((bytes[i]?).getD 0xFF).setWidth 128) 0
      = acc at ih ⊢
    apply BitVec.eq_of_getLsbD_eq
    intro i hi
    simp only [BitVec.getLsbD_extractLsb', BitVec.getLsbD_or, BitVec.getLsbD_shiftLeft, BitVec.getLsbD_setWidth, hi,
      decide_true, Bool.true_and]
    rcases Nat.eq_zero_or_pos j with rfl | hj0
    · simp [hi]
      intro hf
      omega
    · have h8 := ih (by omega) (j - 1) (by omega)
      have hb := congrArg (fun v => BitVec.getLsbD v i) h8
      simp only [BitVec.getLsbD_extractLsb', hi, decide_true, Bool.true_and] at hb
      rw [show n + 1 - 1 - j = n - 1 - (j - 1) by omega, ← hb]
      have hbig : BitVec.getLsbD ((bytes[n]?).getD 0xFF) (8 * j + i) = false := BitVec.getLsbD_of_ge _ _ (by omega)
      rw [hbig]
      simp only [Bool.and_false, Bool.or_false]
      rw [decide_eq_true (show 8 * j + i < 128 by omega), decide_eq_false (show ¬ 8 * j + i < 8 by omega)]
      rw [show 8 * j + i - 8 = 8 * (j - 1) + i by omega]
      simp

/-- A granule packed from at most 16 bytes gives them back, filled up with 0xFF. -/
theorem dataBytes_packData (bytes : List Byte) (i : Nat) (hi : i < 16) :
    dataByte (packData bytes) i = (bytes[i]?).getD 0xFF := by
  unfold dataByte packData
  rw [packFold_bytes bytes 16 (Nat.le_refl _) (15 - i) (by omega)]
  congr 2
  omega

theorem dataBytes_getElem? (d : Data) (n i : Nat) (hi : i < n) : (dataBytes d n)[i]? = some (dataByte d i) := by
  simp [dataBytes, hi]

/-- Bytes packed into granules of 16 and read back, cut to their number. -/
theorem payloadBytes_pack (payload : List Byte) (n : Nat) (hn : payload.length ≤ 16 * n) :
    ((List.range n).flatMap (fun i => dataBytes (packData ((payload.drop (16 * i)).take 16)) 16)).take payload.length =
      payload := by
  have hlen : ∀ m, ((List.range m).flatMap
      (fun i => dataBytes (packData ((payload.drop (16 * i)).take 16)) 16)).length = 16 * m := by
    intro m
    induction m with
    | zero => rfl
    | succ m ih => rw [List.range_succ, List.flatMap_append, List.length_append, ih]; simp [dataBytes]; omega
  have hget : ∀ m k, k < 16 * m → ((List.range m).flatMap
      (fun i => dataBytes (packData ((payload.drop (16 * i)).take 16)) 16))[k]? = some ((payload[k]?).getD 0xFF) := by
    intro m
    induction m with
    | zero => intro k hk; omega
    | succ m ih =>
      intro k hk
      rw [List.range_succ, List.flatMap_append]
      by_cases hkm : k < 16 * m
      · rw [List.getElem?_append_left (by rw [hlen]; exact hkm)]
        exact ih k hkm
      · rw [List.getElem?_append_right (by rw [hlen]; omega), hlen]
        simp only [List.flatMap_cons, List.flatMap_nil, List.append_nil]
        rw [dataBytes_getElem? _ _ _ (by omega), dataBytes_packData _ _ (by omega)]
        rw [List.getElem?_take_of_lt (by omega), List.getElem?_drop]
        congr 3
        omega
  apply List.ext_getElem?
  intro k
  by_cases hk : k < payload.length
  · rw [List.getElem?_take_of_lt hk, hget n k (by omega)]
    simp [hk]
  · rw [List.getElem?_take_eq_none (by omega), List.getElem?_eq_none (by omega)]

end Sys2Proof.Machine
end

