-- ==== Sys2Proof/Laws/Kept.lean ====
section
/-! SUPPORT. What the control blocks keep while they react inside one event: the array, the guards, the pin, the reset in
force and the queue stay, and the directory, the fault list, the suspended erase, the buffer's pointers, the refresh queue
and the staged set stay safe.  One lemma per operation. -/

set_option Elab.async false

namespace Sys2Proof.Machine

/-- `s` was reached from `s0` by reactions of the control blocks inside one event. -/
structure Kept (s0 s : State) : Prop where
  cells : s.cells = s0.cells
  guards : s.guards = s0.guards
  pending : s.pending = s0.pending
  resetPhase : s.resetPhase = s0.resetPhase
  wprotLow : s.wprotLow = s0.wprotLow
  dir : s0.dirOk → s.dirOk
  faults : s0.faultsOk → s.faultsOk
  susp : s0.suspensionsOk → s.suspensionsOk
  buffer : s0.bufferOk → s.bufferOk
  refresh : s0.refreshOk → s.refreshOk
  staging : s0.stagingOk → s.stagingOk

theorem Kept.rfl' (s : State) : Kept s s := ⟨rfl, rfl, rfl, rfl, rfl, id, id, id, id, id, id⟩

theorem Kept.trans {a b c : State} (h : Kept a b) (k : Kept b c) : Kept a c :=
  ⟨k.cells.trans h.cells, k.guards.trans h.guards, k.pending.trans h.pending, k.resetPhase.trans h.resetPhase,
    k.wprotLow.trans h.wprotLow, k.dir ∘ h.dir, k.faults ∘ h.faults, k.susp ∘ h.susp, k.buffer ∘ h.buffer,
    k.refresh ∘ h.refresh, k.staging ∘ h.staging⟩

/-- A change of the other fields keeps what `Kept` speaks of. -/
theorem Kept.same {s t : State} (cells : t.cells = s.cells := by rfl) (guards : t.guards = s.guards := by rfl)
    (pending : t.pending = s.pending := by rfl) (resetPhase : t.resetPhase = s.resetPhase := by rfl)
    (wprotLow : t.wprotLow = s.wprotLow := by rfl) (dir : t.dir = s.dir := by rfl)
    (faults : t.ctl.faults = s.ctl.faults := by rfl) (corrected : t.ctl.corrected = s.ctl.corrected := by rfl)
    (uncorrectable : t.ctl.uncorrectable = s.ctl.uncorrectable := by rfl)
    (overflow : t.ctl.overflow = s.ctl.overflow := by rfl) (erase : t.ctl.erase = s.ctl.erase := by rfl)
    (dptr : t.win.dptr = s.win.dptr := by rfl) (fill : t.win.fill = s.win.fill := by rfl)
    (refresh : t.recl.refresh = s.recl.refresh := by rfl) (entries : t.staging.entries = s.staging.entries := by rfl)
    (poolFill : t.staging.poolFill = s.staging.poolFill := by rfl) : Kept s t := by
  refine ⟨cells, guards, pending, resetPhase, wprotLow, ?_, ?_, ?_, ?_, ?_, ?_⟩
  · simp only [State.dirOk, dir]; exact id
  · simp only [State.faultsOk, faults, corrected, uncorrectable, overflow]; exact id
  · simp only [State.suspensionsOk, erase]; exact id
  · simp only [State.bufferOk, dptr, fill]; exact id
  · simp only [State.refreshOk, refresh]; exact id
  · simp only [State.stagingOk, entries, poolFill]; exact id

/-- A change of the directory alone that keeps its key order. -/
theorem Kept.ofDir {s : State} {d : List DirEntry} (h : s.dirOk → Ascending d) : Kept s { s with dir := d } :=
  ⟨rfl, rfl, rfl, rfl, rfl, h, id, id, id, id, id⟩

/-- Folding operations that keep. -/
theorem Kept.foldl {α : Type} (f : State → α → State) (hf : ∀ s a, Kept s (f s a)) (l : List α) (s : State) :
    Kept s (l.foldl f s) := by
  induction l generalizing s with
  | nil => exact .rfl' s
  | cons a t ih => exact (hf s a).trans (ih _)

/-! ### Basic operations -/

theorem draw_kept (s : State) : Kept s s.draw := .same
theorem setRow_kept (s : State) (r : Nat) (x : RowRec) : Kept s (s.setRow r x) := .same
theorem addDead_kept (s : State) (r n : Nat) : Kept s (s.addDead r n) := .same
theorem setEvent_kept (s : State) (m : Byte) : Kept s (s.setEvent m) := .same
theorem begin_kept (s : State) : Kept s s.begin := .same
theorem complete_kept (s : State) (c : ResultCode) : Kept s (s.complete c) := .same
theorem take_kept (s : State) (c : Command) : Kept s (s.take c) := .same
theorem forecast_kept (s : State) (k : Nat) : Kept s (s.forecast k) := .same
theorem closeRow_kept (s : State) (r : Nat) : Kept s (s.closeRow r) := .same
theorem rowLeaves_kept (s : State) (r : Nat) (st : RowState) : Kept s (s.rowLeaves r st) := .same
theorem countErase_kept (s : State) (r : Nat) : Kept s (s.countErase r) := .same
theorem setRowState_kept (s : State) (r : Nat) (st : RowState) : Kept s (s.setRowState r st) := .same
theorem taintRow_kept (s : State) (r : Nat) : Kept s (s.taintRow r) := .same
theorem rowAfterErase_kept (s : State) (r : Nat) (p : Bool) : Kept s (s.rowAfterErase r p) := .same
theorem issueErase_kept (s : State) (r : Nat) (q : Requester) (o : Origin) : Kept s (s.issueErase r q o) := .same
theorem arrayFree_kept (s : State) : Kept s s.arrayFree := .same
theorem setFormat_kept (s : State) (j : FormatJob) : Kept s (s.setFormat j) := .same
theorem endCommit_kept (s : State) (c : ResultCode) : Kept s (s.endCommit c) := .same

theorem eraseEnded_kept (s : State) : Kept s s.eraseEnded :=
  ⟨rfl, rfl, rfl, rfl, rfl, id, id, fun _ e h => by simp at h, id, id, id⟩

/-- Bytes returned in the buffer: at most 240 (R165). -/
theorem fillBuffer_kept (s : State) (b : List Byte) (h : b.length ≤ 240) : Kept s (s.fillBuffer b) :=
  ⟨rfl, rfl, rfl, rfl, rfl, id, id, id, fun _ => ⟨Nat.zero_le _, h⟩, id, id⟩

/-! ### The array controller -/

theorem bump_le (limit n : Nat) (h : n ≤ limit) : bump limit n ≤ limit := by
  unfold bump; split <;> omega

theorem countKind_ok (c : Controller) (k : FaultKind) :
    (c.countKind k).faults = c.faults ∧ (c.countKind k).overflow = c.overflow ∧ (c.countKind k).erase = c.erase ∧
      (c.corrected ≤ 65535 → (c.countKind k).corrected ≤ 65535) ∧
      (c.uncorrectable ≤ 65535 → (c.countKind k).uncorrectable ≤ 65535) := by
  cases k <;> simp [Controller.countKind] <;> exact fun h => bump_le _ _ h

theorem capture_kept (s : State) (f : ArrayFault) : Kept s (s.capture f) := by
  obtain ⟨h1, h2, h3, h4, h5⟩ := countKind_ok s.ctl f.kind
  unfold State.capture
  dsimp only
  split
  · rename_i hlt
    refine ⟨rfl, rfl, rfl, rfl, rfl, id, ?_, ?_, id, id, id⟩
    · rintro ⟨a, b, c, d⟩
      refine ⟨?_, h4 b, h5 c, ?_⟩
      · simp only [State.setEvent_ctl, List.length_append, List.length_cons, List.length_nil]
        simp only [faultListSize] at hlt
        omega
      · simpa [h2] using d
    · intro h e he
      simp only [State.setEvent_ctl, h3] at he
      exact h e he
  · refine ⟨rfl, rfl, rfl, rfl, rfl, id, ?_, ?_, id, id, id⟩
    · rintro ⟨a, b, c, d⟩
      refine ⟨by simpa [h1] using a, h4 b, h5 c, ?_⟩
      exact bump_le _ _ (by simpa [h2, counterLimit] using d)
    · intro h e he
      simp only [h3] at he
      exact h e he

theorem captureRead_kept (s : State) (o : Origin) (row first : Nat) (reads : List GranuleRead) :
    Kept s (s.captureRead o row first reads) := by
  induction reads generalizing s first with
  | nil => exact .rfl' s
  | cons g t ih =>
    simp only [State.captureRead]
    split
    · exact ih _ _
    · exact (capture_kept s _).trans (ih _ _)

theorem captureCheck_kept (s : State) (b : Bool) (o : Origin) (row granule : Nat) :
    Kept s (s.captureCheck b o row granule) := by
  unfold State.captureCheck
  split
  · exact capture_kept s _
  · exact .rfl' s

theorem onArrival_count (e : EraseContext) (h : e.count ≤ 32) : e.onArrival.count ≤ 32 := by
  unfold EraseContext.onArrival
  split
  · rename_i h1
    have := h1.2.1
    simp only [suspensionLimit] at this
    dsimp only; omega
  · exact h

theorem issue_kept (s : State) (q : Request) : Kept s (s.issue q) := by
  refine ⟨rfl, rfl, rfl, rfl, rfl, id, id, ?_, id, id, id⟩
  intro h e he
  simp only [State.issue, Controller.issue] at he
  split at he
  · simp only [Option.map_eq_some_iff] at he
    obtain ⟨a, ha, rfl⟩ := he
    exact onArrival_count a (h a ha)
  · exact h e he

theorem arbitrate_ctl (c : Controller) (h : ∀ e, c.erase = some e → e.count ≤ 32) :
    c.arbitrate.faults = c.faults ∧ c.arbitrate.corrected = c.corrected ∧ c.arbitrate.uncorrectable = c.uncorrectable ∧
      c.arbitrate.overflow = c.overflow ∧ (∀ e, c.arbitrate.erase = some e → e.count ≤ 32) := by
  unfold Controller.arbitrate
  split
  · split
    · exact ⟨rfl, rfl, rfl, rfl, h⟩
    · split
      · exact ⟨rfl, rfl, rfl, rfl, h⟩
      · split
        · split
          · refine ⟨rfl, rfl, rfl, rfl, ?_⟩
            intro e he
            simp only [Option.some.injEq] at he
            subst he; simp
          · exact ⟨rfl, rfl, rfl, rfl, h⟩
        · exact ⟨rfl, rfl, rfl, rfl, h⟩
  · exact ⟨rfl, rfl, rfl, rfl, h⟩

theorem arbitrate_same (c : Controller) :
    c.arbitrate.faults = c.faults ∧ c.arbitrate.corrected = c.corrected ∧ c.arbitrate.uncorrectable = c.uncorrectable ∧
      c.arbitrate.overflow = c.overflow := by
  unfold Controller.arbitrate
  repeat' split
  all_goals exact ⟨rfl, rfl, rfl, rfl⟩

theorem arbitrate_kept (s : State) : Kept s s.arbitrate := by
  obtain ⟨h1, h2, h3, h4⟩ := arbitrate_same s.ctl
  refine ⟨rfl, rfl, rfl, rfl, rfl, id, ?_, fun h => (arbitrate_ctl s.ctl h).2.2.2.2, id, id, id⟩
  simp only [State.faultsOk, State.arbitrate_ctl, h1, h2, h3, h4]; exact id

theorem abandonRequests_kept (s : State) (q : Requester) : Kept s (s.abandonRequests q) := by
  refine ⟨rfl, rfl, rfl, rfl, rfl, id, id, ?_, id, id, id⟩
  intro h e he
  simp only [State.abandonRequests, Option.map_eq_some_iff] at he
  obtain ⟨a, ha, rfl⟩ := he
  exact h a ha

/-! ### The directory -/

theorem publishRecord_kept (s : State) (p : Placed) : Kept s (s.publishRecord p) := by
  have h : Kept s { s with dir := dirPut (publishedEntry (dirFind s.dir p.key) p) s.dir } :=
    .ofDir (dirPut_ascending _ _)
  unfold State.publishRecord
  dsimp only
  split
  · exact h
  · exact h.trans (addDead_kept _ _ _)

theorem relocate_kept (s : State) (c : Copy) : Kept s (s.relocate c) := by
  unfold State.relocate
  split
  · exact addDead_kept _ _ _
  · split
    · exact (Kept.ofDir (dirPut_ascending _ _)).trans (addDead_kept _ _ _)
    · exact (Kept.ofDir (dirPut_ascending _ _)).trans (addDead_kept _ _ _)

theorem countFailedCopy_kept (s : State) (k n : Nat) : Kept s (s.countFailedCopy k n) := by
  unfold State.countFailedCopy
  split
  · exact .rfl' s
  · exact .ofDir (dirPut_ascending _ _)

theorem markDamaged_kept (s : State) (k r g : Nat) : Kept s (s.markDamaged k r g) := by
  unfold State.markDamaged
  split
  · exact .rfl' s
  · split
    · exact .ofDir (dirPut_ascending _ _)
    · exact .rfl' s

theorem release_kept (s : State) (k r g : Nat) (w : List WalkRec) : Kept s (s.release k r g w) := by
  unfold State.release
  split
  · exact .rfl' s
  · split
    · exact (Kept.ofDir (filter_ascending _ _)).trans (addDead_kept _ _ _)
    · exact .rfl' s

theorem settle_kept (s : State) (w : List WalkRec) : Kept s (s.settle w) := by
  unfold State.settle
  dsimp only
  refine Kept.trans (Kept.ofDir ?_) (Kept.foldl _ (fun t e => addDead_kept t _ _) _ _)
  intro h
  exact filter_ascending _ _ (map_ascending (DirEntry.settled w) (fun _ => rfl) _ h)

/-! ### The row table -/

theorem closeOpenRow_kept (s : State) : Kept s s.closeOpenRow := by
  unfold State.closeOpenRow
  split
  · exact .rfl' s
  · exact closeRow_kept _ _

/-! ### The journal writer -/

theorem replyTo_kept (s : State) (a : Append) (r : Reply) : Kept s (s.replyTo a r).1 := .same

theorem openRowFor_kept (s : State) (a : Append) : Kept s (s.openRowFor a).1 := by
  unfold State.openRowFor
  split
  · exact replyTo_kept _ _ _
  · split
    · exact replyTo_kept _ _ _
    · dsimp only
      refine Kept.trans ?_ (issue_kept _ _)
      split
      · exact .same
      · exact .same

theorem programAt_kept (s : State) (a : Append) (r : Nat) : Kept s (s.programAt a r).1 := by
  unfold State.programAt
  exact Kept.trans .same (issue_kept _ _)

theorem place_kept (s : State) (a : Append) : Kept s (s.place a).1 := by
  unfold State.place
  split
  · split
    · exact programAt_kept _ _ _
    · exact (closeRow_kept _ _).trans (openRowFor_kept _ _)
  · exact openRowFor_kept _ _

theorem grantAppend_kept (s : State) : Kept s s.grantAppend.1 := by
  unfold State.grantAppend
  split
  · exact .rfl' s
  · split
    · exact Kept.trans .same (place_kept _ _)
    · split
      · exact Kept.trans .same (place_kept _ _)
      · exact .rfl' s

theorem enterSetRow_kept (s : State) (r : Nat) : Kept s (s.enterSetRow r) := by
  unfold State.enterSetRow
  split
  · exact .rfl' s
  · exact .same

theorem rowOpened_kept (s : State) (a : Append) (r q : Nat) : Kept s (s.rowOpened a r q).1 := by
  unfold State.rowOpened
  exact Kept.trans .same (place_kept _ _)

theorem rowHeaderFailed_kept (s : State) (a : Append) (r : Nat) : Kept s (s.rowHeaderFailed a r).1 := by
  unfold State.rowHeaderFailed
  exact (rowLeaves_kept _ _ _).trans (openRowFor_kept _ _)

theorem attemptFailed_kept (s : State) (a : Append) (r i : Nat) : Kept s (s.attemptFailed a r i).1 := by
  have h1 := addDead_kept s r a.size
  have h2 := closeRow_kept (s.addDead r a.size) r
  unfold State.attemptFailed
  dsimp only
  split
  · split
    · exact (h1.trans h2).trans (place_kept _ _)
    · exact h1.trans (place_kept _ _)
  · split
    · exact (h1.trans h2).trans (replyTo_kept _ _ _)
    · exact h1.trans (replyTo_kept _ _ _)

theorem writerProgramDone_kept (s : State) (f : Option Nat) : Kept s (s.writerProgramDone f).1 := by
  unfold State.writerProgramDone
  split
  · exact .rfl' s
  · split
    · exact rowOpened_kept _ _ _ _
    · exact rowHeaderFailed_kept _ _ _
    · split
      · exact (enterSetRow_kept _ _).trans (replyTo_kept _ _ _)
      · exact replyTo_kept _ _ _
    · split
      · exact (enterSetRow_kept _ _).trans (attemptFailed_kept _ _ _ _)
      · exact attemptFailed_kept _ _ _ _
    · exact .rfl' s

/-! ### The audit unit and the refresh queue -/

theorem appendRefresh_kept (s : State) (k r g : Nat) : Kept s (s.appendRefresh k r g) := by
  unfold State.appendRefresh
  split
  · exact .rfl' s
  · split
    · exact .rfl' s
    · rename_i hany hlen
      refine ⟨rfl, rfl, rfl, rfl, rfl, id, id, id, id, ?_, id⟩
      rintro ⟨h1, h2⟩
      simp only [refreshQueueSize] at hlen
      refine ⟨by simp only [List.length_append, List.length_cons, List.length_nil]; omega, ?_⟩
      simp only [List.map_append, List.map_cons, List.map_nil]
      refine List.nodup_append.2 ⟨h2, by simp, ?_⟩
      intro x hx y hy hxy
      subst hxy
      simp only [List.mem_cons, List.not_mem_nil, or_false] at hy
      subst hy
      obtain ⟨e, he, hek⟩ := List.mem_map.1 hx
      exact hany (List.any_eq_true.2 ⟨e, he, by simpa using hek⟩)

theorem refreshIf_kept (s : State) (b : Bool) (k r g : Nat) : Kept s (s.refreshIf b k r g) := by
  unfold State.refreshIf
  split
  · exact appendRefresh_kept _ _ _ _
  · exact .rfl' s

theorem endAudit_kept (s : State) (c : ResultCode) (sig : BitVec 32) : Kept s (s.endAudit c sig) := by
  unfold State.endAudit
  exact (abandonRequests_kept s .audit).trans .same

theorem auditSigned_kept (s : State) : Kept s s.auditSigned := by
  unfold State.auditSigned
  exact endAudit_kept _ _ _

theorem auditVisit_kept (s : State) : Kept s s.auditVisit := by
  unfold State.auditVisit
  split
  · exact auditSigned_kept s
  · split
    · exact endAudit_kept _ _ _
    · exact Kept.trans .same (issue_kept _ _)
    · exact Kept.trans .same (issue_kept _ _)

theorem auditReadDone_kept (s : State) (reads : List GranuleRead) : Kept s (s.auditReadDone reads) := by
  unfold State.auditReadDone
  split
  · exact .rfl' s
  · split
    · refine Kept.trans ?_ (auditVisit_kept _)
      exact Kept.trans .same (refreshIf_kept _ _ _ _ _)
    · exact (((captureCheck_kept _ _ _ _ _).trans (refreshIf_kept _ _ _ _ _)).trans (markDamaged_kept _ _ _ _)).trans
        (endAudit_kept _ _ _)
    · exact (((captureCheck_kept _ _ _ _ _).trans (refreshIf_kept _ _ _ _ _)).trans (markDamaged_kept _ _ _ _)).trans
        (endAudit_kept _ _ _)

theorem auditDisturb_kept (s : State) (keys : List Nat) : Kept s (s.auditDisturb keys) := by
  unfold State.auditDisturb
  split
  · exact endAudit_kept _ _ _
  · exact .rfl' s

/-! ### The commit engine -/

theorem writeFailed_kept (s : State) : Kept s s.writeFailed.1 := by
  unfold State.writeFailed
  dsimp only
  have h1 := Kept.foldl State.taintRow taintRow_kept s.engine.setRows s
  have h2 : Kept s (if s.engine.setRows.isEmpty then s.engine.setRows.foldl State.taintRow s
      else { s.engine.setRows.foldl State.taintRow s with
        table := { (s.engine.setRows.foldl State.taintRow s).table with purgePending := true } }) := by
    split
    · exact h1
    · exact h1.trans .same
  exact (h2.trans (Kept.foldl _ (fun t p => addDead_kept t p.row (extent p.length)) s.engine.placed _)).trans
    (endCommit_kept _ _)

theorem enterWriting_kept (s : State) : Kept s s.enterWriting.1 := by
  unfold State.enterWriting
  split
  · exact .same
  · exact endCommit_kept _ _
  · exact endCommit_kept _ _

theorem actOnPlan_kept (s : State) (c : PlanCause) (p : SetPlan) : Kept s (s.actOnPlan c p).1 := by
  have h0 : Kept s { s with engine := { s.engine with plan := some p } } := .same
  unfold State.actOnPlan
  dsimp only
  split
  · exact h0.trans (enterWriting_kept _)
  · split
    · split
      · exact .same
      · exact h0.trans (endCommit_kept _ _)
    · exact h0
    · exact h0.trans (endCommit_kept _ _)

theorem commitPlan_kept (s : State) (c : PlanCause) : Kept s (s.commitPlan c).1 := by
  unfold State.commitPlan
  split
  · exact actOnPlan_kept _ _ _
  · split
    · exact actOnPlan_kept _ _ _
    · exact .rfl' s
  · split
    · exact actOnPlan_kept _ _ _
    · exact .rfl' s

theorem commitAsk_kept (s : State) : Kept s s.commitAsk.1 := .same

theorem moveNewestCommit_kept (s : State) (l : Loc) : Kept s (s.moveNewestCommit l) := by
  unfold State.moveNewestCommit
  dsimp only
  split
  · exact .same
  · exact .same

theorem emptied_kept (s : State) : Kept s { s with staging := s.staging.emptied } :=
  ⟨rfl, rfl, rfl, rfl, rfl, id, id, id, id, id, fun _ => by simp [State.stagingOk, Staging.emptied]⟩

theorem publish_kept (s : State) (l : Loc) : Kept s (s.publish l) := by
  unfold State.publish
  dsimp only
  exact ((((Kept.foldl State.publishRecord publishRecord_kept s.engine.placed s).trans
    (moveNewestCommit_kept _ l)).trans (emptied_kept _)).trans (auditDisturb_kept _ _)).trans (endCommit_kept _ _)

theorem commitPlaced_kept (s : State) (a : Append) (r g f : Nat) : Kept s (s.commitPlaced a r g f).1 := by
  unfold State.commitPlaced
  split
  · exact publish_kept _ _
  · exact .same

theorem commitReply_kept (s : State) (a : Append) (r : Reply) : Kept s (s.commitReply a r).1 := by
  unfold State.commitReply
  split
  · exact commitPlaced_kept _ _ _ _ _
  · exact writeFailed_kept _
  · exact writeFailed_kept _

/-! ### The reclaimer -/

theorem reclaimRead_kept (s : State) (r f c : Nat) (w : ReclaimWait) : Kept s (s.reclaimRead r f c w) := by
  unfold State.reclaimRead
  exact Kept.trans .same (issue_kept _ _)

theorem reclaimErase_kept (s : State) (r : Nat) : Kept s (s.reclaimErase r) := .same

theorem reclaimAppend_kept (s : State) (h : RecordHeader) (p : List Byte) (w : ReclaimWait) :
    Kept s (s.reclaimAppend h p w).1 := .same

theorem endReclaim_kept (s : State) : Kept s s.endReclaim.1 := .same

theorem sendRelocates_kept (s : State) : Kept s s.sendRelocates := by
  unfold State.sendRelocates
  dsimp only
  exact (Kept.foldl State.relocate relocate_kept _ s).trans .same

theorem victimBack_kept (s : State) : Kept s s.victimBack := by
  unfold State.victimBack
  split
  · exact .rfl' s
  · split
    · exact setRowState_kept _ _ _
    · exact .rfl' s

theorem abandonPass_kept (s : State) (b : Bool) : Kept s (s.abandonPass b).1 := by
  unfold State.abandonPass
  dsimp only
  exact ((sendRelocates_kept s).trans (victimBack_kept _)).trans .same

theorem commitPurgeFailed_kept (s : State) : Kept s s.commitPurgeFailed := by
  unfold State.commitPurgeFailed
  split
  · exact endCommit_kept _ _
  · exact .rfl' s

theorem readOnlyFromReady_kept (s : State) : Kept s s.readOnlyFromReady := by
  unfold State.readOnlyFromReady
  split
  · exact .same
  · exact .rfl' s

theorem flagPurgeFailed_kept (s : State) : Kept s s.flagPurgeFailed := .same

theorem purgeFail_kept (s : State) : Kept s s.purgeFail.1 := by
  unfold State.purgeFail
  exact (((((sendRelocates_kept s).trans (victimBack_kept _)).trans (flagPurgeFailed_kept _)).trans
    (readOnlyFromReady_kept _)).trans (commitPurgeFailed_kept _)).trans (endReclaim_kept _)

theorem passFails_kept (s : State) (b : Bool) : Kept s (s.passFails b).1 := by
  unfold State.passFails
  split
  · exact purgeFail_kept s
  · exact abandonPass_kept s b

theorem walkAt_kept (s : State) (v g : Nat) : Kept s (s.walkAt v g) := reclaimRead_kept _ _ _ _ _

theorem readKept_kept (s : State) (e : DirEntry) : Kept s (s.readKept e) := reclaimRead_kept _ _ _ _ _

theorem copyStep_kept (s : State) (v : Nat) : Kept s (s.copyStep v) := by
  unfold State.copyStep
  split
  · exact readKept_kept _ _
  · exact Kept.trans .same (walkAt_kept _ _ _)

theorem beginPass_kept (s : State) (v : Nat) : Kept s (s.beginPass v) := by
  unfold State.beginPass
  dsimp only
  exact Kept.trans .same (copyStep_kept _ _)

theorem checkStep_kept (n : Nat) (s : State) (v : Nat) : Kept s (State.checkStep n s v) := by
  induction n generalizing s with
  | zero => exact .same
  | succ n ih =>
    simp only [State.checkStep]
    split
    · exact .same
    · split
      · split
        · exact (release_kept _ _ _ _ _).trans (readKept_kept _ _)
        · exact (release_kept _ _ _ _ _).trans (ih _)
      · exact readKept_kept _ _

theorem check_kept (s : State) (v : Nat) : Kept s (s.check v) := checkStep_kept _ _ _

theorem walkEnd_kept (s : State) (v : Nat) : Kept s (s.walkEnd v) := by
  unfold State.walkEnd
  exact (Kept.trans .same (sendRelocates_kept _)).trans (check_kept _ _)

theorem walkOn_kept (s : State) (v g : Nat) : Kept s (s.walkOn v g) := by
  unfold State.walkOn
  split
  · exact walkAt_kept _ _ _
  · exact walkEnd_kept _ _

theorem walkList_kept (s : State) (h : RecordHeader) (g : Nat) : Kept s (s.walkList h g) := .same

theorem walkRead_kept (s : State) (v g : Nat) (r : GranuleRead) : Kept s (s.walkRead v g r) := by
  unfold State.walkRead
  split
  · split
    · exact walkOn_kept _ _ _
    · exact (walkList_kept _ _ _).trans (walkOn_kept _ _ _)
    · exact (walkList_kept _ _ _).trans (walkOn_kept _ _ _)
  · exact (captureCheck_kept _ _ _ _ _).trans (walkEnd_kept _ _)

theorem nextTarget_kept (s : State) : Kept s s.nextTarget.1 := by
  unfold State.nextTarget
  split
  · exact Kept.trans .same (beginPass_kept _ _)
  · exact .same

theorem closeTaintedOpen_kept (s : State) : Kept s s.closeTaintedOpen := by
  unfold State.closeTaintedOpen
  split
  · exact .rfl' s
  · split
    · exact closeRow_kept _ _
    · exact .rfl' s

theorem startPurge_kept (s : State) : Kept s s.startPurge.1 := by
  unfold State.startPurge
  dsimp only
  split
  · exact Kept.trans .same (purgeFail_kept _)
  · split
    · exact (Kept.trans .same (closeTaintedOpen_kept _)).trans (nextTarget_kept _)
    · split
      · exact (Kept.trans .same (closeTaintedOpen_kept _)).trans (reclaimRead_kept _ _ _ _ _)
      · exact (Kept.trans .same (closeTaintedOpen_kept _)).trans (nextTarget_kept _)

theorem purgeCommitRead_kept (s : State) (r g : Nat) (x : GranuleRead) : Kept s (s.purgeCommitRead r g x).1 := by
  unfold State.purgeCommitRead
  split
  · split
    · exact reclaimAppend_kept _ _ _ _
    · exact purgeFail_kept _
  · exact (captureCheck_kept _ _ _ _ _).trans (purgeFail_kept _)

theorem startDirtyErase_kept (s : State) (r : Nat) : Kept s (s.startDirtyErase r) := .same

/-- A refresh job takes the head of the queue (R113). -/
theorem startRefresh_kept (s : State) (head : RefreshEntry) (rest : List RefreshEntry)
    (hq : s.recl.refresh = head :: rest) : Kept s (s.startRefresh head rest).1 := by
  have h0 : Kept s { s with recl := { s.recl with job := .refresh, refresh := rest } } := by
    refine ⟨rfl, rfl, rfl, rfl, rfl, id, id, id, id, ?_, id⟩
    rintro ⟨h1, h2⟩
    simp only [hq, List.length_cons, List.map_cons, List.nodup_cons] at h1 h2
    exact ⟨by dsimp only; omega, h2.2⟩
  unfold State.startRefresh
  dsimp only
  split
  · split
    · exact h0.trans (readKept_kept _ _)
    · exact h0.trans (endReclaim_kept _)
  · exact h0.trans (endReclaim_kept _)

theorem startPass_kept (s : State) (j : Job) : Kept s (s.startPass j).1 := by
  unfold State.startPass
  split
  · exact .rfl' s
  · exact Kept.trans .same (beginPass_kept _ _)

theorem dropIdleRequest_kept (s : State) : Kept s s.dropIdleRequest := by
  unfold State.dropIdleRequest
  split
  · exact .same
  · exact .rfl' s

theorem startDueJob_kept (s : State) : Kept s s.startDueJob.1 := by
  unfold State.startDueJob
  split
  · exact startPurge_kept s
  · split
    · exact startDirtyErase_kept _ _
    · split
      · exact startPass_kept _ _
      · split
        · rename_i h; exact startRefresh_kept _ _ _ h
        · split
          · exact Kept.trans .same (startPass_kept _ _)
          · exact .rfl' s

theorem reclaimLook_kept (s : State) : Kept s s.reclaimLook.1 := by
  unfold State.reclaimLook
  split
  · exact (dropIdleRequest_kept s).trans (startDueJob_kept _)
  · exact .rfl' s

theorem keptRead_kept (s : State) (k r g : Nat) (reads : List GranuleRead) : Kept s (s.keptRead k r g reads).1 := by
  have h : ∀ b, Kept s ((s.captureCheck b .reclaim r g).markDamaged k r g) := fun b =>
    (captureCheck_kept _ _ _ _ _).trans (markDamaged_kept _ _ _ _)
  unfold State.keptRead
  split
  · exact reclaimAppend_kept _ _ _ _
  · dsimp only
    split
    · exact (h _).trans (endReclaim_kept _)
    · exact (h _).trans (passFails_kept _ _)
  · dsimp only
    split
    · exact (h _).trans (endReclaim_kept _)
    · exact (h _).trans (passFails_kept _ _)

theorem reclaimReadDone_kept (s : State) (reads : List GranuleRead) : Kept s (s.reclaimReadDone reads).1 := by
  unfold State.reclaimReadDone
  split
  · exact keptRead_kept _ _ _ _ _
  · split
    · exact purgeCommitRead_kept _ _ _ _
    · exact purgeFail_kept _
  · split
    · exact walkRead_kept _ _ _ _
    · exact .rfl' s
  all_goals exact .rfl' s

theorem copyPlaced_kept (s : State) (c : Copy) : Kept s (s.copyPlaced c).1 := by
  unfold State.copyPlaced
  split
  · exact (relocate_kept _ _).trans (endReclaim_kept _)
  · split
    · exact Kept.trans .same (copyStep_kept _ _)
    · exact (relocate_kept _ _).trans (check_kept _ _)
    · exact .rfl' s

theorem copyLost_kept (s : State) (k f : Nat) : Kept s (s.copyLost k f).1 := by
  unfold State.copyLost
  dsimp only
  split
  · exact (countFailedCopy_kept _ _ _).trans (endReclaim_kept _)
  · exact (countFailedCopy_kept _ _ _).trans (passFails_kept _ _)

theorem reclaimReply_kept (s : State) (r : Reply) : Kept s (s.reclaimReply r).1 := by
  unfold State.reclaimReply
  split
  · exact copyPlaced_kept _ _
  · exact copyLost_kept _ _ _
  · exact copyLost_kept _ _ _
  · exact (moveNewestCommit_kept _ _).trans (nextTarget_kept _)
  · exact purgeFail_kept _
  · exact purgeFail_kept _
  all_goals exact .rfl' s

theorem unblockIf_kept (s : State) (p : Bool) : Kept s (s.unblockIf p) := by
  unfold State.unblockIf
  split
  · exact .same
  · exact .rfl' s

theorem reclaimEraseDone_kept (s : State) (r : Nat) (p : Bool) : Kept s (s.reclaimEraseDone r p).1 := by
  have h : Kept s ((s.rowAfterErase r p).unblockIf p) := (rowAfterErase_kept _ _ _).trans (unblockIf_kept _ _)
  unfold State.reclaimEraseDone
  dsimp only
  split
  · exact h.trans (endReclaim_kept _)
  · exact (h.trans (settle_kept _ _)).trans (nextTarget_kept _)
  all_goals exact (h.trans (settle_kept _ _)).trans (endReclaim_kept _)

theorem victimAtFormat_kept (s : State) : Kept s s.victimAtFormat := by
  unfold State.victimAtFormat
  repeat' split
  all_goals first | exact .rfl' s | exact rowLeaves_kept _ _ _ | exact setRowState_kept _ _ _

theorem reclaimAtFormat_kept (s : State) : Kept s s.reclaimAtFormat := by
  have h : Kept s (s.victimAtFormat.abandonRequests .reclaimer) :=
    (victimAtFormat_kept s).trans (abandonRequests_kept _ _)
  unfold State.reclaimAtFormat
  dsimp only
  refine ⟨h.cells, h.guards, h.pending, h.resetPhase, h.wprotLow, h.dir, h.faults, h.susp, h.buffer, ?_, h.staging⟩
  intro _
  simp [State.refreshOk, Reclaimer.atReset]

/-! ### The mount engine -/

theorem mountRead_kept (s : State) (r f c : Nat) (w : MountWait) : Kept s (s.mountRead r f c w) := by
  unfold State.mountRead
  exact Kept.trans .same (issue_kept _ _)

theorem spaceLowIfBelow_kept (s : State) : Kept s s.spaceLowIfBelow := by
  unfold State.spaceLowIfBelow
  split
  · exact setEvent_kept _ _
  · exact .rfl' s

theorem resolve_kept (s : State) : Kept s s.resolve.1 := by
  unfold State.resolve
  dsimp only
  refine Kept.trans (Kept.trans ?_ (setEvent_kept _ _)) (spaceLowIfBelow_kept _)
  exact ⟨rfl, rfl, rfl, rfl, rfl, fun _ => builtDir_ascending _, id, id, id, id, id⟩

theorem nextParseRow_kept (s : State) : Kept s s.nextParseRow.1 := by
  unfold State.nextParseRow
  split
  · exact resolve_kept s
  · exact Kept.trans .same (mountRead_kept _ _ _ _ _)

theorem enterParse_kept (s : State) : Kept s s.enterParse.1 := by
  unfold State.enterParse
  split
  · exact Kept.trans .same (nextParseRow_kept _)
  · exact resolve_kept s

theorem nextBlankRow_kept (s : State) : Kept s s.nextBlankRow.1 := by
  unfold State.nextBlankRow
  split
  · exact enterParse_kept s
  · exact Kept.trans .same (mountRead_kept _ _ _ _ _)

theorem mountSelect_kept (s : State) : Kept s s.mountSelect.1 := by
  unfold State.mountSelect
  dsimp only
  exact Kept.trans .same (nextBlankRow_kept _)

theorem mountHeader_kept (s : State) (r : Nat) (g : GranuleRead) : Kept s (s.mountHeader r g).1 := by
  have h0 := captureCheck_kept s (rowHeaderCheckFails g) .mount r 0
  unfold State.mountHeader
  dsimp only
  split
  · exact (h0.trans .same).trans (mountRead_kept _ _ _ _ _)
  · exact (h0.trans .same).trans (mountSelect_kept _)

theorem mountBlankChunk_kept (s : State) (r c : Nat) (reads : List GranuleRead) :
    Kept s (s.mountBlankChunk r c reads).1 := by
  unfold State.mountBlankChunk
  split
  · exact Kept.trans .same (nextBlankRow_kept _)
  · split
    · exact mountRead_kept _ _ _ _ _
    · exact Kept.trans .same (nextBlankRow_kept _)

theorem parseEnds_kept (s : State) (r : Nat) (e : ParseEnd) (b : Bool) : Kept s (s.parseEnds r e b).1 := by
  unfold State.parseEnds
  exact Kept.trans .same (nextParseRow_kept _)

theorem tailFrom_kept (s : State) (r g f : Nat) : Kept s (s.tailFrom r g f).1 := by
  unfold State.tailFrom
  split
  · exact mountRead_kept _ _ _ _ _
  · exact parseEnds_kept _ _ _ _

theorem parseAt_kept (s : State) (r g : Nat) : Kept s (s.parseAt r g).1 := by
  unfold State.parseAt
  split
  · exact mountRead_kept _ _ _ _ _
  · exact parseEnds_kept _ _ _ _

theorem parseHeader_kept (s : State) (r g : Nat) (h : RecordHeader) : Kept s (s.parseHeader r g h).1 := by
  unfold State.parseHeader
  dsimp only
  split
  · exact Kept.trans .same (mountRead_kept _ _ _ _ _)
  · exact Kept.trans .same (parseAt_kept _ _ _)

theorem mountPosition_kept (s : State) (r g : Nat) (x : GranuleRead) : Kept s (s.mountPosition r g x).1 := by
  unfold State.mountPosition
  split
  · exact tailFrom_kept _ _ _ _
  · exact parseEnds_kept _ _ _ _
  all_goals
    split
    · exact parseHeader_kept _ _ _ _
    · exact (captureCheck_kept _ _ _ _ _).trans (parseEnds_kept _ _ _ _)

theorem mountPayload_kept (s : State) (r g : Nat) (h : RecordHeader) (reads : List GranuleRead) :
    Kept s (s.mountPayload r g h reads).1 := by
  have hc : ∀ b, Kept s ({ s.captureCheck b .mount r g with
      mnt := (s.captureCheck b .mount r g).mnt.note r g h false }) := fun b =>
    (captureCheck_kept s b .mount r g).trans .same
  unfold State.mountPayload
  split
  · exact Kept.trans .same (parseAt_kept _ _ _)
  · exact (captureCheck_kept _ _ _ _ _).trans (Kept.trans .same (parseAt_kept _ _ _))
  · exact (captureCheck_kept _ _ _ _ _).trans (Kept.trans .same (parseAt_kept _ _ _))

theorem mountTail_kept (s : State) (r g f : Nat) (reads : List GranuleRead) : Kept s (s.mountTail r g f reads).1 := by
  unfold State.mountTail
  split
  · exact tailFrom_kept _ _ _ _
  · exact parseEnds_kept _ _ _ _

theorem mountReadDone_kept (s : State) (reads : List GranuleRead) : Kept s (s.mountReadDone reads).1 := by
  unfold State.mountReadDone
  split
  · exact mountHeader_kept _ _ _
  · exact mountBlankChunk_kept _ _ _ _
  · exact mountPosition_kept _ _ _ _
  · exact mountPayload_kept _ _ _ _ _
  · exact mountTail_kept _ _ _ _ _
  · exact .rfl' s

/-! ### The FORMAT job -/

theorem openBecomesFull_kept (s : State) : Kept s s.openBecomesFull := by
  unfold State.openBecomesFull
  split
  · exact .rfl' s
  · exact setRow_kept _ _ _

theorem clearTaints_kept (s : State) : Kept s s.clearTaints := .same

theorem tableAtFormat_kept (s : State) : Kept s s.tableAtFormat := by
  unfold State.tableAtFormat
  dsimp only
  exact ((openBecomesFull_kept s).trans (clearTaints_kept _)).trans .same

theorem takeFormat_kept (s : State) : Kept s s.takeFormat := by
  have h : Kept s s.reclaimAtFormat.tableAtFormat := (reclaimAtFormat_kept s).trans (tableAtFormat_kept _)
  unfold State.takeFormat
  dsimp only
  exact ⟨h.cells, h.guards, h.pending, h.resetPhase, h.wprotLow, fun _ => List.Pairwise.nil, h.faults, h.susp, h.buffer,
    h.refresh, fun _ => by simp [State.stagingOk]⟩

theorem formatOutcome_kept (s : State) (j : FormatJob) : Kept s (s.formatOutcome j) := by
  unfold State.formatOutcome
  split
  · split
    · exact .same
    · exact (rowLeaves_kept _ _ _).trans .same
  · exact .same

theorem formatEnd_kept (s : State) (j : FormatJob) : Kept s (s.formatEnd j).1 := by
  unfold State.formatEnd
  dsimp only
  exact ((((formatOutcome_kept s j).trans .same).trans (setEvent_kept _ _)).trans (setEvent_kept _ _)).trans
    (spaceLowIfBelow_kept _)

theorem restRow_kept (s : State) (j : FormatJob) (r : Nat) : Kept s (s.restRow j r) := by
  unfold State.restRow
  split
  · exact (setFormat_kept _ _).trans (issue_kept _ _)
  · exact .same

theorem eraseRestFrom_kept (s : State) (j : FormatJob) (r : Nat) : Kept s (s.eraseRestFrom j r).1 := by
  unfold State.eraseRestFrom
  split
  · exact restRow_kept _ _ _
  · exact formatEnd_kept _ _

theorem enterEraseRest_kept (s : State) (j : FormatJob) : Kept s (s.enterEraseRest j).1 := eraseRestFrom_kept _ _ _

theorem formatHeader_kept (s : State) (j : FormatJob) (r : Nat) : Kept s (s.formatHeader j r) := by
  unfold State.formatHeader
  exact (setFormat_kept _ _).trans (issue_kept _ _)

theorem nextCandidate_kept (s : State) (j : FormatJob) : Kept s (s.nextCandidate j).1 := by
  unfold State.nextCandidate
  split
  · exact formatHeader_kept _ _ _
  · split
    · exact .same
    · exact enterEraseRest_kept _ _

theorem formatBegin_kept (s : State) (j : FormatJob) : Kept s (s.formatBegin j).1 := by
  unfold State.formatBegin
  exact Kept.trans .same (nextCandidate_kept _ _)

theorem firstRowFound_kept (s : State) (j : FormatJob) (r : Nat) : Kept s (s.firstRowFound j r).1 := by
  unfold State.firstRowFound
  dsimp only
  exact Kept.trans .same (enterEraseRest_kept _ _)

theorem firstRowFailed_kept (s : State) (j : FormatJob) (r : Nat) : Kept s (s.firstRowFailed j r).1 := by
  unfold State.firstRowFailed
  dsimp only
  split
  · exact (rowLeaves_kept _ _ _).trans (enterEraseRest_kept _ _)
  · exact ((rowLeaves_kept s r .dirty).trans .same).trans (nextCandidate_kept _ _)

theorem formatProgramDone_kept (s : State) (f : Option Nat) : Kept s (s.formatProgramDone f).1 := by
  unfold State.formatProgramDone
  split
  · exact .rfl' s
  · split
    · exact firstRowFound_kept _ _ _
    · exact firstRowFailed_kept _ _ _
    all_goals exact .rfl' s

theorem formatEraseDone_kept (s : State) (p : Bool) : Kept s (s.formatEraseDone p).1 := by
  unfold State.formatEraseDone
  split
  · exact .rfl' s
  · split
    · dsimp only
      split
      · exact (rowAfterErase_kept _ _ _).trans (formatHeader_kept _ _ _)
      · exact (rowAfterErase_kept _ _ _).trans (nextCandidate_kept _ _)
    · exact (rowAfterErase_kept _ _ _).trans (eraseRestFrom_kept _ _ _)
    all_goals exact .rfl' s

theorem formatReadDone_kept (s : State) (reads : List GranuleRead) : Kept s (s.formatReadDone reads).1 := by
  unfold State.formatReadDone
  split
  · exact .rfl' s
  · split
    · split
      · exact eraseRestFrom_kept _ _ _
      · split
        · exact (setFormat_kept _ _).trans (issue_kept _ _)
        · exact (rowLeaves_kept _ _ _).trans (eraseRestFrom_kept _ _ _)
    all_goals exact .rfl' s

/-! ### The reactions of an event -/

theorem deliverReply_kept (s : State) (a : Append) (r : Reply) : Kept s (s.deliverReply a r).1 := by
  unfold State.deliverReply
  split
  · exact commitReply_kept _ _ _
  · exact reclaimReply_kept _ _

theorem handle_kept (s : State) (x : Signal) : Kept s (s.handle x).1 := by
  cases x with
  | plan c => exact commitPlan_kept _ _
  | ask => exact commitAsk_kept _
  | grant => exact grantAppend_kept _
  | reply a r => exact deliverReply_kept _ _ _
  | look => exact reclaimLook_kept _

theorem drain_kept (n : Nat) (l : List Signal) (s : State) : Kept s (drain n l s) := by
  induction n generalizing l s with
  | zero => cases l <;> exact .rfl' s
  | succ n ih =>
    cases l with
    | nil => exact .rfl' s
    | cons x t => exact (handle_kept s x).trans (ih _ _)

theorem settleEvent_kept (p : State × List Signal) : Kept p.1 (State.settleEvent p) := drain_kept _ _ _

theorem beginExclusive_kept (s : State) : Kept s s.beginExclusive := by
  unfold State.beginExclusive
  split
  · split
    · exact (formatBegin_kept _ _).trans (arbitrate_kept _)
    · exact .rfl' s
  · exact .rfl' s

theorem spaceLowAfter_kept (s : State) (n : Nat) : Kept s (s.spaceLowAfter n) := by
  unfold State.spaceLowAfter
  split
  · exact setEvent_kept _ _
  · exact .rfl' s

theorem finish_kept (s : State) (n : Nat) : Kept s (s.finish n) :=
  ((arbitrate_kept s).trans (beginExclusive_kept _)).trans (spaceLowAfter_kept _ _)

theorem runEvent_kept (s0 : State) (p : State × List Signal) : Kept p.1 (s0.runEvent p) :=
  (settleEvent_kept p).trans (finish_kept _ _)

end Sys2Proof.Machine
end

