-- ==== Sys2Proof/Laws/Look.lean ====
section
/-! SUPPORT. What a reclaimer that looks for work does while nothing is owed: it begins a job or stays, and only its own
state, its array requests and the VICTIM state of a row that was FULL change.  `drain_looks` and `runEvent_acts` say it once
for the end of an event. -/

set_option Elab.async false

namespace Sys2Proof.Machine

theorem reclaimerLooks_refl (s : State) : s.reclaimerLooks s where
  frame := rfl
  busy := fun _ => rfl
  rest := fun _ _ _ _ => rfl
  blocked := rfl
  request := id
  queue := ⟨[], rfl, fun _ h => absurd h (by simp)⟩
  rows := fun _ => .inl rfl
  begins := fun _ => .inl ⟨by simp [State.restingAs], rfl, rfl⟩

/-- A look that leaves the reclaimer IDLE has changed its queue and its request at most. -/
theorem reclaimerLooks_idle {s t : State} (h : s.reclaimerLooks t) (hs : s.recl.job = .idle) (ht : t.recl.job = .idle) :
    t = { s with recl := s.restingAs t } := by
  have key : t.recl = s.restingAs t ∧ t.ctl = s.ctl ∧ t.table = s.table := by
    rcases h.begins hs with k | ⟨x, _, _, _, k⟩ | ⟨e, k, _⟩ | ⟨v, f, c, k, _⟩
    · exact k
    · rw [k] at ht; cases ht
    · rw [k] at ht; cases ht
    · rw [k] at ht; cases ht
  have f := h.frame
  rw [key.2.1, key.2.2] at f
  rw [← key.1]
  exact f

theorem reclaimerLooks_trans {a b c : State} (h : a.reclaimerLooks b) (k : b.reclaimerLooks c) : a.reclaimerLooks c := by
  by_cases hb : b.recl.job = .idle
  · by_cases ha : a.recl.job = .idle
    · have hbusy := h.busy
      have hrest := h.rest
      have hblocked := h.blocked
      have hrequest := h.request
      obtain ⟨g1, e1, n1⟩ := h.queue
      have hidle := reclaimerLooks_idle h ha hb
      have hR : b.recl = a.restingAs b := by rw [hidle]; rfl
      clear h
      generalize hr : a.restingAs b = R at *
      subst hidle
      have hR2 : R = { (if R.refresh = a.recl.refresh then a.recl else Reclaimer.atReset) with
        refresh := R.refresh, request := R.request, blocked := a.recl.blocked } := hr.symm
      clear hr hR
      obtain ⟨g2, e2, n2⟩ := k.queue
      dsimp only at *
      have resting : State.restingAs { a with recl := R } c = a.restingAs c := by
        unfold State.restingAs
        dsimp only
        by_cases h1 : R.refresh = a.recl.refresh
        · rw [if_pos h1] at hR2
          rw [hR2, h1]
          split <;> rfl
        · rw [if_neg h1] at hR2
          have h2 : c.recl.refresh ≠ a.recl.refresh := by
            intro h2
            rw [h2] at e2
            rw [e2] at e1
            have := congrArg List.length e1
            simp only [List.length_append] at this
            have : g2 = [] := List.eq_nil_of_length_eq_zero (by omega)
            rw [this] at e2
            exact h1 e2
          rw [if_neg h2, hR2]
          split <;> rfl
      refine ⟨?_, ?_, ?_, k.blocked.trans hblocked, hrequest ∘ k.request, ⟨g1 ++ g2, ?_, ?_⟩, k.rows, ?_⟩
      · exact k.frame
      · intro hm
        have := hbusy hm
        exact (k.busy (.inr (hm.resolve_left (fun n => n ha)))).trans this
      · intro h1 h2 h3 h4
        have := hrest h1 h2 h3 h4
        refine Eq.trans (k.rest h1 ?_ ?_ ?_) this
        · have := congrArg (fun u : State => u.recl) this; dsimp only at this; rw [this]; exact h2
        · have := congrArg (fun u : State => u.recl) this; dsimp only at this; rw [this]; exact h3
        · have := congrArg (fun u : State => u.recl) this; dsimp only at this; rw [this]; exact h4
      · rw [e1, e2, List.append_assoc]
      · intro q hq hat
        rcases List.mem_append.1 hq with hq | hq
        · have := (n1 q hq hat).1
          rw [this] at hb; cases hb
        · exact n2 q hq hat
      · intro _
        rcases k.begins hb with ⟨k1, k2, k3⟩ | ⟨x, k0, k1, k2, k3⟩ | ⟨e, k1, k2, k3, k4⟩ |
            ⟨v, f, n, k1, k2, k3, k4, k5, k6, k7, k8, k9⟩
        · rw [resting] at k1
          exact .inl ⟨k1, k2, k3⟩
        · rw [resting] at k3
          exact .inr (.inl ⟨x, k0, k1, k2, k3⟩)
        · exact .inr (.inr (.inl ⟨e, k1, k2, k3, k4⟩))
        · exact .inr (.inr (.inr ⟨v, f, n, k1, k2, k3, k4, k5, k6, hblocked ▸ k7, k8,
            k9⟩))
    · have := h.busy (.inl ha)
      subst this
      exact k
  · have := k.busy (.inl hb)
    subst this
    exact h

/-- What the looks keep of calm. -/
theorem reclaimerLooks_calm {s t : State} (h : s.reclaimerLooks t) (c : s.calm) : t.calm := by
  obtain ⟨c1, c2, c3⟩ := c
  rw [h.frame]
  exact ⟨c1, c2, c3⟩

/-- The looks change no row's ERASED or OPEN state and no figure of a row. -/
theorem reclaimerLooks_rowsIn {s t : State} (h : s.reclaimerLooks t) (st : RowState) (h1 : st ≠ .full)
    (h2 : st ≠ .victim) : t.rowsIn st = s.rowsIn st := by
  unfold State.rowsIn
  refine List.filter_congr ?_
  intro r _
  rcases h.rows r with e | ⟨f, e, _⟩
  · rw [e]
  · rw [e, f]
    simp [Ne.symm h1, Ne.symm h2]

theorem reclaimerLooks_nextFree {s t : State} (h : s.reclaimerLooks t) (r : Nat) :
    (t.row r).nextFree = (s.row r).nextFree := by
  rcases h.rows r with e | ⟨f, e, _⟩ <;> rw [e]

theorem reclaimerLooks_freeGranules {s t : State} (h : s.reclaimerLooks t) : t.freeGranules = s.freeGranules := by
  unfold State.freeGranules State.openRoom State.erasedRows State.openRow
  rw [reclaimerLooks_rowsIn h .erased (by decide) (by decide), reclaimerLooks_rowsIn h .opened (by decide) (by decide)]
  split
  · rfl
  · rw [reclaimerLooks_nextFree h]

theorem row_setRow (s : State) (r x : Nat) (rec : RowRec) :
    (s.setRow r rec).row x = if r = x ∧ x < 64 then rec else s.row x := by
  unfold State.row State.setRow
  by_cases h : r = x
  · subst h
    by_cases h64 : r < 64
    · simp [h64]
    · simp [h64]
  · simp [h]

theorem bestOf_mem {α : Type} (better : α → α → Bool) (l : List α) (x : α) (h : bestOf better l = some x) : x ∈ l := by
  induction l generalizing x with
  | nil => cases h
  | cons y t ih =>
    simp only [bestOf] at h
    split at h
    · simp only [Option.some.injEq] at h
      simp [h]
    · rename_i b hb
      split at h
      · simp only [Option.some.injEq] at h
        subst h
        exact List.mem_cons_of_mem _ (ih _ hb)
      · simp only [Option.some.injEq] at h
        simp [h]

theorem eligible_full {s : State} {r : Nat} (h : s.eligible r = true) : (s.row r).state = some .full := by
  unfold State.eligible at h
  simp only [Bool.and_eq_true, decide_eq_true_eq] at h
  exact h.1.1.1.1.1

/-- One step of COPY asks the array to read in the victim, and changes no more than what the pass waits for. -/
theorem copyStep_form (s : State) (v : Nat) : ∃ phase wait first count,
    s.copyStep v = { s with
      recl := { s.recl with phase := phase, wait := wait }
      ctl := s.askedByReclaimer v first count } := by
  unfold State.copyStep State.askedByReclaimer
  split
  · rename_i e he
    have hr : e.row = v := by
      have := (List.mem_filter.1 (bestOf_mem _ _ _ he)).2
      simp only [Bool.and_eq_true, decide_eq_true_eq] at this
      exact this.1
    refine ⟨s.recl.phase, .recordRead e.key e.row e.granule, e.granule, extent e.length, ?_⟩
    unfold State.readKept State.reclaimRead
    subst hr
    rfl
  · refine ⟨some .walk, .walkRead 1, 1, 1, ?_⟩
    rfl

/-- A pass that starts: its victim, its state, and its first read. -/
theorem beginPass_form (s : State) (v : Nat) : ∃ phase wait first count,
    s.beginPass v = { s.setRowState v .victim with
      recl := { s.recl with
        phase := phase, victim := some v, cursor := 1, copyList := [], walkList := [], wait := wait }
      ctl := s.askedByReclaimer v first count } := by
  unfold State.beginPass
  dsimp only
  obtain ⟨p, w, f, c, h⟩ := copyStep_form { s.setRowState v .victim with recl := { (s.setRowState v .victim).recl with
      phase := some .copy, victim := some v, cursor := 1, copyList := [], walkList := [] } } v
  exact ⟨p, w, f, c, h⟩

/-- A background pass that starts sends no signal and only marks its victim. -/
theorem startBackground_looks (s : State) (hs : s.recl.job = .idle) (due : s.backgroundDue = true) :
    s.reclaimerLooks ({ s with recl := { s.recl with request := false } }.startPass .backgroundVictim).1 ∧
      ({ s with recl := { s.recl with request := false } }.startPass .backgroundVictim).2 = [] := by
  unfold State.backgroundDue at due
  simp only [Bool.and_eq_true, decide_eq_true_eq, Bool.not_eq_true', Bool.or_eq_true] at due
  obtain ⟨⟨mode, unblocked⟩, why⟩ := due
  unfold State.startPass
  have hb : ({ s with recl := { s.recl with request := false } } : State).bestVictim = s.bestVictim := rfl
  rw [hb]
  split
  · rename_i hn
    exfalso
    have ne : s.eligibleVictims ≠ [] := by
      intro h0
      rcases why with w | w <;> simp [h0] at w
    unfold State.bestVictim at hn
    generalize s.eligibleVictims = l at ne hn
    cases l with
    | nil => exact ne rfl
    | cons a t => simp only [bestOf] at hn; split at hn <;> [skip; split at hn] <;> cases hn
  · rename_i v hv
    refine ⟨?_, rfl⟩
    have he : s.eligible v = true := (List.mem_filter.1 (bestOf_mem _ _ _ hv)).2
    have hv64 : v < 64 := List.mem_range.1 (List.mem_filter.1 (bestOf_mem _ _ _ hv)).1
    have hf := eligible_full he
    obtain ⟨p, w, f, c, h⟩ := beginPass_form
      { s with recl := { s.recl with request := false, job := .backgroundVictim } } v
    dsimp only
    rw [h]
    refine ⟨rfl, ?_, ?_, rfl, fun h => absurd h (by simp), ⟨[], rfl, fun _ h => absurd h (by simp)⟩, ?_, fun _ => ?_⟩
    · rintro (h | h | h)
      · exact absurd hs h
      · rw [mode] at h; cases h
      · rw [mode] at h; cases h
    · intro _ _ h3 h4
      exfalso
      rcases h4 mode unblocked with h | h
      · rcases why with ⟨w, -⟩ | ⟨w, -⟩
        · omega
        · rw [h3] at w; cases w
      · rcases why with ⟨-, w⟩ | ⟨w, -⟩
        · obtain ⟨x, hx, hd⟩ := List.any_eq_true.1 w
          have hx := List.mem_filter.1 hx
          have := h x (List.mem_range.1 hx.1) hx.2
          simp only [decide_eq_true_eq] at hd
          omega
        · rw [h3] at w; cases w
    · intro r
      have : ∀ u : State, ({ u with recl := s.recl } : State).row r = u.row r := fun _ => rfl
      show (State.setRowState _ v .victim).row r = _ ∨ (_ ∧ (State.setRowState _ v .victim).row r = _ ∧ _)
      unfold State.setRowState
      rw [row_setRow]
      split
      · rename_i hr
        right
        rw [← hr.1]
        exact ⟨hf, rfl, rfl, rfl⟩
      · exact .inl rfl
    · exact .inr (.inr (.inr ⟨v, f, c, rfl, rfl, rfl, rfl, rfl, mode, unblocked, he, rfl⟩))

theorem queuedAt_iff (s : State) (q : RefreshEntry) (e : DirEntry) (h : dirFind s.dir q.key = some e) :
    s.queuedAt q ↔ e.row = q.row ∧ e.granule = q.granule := by
  unfold State.queuedAt
  rw [h]
  constructor
  · rintro ⟨_, h1, h2⟩
    cases h1
    exact h2
  · exact fun h => ⟨e, rfl, h⟩

theorem dirFind_key {dir : List DirEntry} {k : Nat} {e : DirEntry} (h : dirFind dir k = some e) : e.key = k := by
  simpa using List.find?_some h

theorem startRefresh_looks (s : State) (head : RefreshEntry) (rest : List RefreshEntry) (hs : s.recl.job = .idle)
    (hq : s.recl.refresh = head :: rest) (mode : s.win.mode = .ready ∨ s.win.mode = .readOnly) :
    s.reclaimerLooks (s.startRefresh head rest).1 ∧
      ((s.startRefresh head rest).2 = [] ∨ (s.startRefresh head rest).2 = [.look]) := by
  have nobusy : ∀ t : State, (s.recl.job ≠ .idle ∨ s.win.mode = .mounting ∨ s.win.mode = .formatting) → t = s := by
    rintro t (h | h | h)
    · exact absurd hs h
    · rcases mode with m | m <;> rw [m] at h <;> cases h
    · rcases mode with m | m <;> rw [m] at h <;> cases h
  have ended (hn : ¬ s.queuedAt head) :
      s.reclaimerLooks ({ s with recl := { s.recl with job := .refresh, refresh := rest } } : State).endReclaim.1 := by
    refine ⟨rfl, nobusy _, ?_, rfl, id, ⟨[head], hq, ?_⟩, fun _ => .inl rfl, fun _ => .inl ⟨?_, rfl, rfl⟩⟩
    · intro _ h; rw [hq] at h; cases h
    · intro q hm hat
      rw [List.mem_singleton] at hm
      subst hm
      exact absurd hat hn
    · have hne : rest ≠ s.recl.refresh := by rw [hq]; intro h; simpa using congrArg List.length h
      unfold State.restingAs
      rw [if_neg (by exact hne)]
      rfl
  unfold State.startRefresh
  dsimp only
  split
  · rename_i e he
    split
    · rename_i hat
      refine ⟨?_, .inl rfl⟩
      have hk := dirFind_key he
      refine ⟨rfl, nobusy _, ?_, rfl, id, ⟨[head], hq, ?_⟩, fun _ => .inl rfl, fun _ => .inr (.inr (.inl ⟨e, rfl, rfl, ?_, rfl⟩))⟩
      · intro _ h; rw [hq] at h; cases h
      · intro q hm _
        rw [List.mem_singleton] at hm
        subst hm
        exact ⟨rfl, show ReclaimWait.recordRead e.key e.row e.granule = _ by rw [hk, hat.1, hat.2]⟩
      · rw [hk]; exact he
    · rename_i hat
      exact ⟨ended (by rw [queuedAt_iff _ _ _ he]; exact hat), .inr rfl⟩
  · rename_i hn
    refine ⟨ended ?_, .inr rfl⟩
    rintro ⟨e, h, _⟩
    rw [hn] at h; cases h

theorem dropIdleRequest_looks (s : State) (hs : s.recl.job = .idle) : s.reclaimerLooks s.dropIdleRequest := by
  unfold State.dropIdleRequest
  split
  · rename_i h
    simp only [Bool.and_eq_true, decide_eq_true_eq] at h
    refine ⟨rfl, ?_, ?_, rfl, fun h => absurd h (by simp), ⟨[], rfl, fun _ h => absurd h (by simp)⟩, fun _ => .inl rfl,
      fun _ => .inl ⟨?_, rfl, rfl⟩⟩
    · rintro (k | k | k)
      · exact absurd hs k
      · rw [h.1.1] at k; cases k
      · rw [h.1.1] at k; cases k
    · intro _ _ k; rw [h.1.2] at k; cases k
    · simp [State.restingAs]
  · exact reclaimerLooks_refl s

theorem startDirtyErase_looks (s : State) (r : Nat) (hs : s.recl.job = .idle) (h64 : r < 64)
    (hd : (s.row r).state = some .dirty) (mode : s.win.mode ≠ .mounting ∧ s.win.mode ≠ .formatting) :
    s.reclaimerLooks (s.startDirtyErase r) := by
  refine ⟨rfl, ?_, fun h => absurd hd (h r h64), rfl, id, ⟨[], rfl, fun _ h => absurd h (by simp)⟩, fun _ => .inl rfl,
    fun _ => .inr (.inl ⟨r, h64, hd, rfl, ?_⟩)⟩
  · rintro (k | k | k)
    · exact absurd hs k
    · exact absurd k mode.1
    · exact absurd k mode.2
  · have : (s.startDirtyErase r).recl.refresh = s.recl.refresh := rfl
    unfold State.restingAs
    rw [if_pos this]
    rfl

/-- With nothing owed a look only lets the reclaimer begin one job, and asks at most for another look; a DIRTY row comes
first. -/
theorem reclaimLook_looks (s : State) (c : s.calm) :
    s.reclaimerLooks s.reclaimLook.1 ∧ (s.reclaimLook.2 = [] ∨ s.reclaimLook.2 = [.look]) ∧
    (s.recl.job = .idle → s.win.mode ≠ .mounting → s.win.mode ≠ .formatting →
      ∀ x, x < 64 → (s.row x).state = some .dirty → (∀ y, y < x → (s.row y).state ≠ some .dirty) →
      s.reclaimLook.1.recl.job = .dirtyErase ∧ s.reclaimLook.1.recl.victim = some x) := by
  unfold State.reclaimLook
  split
  · rename_i hs
    have h0 := dropIdleRequest_looks s hs.1
    have c0 := reclaimerLooks_calm h0 c
    have f : s.dropIdleRequest.win.mode = s.win.mode ∧ s.dropIdleRequest.recl.job = .idle ∧
        s.dropIdleRequest.table = s.table := by
      unfold State.dropIdleRequest; split <;> exact ⟨rfl, hs.1, rfl⟩
    generalize s.dropIdleRequest = u at h0 c0 f
    obtain ⟨f1, f2, f3⟩ := f
    have frow : ∀ x, u.row x = s.row x := fun x => by unfold State.row; rw [f3]
    have mode : u.win.mode ≠ .mounting ∧ u.win.mode ≠ .formatting := by rw [f1]; exact hs.2
    suffices h : u.reclaimerLooks u.startDueJob.1 ∧ (u.startDueJob.2 = [] ∨ u.startDueJob.2 = [.look]) ∧
        ∀ x, x < 64 → (s.row x).state = some .dirty → (∀ y, y < x → (s.row y).state ≠ some .dirty) →
          u.startDueJob.1.recl.job = .dirtyErase ∧ u.startDueJob.1.recl.victim = some x from
      ⟨reclaimerLooks_trans h0 h.1, h.2.1, fun _ _ _ => h.2.2⟩
    obtain ⟨c1, c2, -⟩ := c0
    have hp : u.purgeDue = false := by simp [State.purgeDue, c1]
    unfold State.startDueJob
    rw [hp]
    simp only [Bool.false_eq_true, if_false]
    split
    · rename_i r hr
      have hmem : r ∈ u.rowsIn .dirty ∧ (u.rowsIn .dirty).head? = some r := by
        unfold State.dirtyDue at hr
        split at hr
        · exact ⟨List.mem_of_mem_head? hr, hr⟩
        · cases hr
      have h1 := List.mem_filter.1 hmem.1
      refine ⟨startDirtyErase_looks u r f2 (List.mem_range.1 h1.1) (by simpa using h1.2) mode, .inl rfl, ?_⟩
      intro x hx hd hl
      refine ⟨rfl, ?_⟩
      show some r = some x
      have hr1 : (s.row r).state = some .dirty := by rw [← frow]; simpa using h1.2
      have hr64 := List.mem_range.1 h1.1
      have hxr : x ≤ r := by
        rcases Nat.lt_or_ge r x with h | h
        · exact absurd hr1 (hl r h)
        · exact h
      rcases Nat.lt_or_ge x r with h | h
      · exfalso
        have hxm : x ∈ u.rowsIn .dirty :=
          List.mem_filter.2 ⟨List.mem_range.2 hx, by rw [frow]; simpa using hd⟩
        have hsorted : (u.rowsIn .dirty).Pairwise (· < ·) := (List.pairwise_lt_range).filter _
        obtain ⟨t, ht⟩ := List.head?_eq_some_iff.1 hmem.2
        rw [ht] at hxm hsorted
        rcases List.mem_cons.1 hxm with rfl | hxm
        · omega
        · have := (List.pairwise_cons.1 hsorted).1 x hxm; omega
      · rw [Nat.le_antisymm hxr h]
    · rename_i hnd
      have nodirty : ∀ x, x < 64 → (s.row x).state = some .dirty → False := by
        intro x hx hd
        have hxm : x ∈ u.rowsIn .dirty := List.mem_filter.2 ⟨List.mem_range.2 hx, by rw [frow]; simpa using hd⟩
        unfold State.dirtyDue at hnd
        rw [if_pos] at hnd
        · rw [List.head?_eq_none_iff] at hnd
          rw [hnd] at hxm; cases hxm
        · have := mode
          cases hm : u.win.mode <;> simp_all
      refine and_assoc.1 ⟨?_, fun x hx hd _ => (nodirty x hx hd).elim⟩
      split
      · rename_i h
        exfalso
        unfold State.urgentDue at h
        simp only [Bool.and_eq_true, decide_eq_true_eq] at h
        exact c2 h.1.1.2
      · split
        · rename_i head rest hdue hq
          refine startRefresh_looks u head rest f2 hq ?_
          unfold State.refreshDue at hdue
          simp only [Bool.and_eq_true, Bool.or_eq_true, decide_eq_true_eq] at hdue
          exact hdue.1
        · split
          · rename_i hb
            have h := startBackground_looks u f2 hb
            exact ⟨h.1, .inl h.2⟩
          · exact ⟨reclaimerLooks_refl u, .inl rfl⟩
  · rename_i hs
    exact ⟨reclaimerLooks_refl s, .inl rfl, fun h1 h2 h3 => absurd ⟨h1, h2, h3⟩ hs⟩

/-- With nothing owed, looks that wait only let the reclaimer begin one job. -/
theorem drain_looks (n : Nat) (l : List Signal) (hl : ∀ x ∈ l, x = .look) (s : State) (c : s.calm) :
    s.reclaimerLooks (drain n l s) := by
  induction n generalizing l s with
  | zero => cases l <;> exact reclaimerLooks_refl s
  | succ n ih =>
    cases l with
    | nil => exact reclaimerLooks_refl s
    | cons x t =>
      have hx : x = .look := hl x (by simp)
      subst hx
      have h := reclaimLook_looks s c
      show s.reclaimerLooks (drain n (s.reclaimLook.2 ++ t) s.reclaimLook.1)
      generalize s.reclaimLook = p at h
      refine reclaimerLooks_trans h.1 (ih _ ?_ _ (reclaimerLooks_calm h.1 c))
      intro y hy
      rcases List.mem_append.1 hy with hy | hy
      · rcases h.2.1 with e | e <;> rw [e] at hy <;> simp at hy
        exact hy
      · exact hl y (by simp [hy])

/-- What a reclaimer at work does to the looks that wait: nothing. -/
theorem drain_busy (n : Nat) (l : List Signal) (hl : ∀ x ∈ l, x = .look) (s : State) (c : s.calm)
    (h : s.recl.job ≠ .idle ∨ s.win.mode = .mounting ∨ s.win.mode = .formatting) : drain n l s = s :=
  (drain_looks n l hl s c).busy h

/-- The first look, then the others and the arbiter: what `State.reclaimerActs` says. -/
theorem drain_acts (n : Nat) (l : List Signal) (hl : ∀ x ∈ l, x = .look) (s : State) (c : s.calm) :
    s.reclaimerActs (drain (n + 1) (.look :: l) s).arbitrate := by
  have h := reclaimLook_looks s c
  have hd : drain (n + 1) (.look :: l) s = drain n (s.reclaimLook.2 ++ l) s.reclaimLook.1 := rfl
  rw [hd]
  generalize s.reclaimLook = p at h
  have hall : ∀ x ∈ p.2 ++ l, x = .look := by
    intro y hy
    rcases List.mem_append.1 hy with hy | hy
    · rcases h.2.1 with e | e <;> rw [e] at hy <;> simp at hy
      exact hy
    · exact hl y hy
  have cp := reclaimerLooks_calm h.1 c
  have h2 := drain_looks n (p.2 ++ l) hall p.1 cp
  refine ⟨_, reclaimerLooks_trans h.1 h2, ?_, rfl⟩
  intro a1 a2 a3 x a4 a5 a6
  obtain ⟨b1, b2⟩ := h.2.2 a1 a2 a3 x a4 a5 a6
  rw [drain_busy n _ hall _ cp (.inl (by rw [b1]; simp))]
  exact ⟨b1, b2⟩

/-- What the acting reclaimer and the arbiter keep of calm. -/
theorem reclaimerActs_calm {s t : State} (h : s.reclaimerActs t) (c : s.calm) : t.calm := by
  obtain ⟨v, hv, -, rfl⟩ := h
  show v.calm
  exact reclaimerLooks_calm hv c

theorem reclaimerActs_freeGranules {s t : State} (h : s.reclaimerActs t) : t.freeGranules = s.freeGranules := by
  obtain ⟨v, hv, -, rfl⟩ := h
  show v.freeGranules = _
  exact reclaimerLooks_freeGranules hv

/-- A reclaimer at work leaves the arbiter alone to act. -/
theorem reclaimerActs_busy {s t : State} (h : s.reclaimerActs t)
    (b : s.recl.job ≠ .idle ∨ s.win.mode = .mounting ∨ s.win.mode = .formatting) : t = s.arbitrate := by
  obtain ⟨v, hv, -, rfl⟩ := h
  rw [hv.busy b]
  rfl

theorem beginExclusive_none (s : State) (h : s.fmt = none) : s.beginExclusive = s := by
  unfold State.beginExclusive
  rw [h]

/-- The end of an event after which nothing is owed and only looks are to make: SPACE_LOW is not set unless the free granules
fell below 255. -/
theorem finish_acts (s0 s : State) (n : Nat) (l : List Signal) (hl : ∀ x ∈ l, x = .look) (c : s.calm)
    (hf : 255 ≤ s0.freeGranules → 255 ≤ s.freeGranules) :
    s.reclaimerActs ((drain (n + 1) (.look :: l) s).finish s0.freeGranules) := by
  have h2 := drain_acts n l hl s c
  have c2 := reclaimerActs_calm h2 c
  unfold State.finish
  rw [beginExclusive_none _ c2.2.2]
  unfold State.spaceLowAfter
  rw [if_neg]
  · exact h2
  · rw [reclaimerActs_freeGranules h2]
    omega

/-- The same for an event whose reactions send only looks. -/
theorem runEvent_acts (s0 s : State) (l : List Signal) (hl : ∀ x ∈ l, x = .look) (c : s.calm)
    (hf : 255 ≤ s0.freeGranules → 255 ≤ s.freeGranules) : s.reclaimerActs (s0.runEvent (s, l)) := by
  unfold State.runEvent State.settleEvent
  have hfuel : ∃ n, s.fuel = n + 1 := ⟨63 + 2 * s.recl.refresh.length, by unfold State.fuel; omega⟩
  obtain ⟨n, hn⟩ := hfuel
  have hlist : ∃ l2, l ++ [Signal.look] = .look :: l2 ∧ ∀ x ∈ l2, x = Signal.look := by
    cases l with
    | nil => exact ⟨[], rfl, by simp⟩
    | cons x t =>
      have : x = .look := hl x (by simp)
      subst this
      refine ⟨t ++ [.look], rfl, ?_⟩
      intro y hy
      rcases List.mem_append.1 hy with hy | hy
      · exact hl y (by simp [hy])
      · simpa using hy
  obtain ⟨l2, h2, hl2⟩ := hlist
  dsimp only
  rw [hn, h2]
  exact finish_acts s0 s n l2 hl2 c hf

end Sys2Proof.Machine
end

