-- ==== Sys2Proof/Laws/Commands.lean ====
section
/-! SUPPORT. How a command that is taken reaches its own rule, how it answers, and what the checks,
    the lookups and the images say. -/

set_option Elab.async false

namespace Sys2Proof.Machine

theorem hostCommand_accepts {s : State} {c : Command} (b : State → State) (h : s.accepts c) : s.hostCommand c b = b
    (s.begin.take c) := by
  obtain ⟨h1, h2, h3⟩ := h
  simp [State.hostCommand, State.busOpen, h1, h2, h3]

theorem answered_eq (s : State) (c : Command) (r : ResultCode) : (s.begin.take c).complete r = s.answered c r := by
  simp [State.begin, State.take, State.complete, State.setEvent, State.answered, Window.answered, EventUnit.after]

theorem exec_instr (s : State) (c : Command) (hc : c ≠ .reset) : exec c.instr s = .next (s.hostCommand c
    (commandBody c)) := by
  cases c <;> first | rfl | exact absurd rfl hc

theorem commandOf_code (c : Command) : commandOf c.code = some c := by cases c <;> rfl

theorem cmdWrite_code (s : State) (c : Command) (hc : c ≠ .reset) : s.cmdWrite c.code = s.hostCommand c (commandBody c) := by
  unfold State.cmdWrite; rw [commandOf_code]; cases c <;> first | rfl | exact absurd rfl hc

theorem cmdWrite_reset (s : State) : s.cmdWrite 0x5F = s.resetCommand := rfl

theorem commandOf_some (b : Byte) (c : Command) (h : commandOf b = some c) : b = c.code := by
  unfold commandOf at h
  by_cases h1 : b = 0x01; · subst h1; cases h; rfl
  rw [if_neg h1] at h
  by_cases h1 : b = 0x02; · subst h1; cases h; rfl
  rw [if_neg h1] at h
  by_cases h1 : b = 0x03; · subst h1; cases h; rfl
  rw [if_neg h1] at h
  by_cases h1 : b = 0x04; · subst h1; cases h; rfl
  rw [if_neg h1] at h
  by_cases h1 : b = 0x10; · subst h1; cases h; rfl
  rw [if_neg h1] at h
  by_cases h1 : b = 0x11; · subst h1; cases h; rfl
  rw [if_neg h1] at h
  by_cases h1 : b = 0x12; · subst h1; cases h; rfl
  rw [if_neg h1] at h
  by_cases h1 : b = 0x13; · subst h1; cases h; rfl
  rw [if_neg h1] at h
  by_cases h1 : b = 0x20; · subst h1; cases h; rfl
  rw [if_neg h1] at h
  by_cases h1 : b = 0x21; · subst h1; cases h; rfl
  rw [if_neg h1] at h
  by_cases h1 : b = 0x30; · subst h1; cases h; rfl
  rw [if_neg h1] at h
  by_cases h1 : b = 0x31; · subst h1; cases h; rfl
  rw [if_neg h1] at h
  by_cases h1 : b = 0x32; · subst h1; cases h; rfl
  rw [if_neg h1] at h
  by_cases h1 : b = 0x40; · subst h1; cases h; rfl
  rw [if_neg h1] at h
  by_cases h1 : b = 0x41; · subst h1; cases h; rfl
  rw [if_neg h1] at h
  by_cases h1 : b = 0x50; · subst h1; cases h; rfl
  rw [if_neg h1] at h
  by_cases h1 : b = 0x5F; · subst h1; cases h; rfl
  rw [if_neg h1] at h
  cases h

theorem begin_eq_quietly (s : State) : s.begin = s.quietly := by simp [State.begin, State.quietly, EventUnit.after]

theorem setLow_low (w : BitVec 16) (b : Byte) : (setLow w b).extractLsb' 0 8 = b := by
  apply BitVec.eq_of_getLsbD_eq; intro i hi; simp only [BitVec.getLsbD_extractLsb', hi, setLow, decide_true,
      Bool.true_and]; erw [BitVec.getLsbD_append]; simp [hi]

theorem setLow_high (w : BitVec 16) (b : Byte) : (setLow w b).extractLsb' 8 8 = w.extractLsb' 8 8 := by
  apply BitVec.eq_of_getLsbD_eq; intro i hi; simp only [BitVec.getLsbD_extractLsb', hi, setLow, decide_true,
      Bool.true_and]; erw [BitVec.getLsbD_append]; simp [hi]

theorem setHigh_high (w : BitVec 16) (b : Byte) : (setHigh w b).extractLsb' 8 8 = b := by
  apply BitVec.eq_of_getLsbD_eq; intro i hi; simp only [BitVec.getLsbD_extractLsb', hi, setHigh, decide_true,
      Bool.true_and]; erw [BitVec.getLsbD_append]; simp [hi]

theorem setHigh_low (w : BitVec 16) (b : Byte) : (setHigh w b).extractLsb' 0 8 = w.extractLsb' 0 8 := by
  apply BitVec.eq_of_getLsbD_eq; intro i hi; simp only [BitVec.getLsbD_extractLsb', hi, setHigh, decide_true,
      Bool.true_and]; erw [BitVec.getLsbD_append]; simp [hi]

theorem setByte32_byte (w : BitVec 32) (b : Byte) (i j : Nat) (hi : i < 4) (hj : j < 4) :
    (setByte32 w i b).extractLsb' (8 * j) 8 = if i = j then b else w.extractLsb' (8 * j) 8 := by
  apply BitVec.eq_of_getLsbD_eq; intro k hasKey_iff
  interval_cases i <;> interval_cases j <;> interval_cases k <;> simp [setByte32]

theorem exec_accepts (s : State) (c : Command) (hc : c ≠ .reset) (h : s.accepts c) : exec c.instr s = .next
    (commandBody c (s.begin.take c)) := by
  rw [exec_instr _ _ hc, hostCommand_accepts _ h]

theorem writeGuarded_iff (g : Vector Guard 4) (k : KeyWord) : writeGuarded g k = true ↔ guardMode g k ≠ .off := by
  simp [writeGuarded]

theorem readGuarded_iff (g : Vector Guard 4) (k : KeyWord) : readGuarded g k = true ↔ guardMode g k = .noAccess := by
  simp [readGuarded]

theorem hasKey_iff (g : Staging) (k : Nat) : g.hasKey k = true ↔ k ∈ g.entries.map StagedEntry.key := by
  simp [Staging.hasKey]

theorem readFrom_getElem? {n : Nat} (v : Vector Byte n) (p len i : Nat) (h : i < len) (hb : p + i < n) :
    (readFrom v p len)[i]? = v[p+i]? := by
  simp [readFrom, h]; simp [hb]

theorem freeGranules_of_table (s t : State) (h : t.table = s.table) : t.freeGranules = s.freeGranules := by
  unfold State.freeGranules State.openRoom State.erasedRows State.openRow State.rowsIn State.row; rw [h]

theorem spaceLowAfter_same (s : State) (n : Nat) (h : s.freeGranules = n) : s.spaceLowAfter n = s := by
  unfold State.spaceLowAfter; rw [h, if_neg]; omega

theorem arbitrate_not_quiet (c : Controller) (h : c.queue ≠ []) : c.arbitrate.quiet = false := by
  unfold Controller.arbitrate
  split
  · split
    · rename_i r _ ; cases hr : r.op <;> simp [Controller.quiet, ArrayOp.serving]
    · split
      · simp [Controller.quiet]
      · split
        · split
          · simp [Controller.quiet]
          · simp [Controller.quiet, h]
        · simp [Controller.quiet, h]
  · simp [Controller.quiet, h]

theorem beginExclusive_not_quiet (s : State) (h : s.ctl.quiet = false) : s.beginExclusive = s := by
  unfold State.beginExclusive; split
  · simp [h]
  · rfl

theorem issue_queue_ne_nil (s : State) (r : Request) : (s.issue r).ctl.queue ≠ [] := by
  simp [State.issue, Controller.issue]

theorem finish_issue (s : State) (r : Request) : (s.issue r).finish s.freeGranules =
    { s with ctl := (s.issue r).ctl.arbitrate } := by
  unfold State.finish State.arbitrate
  rw [beginExclusive_not_quiet _ (arbitrate_not_quiet _ (issue_queue_ne_nil s r))]
  rw [spaceLowAfter_same]
  · rfl
  · exact freeGranules_of_table _ _ rfl

theorem filled_fillBuffer (w : Window) (s : State) (bytes : List Byte) (hw : s.win.buffer = w.buffer)
    (hl : bytes.length ≤ 240) : w.filled (s.fillBuffer bytes).win bytes := by
  refine ⟨rfl, rfl, ?_⟩
  intro i hi
  unfold State.fillBuffer
  dsimp only
  rw [writeFrom_getElem? _ _ _ _ hi, hw]
  simp

theorem find?_least {p : DirEntry → Bool} (d : List DirEntry) (h : Ascending d) (e : DirEntry) (he : e ∈ d) (hp : p e = true)
    (hl : ∀ o ∈ d, p o = true → e.key ≤ o.key) : d.find? p = some e := by
  induction d with
  | nil => cases he
  | cons x t ih =>
    have h' := List.pairwise_cons.1 h
    rw [List.find?_cons]
    cases hx : p x
    · simp only
      rcases List.mem_cons.1 he with rfl | he
      · rw [hp] at hx; cases hx
      · exact ih h'.2 he (fun o ho => hl o (List.mem_cons_of_mem _ ho))
    · simp only
      rcases List.mem_cons.1 he with rfl | he
      · rfl
      · have := hl x (by simp) hx
        have := h'.1 e he
        omega

theorem readable_iff (e : DirEntry) : e.readable = true ↔ e.state ≠ .tombstone := by
  cases h : e.state <;> simp [DirEntry.readable, h]

theorem guardAt_get (g : Vector Guard 4) (i : Nat) (h : i < 4) : guardAt g i = g[i] := by simp [guardAt, h]

theorem rangeMeetsNoAccess_iff (g : Vector Guard 4) (lo hi : KeyWord) : rangeMeetsNoAccess g lo hi = true ↔ ∃ i : Fin 4,
    (guardAt g i).mode = .noAccess ∧ (guardAt g i).lo ≤ hi ∧ lo ≤ (guardAt g i).hi := by
  unfold rangeMeetsNoAccess
  simp only [List.any_eq_true, Bool.and_eq_true, beq_iff_eq, decide_eq_true_eq]
  constructor
  · rintro ⟨x, hx, ⟨h1, h2⟩, h3⟩
    obtain ⟨i, hi, rfl⟩ := List.getElem_of_mem hx
    simp at hi
    refine ⟨⟨i, hi⟩, ?_⟩
    simp only [guardAt_get g i hi]
    simp at h1 h2 h3
    exact ⟨h1, h2, h3⟩
  · rintro ⟨i, h1, h2, h3⟩
    rw [guardAt_get g i i.2] at h1 h2 h3
    refine ⟨g[(i:Nat)], ?_, ⟨h1, h2⟩, h3⟩
    simp

theorem bestOf_least {α : Type} (k : α → Nat) (l : List α) : ∀ x, bestOf (fun a b => decide (k a < k b)) l = some x
    → x ∈ l ∧ ∀ y ∈ l, k x ≤ k y := by
  induction l with
  | nil => intro x h; cases h
  | cons a t ih =>
    intro x h
    simp only [bestOf] at h
    split at h
    · rename_i hn
      simp only [Option.some.injEq] at h; subst h
      cases t with
      | nil => simp
      | cons b t' => simp only [bestOf] at hn; split at hn <;> [skip; split at hn] <;> cases hn
    · rename_i b hb
      have := ih b hb
      split at h
      · rename_i hlt
        simp only [Option.some.injEq] at h; subst h
        simp at hlt
        refine ⟨by simp [this.1], ?_⟩
        intro y hy
        rcases List.mem_cons.1 hy with rfl | hy
        · omega
        · exact this.2 y hy
      · rename_i hlt
        simp only [Option.some.injEq] at h; subst h
        simp at hlt
        refine ⟨by simp, ?_⟩
        intro y hy
        rcases List.mem_cons.1 hy with rfl | hy
        · omega
        · have := this.2 y hy; omega

theorem bestOf_some {α : Type} (b : α → α → Bool) (l : List α) (h : l ≠ []) : ∃ x, bestOf b l = some x := by
  cases l with
  | nil => exact absurd rfl h
  | cons a t => simp only [bestOf]; split <;> [exact ⟨_, rfl⟩; split <;> exact ⟨_, rfl⟩]

theorem admits_check {s : State} (h : s.admits) : (s.begin.take .commit).commitCheck = none := by
  have : (s.begin.take .commit).commitCheck = s.commitCheck := rfl
  rw [this]
  unfold State.commitCheck
  have e6 : keysWithoutEntry s.dir (s.staging.entries.map StagedEntry.key) = s.staging.entries.countP (fun e =>
      (dirFind s.dir e.key).isNone) := by
    unfold keysWithoutEntry
    rw [List.filter_map, List.length_map, List.countP_eq_length_filter]; rfl
  rw [if_neg (by simp [State.jobBusy, h.idle, h.noFormat]), if_neg (by simpa using h.filled), if_neg h.writable, if_neg,
      if_neg]
  · rw [e6]; have := h.room; unfold freeEntries dirCapacity entriesUsed; omega
  · simp only [State.stagedGuarded, List.any_eq_true, writeGuarded_iff]
    rintro ⟨e, he, hn⟩; exact hn (h.unguarded e he)

theorem exec_commit {s : State} (h : s.admits) : exec .commit s = .next ((s.begin.take .commit).runEvent
    (s.begin.take .commit).commitAdmit) := by
  have ex := exec_accepts s .commit (by simp) h.taken
  refine ex.trans ?_
  simp only [commandBody, State.commitBody, State.answerOr, admits_check h]

theorem look_busy (s : State) (h : s.recl.job ≠ .idle) : s.reclaimLook = (s, []) := by
  unfold State.reclaimLook; rw [if_neg (fun x => h x.1)]

theorem cleared_eq (e : CommitEngine) : e.cleared = { CommitEngine.atReset with nextSetId := e.nextSetId } := rfl

theorem formatCheck_passes {s : State} (h1 : s.engine.state = .idle) (h2 : s.aud.running = false) (h3 : s.wprotLow = false)
   (h4 : ∀ i, i < 4 → (guardAt s.guards i).mode = .off) (h5 : s.mnt.highestJournalId < 4294967295) : s.formatCheck
       = none := by
    unfold State.formatCheck
    have e : ¬ anyGuardOn s.guards = true := by
      have hl : s.guards.toList = [guardAt s.guards 0, guardAt s.guards 1, guardAt s.guards 2, guardAt s.guards 3] := by
        apply List.ext_getElem (by simp)
        intro i h1 h2
        simp at h1
        interval_cases i <;> simp [guardAt]
      have hany : anyGuardOn s.guards = s.guards.toList.any (fun g => g.mode ≠ .off) := by
        unfold anyGuardOn
        congr 1; funext g; cases g.mode <;> rfl
      rw [hany, hl]
      simp [h4 0, h4 1, h4 2, h4 3]
    rw [if_neg (by simp [h1, h2]), if_neg (by simp [h3]), if_neg e, if_neg (by unfold fieldLimit; omega)]

end Sys2Proof.Machine
end

