-- ==== Sys2Proof/Laws/KeptCommands.lean ====
section
/-! SUPPORT. What a CMD write and a register write keep: the invariants, the array and the frozen guards,
    command by command. -/

set_option Elab.async false

namespace Sys2Proof.Machine

theorem answerOr_kept (s : State) (c : Option ResultCode) (g : State) (h : Kept s g) : Kept s (s.answerOr c g) := by
  unfold State.answerOr; split
  · exact complete_kept _ _
  · exact h

/-- What a CMD write keeps: all that `Kept` says, and of the guard table its frozen entries. -/
structure Kept2 (s0 s : State) : Prop where
  cells : s.cells = s0.cells
  frozen : ∀ n, (guardAt s0.guards n).frozen = true → guardAt s.guards n = guardAt s0.guards n
  pending : s.pending = s0.pending
  dir : s0.dirOk → s.dirOk
  faults : s0.faultsOk → s.faultsOk
  susp : s0.suspensionsOk → s.suspensionsOk
  buffer : s0.bufferOk → s.bufferOk
  refresh : s0.refreshOk → s.refreshOk
  staging : s0.stagingOk → s.stagingOk

theorem Kept.two {s t : State} (h : Kept s t) : Kept2 s t :=
  ⟨h.cells, fun n _ => by rw [h.guards], h.pending, h.dir, h.faults, h.susp, h.buffer, h.refresh, h.staging⟩

theorem Kept2.trans {a b c : State} (h : Kept2 a b) (k : Kept2 b c) : Kept2 a c :=
  ⟨k.cells.trans h.cells, fun n hn => by rw [k.frozen n (by rw [h.frozen n hn]; exact hn), h.frozen n hn],
      k.pending.trans h.pending,
    k.dir ∘ h.dir, k.faults ∘ h.faults, k.susp ∘ h.susp, k.buffer ∘ h.buffer, k.refresh ∘ h.refresh, k.staging ∘ h.staging⟩

theorem discardBody_kept (s : State) : Kept s s.discardBody := by
  unfold State.discardBody
  exact answerOr_kept _ _ _ ((emptied_kept s).trans (complete_kept _ _))

theorem hasKey_false {g : Staging} {k : Nat} (h : ¬ g.hasKey k = true) : k ∉ g.entries.map StagedEntry.key := by
  intro hm
  obtain ⟨e, he, hasKey_iff⟩ := List.mem_map.1 hm
  exact h (List.any_eq_true.2 ⟨e, he, by simpa using hasKey_iff⟩)

/-- One more entry whose payload begins where the lengths before it end keeps the pool without gaps. -/
theorem poolOffsets_snoc (l : List StagedEntry) (x : StagedEntry)
    (h : ∀ i e, l[i]? = some e → e.poolOffset = if e.op = .put then some ((l.take i).map StagedEntry.length).sum else none)
    (hx : x.poolOffset = if x.op = .put then some (l.map StagedEntry.length).sum else none) :
    ∀ i e, (l ++ [x])[i]? = some e →
      e.poolOffset = if e.op = .put then some (((l ++ [x]).take i).map StagedEntry.length).sum else none := by
  intro i e hi
  rcases Nat.lt_or_ge i l.length with hlt | hge
  · rw [List.getElem?_append_left hlt] at hi
    rw [List.take_append_of_le_length (by omega)]
    exact h i e hi
  · rw [List.getElem?_append_right hge] at hi
    have h0 : i - l.length = 0 := by
      rcases Nat.eq_zero_or_pos (i - l.length) with h | h
      · exact h
      · rw [List.getElem?_eq_none (by simp only [List.length_singleton]; omega)] at hi; cases hi
    rw [h0] at hi
    simp only [List.getElem?_cons_zero, Option.some.injEq] at hi
    subst hi
    rw [List.take_append_of_le_length (by omega), List.take_of_length_le (by omega)]
    exact hx

theorem stagePutBody_kept (s : State) (hp : s.win.latch.payload.length
    = latchedLength s.win.latch.len) : Kept s s.stagePutBody := by
  unfold State.stagePutBody State.answerOr
  dsimp only
  split
  · exact complete_kept _ _
  · rename_i hc
    refine ⟨rfl, rfl, rfl, rfl, rfl, id, id, id, id, id, ?_⟩
    unfold State.stagePutCheck at hc
    dsimp only at hc
    split at hc; · cases hc
    split at hc; · cases hc
    split at hc; · cases hc
    split at hc; · cases hc
    split at hc; · cases hc
    split at hc; · cases hc
    rename_i h1 h2 h3 h4 h5 h6
    rintro ⟨a, b, c, d, o⟩
    have hst : ((({ s with staging := s.staging.addPut s.win.latch.key.toNat s.win.latch.payload } : State).forecast s.win.latch.key.toNat).complete .ok).staging = s.staging.addPut s.win.latch.key.toNat s.win.latch.payload := rfl
    unfold State.stagingOk
    rw [hst]
    simp only [Staging.addPut]
    have hasKey_iff := hasKey_false h4
    simp only [setLimit, poolSize, latchedLength] at *
    refine ⟨by simp; omega, ?_, ?_, ?_, poolOffsets_snoc _ _ o ?_⟩
    · simp only [List.map_append, List.map_cons, List.map_nil]
      refine List.nodup_append.2 ⟨b, by simp, ?_⟩
      intro x hx y hy hxy
      simp at hy; subst hy; subst hxy; exact hasKey_iff hx
    · simp [c]
    · omega
    · simp [c]

theorem stageDeleteBody_kept (s : State) : Kept s s.stageDeleteBody := by
  unfold State.stageDeleteBody State.answerOr
  dsimp only
  split
  · exact complete_kept _ _
  · rename_i hc
    refine ⟨rfl, rfl, rfl, rfl, rfl, id, id, id, id, id, ?_⟩
    unfold State.stageDeleteCheck at hc
    dsimp only at hc
    split at hc; · cases hc
    split at hc; · cases hc
    split at hc; · cases hc
    split at hc; · cases hc
    split at hc; · cases hc
    rename_i h1 h2 h3 h4 h5
    rintro ⟨a, b, c, d, o⟩
    have hst : ((({ s with staging := s.staging.addDelete s.win.latch.key.toNat } : State).forecast s.win.latch.key.toNat).complete .ok).staging = s.staging.addDelete s.win.latch.key.toNat := rfl
    unfold State.stagingOk
    rw [hst]
    simp only [Staging.addDelete]
    have hasKey_iff := hasKey_false h4
    simp only [setLimit] at *
    refine ⟨by simp; omega, ?_, ?_, ?_, poolOffsets_snoc _ _ o ?_⟩
    · simp only [List.map_append, List.map_cons, List.map_nil]
      refine List.nodup_append.2 ⟨b, by simp, ?_⟩
      intro x hx y hy hxy
      simp at hy; subst hy; subst hxy; exact hasKey_iff hx
    · simp [c]
    · omega
    · simp

theorem commitBody_kept (s : State) : Kept s s.commitBody := by
  unfold State.commitBody
  refine answerOr_kept _ _ _ ((?_ : Kept s s.commitAdmit.1).trans (runEvent_kept _ _))
  unfold State.commitAdmit; dsimp only; split <;> exact .same

theorem getBody_kept (s : State) : Kept s s.getBody := by
  unfold State.getBody; dsimp only
  by_cases h1 : s.win.latch.key = 0xFFFF
  · rw [if_pos h1]; exact complete_kept _ _
  rw [if_neg h1]
  cases h2 : readGuarded s.guards s.win.latch.key
  · simp only [Bool.false_eq_true, if_false]
    cases dirFind s.dir s.win.latch.key.toNat with
    | none => exact complete_kept _ _
    | some e =>
      cases h4 : e.state
      · simp only [h4]; exact (issue_kept _ _).trans (finish_kept _ _)
      · simp only [h4]; exact complete_kept _ _
      · simp only [h4]; exact complete_kept _ _
  · simp only [if_true]; exact complete_kept _ _

theorem bytesOf_length (n v : Nat) : (bytesOf n v).length = n := by simp [bytesOf]

theorem statImage_length (e : DirEntry) : (statImage e).length = 14 := by simp [statImage, bytesOf_length]

theorem infoImage_length (s : State) : s.infoImage.length = 32 := by simp [State.infoImage, bytesOf_length]

theorem guardImage_length (g : Guard) : (guardImage g).length = 6 := by simp [guardImage, bytesOf_length]

theorem statBody_kept (s : State) : Kept s s.statBody := by
  unfold State.statBody; dsimp only
  by_cases h1 : s.win.latch.key = 0xFFFF
  · rw [if_pos h1]; exact complete_kept _ _
  rw [if_neg h1]
  cases h2 : readGuarded s.guards s.win.latch.key
  · simp only [Bool.false_eq_true, if_false]
    cases dirFind s.dir s.win.latch.key.toNat with
    | none => exact complete_kept _ _
    | some e => exact (fillBuffer_kept _ _ (by rw [statImage_length]; decide)).trans (complete_kept _ _)
  · simp only [if_true]; exact complete_kept _ _

theorem nextKeyBody_kept (s : State) : Kept s s.nextKeyBody := by
  unfold State.nextKeyBody; dsimp only
  by_cases h1 : s.win.latch.key = 0xFFFF
  · rw [if_pos h1]; exact complete_kept _ _
  rw [if_neg h1]
  cases nextKeyFrom s.dir s.guards s.win.latch.key.toNat with
  | none => exact complete_kept _ _
  | some e => exact .same

theorem infoBody_kept (s : State) : Kept s s.infoBody := (fillBuffer_kept _ _ (by simp [infoImage_length])).trans
    (complete_kept _ _)

theorem auditBody_kept (s : State) : Kept s s.auditBody := by
  unfold State.auditBody
  exact answerOr_kept _ _ _ ((Kept.trans .same (auditVisit_kept _)).trans (finish_kept _ _))

theorem auditAbortBody_kept (s : State) : Kept s s.auditAbortBody := by
  unfold State.auditAbortBody; split
  · exact (endAudit_kept _ _ _).trans (complete_kept _ _)
  · exact complete_kept _ _

theorem guardReadBody_kept (s : State) : Kept s s.guardReadBody := by
  unfold State.guardReadBody; dsimp only
  exact answerOr_kept _ _ _ ((fillBuffer_kept _ _ (by simp [guardImage_length])).trans (complete_kept _ _))

theorem faultPopBody_kept (s : State) : Kept s s.faultPopBody := by
  unfold State.faultPopBody; split
  · exact complete_kept _ _
  · rename_i f t h
    refine ⟨rfl, rfl, rfl, rfl, rfl, id, ?_, id, id, id, id⟩
    rintro ⟨a, b, c, d⟩
    rw [h] at a
    exact ⟨by simp at a ⊢; omega, b, c, d⟩

theorem reclaimBody_kept (s : State) : Kept s s.reclaimBody := by
  unfold State.reclaimBody; split
  · exact complete_kept _ _
  · have h := runEvent_kept s ({ s with recl := { s.recl with request := true } }.complete .ok, [])
    exact Kept.trans (b := { s with recl := { s.recl with request := true } }.complete .ok) .same h
  all_goals exact complete_kept _ _

theorem formatBody_kept (s : State) : Kept s s.formatBody := by
  unfold State.formatBody
  exact answerOr_kept _ _ _ (((takeFormat_kept s).trans (complete_kept _ _)).trans (finish_kept _ _))

theorem guardAt_set (gs : Vector Guard 4) (i n : Nat) (g : Guard) :
    guardAt (gs.setIfInBounds i g) n = if i = n ∧ n < 4 then g else guardAt gs n := by
  unfold guardAt
  by_cases h : i = n
  · subst h
    by_cases h4 : i < 4
    · simp [h4]
    · have : ¬ i < 4 := h4
      simp [h4]
  · simp [h]

theorem guardSetBody_kept (s : State) : Kept2 s s.guardSetBody := by
  unfold State.guardSetBody State.answerOr
  split
  · exact (complete_kept _ _).two
  · rename_i hc
    refine ⟨rfl, ?_, rfl, id, id, id, id, id, id⟩
    intro n hn
    simp only [State.complete_guards, State.setGuard_guards, guardAt_set]
    split
    · rename_i h
      unfold State.guardSetCheck at hc
      dsimp only at hc
      rw [← h.1] at hn
      simp [hn] at hc
      split at hc; · cases hc
      split at hc; · cases hc
      cases hc
    · rfl

theorem guardFreezeBody_kept (s : State) : Kept2 s s.guardFreezeBody := by
  unfold State.guardFreezeBody State.answerOr
  dsimp only
  split
  · exact (complete_kept _ _).two
  · refine ⟨rfl, ?_, rfl, id, id, id, id, id, id⟩
    intro n hn
    simp only [State.complete_guards, State.setGuard_guards, guardAt_set]
    split
    · rename_i h
      rw [h.1]
      generalize guardAt s.guards n = g at *
      cases g; simp_all
    · rfl

theorem hostCommand_kept2 (s : State) (c : Command) (b : State → State) (hb : ∀ t : State, Kept2 (t.take c) (b (t.take c))) :
    Kept2 s (s.hostCommand c b) := by
  unfold State.hostCommand; dsimp only
  split
  · split
    · exact ((begin_kept s).trans (setEvent_kept _ _)).two
    · split
      · exact (((begin_kept s).trans (take_kept _ _)).trans (complete_kept _ _)).two
      · exact (((begin_kept s).trans (take_kept _ _)).two).trans (hb _)
  · exact (begin_kept s).two

theorem unknown_kept (s : State) (c : Byte) : Kept s (s.unknownCommand c) := by
  unfold State.unknownCommand; dsimp only
  split
  · split
    · exact ((begin_kept s).trans (setEvent_kept _ _))
    · exact .same
  · exact (begin_kept s)

theorem latchPut (s : State) : (s.take .stagePut).win.latch.payload.length = latchedLength
    (s.take .stagePut).win.latch.len := by
  simp [State.take, Window.latchFor, readFrom]

theorem resetCommand_kept2 (s : State) : Kept2 s s.resetCommand := by
  unfold State.resetCommand; dsimp only
  split
  · exact ⟨rfl, fun _ _ => rfl, rfl, id, id, id, id, id, id⟩
  · exact (begin_kept s).two

theorem command_kept2 (s : State) (c : Command) (hc : c ≠ .reset) : Kept2 s (s.hostCommand c (commandBody c)) := by
  refine hostCommand_kept2 _ _ _ ?_
  intro t
  cases c
  · exact (stagePutBody_kept _ (latchPut t)).two
  · exact (stageDeleteBody_kept _).two
  · exact (discardBody_kept _).two
  · exact (commitBody_kept _).two
  · exact (getBody_kept _).two
  · exact (statBody_kept _).two
  · exact (nextKeyBody_kept _).two
  · exact (infoBody_kept _).two
  · exact (auditBody_kept _).two
  · exact (auditAbortBody_kept _).two
  · exact guardSetBody_kept _
  · exact guardFreezeBody_kept _
  · exact (guardReadBody_kept _).two
  · exact (faultPopBody_kept _).two
  · exact (reclaimBody_kept _).two
  · exact (formatBody_kept _).two
  · exact absurd rfl hc

theorem cmdWrite_kept2 (s : State) (c : Byte) : Kept2 s (s.cmdWrite c) := by
  unfold State.cmdWrite
  split
  · exact (unknown_kept _ _).two
  · exact resetCommand_kept2 _
  · rename_i c' hc' _ 
    exact command_kept2 _ _ (by rintro rfl; simp_all)

theorem busWrite_kept (s : State) (f : State → State) (hf : ∀ t : State, Kept t (f t)) : Kept s (s.busWrite f) := by
  unfold State.busWrite; dsimp only; split
  · exact (begin_kept s).trans (hf _)
  · exact begin_kept s

theorem dataWritten_kept (s : State) (b : Byte) : Kept s (s.dataWritten b) := by
  unfold State.dataWritten; split
  · refine ⟨rfl, rfl, rfl, rfl, rfl, id, id, id, ?_, id, id⟩
    rintro ⟨h1, h2⟩
    constructor <;> dsimp only <;> omega
  · exact .same

theorem dptrWritten_kept (s : State) (b : Byte) : Kept s (s.dptrWritten b) := by
  refine ⟨rfl, rfl, rfl, rfl, rfl, id, id, id, ?_, id, id⟩
  rintro ⟨h1, h2⟩
  exact ⟨by simp [State.dptrWritten], h2⟩

theorem statusWritten_kept (s : State) (b : Byte) : Kept s (s.statusWritten b) := by
  unfold State.statusWritten; split
  · exact .same
  · exact .rfl' _

theorem plainWritten_kept (s : State) (o : Nat) (b : Byte) : Kept s (s.plainWritten o b) := by
  unfold State.plainWritten
  split
  all_goals first | exact .same | exact dptrWritten_kept _ _

theorem dataRead_kept (s : State) : Kept s s.dataRead := by
  unfold State.dataRead; dsimp only
  split
  · exact .same
  all_goals
    split
    · refine ⟨rfl, rfl, rfl, rfl, rfl, id, id, id, ?_, id, id⟩
      rename_i hlt
      have hb : s.win.dptr < s.win.fill := hlt
      exact fun ⟨_, h2⟩ => ⟨Nat.le_trans hb h2, h2⟩
    · exact .same

theorem writeRegister_kept2 (s : State) (o : BitVec 5) (b : Byte) : Kept2 s (s.writeRegister o b) := by
  unfold State.writeRegister
  split; · exact cmdWrite_kept2 _ _
  split; · exact (busWrite_kept _ _ (fun t => statusWritten_kept t _)).two
  split; · exact (busWrite_kept _ _ (fun t => .same)).two
  split; · exact (busWrite_kept _ _ (fun t => dataWritten_kept t _)).two
  exact (busWrite_kept _ _ (fun t => plainWritten_kept t _ _)).two

end Sys2Proof.Machine
end

