-- ==== Sys2Proof/Laws/KeptArray.lean ====
section
/-! SUPPORT. What the array's events and the resets keep. -/

set_option Elab.async false

namespace Sys2Proof.Machine

/-- What an event of the array keeps: the array may change, but not its canonical form. -/
structure Kept3 (s0 s : State) : Prop where
  array : s0.arrayOk → s.arrayOk
  guards : s.guards = s0.guards
  pending : s.pending = s0.pending
  dir : s0.dirOk → s.dirOk
  faults : s0.faultsOk → s.faultsOk
  susp : s0.suspensionsOk → s.suspensionsOk
  buffer : s0.bufferOk → s.bufferOk
  refresh : s0.refreshOk → s.refreshOk
  staging : s0.stagingOk → s.stagingOk

theorem Kept.three {s t : State} (h : Kept s t) : Kept3 s t :=
  ⟨fun x => by simpa [State.arrayOk, h.cells] using x, h.guards, h.pending, h.dir, h.faults, h.susp, h.buffer, h.refresh,
      h.staging⟩

theorem Kept3.trans {a b c : State} (h : Kept3 a b) (k : Kept3 b c) : Kept3 a c :=
  ⟨k.array ∘ h.array, k.guards.trans h.guards, k.pending.trans h.pending,
    k.dir ∘ h.dir, k.faults ∘ h.faults, k.susp ∘ h.susp, k.buffer ∘ h.buffer, k.refresh ∘ h.refresh, k.staging ∘ h.staging⟩

theorem Kept3.refl (s : State) : Kept3 s s := (Kept.rfl' s).three

theorem setGranule_kept (s : State) (r g : Nat) (c : Granule) : Kept3 s (s.setGranule r g c) := by
  unfold State.setGranule; split
  · exact ⟨fun h => Cells.wf_setCell _ _ _ h, rfl, rfl, id, id, id, id, id, id⟩
  · exact .refl s

theorem applyDrift_kept (s : State) (r : Nat) (d : List (BitVec 8 × Granule)) : Kept3 s (s.applyDrift r d) := by
  induction d generalizing s with
  | nil => exact .refl s
  | cons e t ih =>
    obtain ⟨g, c⟩ := e
    cases c with
    | blank => exact ih s
    | written _ _ => exact (setGranule_kept _ _ _ _).trans (ih _)

theorem writeGranules_kept (s : State) (r f : Nat) (d : List Data) : Kept3 s (s.writeGranules r f d) := by
  induction d generalizing s f with
  | nil => exact .refl s
  | cons e t ih => exact (setGranule_kept _ _ _ _).trans (ih _ _)

theorem applyRemnants_kept (n : Nat) (s : State) (r d g : Nat) : Kept3 s (s.applyRemnants r d g n) := by
  induction n generalizing s g with
  | zero => exact .refl s
  | succ n ih =>
    simp only [State.applyRemnants]
    refine Kept3.trans ?_ (ih _ _)
    split
    · exact setGranule_kept _ _ _ _
    · exact .refl s
    · exact setGranule_kept _ _ _ _

theorem eraseCut_kept (s : State) (r : Nat) : Kept3 s (s.eraseCut r) := (applyRemnants_kept _ _ _ _ _).trans
    (draw_kept _).three

theorem cutErase_kept (s : State) : Kept3 s s.cutErase := by
  unfold State.cutErase; split
  · exact .refl s
  · exact eraseCut_kept _ _

theorem applyErasedRest_kept (n : Nat) (s : State) (r d g : Nat) : Kept3 s (s.applyErasedRest r d g n) := by
  induction n generalizing s g with
  | zero => exact .refl s
  | succ n ih =>
    simp only [State.applyErasedRest]
    exact (setGranule_kept _ _ _ _).trans (ih _ _)

theorem eraseRow_kept (s : State) (r : Nat) (f : Option (BitVec 8)) : Kept3 s (s.eraseRow r f) := by
  have h : Kept3 s { s with cells := blankRow s.cells r } := ⟨fun h => Cells.wf_blankRow _ _ h, rfl, rfl, id, id, id, id,
      id, id⟩
  unfold State.eraseRow; dsimp only; split
  · exact h
  · exact ((h.trans (setGranule_kept _ _ _ _)).trans (applyErasedRest_kept _ _ _ _ _)).trans (draw_kept _).three

theorem cutProgramAt_kept (s : State) (r f k : Nat) (g : List Data) (b : Bool) : Kept3 s (s.cutProgramAt r f k g b) := by
  unfold State.cutProgramAt; dsimp only; split
  · exact writeGranules_kept _ _ _ _
  · exact (writeGranules_kept _ _ _ _).trans (setGranule_kept _ _ _ _)

theorem cutProgram_kept (s : State) (b : Bool) : Kept3 s (s.cutProgram b) := by
  unfold State.cutProgram; split
  · exact (cutProgramAt_kept _ _ _ _ _ _).trans (draw_kept _).three
  · exact .refl s

theorem programGranules_kept (s : State) (r f : Nat) (g : List Data) (i : Option Nat) : Kept3 s
    (s.programGranules r f g i) := by
  unfold State.programGranules; split
  · exact writeGranules_kept _ _ _ _
  · exact ((writeGranules_kept _ _ _ _).trans (setGranule_kept _ _ _ _)).trans (draw_kept _).three

theorem findRecord_len (reads : List GranuleRead) (h : RecordHeader) (p : List Byte) (hf : findRecord reads
    = .intact h p) : p.length ≤ 240 := by
  unfold findRecord at hf
  split at hf
  · cases hf
  · split at hf
    · rename_i g rest _ hd b heq
      unfold findPayload at hf
      dsimp only at hf
      split at hf; · cases hf
      split at hf; · cases hf
      split at hf; · cases hf
      split at hf
      · simp only [RecordFinding.intact.injEq] at hf
        obtain ⟨rfl, rfl⟩ := hf
        have : hd.length ≤ 240 := by
          unfold findHeader at heq
          split at heq
          · simp at heq
          · simp at heq
          all_goals
            split at heq
            · rename_i h' hdec
              simp only [Prod.mk.injEq, Option.some.injEq] at heq
              obtain ⟨rfl, -⟩ := heq
              unfold decodeRecordHeader at hdec
              split at hdec
              · cases hdec
              · split at hdec
                · rename_i hall
                  simp only [Option.some.injEq] at hdec
                  rw [hdec] at hall
                  have := hall.2.2
                  unfold headerAllowed at this
                  split at this <;> simp only [decide_eq_true_eq] at this <;> omega
                · cases hdec
            · simp at heq
        refine Nat.le_trans ?_ this
        simp [payloadBytes]
      · cases hf
    · cases hf

theorem getDelivered_kept (s : State) (h : RecordHeader) (p : List Byte) (hp : p.length ≤ 240) : Kept s
    (s.getDelivered h p) := by
  unfold State.getDelivered; dsimp only
  exact (fillBuffer_kept s p hp).trans .same

theorem getReadDone_kept (s : State) (r g : Nat) (reads : List GranuleRead) : Kept s (s.getReadDone r g reads) := by
  unfold State.getReadDone; dsimp only
  split
  · rename_i h p hf
    refine Kept.trans (b := s.refreshIf (anyCorrected reads) (BitVec.toNat s.win.latch.key) r g)
        (refreshIf_kept _ _ _ _ _) ?_
    exact getDelivered_kept _ _ _ (findRecord_len _ _ _ hf)
  all_goals exact (((captureCheck_kept _ _ _ _ _).trans (refreshIf_kept _ _ _ _ _)).trans
      (markDamaged_kept _ _ _ _)).trans (complete_kept _ _)

theorem deliverRead_kept (s : State) (q : Requester) (r g : Nat) (reads : List GranuleRead) : Kept s
    (s.deliverRead q r g reads).1 := by
  unfold State.deliverRead; split
  · exact getReadDone_kept _ _ _ _
  · exact auditReadDone_kept _ _
  · exact reclaimReadDone_kept _ _
  · exact mountReadDone_kept _ _
  · exact formatReadDone_kept _ _
  · exact .rfl' s

theorem readDone_kept (s : State) (r : Request) (c : Nat) (d : List (BitVec 8 × Granule)) : Kept3 s (s.readDone r c d) := by
  unfold State.readDone; dsimp only
  refine Kept3.trans (b := s.applyDrift r.row d) (applyDrift_kept _ _ _) ?_
  generalize s.applyDrift r.row d = s1
  have h2 : ∀ reads, Kept s1 ((s1.captureReadOf r reads).arrayFree) := by
    intro reads
    refine Kept.trans ?_ (arrayFree_kept _)
    unfold State.captureReadOf; split
    · exact .rfl' _
    · exact captureRead_kept _ _ _ _ _
  refine Kept.three (Kept.trans (h2 (s1.readExtent r.row r.first c)) (Kept.trans ?_ (runEvent_kept _ _)))
  split
  · exact deliverRead_kept _ _ _ _ _
  · exact .rfl' _

theorem deliverProgram_kept (s : State) (r : Request) (f : Option Nat) : Kept s (s.deliverProgram r f).1 := by
  unfold State.deliverProgram; split
  · split
    · exact writerProgramDone_kept _ _
    · exact writerProgramDone_kept _ _
    · exact formatProgramDone_kept _ _
    all_goals exact .rfl' _
  · unfold State.abandonedProgram; dsimp only; split
    · exact rowLeaves_kept _ _ _
    · exact .rfl' _

theorem programDone_kept (s : State) (r : Request) (g : List Data) (f : Option Nat) : Kept3 s (s.programDone r g f) := by
  unfold State.programDone; dsimp only
  refine Kept3.trans (b := s.programGranules r.row r.first g f) (programGranules_kept _ _ _ _ _) (Kept.three ?_)
  refine Kept.trans (b := (((s.programGranules r.row r.first g f).captureProgram r f).arrayFree)) ?_
      ((deliverProgram_kept _ _ _).trans (runEvent_kept _ _))
  refine Kept.trans ?_ (arrayFree_kept _)
  unfold State.captureProgram; split
  · exact .rfl' _
  · exact capture_kept _ _

theorem eraseDone_kept (s : State) (r : EraseRequest) (f : Option (BitVec 8)) : Kept3 s (s.eraseDone r f) := by
  unfold State.eraseDone; dsimp only
  refine Kept3.trans (b := s.eraseRow r.row f) (eraseRow_kept _ _ _) (Kept.three ?_)
  refine Kept.trans ?_ (runEvent_kept _ _)
  refine Kept.trans (b := (((s.eraseRow r.row f).captureErase r f).eraseEnded.countErase r.row)) ?_ ?_
  · refine Kept.trans ?_ (countErase_kept _ _)
    refine Kept.trans ?_ (eraseEnded_kept _)
    unfold State.captureErase; split
    · exact .rfl' _
    · exact capture_kept _ _
  · unfold State.deliverErase; split
    · split
      · exact reclaimEraseDone_kept _ _ _
      · exact formatEraseDone_kept _ _
      all_goals exact .rfl' _
    · exact .rfl' _

theorem suspended_kept (s : State) (e : EraseContext) (he : s.ctl.erase = some e) : Kept3 s (s.suspended e) := by
  unfold State.suspended; dsimp only
  have h := eraseCut_kept s e.request.row
  have hc : (s.eraseCut e.request.row).ctl = s.ctl := by
    have : ∀ (n : Nat) (s : State) (r d g : Nat), (s.applyRemnants r d g n).ctl = s.ctl := by
      intro n
      induction n with
      | zero => intros; rfl
      | succ n ih =>
        intro s r d g
        simp only [State.applyRemnants, ih]
        split <;> simp
    simp [State.eraseCut, this]
  refine h.trans ?_
  generalize s.eraseCut e.request.row = u at *
  refine ⟨id, rfl, rfl, id, id, ?_, id, id, id⟩
  intro hs x hx
  simp only [Option.some.injEq] at hx
  subst hx
  exact hs e (by rw [hc]; exact he)

theorem resetBlocks_three (s : State) (k : Bool) (c : ResetCause) (p : ResetPhase) :
    (s.arrayOk → (s.resetBlocks k c p).arrayOk) ∧ (s.resetBlocks k c p).pending = s.pending ∧ (s.resetBlocks k c p).dirOk
        ∧ (s.faultsOk → (s.resetBlocks k c p).faultsOk) ∧
      (s.resetBlocks k c p).suspensionsOk ∧ (s.resetBlocks k c p).bufferOk ∧ (s.resetBlocks k c p).refreshOk ∧
          (s.resetBlocks k c p).stagingOk := by
  refine ⟨id, rfl, List.Pairwise.nil, ?_, ?_, ?_, ?_, ?_⟩
  · intro h
    cases k
    · simp [State.faultsOk, State.resetBlocks, Controller.afterReset, Controller.atReset]
    · exact h
  · intro e he
    cases k <;> simp [State.resetBlocks, Controller.afterReset, Controller.atReset] at he
  · simp [State.bufferOk, State.resetBlocks, Window.atReset]
  · simp [State.refreshOk, State.resetBlocks, State.poweringUp, Reclaimer.atReset]
  · simp [State.stagingOk, State.resetBlocks, State.poweringUp, Staging.atReset]

/-- What every command that ends in a next state keeps. -/
structure Kept4 (s0 s : State) : Prop where
  array : s0.arrayOk → s.arrayOk
  pending : s.pending = s0.pending
  dir : s0.dirOk → s.dirOk
  faults : s0.faultsOk → s.faultsOk
  susp : s0.suspensionsOk → s.suspensionsOk
  buffer : s0.bufferOk → s.bufferOk
  refresh : s0.refreshOk → s.refreshOk
  staging : s0.stagingOk → s.stagingOk

theorem Kept2.four {s t : State} (h : Kept2 s t) : Kept4 s t :=
  ⟨fun x => by simpa [State.arrayOk, h.cells] using x, h.pending, h.dir, h.faults, h.susp, h.buffer, h.refresh, h.staging⟩

theorem Kept3.four {s t : State} (h : Kept3 s t) : Kept4 s t :=
  ⟨h.array, h.pending, h.dir, h.faults, h.susp, h.buffer, h.refresh, h.staging⟩

theorem Kept4.trans {a b c : State} (h : Kept4 a b) (k : Kept4 b c) : Kept4 a c :=
  ⟨k.array ∘ h.array, k.pending.trans h.pending,
    k.dir ∘ h.dir, k.faults ∘ h.faults, k.susp ∘ h.susp, k.buffer ∘ h.buffer, k.refresh ∘ h.refresh, k.staging ∘ h.staging⟩

theorem resetBlocks_four (s : State) (k : Bool) (c : ResetCause) (p : ResetPhase) : Kept4 s (s.resetBlocks k c p) := by
  obtain ⟨a, b, c', d, e, f, g, h⟩ := resetBlocks_three s k c p
  exact ⟨a, b, fun _ => c', d, fun _ => e, fun _ => f, fun _ => g, fun _ => h⟩

theorem holdReset_four (s : State) (b : Bool) : Kept4 s (s.holdReset b) := by
  unfold State.holdReset State.stopArray
  exact (((cutProgram_kept _ _).trans (cutErase_kept _)).four).trans (resetBlocks_four _ _ _ _)

theorem startMount_kept (s : State) : Kept s s.startMount := (issue_kept _ _).trans (arbitrate_kept _)

end Sys2Proof.Machine
end

