-- ==== Sys2Proof/Laws/Forms.lean ====
section
/-! SUPPORT. What each shared operation can change: the record update it is, and the granules,
    rows and entries it leaves or writes. -/

set_option Elab.async false

namespace Sys2Proof.Machine

theorem busRead_held {s : State} {power : Bool} (h : s.resetPhase = .held power) (offset : Nat) :
    s.busRead offset = none := by unfold State.busRead; rw [h]

theorem busRead_served {s : State} (h : s.resetPhase = .running ∨ s.resetPhase = .commandTaken) (offset : Nat) :
    s.busRead offset = some (s.registerValue offset) := by
  unfold State.busRead
  rcases h with h | h <;> rw [h]

/-- A relocate that moves the entry: the original's extent goes dead by the entry's length (R39, R47). -/
theorem relocate_moves {s : State} {c : Copy} {e : DirEntry} (hf : dirFind s.dir c.key = some e)
    (hl : e.row = c.fromRow ∧ e.granule = c.fromGranule) :
    s.relocate c = { s with dir := dirPut ({ e with row := c.toRow, granule := c.toGranule
                                                    state := relocatedState c.kind }.addStale (1 + c.failed)) s.dir
                   }.addDead c.fromRow (extent e.length) := by
  unfold State.relocate; simp only [hf, if_pos hl]

/-- A relocate that finds the entry elsewhere: the copy is an orphan, its own extent dead (R47). -/
theorem relocate_orphan {s : State} {c : Copy} {e : DirEntry} (hf : dirFind s.dir c.key = some e)
    (hl : ¬ (e.row = c.fromRow ∧ e.granule = c.fromGranule)) :
    s.relocate c = { s with dir := dirPut (e.addStale (1 + c.failed)) s.dir }.addDead c.toRow (extent c.length) := by
  unfold State.relocate; simp only [hf, if_neg hl]

theorem relocate_none {s : State} {c : Copy} (hf : dirFind s.dir c.key = none) :
    s.relocate c = s.addDead c.toRow (extent c.length) := by
  unfold State.relocate; simp only [hf]

theorem originalExtent_eq (s : State) (c : Copy) : s.originalExtent c = 1 + ((match dirFind s.dir c.key with
    | none => c.length
    | some e => if e.row = c.fromRow ∧ e.granule = c.fromGranule then e.length else c.length) + 15) / 16 := by
  unfold State.originalExtent
  cases dirFind s.dir c.key with
  | none => rfl
  | some e => dsimp only; by_cases h : e.row = c.fromRow ∧ e.granule = c.fromGranule <;> simp only [h] <;> rfl

theorem granule_of_cells {s t : State} (h : t.cells = s.cells) (r g : Nat) : t.granule r g = s.granule r g := by
  unfold State.granule; rw [h]

theorem granule_blankRow (s : State) (row r g : Nat) (hg : g ≤ 255) :
    ({ s with cells := blankRow s.cells row } : State).granule r g = if r = row then .blank else s.granule r g := by
  simp only [State.granule, if_pos hg, cellAt_blankRow]
  have : cellKey r g / 256 = r := by unfold cellKey; omega
  rw [this]

theorem applyErasedRest_gran (n : Nat) (s : State) (row d k r g : Nat) (ok : s.arrayOk) (hg : g ≤ 255)
    (h : r ≠ row ∨ g < k) :
    (s.applyErasedRest row d k n).granule r g = s.granule r g := by
  induction n generalizing s k with
  | zero => rfl
  | succ n ih =>
    rw [State.applyErasedRest, ih _ _ (setGranule_arrayOk _ _ _ _ ok) (by omega)]
    by_cases hasKey_iff : k ≤ 255
    · rw [granule_setGranule _ _ _ _ _ _ ok hasKey_iff hg, if_neg (by omega)]
    · unfold State.setGranule; rw [if_neg hasKey_iff]

theorem applyRemnants_gran (n : Nat) (s : State) (row d k r g : Nat) (ok : s.arrayOk) (hg : g ≤ 255) :
    (r ≠ row ∨ g < k → (s.applyRemnants row d k n).granule r g = s.granule r g) ∧
    ((s.applyRemnants row d k n).granule r g = s.granule r g ∨ (s.applyRemnants row d k n).granule r g = .blank ∨
      ∃ raw, (s.applyRemnants row d k n).granule r g = .written .bad raw) := by
  induction n generalizing s k with
  | zero => exact ⟨fun _ => rfl, .inl rfl⟩
  | succ n ih =>
    simp only [State.applyRemnants]
    have key : ∀ c, (s.setGranule row k c).granule r g = if r = row ∧ g = k then c else s.granule r g := by
      intro c
      by_cases hasKey_iff : k ≤ 255
      · exact granule_setGranule _ _ _ _ _ _ ok hasKey_iff hg
      · unfold State.setGranule; rw [if_neg hasKey_iff, if_neg (by omega)]
    have fin : ∀ c, (c = .blank ∨ ∃ raw, c = .written .bad raw) →
       (r ≠ row ∨ g < k → ((s.setGranule row k c).applyRemnants row d (k+1) n).granule r g = s.granule r g) ∧
       (((s.setGranule row k c).applyRemnants row d (k+1) n).granule r g = s.granule r g ∨
           ((s.setGranule row k c).applyRemnants row d (k+1) n).granule r g = .blank ∨
      ∃ raw, ((s.setGranule row k c).applyRemnants row d (k+1) n).granule r g = .written .bad raw) := by
      intro c hc
      obtain ⟨i1, i2⟩ := ih (s.setGranule row k c) (k+1) (setGranule_arrayOk _ _ _ _ ok)
      refine ⟨fun h => ?_, ?_⟩
      · rw [i1 (by omega), key, if_neg (by omega)]
      · rcases i2 with i2 | i2
        · rw [i2, key]
          split
          · exact .inr hc
          · exact .inl rfl
        · exact .inr i2
    split
    · exact fin _ (.inl rfl)
    · obtain ⟨i1, i2⟩ := ih s (k+1) ok
      exact ⟨fun h => i1 (by omega), i2⟩
    · exact fin _ (.inr ⟨_, rfl⟩)

theorem applyRemnants_form (n : Nat) (s : State) (r d g : Nat) : s.applyRemnants r d g n =
    { s with cells := (s.applyRemnants r d g n).cells } := by
  induction n generalizing s g with
  | zero => rfl
  | succ n ih =>
    simp only [State.applyRemnants]
    rw [ih]
    split
    · unfold State.setGranule; split <;> rfl
    · rfl
    · unfold State.setGranule; split <;> rfl

theorem setGranule_cells {s t : State} (h : s.cells = t.cells) (r g : Nat) (c : Granule) : (s.setGranule r g c).cells =
    (t.setGranule r g c).cells := by
  unfold State.setGranule; split
  · simp [h]
  · exact h

theorem applyDrift_cells (d : List (BitVec 8 × Granule)) {s t : State} (h : s.cells = t.cells) (r : Nat) :
    (s.applyDrift r d).cells = (t.applyDrift r d).cells := by
  induction d generalizing s t with
  | nil => exact h
  | cons x d ih =>
    obtain ⟨g, c⟩ := x
    cases c with
    | blank => exact ih h
    | written _ _ => exact ih (setGranule_cells h _ _ _)

theorem readExtent_of_cells {s t : State} (h : s.cells = t.cells) (r f n : Nat) : s.readExtent r f n
    = t.readExtent r f n := by
  unfold State.readExtent; simp only [granule_of_cells h]

/-- fields of readTaken -/
theorem applyDrift_form (d : List (BitVec 8 × Granule)) (s : State) (r : Nat) : s.applyDrift r d =
    { s with cells := (s.applyDrift r d).cells } := by
  induction d generalizing s with
  | nil => rfl
  | cons x d ih =>
    obtain ⟨g, c⟩ := x
    cases c with
    | blank => exact ih s
    | written _ _ =>
      rw [State.applyDrift, ih]
      unfold State.setGranule; split <;> rfl

theorem capture_form (s : State) (f : ArrayFault) : s.capture f =
    { s with ev := (s.capture f).ev, ctl := (s.capture f).ctl } := by
  unfold State.capture; dsimp only; split <;> rfl

theorem captureRead_form (o : Origin) (row : Nat) (l : List GranuleRead) (s : State) (f : Nat) : s.captureRead o row f l
    = { s with ev := (s.captureRead o row f l).ev, ctl := (s.captureRead o row f l).ctl } := by
  induction l generalizing s f with
  | nil => rfl
  | cons x l ih =>
    rw [State.captureRead]
    split
    · exact ih _ _
    · rw [ih, capture_form]

theorem captureReadOf_form (s : State) (r : Request) (l : List GranuleRead) : s.captureReadOf r l =
    { s with ev := (s.captureReadOf r l).ev, ctl := (s.captureReadOf r l).ctl } := by
  unfold State.captureReadOf; split
  · rfl
  · exact captureRead_form _ _ _ _ _

theorem readTaken_form (s : State) (r : Request) (n : Nat) (d : List (BitVec 8 × Granule)) :
   s.readTaken r n d = { s with ev := (s.readTaken r n d).ev, ctl := (s.readTaken r n d).ctl, cells := (s.readTaken r n d).cells } := by
  unfold State.readTaken
  unfold State.arrayFree
  rw [captureReadOf_form, applyDrift_form]
  rfl

theorem refreshIf_form (s : State) (b : Bool) (k r g : Nat) : s.refreshIf b k r g =
    { s with recl := (s.refreshIf b k r g).recl } := by
  unfold State.refreshIf State.appendRefresh
  split
  · split
    · rfl
    · split <;> rfl
  · rfl

theorem exec_read (s : State) (r : Request) (n : Nat) (d : List (BitVec 8 × Granule)) (hs : s.serves r) (hop : r.op
    = .read n) (hw : r.waited = true) :
    exec (.readComplete d) s = .next (s.begin.runEvent ((s.readTaken r n d).deliverRead r.requester r.row r.first
        (s.readSeen r n d))) := by
  obtain ⟨h1, h2, h3⟩ := hs
  have hst : s.ctl.state = .reading := by rw [h2, hop]; rfl
  have : exec (.readComplete d) s = execReadComplete d s := rfl
  rw [this]
  unfold execReadComplete
  dsimp only
  rw [show s.begin.resetPhase = .running from h1, show s.begin.ctl.state = .reading from hst, show s.begin.ctl.current
      = some r from h3]
  simp only [hop]
  unfold State.readDone
  dsimp only
  rw [hw]
  simp only [if_true]
  have e : (s.begin.applyDrift r.row d).readExtent r.row r.first n = s.readSeen r n d := readExtent_of_cells
      (applyDrift_cells d (show s.begin.cells = s.cells from rfl) r.row) _ _ _
  rw [e]
  rfl

theorem markDamaged_form (s : State) (k r g : Nat) : s.markDamaged k r g = { s with dir := (s.markDamaged k r g).dir } := by
  unfold State.markDamaged; split
  · rfl
  · split <;> rfl

theorem row_addDead (s : State) (r n x : Nat) (hx : x < 64) : (s.addDead r n).row x = if r = x then
    { s.row x with dead := (s.row x).dead + n } else s.row x := by
  unfold State.addDead
  rw [row_setRow]
  by_cases h : r = x
  · subst h; rw [if_pos ⟨rfl, hx⟩, if_pos rfl]
  · rw [if_neg (fun e => h e.1), if_neg h]

theorem row_taintRow (s : State) (r x : Nat) (hx : x < 64) : (s.taintRow r).row x = if r = x then
    { s.row x with tainted := true } else s.row x := by
  unfold State.taintRow
  rw [row_setRow]
  by_cases h : r = x
  · subst h; rw [if_pos ⟨rfl, hx⟩, if_pos rfl]
  · rw [if_neg (fun e => h e.1), if_neg h]

theorem foldTaint_form (l : List Nat) (s : State) : l.foldl State.taintRow s =
    { s with table := { s.table with rows := (l.foldl State.taintRow s).table.rows } } := by
  induction l generalizing s with
  | nil => rfl
  | cons a l ih => rw [List.foldl_cons, ih]; rfl

theorem foldTaint_row (l : List Nat) (s : State) (x : Nat) (hx : x < 64) : (l.foldl State.taintRow s).row x =
    { s.row x with tainted := (s.row x).tainted || l.contains x } := by
  induction l generalizing s with
  | nil => simp
  | cons a l ih =>
    rw [List.foldl_cons, ih, row_taintRow _ _ _ hx]
    by_cases h : a = x
    · subst h; simp
    · rw [if_neg h]; simp [Ne.symm h]

theorem foldDead_form {α} (f : α → Nat) (g : α → Nat) (l : List α) (s : State) : l.foldl (fun acc p => acc.addDead (f p)
    (g p)) s = { s with table := { s.table with rows := (l.foldl (fun acc p => acc.addDead (f p) (g p)) s).table.rows } } := by
  induction l generalizing s with
  | nil => rfl
  | cons a l ih => rw [List.foldl_cons, ih]; rfl

theorem foldDead_row {α} (f : α → Nat) (g : α → Nat) (l : List α) (s : State) (x : Nat) (hx : x < 64) : (l.foldl
    (fun acc p => acc.addDead (f p) (g p)) s).row x =
    { s.row x with dead := (s.row x).dead + (l.map (fun p => if f p = x then g p else 0)).sum } := by
  induction l generalizing s with
  | nil => simp
  | cons a l ih =>
    rw [List.foldl_cons, ih, row_addDead _ _ _ _ hx]
    by_cases h : f a = x
    · subst h; simp [Nat.add_assoc]
    · rw [if_neg h]; simp [h]

theorem addDead_dir (s : State) (d : List DirEntry) (r n : Nat) : ({ s with dir := d } : State).addDead r n =
    { s.addDead r n with dir := d } := rfl

theorem dirPut_dirPut (a b : DirEntry) (hab : a.key = b.key) (d : List DirEntry) : dirPut a (dirPut b d) = dirPut a d := by
  induction d with
  | nil => simp [dirPut, hab]
  | cons x t ih =>
    simp only [dirPut]
    by_cases h1 : b.key < x.key
    · rw [if_pos h1, if_pos (by omega)]
      simp [dirPut, hab]
    · rw [if_neg h1, if_neg (show ¬ a.key < x.key by omega)]
      by_cases h2 : x.key = b.key
      · rw [if_pos h2, if_pos (show x.key = a.key by omega)]
        simp [dirPut, hab]
      · rw [if_neg h2, if_neg (show ¬ x.key = a.key by omega)]
        simp only [dirPut]
        rw [if_neg (show ¬ a.key < x.key by omega), if_neg (show ¬ x.key = a.key by omega), ih]

theorem rows_ext {s t : State} (h : s = { t with table := { t.table with rows := s.table.rows } }) (hr : ∀ x, x < 64
    → s.row x = t.row x) : s = t := by
  have : s.table.rows = t.table.rows := by
    apply Vector.ext
    intro i hi
    have := hr i hi
    simpa [State.row, hi] using this
  rw [h, this]

theorem addDead_comm (s : State) (a b m n : Nat) : (s.addDead a m).addDead b n = (s.addDead b n).addDead a m := by
  apply rows_ext
  · rfl
  · intro x hx
    rw [row_addDead _ _ _ _ hx, row_addDead _ _ _ _ hx, row_addDead _ _ _ _ hx, row_addDead _ _ _ _ hx]
    by_cases h1 : a = x <;> by_cases h2 : b = x <;> simp [h1, h2] <;> omega

theorem dirFind_put_same (e : DirEntry) (d : List DirEntry) (h : Ascending d) (k : Nat) (hasKey_iff : k
    = e.key) : dirFind (dirPut e d) k = some e := by
  rw [dirFind_dirPut _ _ h, if_pos hasKey_iff]

theorem row_setRow_lt (s : State) (r x : Nat) (rec : RowRec) (hx : x < 64) : (s.setRow r rec).row x = if r
    = x then rec else s.row x := by
  rw [row_setRow]
  by_cases h : r = x
  · rw [if_pos ⟨h, hx⟩, if_pos h]
  · rw [if_neg (fun e => h e.1), if_neg h]

theorem rowsIn_setRow (s : State) (r : Nat) (rec : RowRec) (h : rec.state = (s.row r).state) (st : RowState) :
    (s.setRow r rec).rowsIn st = s.rowsIn st := by
  unfold State.rowsIn
  refine List.filter_congr ?_
  intro x hx
  have hx := List.mem_range.1 hx
  rw [row_setRow_lt _ _ _ _ hx]
  by_cases e : r = x
  · subst e; rw [if_pos rfl, h]
  · rw [if_neg e]

theorem openRow_lt {s : State} {r : Nat} (h : s.openRow = some r) : r < 64 ∧ (s.row r).state = some .opened := by
  have : r ∈ s.rowsIn .opened := by
    unfold State.openRow at h
    cases hl : s.rowsIn .opened with
    | nil => rw [hl] at h; cases h
    | cons a t => rw [hl] at h; simp at h; subst h; simp
  have := List.mem_filter.1 this
  exact ⟨List.mem_range.1 this.1, by simpa using this.2⟩

theorem drain_cons (n : Nat) (x : Signal) (rest : List Signal) (s s' : State) (more : List Signal) (h : s.handle x = (s',
    more)) :
    drain (n + 1) (x :: rest) s = drain n (more ++ rest) s' := by
  simp only [drain, h]

/-- The looks neither read nor write the event unit. -/
theorem reclaimerLooks_ev (D E : State) (v : EventUnit) (h : D.reclaimerLooks E) :
    ({ D with ev := v } : State).reclaimerLooks { E with ev := v } where
  frame := by
    have := h.frame
    exact congrArg (fun u : State => { u with ev := v }) this
  busy := fun m => congrArg (fun u : State => { u with ev := v }) (h.busy m)
  rest := fun a b c d => congrArg (fun u : State => { u with ev := v }) (h.rest a b c d)
  blocked := h.blocked
  request := h.request
  queue := h.queue
  rows := h.rows
  begins := h.begins

theorem reclaimerActs_ev (D E : State) (v : EventUnit) (h : D.reclaimerActs E) :
    ({ D with ev := v } : State).reclaimerActs { E with ev := v } := by
  obtain ⟨a, h1, h2, rfl⟩ := h
  exact ⟨{ a with ev := v }, reclaimerLooks_ev D a v h1, h2, rfl⟩

theorem bestOf_mem_ne {α : Type} (b : α → α → Bool) (l : List α) (h : l ≠ []) : ∃ x, bestOf b l = some x ∧ x ∈ l := by
  cases l with
  | nil => exact absurd rfl h
  | cons y t =>
    have : ∃ x, bestOf b (y :: t) = some x := by
      simp only [bestOf]
      split
      · exact ⟨_, rfl⟩
      · split <;> exact ⟨_, rfl⟩
    obtain ⟨x, hx⟩ := this
    exact ⟨x, hx, bestOf_mem _ _ _ hx⟩

/-- best under a total preorder given by `le` -/
theorem bestOf_best {α : Type} (better : α → α → Bool) (le : α → α → Prop) (refl : ∀ a, le a a)
    (trans : ∀ a b c, le a b → le b c → le a c) (h1 : ∀ a b, better a b = true → le a b) (h2 : ∀ a b, better a b = false
        → le b a)
    (l : List α) (x : α) (h : bestOf better l = some x) : ∀ y ∈ l, le x y := by
  induction l generalizing x with
  | nil => cases h
  | cons a t ih =>
    simp only [bestOf] at h
    cases hb : bestOf better t with
    | none =>
      rw [hb] at h
      simp only [Option.some.injEq] at h
      subst h
      have : t = [] := by
        by_contra hne
        obtain ⟨z, hz, _⟩ := bestOf_mem_ne better t hne
        rw [hb] at hz; cases hz
      subst this
      intro y hy; simp at hy; subst hy; exact refl _
    | some b =>
      rw [hb] at h
      dsimp only at h
      have ihb := ih b hb
      by_cases hba : better b a = true
      · rw [if_pos hba] at h
        simp only [Option.some.injEq] at h; subst h
        intro y hy
        rcases List.mem_cons.1 hy with rfl | hy
        · exact h1 _ _ hba
        · exact ihb y hy
      · rw [if_neg hba] at h
        simp only [Option.some.injEq] at h; subst h
        have hab := h2 b a (by simpa using hba)
        intro y hy
        rcases List.mem_cons.1 hy with rfl | hy
        · exact refl _
        · exact trans _ _ _ hab (ihb y hy)

theorem capture_keeps (s : State) (f : ArrayFault) : (s.capture f).table = s.table ∧ (s.capture f).recl = s.recl ∧
    (s.capture f).engine = s.engine ∧ (s.capture f).fmt = s.fmt ∧ (s.capture f).ctl.erase = s.ctl.erase := by
  refine ⟨by rw [capture_form], by rw [capture_form], by rw [capture_form], by rw [capture_form], ?_⟩
  unfold State.capture
  have : (s.ctl.countKind f.kind).erase = s.ctl.erase := by cases f.kind <;> rfl
  dsimp only
  split
  · exact this
  · exact this

theorem eraseRow_form (s : State) (r : Nat) (f : Option (BitVec 8)) : s.eraseRow r f =
    { s with cells := (s.eraseRow r f).cells, freeIdx := (s.eraseRow r f).freeIdx } := by
  unfold State.eraseRow
  cases f with
  | none => rfl
  | some g =>
    dsimp only
    have : ∀ (n : Nat) (s : State) (r d g : Nat), s.applyErasedRest r d g n =
        { s with cells := (s.applyErasedRest r d g n).cells } := by
      intro n
      induction n with
      | zero => intros; rfl
      | succ n ih =>
        intro s r d g
        rw [State.applyErasedRest, ih]
        unfold State.setGranule; split <;> rfl
    rw [this]
    unfold State.setGranule; split <;> rfl

theorem capture_cells_comm (s : State) (c : Cells) (n : Nat) (f : ArrayFault) :
    ({ s with cells := c, freeIdx := n } : State).capture f = { s.capture f with cells := c, freeIdx := n } := by
  unfold State.capture
  dsimp only
  split <;> rfl

theorem rowsIn_of_states {s t : State} (h : ∀ x, x < 64 → (s.row x).state = (t.row x).state)
    (st : RowState) : s.rowsIn st = t.rowsIn st := by
  unfold State.rowsIn
  refine List.filter_congr ?_
  intro x hx
  rw [h x (List.mem_range.1 hx)]

/-- free granules do not fall when a DIRTY row becomes ERASED or BAD -/
theorem freeGranules_dirty_leaves (s : State) (x : Nat) (rec : RowRec) (hx : x < 64) (h : (s.row x).state = some .dirty)
    (hr : rec.state = some .erased ∨ rec.state = some .bad) :
    s.freeGranules ≤ (s.setRow x rec).freeGranules := by
  have ho : (s.setRow x rec).rowsIn .opened = s.rowsIn .opened := by
    unfold State.rowsIn
    refine List.filter_congr ?_
    intro y hy
    rw [row_setRow_lt _ _ _ _ (List.mem_range.1 hy)]
    by_cases e : x = y
    · subst e; rw [if_pos rfl, h]; rcases hr with hr | hr <;> rw [hr] <;> decide
    · rw [if_neg e]
  have he : s.erasedRows ≤ (s.setRow x rec).erasedRows := by
    unfold State.erasedRows State.rowsIn
    rw [← List.countP_eq_length_filter, ← List.countP_eq_length_filter]
    apply List.countP_mono_left
    intro y hy hp
    rw [row_setRow_lt _ _ _ _ (List.mem_range.1 hy)]
    by_cases e : x = y
    · subst e; rw [h] at hp; simp at hp
    · rw [if_neg e]; exact hp
  have hor : (s.setRow x rec).openRow = s.openRow := by unfold State.openRow; rw [ho]
  have hroom : (s.setRow x rec).openRoom = s.openRoom := by
    unfold State.openRoom
    rw [hor]
    cases hh : s.openRow with
    | none => rfl
    | some r =>
      obtain ⟨h1, h2⟩ := openRow_lt hh
      dsimp only
      rw [row_setRow_lt _ _ _ _ h1, if_neg]
      rintro rfl
      rw [h] at h2; simp at h2
  unfold State.freeGranules
  rw [hroom]
  omega

theorem issue_mnt (u : State) (m : MountEngine) (q : Request) : ({ u with mnt := m } : State).issue q =
    { u with mnt := m, ctl := (u.issue q).ctl } := rfl

theorem issue_win (u : State) (w : Window) (p : ResetPhase) (q : Request) :
    ({ u with win := w, resetPhase := p } : State).issue q =
    { u with win := w, resetPhase := p, ctl := (u.issue q).ctl } := rfl

theorem writeGranules_form (l : List Data) (s : State) (r f : Nat) : s.writeGranules r f l =
    { s with cells := (s.writeGranules r f l).cells } := by
  induction l generalizing s f with
  | nil => rfl
  | cons x l ih =>
    rw [State.writeGranules, ih]
    unfold State.setGranule; split <;> rfl

theorem cutProgram_form (s : State) (b : Bool) : s.cutProgram b =
    { s with cells := (s.cutProgram b).cells, freeIdx := (s.cutProgram b).freeIdx } := by
  unfold State.cutProgram
  split
  · unfold State.cutProgramAt
    dsimp only
    split
    · rw [writeGranules_form]; rfl
    · rw [writeGranules_form]
      unfold State.setGranule; split <;> rfl
  · rfl

theorem cutErase_form (s : State) : s.cutErase = { s with cells := s.cutErase.cells, freeIdx := s.cutErase.freeIdx } := by
  unfold State.cutErase State.eraseCut
  split
  · rfl
  · rw [applyRemnants_form]; rfl

theorem cutErase_gran (s : State) (ok : s.arrayOk) (r g : Nat) (hg : g ≤ 255) :
    ((∀ e, s.ctl.erase = some e → e.request.row ≠ r) → s.cutErase.granule r g = s.granule r g) ∧
    (s.cutErase.granule r g = s.granule r g ∨ s.cutErase.granule r g = .blank ∨ ∃ raw, s.cutErase.granule r g
        = .written .bad raw) := by
  unfold State.cutErase
  cases he : s.ctl.erase with
  | none => exact ⟨fun _ => rfl, .inl rfl⟩
  | some e =>
    have hd : ∀ u : State, u.draw.granule r g = u.granule r g := fun _ => rfl
    dsimp only
    unfold State.eraseCut
    rw [hd]
    obtain ⟨a1, a2⟩ := applyRemnants_gran 256 s e.request.row s.freeIdx 0 r g ok hg
    exact ⟨fun h => a1 (.inl (fun hr => h e rfl hr.symm)), a2⟩

theorem cutProgram_gran (s : State) (b : Bool) (ok : s.arrayOk) :
    (s.cutProgram b).arrayOk ∧
    (∀ row g, g ≤ 255 → (∀ r gs, s.ctl.current = some r → r.op = .program gs → ¬ (row = r.row ∧ r.first ≤ g
        ∧ g < r.first + gs.length)) →
      (s.cutProgram b).granule row g = s.granule row g) ∧
    ∀ r gs, s.ctl.current = some r → r.op = .program gs → gs ≠ [] →
      ∃ k, k < gs.length ∧ ∀ i d, gs[i]? = some d → r.first + i ≤ 255 →
        (i < k → (s.cutProgram b).granule r.row (r.first + i) = .written .agrees d) ∧
        (k < i → (s.cutProgram b).granule r.row (r.first + i) = s.granule r.row (r.first + i)) ∧
        (i = k → b = true → (s.cutProgram b).granule r.row (r.first + i) = .written .agrees d) := by
  unfold State.cutProgram
  cases hc : s.ctl.current with
  | none => exact ⟨ok, fun _ _ _ _ => rfl, fun r gs h => by cases h⟩
  | some r =>
    obtain ⟨rq, og, row0, first, op, wt⟩ := r
    cases op with
    | read n => exact ⟨ok, fun _ _ _ _ => rfl, fun r gs h h2 => by cases h; cases h2⟩
    | program gs =>
      dsimp only
      generalize hasKey_iff : Config.granulesFinished s.freeIdx % gs.length = k
      have hd : ∀ (u : State) r g, u.draw.granule r g = u.granule r g := fun _ _ _ => rfl
      have hda : ∀ (u : State), u.draw.arrayOk = u.arrayOk := fun _ => rfl
      unfold State.cutProgramAt
      dsimp only
      rw [hda]
      simp only [hd]
      have hlen : (gs.take k).length = min k gs.length := by simp
      cases hgk : gs[k]? with
      | none =>
        dsimp only
        have W := fun r g hg => granule_writeGranules s row0 first (gs.take k) ok r g hg
        refine ⟨(W 0 0 (by omega)).1, fun row g hg hn => ?_, fun r gs2 h1 h2 h3 => ?_⟩
        · refine (W row g hg).2.1 ?_
          intro hh
          exact hn _ gs rfl rfl ⟨hh.1, hh.2.1, by dsimp only; rw [hlen] at hh; omega⟩
        · cases h1; cases h2
          have : 0 < gs.length := List.length_pos_iff.2 h3
          have : k < gs.length := by rw [← hasKey_iff]; exact Nat.mod_lt _ this
          rw [List.getElem?_eq_getElem this] at hgk; cases hgk
      | some dk =>
        dsimp only
        have hkl : k < gs.length := by
          rcases Nat.lt_or_ge k gs.length with h | h
          · exact h
          · rw [List.getElem?_eq_none h] at hgk; cases hgk
        rw [Nat.min_eq_left (by omega)] at hlen
        have W := fun r g hg => granule_writeGranules s row0 first (gs.take k) ok r g hg
        have okw := (W 0 0 (by omega)).1
        generalize hcc : (if b = true then Granule.written .agrees dk else Config.uncertainGranule s.freeIdx) = cc
        have S : ∀ r g, g ≤ 255 → ((s.writeGranules row0 first (gs.take k)).setGranule row0 (first + k) cc).granule r g =
            if r = row0 ∧ g = first + k then cc else (s.writeGranules row0 first (gs.take k)).granule r g := by
          intro r g hg
          by_cases hf : first + k ≤ 255
          · exact granule_setGranule _ _ _ _ _ _ okw hf hg
          · unfold State.setGranule; rw [if_neg hf, if_neg (by omega)]
        refine ⟨setGranule_arrayOk _ _ _ _ okw, fun row g hg hn => ?_, fun r gs2 h1 h2 h3 => ?_⟩
        · have := hn _ gs rfl rfl
          dsimp only at this
          rw [S _ _ hg, if_neg (by omega), (W row g hg).2.1 (by omega)]
        · cases h1; cases h2
          refine ⟨k, hkl, fun i d hdi hg => ⟨fun hik => ?_, fun hik => ?_, fun hik hb => ?_⟩⟩
          · dsimp only at hg ⊢
            rw [S _ _ hg, if_neg (by omega)]
            refine (W row0 (first + i) hg).2.2 d ?_ rfl (by omega)
            rw [Nat.add_sub_cancel_left, List.getElem?_take_of_lt hik]; exact hdi
          · dsimp only at hg ⊢
            rw [S _ _ hg, if_neg (by omega), (W row0 (first + i) hg).2.1 (by omega)]
          · dsimp only at hg ⊢
            subst hik
            rw [S _ _ hg, if_pos ⟨rfl, rfl⟩, ← hcc, if_pos hb]
            rw [hgk] at hdi; cases hdi; rfl

theorem issue_form (u : State) (q : Request) : u.issue q = { u with ctl := (u.issue q).ctl } := rfl

theorem issue_holder (u : State) (q : Request) : (u.issue q).ctl.holder = u.ctl.holder := rfl

theorem arbitrate_holder (c : Controller) : c.arbitrate.holder = c.holder := by
  unfold Controller.arbitrate
  split
  · split
    · rfl
    · split
      · rfl
      · split
        · split <;> rfl
        · rfl
  · rfl

/-- FORMAT goes on: only its job and the array controller change, the holder stays, the job no longer waits for the array
and keeps its journal id. -/
def GoesOn (u v : State) (jid : Nat) : Prop :=
  v = { u with fmt := v.fmt, ctl := v.ctl } ∧ v.ctl.holder = u.ctl.holder ∧ ∃ j, v.fmt = some j ∧ j.phase ≠ .waitArray
      ∧ j.journalId = jid

theorem goes_issue (u : State) (j : FormatJob) (q : Request) (h : j.phase ≠ .waitArray) : GoesOn u
    ((u.setFormat j).issue q) j.journalId := by
  rw [issue_form]
  exact ⟨rfl, issue_holder _ _, j, rfl, h, rfl⟩

theorem goes_erase (u : State) (j : FormatJob) (r : Nat) (h : j.phase ≠ .waitArray) : GoesOn u
    ((u.setFormat j).issueErase r .format .format) j.journalId :=
  ⟨rfl, rfl, j, rfl, h, rfl⟩

theorem goes_candidate (u : State) (j : FormatJob) (h : j.phase ≠ .waitArray) : GoesOn u
    (u.nextCandidate j).1 j.journalId := by
  unfold State.nextCandidate
  split
  · exact goes_issue _ _ _ h
  · split
    · exact goes_erase _ _ _ h
    · unfold State.enterEraseRest State.eraseRestFrom
      have : restFrom { { j with firstRow := none } with phase := .eraseRest } 0 = List.range 64 := by
        unfold restFrom
        rw [List.filter_eq_self]
        intro x _; simp
      rw [this]
      have h64 : List.range 64 = 0 :: (List.range 64).tail := by decide
      rw [h64]
      dsimp only
      unfold State.restRow
      split
      · exact goes_issue _ _ _ (by simp)
      · exact goes_erase _ _ _ (by simp)

theorem beginExclusive_cases (u : State) (j : FormatJob) (hf : u.fmt = some j) (hj : j.phase = .waitArray) :
    (u.ctl.quiet = false → u.beginExclusive = u) ∧
    (u.ctl.quiet = true → u.beginExclusive = { u with fmt := u.beginExclusive.fmt, ctl := u.beginExclusive.ctl }
        ∧ u.beginExclusive.ctl.holder = .format ∧
      ∃ j', u.beginExclusive.fmt = some j' ∧ j'.phase ≠ .waitArray ∧ j'.journalId = j.journalId) := by
  unfold State.beginExclusive
  rw [hf]
  dsimp only
  refine ⟨fun hq => ?_, fun hq => ?_⟩
  · rw [if_neg (by rw [hq]; simp)]
  · rw [if_pos ⟨hj, hq⟩]
    unfold State.formatBegin
    obtain ⟨g1, g2, j', g3, g4, g5⟩ := goes_candidate { u with ctl := { u.ctl with holder := .format } }
        { j with phase := .firstRow } (by simp)
    generalize (State.nextCandidate { u with ctl := { u.ctl with holder := .format } } { j with phase := .firstRow }).1
        = w at *
    refine ⟨?_, ?_, j', g3, g4, g5⟩
    · unfold State.arbitrate
      rw [g1]
    · show w.ctl.arbitrate.holder = _
      rw [arbitrate_holder, g2]

theorem arbitrate_quiet (c : Controller) (h : c.state = .idle) (hq : c.queue = []) (he : c.eraseWaiting = none)
    (hr : c.erase = none) : c.arbitrate.quiet = true := by
  have hp : c.pick = none := by unfold Controller.pick; rw [hq]; rfl
  unfold Controller.arbitrate
  rw [if_pos h, hp]
  dsimp only
  rw [hr]
  dsimp only
  rw [he]
  dsimp only
  simp [Controller.quiet, h, hq, he, hr]

theorem victim_form (s : State) : s.victimAtFormat =
    { s with table := { s.table with rows := s.victimAtFormat.table.rows } } := by
  unfold State.victimAtFormat
  split
  · rfl
  · split
    · split <;> rfl
    · rfl

theorem victim_row (s : State) (x : Nat) (hx : x < 64) : s.victimAtFormat.row x =
   if s.recl.victim = some x ∧ (s.row x).state = some .victim then
          (if s.eraseRequested x = true then (s.row x).leave .dirty else { s.row x with state := some .full })
        else s.row x := by
  unfold State.victimAtFormat
  cases hv : s.recl.victim with
  | none => simp
  | some r =>
    dsimp only
    by_cases hr : r = x
    · subst hr
      by_cases hs : (s.row r).state = some .victim
      · by_cases he : s.eraseRequested r = true
        · simp only [if_pos hs, if_pos he, hs, and_true, if_true]
          unfold State.rowLeaves; rw [row_setRow_lt _ _ _ _ hx, if_pos rfl]
        · simp only [if_pos hs, if_neg he, hs, and_true, if_true]
          unfold State.setRowState; rw [row_setRow_lt _ _ _ _ hx, if_pos rfl]
      · rw [if_neg hs, if_neg (fun h => hs h.2)]
    · rw [if_neg (show ¬ (some r = some x ∧ _) by intro h; exact hr (Option.some.inj h.1))]
      have key : ∀ rec, (s.setRow r rec).row x = s.row x := by
        intro rec; rw [row_setRow_lt _ _ _ _ hx, if_neg hr]
      split
      · split
        · exact key _
        · exact key _
      · rfl

theorem openBecomesFull_rows (u : State) (R : Vector RowRec 64) :
    ({ u.openBecomesFull with table := { u.openBecomesFull.table with rows := R } } : State) =
    { u with table := { u.table with rows := R } } := by
  unfold State.openBecomesFull; split <;> rfl

/-- With nothing owed and nothing to append, looks and grants that wait only let the reclaimer begin one job. -/
theorem drain_looks_grants (n : Nat) (l : List Signal) (hl : ∀ x ∈ l, x = .look ∨ x = .grant) (s : State) (c : s.calm)
    (hw : s.writer = ⟨none, .nothing, none, none⟩) : s.reclaimerLooks (drain n l s) := by
  induction n generalizing l s with
  | zero => cases l <;> exact reclaimerLooks_refl s
  | succ n ih =>
    cases l with
    | nil => exact reclaimerLooks_refl s
    | cons x t =>
      have ht : ∀ y ∈ t, y = .look ∨ y = .grant := fun y hy => hl y (List.mem_cons_of_mem _ hy)
      rcases hl x (by simp) with rfl | rfl
      · obtain ⟨h1, h2, -⟩ := reclaimLook_looks s c
        rw [drain_cons n .look t s s.reclaimLook.1 s.reclaimLook.2 rfl]
        refine reclaimerLooks_trans h1 (ih _ ?_ _ (reclaimerLooks_calm h1 c) (by rw [h1.frame]; exact hw))
        intro y hy
        rcases List.mem_append.1 hy with hy | hy
        · rcases h2 with h2 | h2 <;> rw [h2] at hy <;> simp at hy
          exact .inl hy
        · exact ht y hy
      · have hg : s.handle .grant = (s, []) := by
          show s.grantAppend = _
          unfold State.grantAppend; rw [hw]
        rw [drain_cons n .grant t s s [] hg]
        exact ih t ht s c hw

/-- The same from a first look on, with the arbiter at the end: what `State.reclaimerActs` says. -/
theorem drain_acts_grants (n : Nat) (l : List Signal) (hl : ∀ x ∈ l, x = .look ∨ x = .grant) (s : State) (c : s.calm)
    (hw : s.writer = ⟨none, .nothing, none, none⟩) : s.reclaimerActs (drain (n + 1) (.look :: l) s).arbitrate := by
  have h := reclaimLook_looks s c
  have hd : drain (n + 1) (.look :: l) s = drain n (s.reclaimLook.2 ++ l) s.reclaimLook.1 := rfl
  rw [hd]
  generalize s.reclaimLook = p at h
  have hall : ∀ x ∈ p.2 ++ l, x = .look ∨ x = .grant := by
    intro y hy
    rcases List.mem_append.1 hy with hy | hy
    · rcases h.2.1 with e | e <;> rw [e] at hy <;> simp at hy
      exact .inl hy
    · exact hl y hy
  have cp := reclaimerLooks_calm h.1 c
  have wp : p.1.writer = ⟨none, .nothing, none, none⟩ := by rw [h.1.frame]; exact hw
  have h2 := drain_looks_grants n (p.2 ++ l) hall p.1 cp wp
  refine ⟨_, reclaimerLooks_trans h.1 h2, ?_, rfl⟩
  intro a1 a2 a3 x a4 a5 a6
  obtain ⟨b1, b2⟩ := h.2.2 a1 a2 a3 x a4 a5 a6
  rw [(drain_looks_grants n _ hall _ cp wp).busy (.inl (by rw [b1]; simp))]
  exact ⟨b1, b2⟩

theorem publishRecord_form (s : State) (p : Placed) : s.publishRecord p =
    { s with dir := (s.publishRecord p).dir, table := { s.table with rows := (s.publishRecord p).table.rows } } := by
  unfold State.publishRecord
  dsimp only
  split <;> rfl

theorem publishRecords_form (l : List Placed) (s : State) : l.foldl State.publishRecord s =
    { s with dir := (l.foldl State.publishRecord s).dir, table := { s.table with rows := (l.foldl State.publishRecord s).table.rows } } := by
  induction l generalizing s with
  | nil => rfl
  | cons p t ih =>
    rw [List.foldl_cons, ih]
    rw [publishRecord_form]

/-- How many granules publishing a record adds to the dead count of row `x`: those of the record it supersedes (R46). -/
def deadBy (dir : List DirEntry) (x : Nat) (p : Placed) : Nat := match dirFind dir p.key with
              | none => 0
              | some e => if e.row = x then 1 + (e.length + 15) / 16 else 0

theorem publishRecord_row (s : State) (p : Placed) (x : Nat) (hx : x < 64) : (s.publishRecord p).row x =
    { s.row x with dead := (s.row x).dead + deadBy s.dir x p } := by
  unfold State.publishRecord deadBy
  dsimp only
  cases h : dirFind s.dir p.key with
  | none => rfl
  | some e =>
    dsimp only
    rw [row_addDead _ _ _ _ hx]
    split
    · rfl
    · rfl

theorem publishRecord_dir (s : State) (p : Placed) : (s.publishRecord p).dir = dirPut (publishedEntry
    (dirFind s.dir p.key) p) s.dir := by
  unfold State.publishRecord
  dsimp only
  split <;> rfl

theorem publishRecord_find (s : State) (p : Placed) (h : s.dirOk) (k : Nat) : dirFind (s.publishRecord p).dir k = if k
    = p.key then some (publishedEntry (dirFind s.dir p.key) p) else dirFind s.dir k := by
  rw [publishRecord_dir, dirFind_dirPut _ _ h]
  rfl

theorem publishRecords_spec (l : List Placed) (s : State) (hd : s.dirOk) (hn : (l.map Placed.key).Nodup) :
   (l.foldl State.publishRecord s).dirOk ∧
   (∀ k, (∀ p ∈ l, p.key ≠ k) → dirFind (l.foldl State.publishRecord s).dir k = dirFind s.dir k) ∧
   (∀ p ∈ l, dirFind (l.foldl State.publishRecord s).dir p.key = some (publishedEntry (dirFind s.dir p.key) p)) ∧
   ∀ x, x < 64 → (l.foldl State.publishRecord s).row x =
       { s.row x with dead := (s.row x).dead + (l.map (deadBy s.dir x)).sum } := by
  induction l generalizing s with
  | nil => exact ⟨hd, fun _ _ => rfl, by simp, fun x _ => by simp⟩
  | cons p t ih =>
    rw [List.map_cons, List.nodup_cons] at hn
    obtain ⟨i1, i2, i3, i4⟩ := ih (s.publishRecord p) ((publishRecord_kept s p).dir hd) hn.2
    have hne : ∀ q ∈ t, q.key ≠ p.key := fun q hq he => hn.1 (by rw [← he]; exact List.mem_map_of_mem hq)
    rw [List.foldl_cons]
    refine ⟨i1, ?_, ?_, ?_⟩
    · intro k hasKey_iff
      rw [i2 k (fun q hq => hasKey_iff q (by simp [hq])), publishRecord_find _ _ hd, if_neg (fun e => hasKey_iff p
          (by simp) e.symm)]
    · intro q hq
      rcases List.mem_cons.1 hq with rfl | hq
      · rw [i2 _ hne, publishRecord_find _ _ hd, if_pos rfl]
      · rw [i3 q hq, publishRecord_find _ _ hd, if_neg (hne q hq)]
    · intro x hx
      rw [i4 x hx, publishRecord_row _ _ _ hx]
      have : (t.map (deadBy (s.publishRecord p).dir x)) = t.map (deadBy s.dir x) := by
        apply List.map_congr_left
        intro q hq
        unfold deadBy
        rw [publishRecord_find _ _ hd, if_neg (hne q hq)]
      rw [this]
      simp [Nat.add_assoc]

theorem freeGranules_of_rows (s t : State) (h : ∀ x, x < 64 → (s.row x).state = (t.row x).state ∧ (s.row x).nextFree =
    (t.row x).nextFree) : s.freeGranules = t.freeGranules := by
  have hr := rowsIn_of_states (s := s) (t := t) (fun x hx => (h x hx).1)
  unfold State.freeGranules State.openRoom State.erasedRows
  have ho : s.openRow = t.openRow := by unfold State.openRow; rw [hr]
  rw [hr, ho]
  cases hh : t.openRow with
  | none => rfl
  | some r => dsimp only; rw [(h r (openRow_lt hh).1).2]

end Sys2Proof.Machine
end

