-- ==== Sys2Proof/Laws/Resolve.lean ====
section
/-! SUPPORT. What RESOLVE's folds over the noted records give. -/

set_option Elab.async false

namespace Sys2Proof.Machine

theorem latestFold_spec (l : List Noted) (a : List Noted) (b : List Noted) (w : Noted)
   (h1 : ∀ o ∈ a, o.header.setId ≤ w.header.setId) (h2 : ∀ o ∈ b, o.header.setId < w.header.setId) :
   ∃ v a' b', l.foldl (fun best n => match best with | none => some n | some b => if b.header.setId ≤ n.header.setId then some n else some b) (some w) = some v ∧
     a ++ w :: b ++ l = a' ++ v :: b' ∧ (∀ o ∈ a', o.header.setId ≤ v.header.setId) ∧ ∀ o ∈ b',
         o.header.setId < v.header.setId := by
  induction l generalizing a b w with
  | nil => exact ⟨w, a, b, rfl, by simp, h1, h2⟩
  | cons n t ih =>
    simp only [List.foldl_cons]
    by_cases h : w.header.setId ≤ n.header.setId
    · rw [if_pos h]
      obtain ⟨v, a', b', e1, e2, e3, e4⟩ := ih (a ++ w :: b) [] n (by
        intro o ho
        simp at ho
        rcases ho with ho | rfl | ho
        · exact Nat.le_trans (h1 o ho) h
        · exact h
        · exact Nat.le_trans (Nat.le_of_lt (h2 o ho)) h) (by simp)
      exact ⟨v, a', b', e1, by rw [← e2]; simp, e3, e4⟩
    · rw [if_neg h]
      obtain ⟨v, a', b', e1, e2, e3, e4⟩ := ih a (b ++ [n]) w h1 (by
        intro o ho
        simp at ho
        rcases ho with ho | rfl
        · exact h2 o ho
        · omega)
      exact ⟨v, a', b', e1, by rw [← e2]; simp, e3, e4⟩

theorem latestOf_spec (l : List Noted) (h : l ≠ []) : ∃ v a b, latestOf l = some v ∧ l = a ++ v :: b ∧ (∀ o ∈ a,
    o.header.setId ≤ v.header.setId) ∧ ∀ o ∈ b, o.header.setId < v.header.setId := by
  cases l with
  | nil => exact absurd rfl h
  | cons n t =>
    obtain ⟨v, a, b, e1, e2, e3, e4⟩ := latestFold_spec t [] [] n (by simp) (by simp)
    exact ⟨v, a, b, e1, by simpa using e2, e3, e4⟩

theorem filter_append_cons {α} (p : α → Bool) (l a b : List α) (w : α) (h : l.filter p = a ++ w :: b) :
   ∃ l1 l2, l = l1 ++ w :: l2 ∧ l1.filter p = a ∧ l2.filter p = b ∧ p w = true := by
  induction l generalizing a with
  | nil => simp at h
  | cons x t ih =>
    rw [List.filter_cons] at h
    by_cases hx : p x = true
    · rw [if_pos hx] at h
      cases a with
      | nil =>
        simp at h
        exact ⟨[], t, by simp [h.1], rfl, h.2, by rw [← h.1]; exact hx⟩
      | cons y a =>
        simp at h
        obtain ⟨l1, l2, e1, e2, e3, e4⟩ := ih a h.2
        exact ⟨x :: l1, l2, by simp [e1], by rw [List.filter_cons, if_pos hx, e2, h.1], e3, e4⟩
    · rw [if_neg hx] at h
      obtain ⟨l1, l2, e1, e2, e3, e4⟩ := ih a h
      exact ⟨x :: l1, l2, by simp [e1], by rw [List.filter_cons, if_neg hx, e2], e3, e4⟩

theorem boundaryFold_spec (l : List Noted) (c : Nat) :
   let r := l.foldl (fun c n => if n.header.kind = .commit ∨ n.header.moved then max c n.header.setId else c) c
   c ≤ r ∧ (∀ n ∈ l, (n.header.kind = .commit ∨ n.header.moved = true) → n.header.setId ≤ r) ∧ (r ≠ c → ∃ n ∈ l,
       (n.header.kind = .commit ∨ n.header.moved = true) ∧ n.header.setId = r) := by
  induction l generalizing c with
  | nil => simp
  | cons n t ih =>
    simp only [List.foldl_cons]
    by_cases h : n.header.kind = .commit ∨ n.header.moved = true
    · rw [if_pos h]
      obtain ⟨i1, i2, i3⟩ := ih (max c n.header.setId)
      refine ⟨by omega, ?_, ?_⟩
      · intro m hm hh
        rcases List.mem_cons.1 hm with rfl | hm
        · omega
        · exact i2 m hm hh
      · intro hne
        by_cases hr : List.foldl (fun c n => if n.header.kind
            = .commit ∨ n.header.moved then max c n.header.setId else c) (max c n.header.setId) t = max c n.header.setId
        · refine ⟨n, by simp, h, ?_⟩
          rw [hr] at hne ⊢
          rcases Nat.le_total c n.header.setId with hh | hh
          · rw [Nat.max_eq_right hh]
          · rw [Nat.max_eq_left hh] at hne; exact absurd rfl hne
        · obtain ⟨m, hm, hh, he⟩ := i3 hr
          exact ⟨m, by simp [hm], hh, he⟩
    · rw [if_neg h]
      obtain ⟨i1, i2, i3⟩ := ih c
      refine ⟨i1, ?_, ?_⟩
      · intro m hm hh
        rcases List.mem_cons.1 hm with rfl | hm
        · exact absurd hh h
        · exact i2 m hm hh
      · intro hne
        obtain ⟨m, hm, hh, he⟩ := i3 hne
        exact ⟨m, by simp [hm], hh, he⟩

theorem mem_insertKey_of (k x : Nat) (l : List Nat) : x = k ∨ x ∈ l → x ∈ insertKey k l := by
  induction l with
  | nil => simp [insertKey]
  | cons y t ih =>
    intro h
    simp only [insertKey]
    split
    · simpa using h
    · split
      · rename_i _ he
        rcases h with rfl | h
        · simp [he]
        · exact h
      · rcases h with rfl | h
        · exact List.mem_cons_of_mem _ (ih (.inl rfl))
        · rcases List.mem_cons.1 h with rfl | h
          · simp
          · exact List.mem_cons_of_mem _ (ih (.inr h))

theorem mem_keysOf (l : List Noted) (n : Noted) (h : n ∈ l) : n.header.key ∈ keysOf l := by
  unfold keysOf
  suffices H : ∀ acc : List Nat, (n.header.key ∈ acc ∨ n ∈ l) → n.header.key ∈ l.foldl
      (fun l n => insertKey n.header.key l) acc from H [] (.inr h)
  clear h
  induction l with
  | nil => intro acc h; simpa using h
  | cons x t ih =>
    intro acc h
    refine ih _ ?_
    rcases h with h | h
    · exact .inl (mem_insertKey_of _ _ _ (.inr h))
    · rcases List.mem_cons.1 h with rfl | h
      · exact .inl (mem_insertKey_of _ _ _ (.inl rfl))
      · exact .inr h

end Sys2Proof.Machine
end

