-- ==== Sys2Proof/Tests/Slice0.lean ====
section
/-! SUPPORT. The model's own tests, each with the rule its expected value is taken from, and for every obligation with
hypotheses a named witness that they can be met. -/

set_option Elab.async false

namespace Sys2Proof.Tests

open Sys2Proof Sys2Proof.Machine

/-! ### Helpers: a small READY part -/

/-- The state a step ended in, if it ended in one. -/
def after : Host.Outcome State Fault Refusal → Option State
  | .next s => some s
  | .fault _ => none
  | .refused _ => none

/-- A step ended in a next state. -/
def completes (o : Host.Outcome State Fault Refusal) : Bool := (after o).isSome

/-- A look at the state a step ended in. -/
def seen {α : Type} (o : Host.Outcome State Fault Refusal) (f : State → α) : Option α := (after o).map f

/-- A LIVE entry whose record, 20 bytes of payload, stands at row 0, granule 2. -/
def live5 : DirEntry := ⟨5, .live, 3, 4, 0, 2, 20, 1, 2⟩
/-- A DAMAGED entry in row 1. -/
def damaged6 : DirEntry := ⟨6, .damaged, 65535, 4, 1, 7, 0, 0, 4⟩
/-- A TOMBSTONE in row 1. -/
def tombstone9 : DirEntry := ⟨9, .tombstone, 2, 5, 1, 9, 0, 3, 1⟩

/-- Row 0 OPEN with 10 as its next free granule, rows 1 and 2 FULL with dead granules, the others ERASED. -/
def rows : Vector RowRec 64 :=
  (((Vector.replicate 64 ⟨some .erased, 0, 1, false, 0, 0, false⟩).setIfInBounds 0
    ⟨some .opened, 9, 1, false, 10, 0, false⟩).setIfInBounds 1 ⟨some .full, 3, 1, false, 0, 5, false⟩).setIfInBounds 2
    ⟨some .full, 4, 1, false, 0, 6, false⟩

/-- A READY part at rest, with nothing staged. -/
def ready : State := { State.reset with
  win := { State.reset.win with mode := .ready, key := 5 }
  ctl := { Controller.atReset with holder := .nobody }
  mnt := { MountEngine.atReset with phase := .idle, wait := .nothing, highestJournalId := 3 }
  dir := [live5, damaged6, tombstone9]
  table := ⟨rows, 3, 9, some ⟨0, 8⟩, false⟩
  engine := { CommitEngine.atReset with nextSetId := .id 6 } }

def withMode (m : Mode) (s : State) : State := { s with win := { s.win with mode := m } }
def withKey (k : KeyWord) (s : State) : State := { s with win := { s.win with key := k } }
def withKeys (k k2 : KeyWord) (s : State) : State := { s with win := { s.win with key := k, key2 := k2 } }
def withLen (n : Byte) (s : State) : State := { s with win := { s.win with len := n } }
def withArg (a : Byte) (s : State) : State := { s with win := { s.win with arg := a } }
def withPointers (dptr fill : Nat) (s : State) : State := { s with win := { s.win with dptr := dptr, fill := fill } }
def withCtl (c : Controller) (s : State) : State := { s with ctl := c }
def withGuard (i : Nat) (g : Guard) (s : State) : State := { s with guards := s.guards.setIfInBounds i g }
def withStaged (l : List StagedEntry) (fill : Nat) (s : State) : State :=
  { s with staging := { s.staging with entries := l, poolFill := fill } }
def withRecl (f : Reclaimer → Reclaimer) (s : State) : State := { s with recl := f s.recl }

/-- A controller that serves a read or program request. -/
def serving (r : Request) : Controller :=
  { Controller.atReset with holder := .nobody, state := r.op.serving, current := some r }

/-- A controller whose erase of a row runs, for this requester. -/
def erasing (row : Nat) (who : Requester) (o : Origin) (count : Nat) (suspending : Bool) : Controller :=
  { Controller.atReset with
    holder := .nobody, state := .erasing, erase := some ⟨⟨row, who, o, true⟩, count, suspending⟩ }

/-- GET's read of the record of key 5. -/
def getRead : Request := ⟨.get, .host, 0, 2, .read 3, true⟩

/-- A payload of 20 bytes. -/
def payload20 : List Byte := (List.range 20).map (BitVec.ofNat 8)

/-- The header of the record of key 5. -/
def header5 : RecordHeader := ⟨.put, false, 5, 3, 4, 20, 0, crc16 payload20⟩

/-- The part while GET's read is in service, the record of key 5 in the array. -/
def getting : State :=
  { withCtl (serving getRead) ready with
    win := { ready.win with cu := .executing, latch := { ready.win.latch with key := 5 } }
    cells := (ready.writeGranules 0 2 (recordGranules header5 payload20)).cells }

/-- The same, its second payload granule replaced by another. -/
def gettingWrong : State := getting.setGranule 0 4 (.written .agrees 7)

/-- The same, a granule of the record reading UNCORRECTABLE. -/
def gettingBad : State := getting.setGranule 0 3 (.written .bad 7)

/-- The commit engine's program of two granules in row 0. -/
def commitProgram : Request := ⟨.commit, .commit, 0, 10, .program [1, 2], true⟩

/-- The part while that program is in service, its requester no longer waiting. -/
def programming : State := withCtl (serving { commitProgram with waited := false }) ready

/-- The part while an erase of row 3 runs for the reclaimer. -/
def erasingRow : State :=
  withRecl (fun r => { r with job := .dirtyErase, wait := .erase })
    (withCtl (erasing 3 .reclaimer .reclaim 0 false)
      (ready.setRow 3 ⟨some .dirty, 0, 1, false, 0, 0, false⟩))

/-- One PUT of 20 bytes staged for key 5. -/
def stagedOne : State := withStaged [⟨.put, 5, 20, some 0⟩] 20 ready

/-- Sixteen PUT entries of 64 bytes: the pool is full. -/
def stagedFull : State :=
  withStaged ((List.range 16).map (fun i => ⟨.put, 100 + i, 64, some (64 * i)⟩)) 1024 ready

/-- No row ERASED: row 0 OPEN, the others FULL without dead granules. -/
def crowded : State :=
  { stagedOne with table := { stagedOne.table with
      rows := (Vector.replicate 64 ⟨some .full, 3, 1, false, 0, 0, false⟩).setIfInBounds 0
        ⟨some .opened, 9, 1, false, 255, 0, false⟩ } }

/-! ### WellFormed refuses what does not occur (R162, R167, R169) -/

theorem test_badCommand_known_code_refused : (Instr.badCommand 0x13).wellFormed = false := by decide
theorem test_badCommand_unknown_code_admitted : (Instr.badCommand 0x60).wellFormed = true := by decide
theorem test_dropped_reset_refused : (Instr.cmdWriteDropped 0x5F).wellFormed = false := by decide
theorem test_hostRegister_special_offset_refused :
    ∀ o ∈ specialOffsets, (Instr.hostRegisterWrite o 0).wellFormed = false := by decide
theorem test_drift_named_twice_refused :
    (Instr.readComplete [(3, .written .bad 0), (3, .written .bad 0)]).wellFormed = false := by decide
theorem test_drift_to_blank_refused :
    (Instr.readComplete [(3, .written .bad 0), (4, .blank)]).wellFormed = false := by decide
theorem test_drift_named_once_admitted :
    (Instr.readComplete [(3, .written .bad 0), (4, .written .oneBit 0)]).wellFormed = true := by decide

/-- R1: no granule returns to blank on its own. -/
theorem test_drift_never_blank :
    (getting.applyDrift 0 [(2, .blank)]).granule 0 2 = getting.granule 0 2 := by decide +kernel
/-- R12, R128: two intact torn records of one key and set id set DUP_MOVES too. -/
theorem test_dupMoves_torn :
    let torn : RecordHeader := ⟨.put, false, 9, 1, 3, 0, 0, 0xFFFF⟩
    ({ MountEngine.atReset with records := [⟨1, 8, torn, true⟩, ⟨1, 9, torn, true⟩] } : MountEngine).finalFlags.dupMoves =
      true := by decide +kernel

/-! ### No row of the table gives bits -/

theorem test_no_word_decodes : decodeTableWord 8 0x13 = none := by decide

/-! ### The cyclic checks (R10, R146: the example values) -/

theorem test_crc16_example : crc16 [0x31, 0x32, 0x33, 0x34, 0x35, 0x36, 0x37, 0x38, 0x39] = 0x29B1 := by decide +kernel
theorem test_crc16_zero : crc16 [0x00] = 0xE1F0 := by decide +kernel
theorem test_crc16_empty : crc16 [] = 0xFFFF := by decide +kernel
theorem test_crc32_example :
    crc32Final (crc32Feed crc32Start [0x31, 0x32, 0x33, 0x34, 0x35, 0x36, 0x37, 0x38, 0x39]) = 0xCBF43926 := by
  decide +kernel

/-! ### Formats (R3, R8): kind byte first, fields most significant byte first -/

theorem test_rowHeader_bytes :
    (dataBytes (encodeRowHeader ⟨0x01020304, 0x05060708, 0x090A0B⟩) 12) =
      [0xC3, 0x01, 0x02, 0x03, 0x04, 0x05, 0x06, 0x07, 0x08, 0x09, 0x0A, 0x0B] := by decide +kernel
theorem test_rowHeader_end : (encodeRowHeader ⟨1, 1, 0⟩).extractLsb' 0 16 = 0xFFFF := by decide +kernel
theorem test_recordHeader_bytes :
    (dataBytes (encodeRecordHeader ⟨.delete, true, 0x0102, 0x0304, 0x05060708, 0, 9, 0xFFFF⟩) 14) =
      [0x02, 0x01, 0x01, 0x02, 0x03, 0x04, 0x05, 0x06, 0x07, 0x08, 0x00, 0x09, 0xFF, 0xFF] := by decide +kernel

/-! ### Small steps -/

/-- R174: the end of a power-on reset leads to State.reset. -/
theorem test_resetEnd : exec .resetEnd State.poweringUp = .next State.reset := by rfl
/-- R170: MOUNTING answers NOT_READY. -/
theorem test_info_mounting : seen (exec .info State.reset) (fun t => t.win.result) = some .notReady := by decide +kernel
/-- R167: an unknown code answers BAD_COMMAND in any mode and is read back in CMD. -/
theorem test_badCommand :
    seen (exec (.badCommand 0x60) State.reset) (fun t => (t.win.result, t.registerValue 0x00, t.ev.event)) =
      some (.badCommand, 0x60, 0x01) := by decide +kernel
/-- R169: a CMD write meeting an EXECUTING unit sets REFUSED and nothing else. -/
theorem test_dropped :
    seen (exec (.cmdWriteDropped 0x11) getting) (fun t => (t.ev.event, t.win)) = some (0x80, getting.win) := by
  decide +kernel
/-- R59: VER forecasts the version after 3. -/
theorem test_stagePut :
    seen (exec .stagePut (withLen 20 ready)) (fun t => (t.win.result, t.win.ver, t.staging.poolFill)) =
      some (.ok, 4, 20) := by decide +kernel
/-- R57: a length of 241 is BAD_ARG. -/
theorem test_stagePut_long : seen (exec .stagePut (withLen 241 ready)) (fun t => t.win.result) = some .badArg := by
  decide +kernel
/-- R42, R60: a DAMAGED key can be deleted, and version 65535 is followed by 1. -/
theorem test_stageDelete_damaged :
    seen (exec .stageDelete (withKey 6 ready)) (fun t => (t.win.result, t.win.ver)) = some (.ok, 1) := by decide +kernel
/-- R57: a TOMBSTONE cannot be deleted. -/
theorem test_stageDelete_tombstone :
    seen (exec .stageDelete (withKey 9 ready)) (fun t => t.win.result) = some .notFound := by decide +kernel
/-- R61: DISCARD empties the set. -/
theorem test_discard : seen (exec .discard stagedOne) (fun t => (t.staging.entries, t.staging.poolFill)) =
    some ([], 0) := by decide +kernel
/-- R69, R75: COMMIT locks the set and takes set id 6. -/
theorem test_commit :
    seen (exec .commit stagedOne) (fun t => (t.win.result, t.staging.lock, t.engine.state, t.engine.writingId)) =
      some (.ok, true, .writing, some 6) := by decide +kernel
/-- R69: nothing staged is EMPTY_SET. -/
theorem test_commit_empty : seen (exec .commit ready) (fun t => t.win.result) = some .emptySet := by decide +kernel
/-- R137: GET of a LIVE key leaves the unit EXECUTING and a read of its extent, 3 granules, in service. -/
theorem test_get : seen (exec .get ready) (fun t => (t.win.cu, t.ctl.current)) =
    some (.executing, some ⟨.get, .host, 0, 2, .read 3, true⟩) := by decide +kernel
/-- R136: a DAMAGED key answers DAMAGED. -/
theorem test_get_damaged : seen (exec .get (withKey 6 ready)) (fun t => t.win.result) = some .damaged := by
  decide +kernel
/-- R138: the payload arrives, LEN and VER with it. -/
theorem test_get_delivers :
    seen (exec (.readComplete []) getting) (fun t =>
      (t.win.result, t.win.fill, t.win.len, t.win.ver, t.win.buffer[19]?)) = some (.ok, 20, 20, 3, some 19) := by
  decide +kernel
/-- R32, R139: a payload that fails its check is a CHECK_FAIL, and the entry becomes DAMAGED. -/
theorem test_get_checkFail :
    seen (exec (.readComplete []) gettingWrong) (fun t =>
      (t.win.result, t.ctl.faults, (dirFind t.dir 5).map DirEntry.state)) =
      some (.uncorrectable, [⟨.checkFail, .host, 0, 2⟩], some .damaged) := by decide +kernel
/-- R31: an UNCORRECTABLE granule is a fault of its own, at its place, and no CHECK_FAIL. -/
theorem test_get_uncorrectable :
    seen (exec (.readComplete []) gettingBad) (fun t => (t.ctl.faults, t.ctl.uncorrectable)) =
      some ([⟨.uncorrectable, .host, 0, 3⟩], 1) := by decide +kernel
/-- R141, R177: the STAT image of key 5. -/
theorem test_stat : seen (exec .stat ready) (fun t => (t.win.fill, readFrom t.win.buffer 0 14)) =
    some (14, [0, 5, 1, 0, 3, 0, 0, 0, 4, 20, 0, 2, 0, 1]) := by decide +kernel
/-- R142: from 6 on, the next key is the DAMAGED 6; from 7 on there is none, 9 being a TOMBSTONE. -/
theorem test_nextKey : seen (exec .nextKey (withKey 6 ready)) (fun t => (t.win.result, t.win.key)) =
    some (.damaged, 6) := by decide +kernel
theorem test_nextKey_none : seen (exec .nextKey (withKey 7 ready)) (fun t => t.win.result) = some .notFound := by
  decide +kernel
/-- R143, R177: the first bytes of INFO, journal id 3, next set id 6, three entries. -/
theorem test_info : seen (exec .info ready) (fun t => (t.win.fill, readFrom t.win.buffer 0 10)) =
    some (32, [0, 0, 0, 3, 0, 0, 0, 6, 0, 3]) := by decide +kernel
/-- R145, R147: an audit over an empty range ends at once; SIG 0 matches the signature of nothing. -/
theorem test_audit_empty :
    seen (exec .audit (withKeys 20 30 ready)) (fun t => (t.win.result, t.win.auditResult, t.ev.event)) =
      some (.ok, .ok, 0x05) := by decide +kernel
/-- R145: a range upside down is BAD_ARG. -/
theorem test_audit_badArg : seen (exec .audit (withKeys 30 20 ready)) (fun t => t.win.result) = some .badArg := by
  decide +kernel
/-- R151: no audit runs. -/
theorem test_auditAbort_idle : seen (exec .auditAbort ready) (fun t => t.win.result) = some .notFound := by
  decide +kernel
/-- R155: entry 1 set to NO_ACCESS. -/
theorem test_guardSet :
    seen (exec .guardSet (withArg 0x21 (withKeys 4 8 ready))) (fun t => guardAt t.guards 1) =
      some ⟨4, 8, .noAccess, false⟩ := by decide +kernel
/-- R158: WPROT# low locks GUARD_SET and GUARD_FREEZE. -/
theorem test_guardSet_locked :
    seen (exec .guardSet { ready with wprotLow := true }) (fun t => t.win.result) = some .pinLocked := by decide +kernel
theorem test_guardFreeze : seen (exec .guardFreeze (withArg 3 ready)) (fun t => (guardAt t.guards 3).frozen) =
    some true := by decide +kernel
/-- R157, R177: the GUARD_READ image. -/
theorem test_guardRead :
    seen (exec .guardRead (withArg 2 (withGuard 2 ⟨0x0102, 0x0304, .noAccess, true⟩ ready))) (fun t =>
      (t.win.fill, readFrom t.win.buffer 0 6)) = some (6, [1, 2, 3, 4, 2, 1]) := by decide +kernel
/-- R37: an empty list answers NOT_FOUND. -/
theorem test_faultPop_empty : seen (exec .faultPop ready) (fun t => t.win.result) = some .notFound := by decide +kernel
/-- R101: RECLAIM takes row 2; row 1, with fewer dead granules, also holds a record located by a DAMAGED entry. -/
theorem test_reclaim : seen (exec .reclaim ready) (fun t => (t.recl.job, t.recl.victim)) =
    some (.backgroundVictim, some 2) := by decide +kernel
/-- R131, R132: FORMAT empties the directory and programs the header of the first ERASED row with the new journal id. -/
theorem test_format : seen (exec .format ready) (fun t => (t.win.mode, t.dir, t.ctl.current)) =
    some (.formatting, [], some ⟨.format, .format, 3, 0, .program [encodeRowHeader ⟨4, 1, 1⟩], true⟩) := by
  decide +kernel
/-- R175: RESET in MOUNTING. -/
theorem test_reset : seen (exec .reset State.reset) (fun t => (t.resetPhase, t.registerValue 0x00)) =
    some (.commandTaken, 0x5F) := by decide +kernel
/-- R163: the last byte of the buffer, and the overrun after it. -/
theorem test_dataWrite :
    seen (exec (.dataWrite 7) (withPointers 239 0 ready)) (fun t => (t.win.dptr, t.win.fill, t.win.buffer[239]?)) =
      some (240, 240, some 7) := by decide +kernel
theorem test_dataWrite_overrun :
    seen (exec (.dataWrite 7) (withPointers 240 240 ready)) (fun t => (t.win.dptr, t.win.overrun)) =
      some (240, true) := by decide +kernel
/-- R164: at FILL the read gives 0xFF. -/
theorem test_dataRead_end :
    seen (exec .dataRead (withPointers 3 3 ready)) (fun t => (t.win.dptr, t.win.overrun, t.win.dataOut)) =
      some (3, true, some 0xFF) := by decide +kernel
/-- R161, R174: in a reset in force no register drives the lines; R175: a RESET taken still lets them be read. -/
theorem test_busRead_held :
    (State.poweringUp.busRead 0x03, { ready with resetPhase := .commandTaken }.busRead 0x0D) = (none, some 0) := by
  decide +kernel
/-- R165: 241 is stored as 240. -/
theorem test_dptrWrite : seen (exec (.dptrWrite 241) ready) (fun t => t.win.dptr) = some 240 := by decide +kernel
/-- R162, R177: KEY_H. -/
theorem test_keyHigh : seen (exec (.hostRegisterWrite 0x07 0x12) ready) (fun t => t.win.key) = some 0x1205 := by
  decide +kernel
/-- R172: writing 1 clears, but not a flag set in the same instant. -/
theorem test_eventWrite :
    seen (exec (.eventWrite 0x03 false) { ready with ev := ⟨0x07, 0, 0x02⟩ }) (fun t => t.ev.event) = some 0x04 := by
  decide +kernel
theorem test_eventWrite_together :
    seen (exec (.eventWrite 0x03 true) { ready with ev := ⟨0x07, 0, 0x02⟩ }) (fun t => t.ev.event) = some 0x06 := by
  decide +kernel
/-- R158, R177: WPROT of STATUS. -/
theorem test_wprot : seen (exec (.wprotChange false) ready) (fun t => t.registerValue 0x01) = some 0x40 := by
  decide +kernel
/-- R116: after row 0's header the mount asks for row 1's. -/
theorem test_mount_next : seen (exec (.readComplete []) State.reset) (fun t => (t.mnt.wait, t.ctl.current)) =
    some (.header 1, some ⟨.mount, .mount, 1, 0, .read 1, true⟩) := by decide +kernel
/-- R21, R31: the granules before the failed one are written, and the failed one makes a PROGRAM_FAIL. -/
theorem test_program_failed :
    seen (exec (.programComplete (some 1)) programming) (fun t => (t.granule 0 10, t.ctl.faults)) =
      some (.written .agrees 1, [⟨.programFail, .commit, 0, 11⟩]) := by decide +kernel
/-- R91, R111: the DIRTY row is ERASED with one more erase. -/
theorem test_dirty_erased : seen (exec (.eraseComplete none) erasingRow) (fun t => t.row 3) =
    some ⟨some .erased, 0, 2, false, 0, 0, false⟩ := by decide +kernel
/-- R72: 4 records of 16 granules and the COMMIT record in a row with 20 left open one row. -/
theorem test_plan : planWalk 20 0 [16, 16, 16, 16, 1] = ⟨[0, 1, 1, 1, 1], 1⟩ := by decide
/-- R93: 246 free granules in row 0, and 255 for each of 61 ERASED rows but one. -/
theorem test_freeGranules : ready.freeGranules = 246 + 60 * 255 := by decide +kernel

/-! ### Witnesses: the hypotheses of the statements can be met -/

theorem witness_StepRunsTheFrontCommand : State.reset.pending = [] := rfl

/-- Each event occurs in a state that has its operation in service. -/
theorem witness_CompletionsOccurOnlyInService :
    completes (exec (.readComplete []) State.reset) = true ∧ completes (exec (.readComplete []) ready) = false ∧
    completes (exec (.programComplete (some 1)) programming) = true ∧
    completes (exec (.programComplete (some 2)) programming) = false ∧
    completes (exec (.eraseComplete none) erasingRow) = true ∧
    completes (exec (.eraseComplete none) (withCtl (erasing 3 .reclaimer .reclaim 1 true) ready)) = false ∧
    completes (exec .eraseSuspendPoint (withCtl (erasing 3 .reclaimer .reclaim 1 true) ready)) = true ∧
    completes (exec .eraseSuspendPoint erasingRow) = false ∧
    completes (exec .resetEnd State.poweringUp) = true ∧ completes (exec .resetEnd State.reset) = false ∧
    completes (exec .resetTakesEffect { ready with resetPhase := .commandTaken }) = true ∧
    completes (exec .resetTakesEffect ready) = false := by decide +kernel

theorem witness_ArrayFormKept :
    getting.arrayOk ∧ getting.cells ≠ [] ∧
    completes (step { getting with pending := [.readComplete [(2, .written .bad 0)]] }) = true := by decide +kernel

theorem witness_DirectoryOrderKept : ready.dirOk ∧ completes (step { ready with pending := [.format] }) = true := by
  decide +kernel

/-- A state at every limit at once. -/
def atLimits : State :=
  let f : ArrayFault := ⟨.corrected, .host, 1, 1⟩
  withPointers 240 240 (withRecl (fun r => { r with refresh := (List.range 8).map (fun k => ⟨k, 1, 1⟩) })
    (withCtl { erasing 3 .reclaimer .reclaim 32 false with
      faults := List.replicate 8 f, corrected := 65535, uncorrectable := 65535, overflow := 65535 } stagedFull))

/-- Its pool is filled without gaps. -/
theorem atLimits_stagingOk : atLimits.stagingOk := by
  refine ⟨by decide +kernel, by decide +kernel, by decide +kernel, by decide +kernel, fun i e h => ?_⟩
  have all : ∀ i : Fin atLimits.staging.entries.length, atLimits.staging.entries[i].poolOffset =
      if atLimits.staging.entries[i].op = .put then
        some ((atLimits.staging.entries.take i).map StagedEntry.length).sum else none := by decide +kernel
  obtain ⟨hi, rfl⟩ := List.getElem?_eq_some_iff.1 h
  exact all ⟨i, hi⟩

theorem witness_LimitsKept :
    atLimits.faultsOk ∧ atLimits.suspensionsOk ∧ atLimits.bufferOk ∧ atLimits.refreshOk ∧ atLimits.stagingOk ∧
    completes (step { atLimits with pending := [.dataWrite 1] }) = true := by
  refine ⟨by decide +kernel, fun e h => ?_, by decide +kernel, by decide +kernel, atLimits_stagingOk, by decide +kernel⟩
  have : e = ⟨⟨3, .reclaimer, .reclaim, true⟩, 32, false⟩ := by injection h with h; exact h.symm
  rw [this]

theorem witness_ArrayChangesOnlyByItsEvents :
    completes (exec .info ready) = true ∧ getting.arrayOk ∧ completes (exec (.readComplete []) getting) = true ∧
    programming.arrayOk ∧ completes (exec (.programComplete (some 1)) programming) = true := by decide +kernel

theorem witness_FrozenGuardsHold :
    let s := withArg 0x21 (withGuard 1 ⟨4, 8, .noAccess, true⟩ ready)
    (guardAt s.guards 1).frozen = true ∧ completes (exec .guardSet s) = true := by decide +kernel

/-- Row headers at both ends of their ranges; record headers of each kind, at the ends of theirs. -/
theorem witness_HeadersRoundTrip :
    classifyRowHeader ⟨.clean, encodeRowHeader ⟨1, 1, 0⟩⟩ = .valid ⟨1, 1, 0⟩ ∧
    classifyRowHeader ⟨.corrected, encodeRowHeader ⟨4294967295, 4294967295, 16777215⟩⟩ =
      .valid ⟨4294967295, 4294967295, 16777215⟩ ∧
    headerAllowed ⟨.put, false, 0, 1, 1, 0, 0, 0xFFFF⟩ = true ∧
    headerAllowed ⟨.put, true, 0xFFFE, 65535, 4294967295, 240, 15, 7⟩ = true ∧
    headerAllowed ⟨.delete, false, 0xFFFE, 1, 1, 0, 15, 0xFFFF⟩ = true ∧
    headerAllowed ⟨.commit, false, 0xFFFF, 0, 4294967295, 0, 16, 0xFFFF⟩ = true := by decide +kernel

/-- The record of 20 bytes, its extent ending with the row's last granule. -/
theorem witness_RecordReadsBackWhole :
    ready.arrayOk ∧ headerAllowed header5 = true ∧ header5.length = payload20.length ∧
    header5.payloadCheck = crc16 payload20 ∧ 253 + (1 + (payload20.length + 15) / 16) ≤ 256 ∧
    findRecord ((ready.writeGranules 1 253 (recordGranules header5 payload20)).readExtent 1 253 3) =
      .intact header5 payload20 := by decide +kernel

/-- A request verified whole, failed at its first and at its last granule. -/
theorem witness_ProgramWritesItsGranules :
    programming.arrayOk ∧ programming.serves { commitProgram with waited := false } ∧
    completes (exec (.programComplete none) programming) = true ∧
    completes (exec (.programComplete (some 0)) programming) = true ∧
    completes (exec (.programComplete (some 1)) programming) = true := by decide +kernel

theorem witness_EraseClearsItsRow :
    erasingRow.arrayOk ∧ erasingRow.erases ⟨⟨3, .reclaimer, .reclaim, true⟩, 0, false⟩ ∧
    completes (exec (.eraseComplete none) erasingRow) = true ∧
    completes (exec (.eraseComplete (some 0)) erasingRow) = true ∧
    completes (exec (.eraseComplete (some 255)) erasingRow) = true := by decide +kernel

theorem witness_SuspendPointFreesTheArray :
    let s := withCtl (erasing 3 .reclaimer .reclaim 32 true) ready
    s.arrayOk ∧ s.resetPhase = .running ∧ s.ctl.state = .erasing ∧
    s.ctl.erase = some ⟨⟨3, .reclaimer, .reclaim, true⟩, 32, true⟩ := by decide +kernel

/-- A granule in each of the four standings, and a position past granule 255. -/
theorem witness_ReadsReturnTheGranules :
    let s := (((ready.setGranule 7 0 (.written .agrees 1)).setGranule 7 1 (.written .oneBit 2)).setGranule 7 255
      (.written .bad 3))
    s.readExtent 7 0 3 = [⟨.clean, 1⟩, ⟨.corrected, 2⟩, ⟨.blank, BitVec.allOnes 128⟩] ∧
    s.readExtent 7 255 2 = [⟨.uncorrectable, 3⟩, ⟨.blank, BitVec.allOnes 128⟩] := by decide +kernel

/-- A free array with a queue, with a suspended erase, with a waiting erase, and with nothing; under exclusive service the
holder's first request, its erase, and another's, which waits.  At 31 suspensions one more is taken; at 32, none. -/
theorem witness_ArbiterGrantsAndSuspends :
   (let c := { Controller.atReset with holder := .nobody }
    let e : EraseRequest := ⟨3, .reclaimer, .reclaim, true⟩
    c.state = .idle ∧ c.holder = .nobody ∧ c.arbitrate = c ∧
    ({ c with queue := [commitProgram, getRead] } : Controller).arbitrate.current = some getRead ∧
    ({ c with erase := some ⟨e, 2, false⟩ } : Controller).arbitrate.erase = some ⟨e, 2, false⟩ ∧
    ({ c with eraseWaiting := some e } : Controller).arbitrate.erase = some ⟨e, 0, false⟩) ∧
   (let s := fun n => withCtl (erasing 3 .reclaimer .reclaim n false) ready
    ((s 31).issue getRead).ctl.erase = some ⟨⟨3, .reclaimer, .reclaim, true⟩, 32, true⟩ ∧
    ((s 32).issue getRead).ctl.erase = some ⟨⟨3, .reclaimer, .reclaim, true⟩, 32, false⟩) ∧
   (let m : Request := ⟨.mount, .mount, 0, 0, .read 1, true⟩
    let c := { Controller.atReset with holder := .format }
    let own : EraseRequest := ⟨3, .format, .format, true⟩
    let other : EraseRequest := ⟨3, .reclaimer, .reclaim, true⟩
    ({ Controller.atReset with holder := .mount, queue := [getRead, m, { m with row := 1 }] } : Controller).arbitrate =
      { Controller.atReset with
        holder := .mount, state := .reading, current := some m, queue := [getRead, { m with row := 1 }] } ∧
    ({ c with queue := [getRead] } : Controller).arbitrate.state = .idle ∧
    ({ c with queue := [getRead], eraseWaiting := some own } : Controller).arbitrate.state = .erasing ∧
    ({ c with eraseWaiting := some other } : Controller).arbitrate.state = .idle) :=
  ⟨by decide +kernel, by decide +kernel, by decide +kernel⟩

/-- A read, a program and an erase in service, awaited and not; an append of each class. -/
theorem witness_CompletionsReachTheirRequester :
    getting.serves getRead ∧ getRead.op = .read 3 ∧ getRead.waited = true ∧
    programming.serves { commitProgram with waited := false } ∧ (∀ i, some (1 : Fin 16) = some i → i.val < [1, 2].length) ∧
    erasingRow.erases ⟨⟨3, .reclaimer, .reclaim, true⟩, 0, false⟩ ∧
    (⟨.commit, header5, payload20, 0⟩ : Append).cls = .commit ∧
    (⟨.reclaimer, header5, payload20, 0⟩ : Append).cls = .reclaimer := by decide +kernel

/-- With 7 faults in the list, and with 8 and every counter at its limit. -/
theorem witness_FaultsCapturedAndPopped :
   (let f : ArrayFault := ⟨.uncorrectable, .audit, 5, 6⟩
    let s := withCtl { Controller.atReset with faults := List.replicate 7 f, uncorrectable := 65534 } ready
    (s.capture f).ctl.faults.length = 8 ∧ (s.capture f).ctl.uncorrectable = 65535 ∧
    (atLimits.capture f).ctl = atLimits.ctl ∧ atLimits.ctl.corrected ≤ 65535 ∧ atLimits.ctl.uncorrectable ≤ 65535 ∧
    atLimits.ctl.overflow ≤ 65535) ∧
   (let f : ArrayFault := ⟨.uncorrectable, .audit, 5, 6⟩
    let g : ArrayFault := ⟨.programFail, .commit, 63, 255⟩
    let s := fun l => withCtl { ready.ctl with faults := l } ready
    (s [f, g]).accepts .faultPop ∧ (s [f]).accepts .faultPop ∧ (s []).accepts .faultPop ∧
    seen (exec .faultPop (s [f, g])) (fun t => (t.registerValue 0x19, t.registerValue 0x1A, t.registerValue 0x1B)) =
      some (0x32, 63, 255)) :=
  ⟨by decide +kernel, by decide +kernel⟩

/-- The five modes. -/
theorem witness_ModeTable :
    State.reset.unitFree ∧ State.reset.win.mode = .mounting ∧
    (withMode .formatting ready).unitFree ∧ (withMode .unformatted ready).unitFree ∧
    seen (exec .get (withMode .formatting ready)) (fun t => t.win.result) = some .notReady ∧
    seen (exec .get (withMode .unformatted ready)) (fun t => t.win.result) = some .notFormatted ∧
    seen (exec .guardRead (withMode .formatting ready)) (fun t => t.win.result) = some .ok ∧
    seen (exec .commit (withMode .readOnly stagedOne)) (fun t => t.win.result) = some .readOnly := by decide +kernel

theorem witness_OtherCmdWritesAndReset :
   (ready.unitFree ∧ (0x00 : Byte) ∉ commandCodes ∧ (0xFF : Byte) ∉ commandCodes ∧ getting.resetPhase = .running ∧
    getting.win.cu = .executing ∧ (0x5E : Byte) ≠ 0x5F) ∧
   (getting.resetPhase = .running ∧ State.poweringUp.resetPhase ≠ .running ∧
    { ready with resetPhase := .commandTaken }.resetPhase ≠ .running) :=
  ⟨by decide +kernel, by decide +kernel⟩

theorem witness_DataWriteStores :
    ready.resetPhase = .running ∧ (withPointers 0 0 ready).win.dptr < 240 ∧ (withPointers 239 7 ready).win.dptr < 240 ∧
    (withPointers 240 7 ready).win.dptr = 240 := by decide +kernel

/-- Below FILL, at it, above it; a RESET taken; a reset in force. -/
theorem witness_DataReadReturns :
    (withPointers 239 240 ready).win.dptr < (withPointers 239 240 ready).win.fill ∧
    (withPointers 239 240 ready).win.buffer[239]? = some 0 ∧ (withPointers 239 240 ready).win.fill ≤ 240 ∧
    (withPointers 240 240 ready).win.fill ≤ (withPointers 240 240 ready).win.dptr ∧
    (withPointers 240 0 ready).win.fill ≤ (withPointers 240 0 ready).win.dptr ∧ ready.resetPhase = .running ∧
    { ready with resetPhase := .commandTaken }.resetPhase = .commandTaken ∧
    State.poweringUp.resetPhase = .held true := by decide +kernel

theorem witness_PointerStatusAndPin :
    ready.resetPhase = .running ∧ seen (exec (.dptrWrite 240) ready) (fun t => t.win.dptr) = some 240 ∧
    seen (exec (.statusWrite 0x20) { ready with win := { ready.win with overrun := true } }) (fun t => t.win.overrun) =
      some false := by decide +kernel

theorem witness_EventWrites :
    ready.resetPhase = .running ∧ { ready with ev := ⟨0x80, 0x80, 0⟩ }.irqLow = true ∧
    { ready with ev := ⟨0x80, 0x7F, 0⟩ }.irqLow = false := by decide +kernel

theorem witness_RegisterWrites :
    ready.resetPhase = .running ∧ seen (exec (.hostRegisterWrite 0x1F 9) ready) (fun t => (t.win, t.ev)) =
      some (ready.win, ready.ev) := by decide +kernel

/-- Every check of STAGE_PUT and STAGE_DELETE answers in some state. -/
theorem witness_StagingChecksInOrder :
    let locked := { stagedOne with staging := { stagedOne.staging with lock := true } }
    let guarded := withGuard 0 ⟨5, 5, .noWrite, false⟩ ready
    let result := fun o => seen o (fun t => t.win.result)
    locked.accepts .stagePut ∧ result (exec .stagePut locked) = some .stagingLocked ∧
    result (exec .stagePut (withKey 0xFFFF ready)) = some .badArg ∧ result (exec .stagePut guarded) = some .guarded ∧
    result (exec .stagePut stagedOne) = some .duplicate ∧ result (exec .stagePut stagedFull) = some .stagingFull ∧
    result (exec .stagePut (withLen 1 (withStaged [] 1024 ready))) = some .poolFull ∧
    locked.accepts .stageDelete ∧ result (exec .stageDelete locked) = some .stagingLocked ∧
    result (exec .stageDelete (withKey 0xFFFF ready)) = some .badArg ∧
    result (exec .stageDelete guarded) = some .guarded ∧ result (exec .stageDelete stagedOne) = some .duplicate ∧
    result (exec .stageDelete stagedFull) = some .stagingFull ∧
    result (exec .stageDelete (withKey 7 ready)) = some .notFound := by decide +kernel

/-- 240 bytes into a pool that they fill to its end, behind 15 entries; and a key at its highest. -/
theorem witness_StagedSetCommands :
   (let s := withLen 240 (withKey 0xFFFE (withStaged ((List.range 15).map (fun i => ⟨.put, i, 0, some 784⟩)) 784 ready))
    s.accepts .stagePut ∧ s.staging.lock = false ∧ s.win.key ≠ 0xFFFF ∧ s.win.len.toNat ≤ 240 ∧
    guardMode s.guards s.win.key = .off ∧ s.win.key.toNat ∉ s.staging.entries.map StagedEntry.key ∧
    s.staging.entries.length < 16 ∧ s.staging.poolFill + s.win.len.toNat ≤ 1024 ∧
    seen (exec .stagePut s) (fun t => t.staging.poolFill) = some 1024) ∧
   (ready.accepts .stageDelete ∧ ready.staging.lock = false ∧ ready.win.key ≠ 0xFFFF ∧
    guardMode ready.guards ready.win.key = .off ∧ ready.win.key.toNat ∉ ready.staging.entries.map StagedEntry.key ∧
    ready.staging.entries.length < 16 ∧ dirFind ready.dir ready.win.key.toNat = some live5 ∧
    (live5.state = .live ∨ live5.state = .damaged) ∧ dirFind ready.dir 6 = some damaged6 ∧
    (damaged6.state = .live ∨ damaged6.state = .damaged)) ∧
   (stagedOne.accepts .discard ∧ stagedOne.staging.lock = false ∧
    { stagedOne with staging := { stagedOne.staging with lock := true } }.staging.lock = true) :=
  ⟨by decide +kernel, by decide +kernel, by decide +kernel⟩

theorem witness_GetChecksInOrder :
    let result := fun o => seen o (fun t => t.win.result)
    ready.accepts .get ∧ result (exec .get (withKey 0xFFFF ready)) = some .badArg ∧
    result (exec .get (withGuard 3 ⟨5, 5, .noAccess, false⟩ ready)) = some .guarded ∧
    result (exec .get (withKey 7 ready)) = some .notFound ∧ result (exec .get (withKey 9 ready)) = some .notFound ∧
    result (exec .get (withKey 6 ready)) = some .damaged := by decide +kernel

/-- A LIVE key, its guard one that forbids writing only.  The record intact; its payload check failed; a granule
UNCORRECTABLE; no header at all; a granule CORRECTED, which queues a refresh. -/
theorem witness_GetReadsAndEnds :
   (let s := withGuard 3 ⟨5, 5, .noWrite, false⟩ ready
    s.accepts .get ∧ s.win.key ≠ 0xFFFF ∧ guardMode s.guards s.win.key ≠ .noAccess ∧
    dirFind s.dir s.win.key.toNat = some live5 ∧ live5.state = .live) ∧
   (getting.serves getRead ∧ getting.calm ∧ findRecord (getting.readSeen getRead 3 []) = .intact header5 payload20 ∧
    gettingWrong.serves getRead ∧ gettingWrong.calm ∧
    findRecord (gettingWrong.readSeen getRead 3 []) = .unreadable header5 true ∧ gettingBad.serves getRead ∧
    gettingBad.calm ∧ findRecord (gettingBad.readSeen getRead 3 []) = .unreadable header5 false ∧
    findRecord (getting.readSeen getRead 3 [(2, .written .bad 0)]) = .notIntact false) ∧
   (let s := getting.setGranule 0 3 (.written .oneBit ((recordGranules header5 payload20).getD 1 0))
    s.serves getRead ∧ s.calm ∧ findRecord (s.readSeen getRead 3 []) = .intact header5 payload20 ∧
    s.queueAfter (s.readSeen getRead 3 []) 5 0 2 = [⟨5, 0, 2⟩]) :=
  ⟨by decide +kernel, by decide +kernel, by decide +kernel⟩

theorem witness_StatShowsTheEntry :
    ready.accepts .stat ∧ (withKey 0xFFFF ready).accepts .stat ∧ ready.win.key ≠ 0xFFFF ∧
    guardMode ready.guards ready.win.key ≠ .noAccess ∧
    guardMode (withGuard 3 ⟨5, 5, .noAccess, false⟩ ready).guards 5 = .noAccess ∧
    dirFind ready.dir 5 = some live5 ∧ dirFind ready.dir 7 = none := by decide +kernel

/-- From 6 on the next key is 6 itself; from 7 on, none is shown. -/
theorem witness_NextKeyFindsTheNext :
    ready.accepts .nextKey ∧ ready.dirOk ∧ (withKey 6 ready).win.key ≠ 0xFFFF ∧
    (let shown := fun e : DirEntry => 6 ≤ e.key ∧ e.state ≠ .tombstone ∧
        guardMode ready.guards (BitVec.ofNat 16 e.key) ≠ .noAccess
     shown damaged6 ∧ ∀ o ∈ ready.dir, shown o → damaged6.key ≤ o.key) ∧
    (∀ e ∈ ready.dir, ¬ (7 ≤ e.key ∧ e.state ≠ .tombstone)) := by decide +kernel

theorem witness_InfoShowsTheStatus : ready.accepts .info ∧ (withMode .formatting ready).accepts .info := by decide +kernel

theorem witness_AuditRefusedAndAborted :
   (let result := fun o => seen o (fun t => t.win.result)
    ready.accepts .audit ∧ result (exec .audit (withKeys 0 0xFFFF ready)) = some .badArg ∧
    result (exec .audit { withKeys 0 9 ready with aud := { ready.aud with running := true } }) = some .busy ∧
    result (exec .audit (withKeys 0 9 (withGuard 0 ⟨9, 12, .noAccess, false⟩ ready))) = some .guarded) ∧
   (ready.accepts .auditAbort ∧ ready.aud.running = false ∧
    { ready with aud := { ready.aud with running := true, count := 2 } }.accepts .auditAbort ∧
    { ready with aud := { ready.aud with running := true, count := 2 } }.aud.running = true) :=
  ⟨by decide +kernel, by decide +kernel⟩

/-- The range 0 to 5 meets a LIVE entry first, 6 to 6 a DAMAGED one, 9 to 9 none that the audit sees; a NO_ACCESS guard
just above the range does not stop it. -/
theorem witness_AuditStarts :
    let s := withKeys 0 5 (withGuard 0 ⟨6, 12, .noAccess, false⟩ ready)
    s.accepts .audit ∧ s.fmt = none ∧ s.dirOk ∧ s.win.key ≠ 0xFFFF ∧ s.win.key2 ≠ 0xFFFF ∧ s.win.key ≤ s.win.key2 ∧
    s.aud.running = false ∧
    (∀ i, i < 4 → (guardAt s.guards i).mode = .noAccess → (guardAt s.guards i).lo ≤ s.win.key2 →
      ¬ s.win.key ≤ (guardAt s.guards i).hi) ∧
    seen (exec .audit s) (fun t => t.aud.reading) = some (some (5, ⟨0, 2⟩)) ∧
    seen (exec .audit (withKeys 6 6 ready)) (fun t => t.win.auditResult) = some .damaged ∧
    seen (exec .audit (withKeys 9 9 ready)) (fun t => t.win.auditResult) = some .ok := by decide +kernel

/-- The part while the audit's read of key 5 is in service, the range ending at `hi`. -/
def auditing (hi : Nat) : State :=
  { withCtl (serving ⟨.audit, .audit, 0, 2, .read 3, true⟩) getting with
    win := ready.win
    aud := { AuditUnit.atReset with running := true, hi := hi, lastKey := some 5, reading := some (5, ⟨0, 2⟩) } }

/-- The record intact, with no further entry in range, with a DAMAGED one, with a LIVE one; the record unreadable. -/
theorem witness_AuditReadEnds :
    let r : Request := ⟨.audit, .audit, 0, 2, .read 3, true⟩
    let live7 : DirEntry := { live5 with key := 7 }
    let s := { auditing 7 with dir := [live5, live7, tombstone9] }
    let bad := (auditing 9).setGranule 0 4 (.written .agrees 7)
    ((auditing 5).serves r ∧ (auditing 5).calm ∧ (auditing 5).dirOk ∧ (auditing 5).aud.reading = some (5, ⟨0, 2⟩) ∧
      (auditing 5).aud.lastKey = some 5 ∧ findRecord ((auditing 5).readSeen r 3 []) = .intact header5 payload20) ∧
    seen (exec (.readComplete []) (auditing 5)) (fun t => (t.win.auditResult, t.win.acount)) = some (.mismatch, 1) ∧
    seen (exec (.readComplete []) (auditing 6)) (fun t => (t.win.auditResult, t.win.acount)) = some (.damaged, 1) ∧
    s.dirOk ∧ s.serves r ∧ seen (exec (.readComplete []) s) (fun t => t.aud.lastKey) = some (some 7) ∧
    bad.serves r ∧ bad.calm ∧ findRecord (bad.readSeen r 3 []) = .unreadable header5 true := by decide +kernel

theorem witness_GuardSetWrites :
    let result := fun o => seen o (fun t => t.win.result)
    ready.accepts .guardSet ∧ result (exec .guardSet (withArg 0x04 ready)) = some .badArg ∧
    result (exec .guardSet { ready with wprotLow := true }) = some .pinLocked ∧
    result (exec .guardSet (withGuard 0 ⟨0, 0, .off, true⟩ ready)) = some .frozen ∧
    result (exec .guardSet (withArg 0x33 (withKeys 1 2 ready))) = some .badArg ∧
    result (exec .guardSet (withArg 0x23 (withKeys 1 1 ready))) = some .ok := by decide +kernel

theorem witness_GuardFreezeAndRead :
   (ready.accepts .guardFreeze ∧ 3 < (withArg 4 ready).win.arg.toNat ∧ (withArg 3 ready).win.arg.toNat ≤ 3 ∧
    ready.wprotLow = false ∧ { ready with wprotLow := true }.wprotLow = true) ∧
   (ready.accepts .guardRead ∧ 3 < (withArg 4 ready).win.arg.toNat ∧ (withArg 3 ready).win.arg.toNat ≤ 3) :=
  ⟨by decide +kernel, by
  decide +kernel⟩

/-- Every admission check of COMMIT and of FORMAT answers in some state. -/
theorem witness_JobChecksInOrder :
    let result := fun o => seen o (fun t => t.win.result)
    let fullDir := (List.range 512).map (fun k => ({ live5 with key := k + 1000 } : DirEntry))
    ready.accepts .commit ∧
    result (exec .commit { stagedOne with engine := { stagedOne.engine with state := .writing } }) = some .busy ∧
    result (exec .commit ready) = some .emptySet ∧
    result (exec .commit (withMode .readOnly stagedOne)) = some .readOnly ∧
    result (exec .commit (withGuard 0 ⟨5, 5, .noWrite, false⟩ stagedOne)) = some .guarded ∧
    result (exec .commit { stagedOne with dir := fullDir }) = some .dirFull ∧
    ready.accepts .format ∧
    result (exec .format { ready with aud := { ready.aud with running := true } }) = some .busy ∧
    result (exec .format { ready with wprotLow := true }) = some .pinLocked ∧
    result (exec .format (withGuard 0 ⟨5, 5, .noWrite, false⟩ ready)) = some .guarded ∧
    result (exec .format { ready with mnt := { ready.mnt with highestJournalId := 4294967295 } }) = some .arrayFault := by
  decide +kernel

/-- The admission checks of COMMIT as one decidable proposition. -/
theorem admits_of (s : State) (h : s.accepts .commit ∧ s.engine.state = .idle ∧ s.fmt = none ∧ s.staging.entries ≠ [] ∧
    s.win.mode ≠ .readOnly ∧ (∀ e ∈ s.staging.entries, guardMode s.guards (BitVec.ofNat 16 e.key) = .off) ∧
    s.staging.entries.countP (fun e => (dirFind s.dir e.key).isNone) ≤ 512 - s.dir.length) : s.admits :=
  ⟨h.1, h.2.1, h.2.2.1, h.2.2.2.1, h.2.2.2.2.1, h.2.2.2.2.2.1, h.2.2.2.2.2.2⟩

/-- A set staged while a purge runs. -/
def purging : State :=
  withRecl (fun r => { r with job := .purge }) { stagedOne with table := { stagedOne.table with purgePending := true } }

/-- A set staged when the set ids are used up. -/
def noIds : State := { stagedOne with engine := { stagedOne.engine with nextSetId := .exhausted } }

/-- The staged record ends with the open row's last granule, and the set id is the last. -/
def lastRoom : State :=
  { stagedOne.setRow 0 { stagedOne.row 0 with nextFree := 253 } with
    engine := { stagedOne.engine with nextSetId := .id 4294967295 } }

/-- Two DIRTY rows make up for the two rows the plan lacks, to the granule; one of them is being erased. -/
def short : State :=
  withRecl (fun r => { r with job := .dirtyErase })
    ((crowded.setRow 5 ⟨some .dirty, 0, 1, false, 0, 0, false⟩).setRow 6 ⟨some .dirty, 0, 1, false, 0, 0, false⟩)

/-- A purge pending; no row ERASED and nothing to reclaim; the set ids used up; the shortfall just made up for. -/
theorem witness_CommitWaitsOrFindsNoSpace :
    (purging.admits ∧ purging.table.purgePending = true ∧ purging.recl.job ≠ .idle) ∧
    (crowded.admits ∧ crowded.table.purgePending = false ∧ crowded.erasedRows < crowded.setPlan.opens + 1 ∧
      crowded.reclaimable < 255 * (crowded.setPlan.opens + 1 - crowded.erasedRows)) ∧
    (noIds.admits ∧ noIds.table.purgePending = false ∧ noIds.setPlan.opens + 1 ≤ noIds.erasedRows ∧
      noIds.engine.nextSetId = .exhausted) ∧
    (short.admits ∧ short.table.purgePending = false ∧ short.recl.job ≠ .idle ∧
      short.erasedRows < short.setPlan.opens + 1 ∧
      255 * (short.setPlan.opens + 1 - short.erasedRows) = short.reclaimable) :=
  ⟨⟨admits_of _ (by decide +kernel), by decide +kernel⟩, ⟨admits_of _ (by decide +kernel), by decide +kernel⟩,
    ⟨admits_of _ (by decide +kernel), by decide +kernel⟩, admits_of _ (by decide +kernel), by decide +kernel⟩

/-- The part with its engine in WAIT_SPACE. -/
def waiting (s : State) : State := { s with engine := { s.engine with state := .waitSpace } }

/-- In WAIT_SPACE with room, with the last set id and with none left; without room; and the reclaimer that looks: a victim, a
victim while passes are blocked, no victim. -/
theorem witness_WaitSpacePlansAgain :
    (short.erasedRows < short.setPlan.opens + 1 ∧
      255 * (short.setPlan.opens + 1 - short.erasedRows) ≤ short.reclaimable ∧ short.engine.state ≠ .waitSpace) ∧
    ((waiting lastRoom).engine.state = .waitSpace ∧ (waiting lastRoom).setPlan.opens + 1 ≤ (waiting lastRoom).erasedRows ∧
      (waiting lastRoom).engine.nextSetId = .id 4294967295 ∧ (waiting noIds).engine.nextSetId = .exhausted ∧
      (waiting noIds).setPlan.opens + 1 ≤ (waiting noIds).erasedRows) ∧
    ((waiting crowded).erasedRows < (waiting crowded).setPlan.opens + 1) ∧
    (∀ s ∈ [waiting ready, waiting crowded], s.engine.state = .waitSpace ∧ s.recl.job = .idle ∧ s.win.mode = .ready ∧
      s.table.purgePending = false ∧ s.recl.refresh = [] ∧ s.recl.blocked = false ∧
      ∀ x, x < 64 → (s.row x).state ≠ some .dirty) ∧
    ((waiting ready).eligible 2 = true ∧ (waiting ready).eligible 1 = false ∧
      (∀ x, x < 64 → (waiting ready).eligible x = true → x = 2) ∧ (waiting ready).eligibleVictims ≠ [] ∧
      ∀ x, x < 64 → (waiting crowded).eligible x = false) ∧
    (withRecl (fun r => { r with blocked := true }) (waiting ready)).recl.blocked = true := by decide +kernel

theorem witness_CommitStartsWriting :
    lastRoom.admits ∧ lastRoom.table.purgePending = false ∧ lastRoom.setPlan.opens + 1 ≤ lastRoom.erasedRows ∧
    lastRoom.engine.nextSetId = .id 4294967295 ∧ lastRoom.writer.inService = none ∧ lastRoom.openRow = some 0 ∧
    lastRoom.staging.entries = ⟨.put, 5, 20, some 0⟩ :: [] ∧ (lastRoom.row 0).nextFree + (1 + (20 + 15) / 16) ≤ 256 ∧
    (withRecl (fun r => { r with job := .refresh }) lastRoom).recl.job ≠ .idle :=
  ⟨admits_of _ (by decide +kernel), by decide +kernel⟩

/-- The COMMIT record of a set of a replaced, a deleted and a new key, as the writer programs it. -/
def commitRecord : Append := ⟨.commit, ⟨.commit, false, 0xFFFF, 0, 6, 0, 3, 0xFFFF⟩, [], 0⟩
/-- Its program request. -/
def closingProgram : Request := ⟨.commit, .commit, 0, 12, .program [encodeRecordHeader commitRecord.header], true⟩
/-- The part while it is in service, an audit running over the set's keys. -/
def closing : State :=
  { withCtl (serving closingProgram) stagedOne with
    writer := ⟨some commitRecord, .record 0 12, none, none⟩
    aud := { AuditUnit.atReset with running := true, lo := 0, hi := 9 }
    engine := { stagedOne.engine with
      state := .closing
      placed := [⟨5, .put, 4, 6, 0, 10, 0, 1⟩, ⟨6, .delete, 1, 6, 0, 11, 0, 0⟩, ⟨7, .put, 1, 6, 0, 9, 0, 0⟩] } }

theorem witness_CommitPublishesTheSet :
    closing.dirOk ∧ closing.calm ∧ closing.serves closingProgram ∧ closingProgram.requester = .commit ∧
    closingProgram.waited = true ∧ closingProgram.op = .program [encodeRecordHeader commitRecord.header] ∧
    closing.writer = ⟨some commitRecord, .record 0 12, none, none⟩ ∧ commitRecord.cls = .commit ∧
    closing.engine.state = .closing ∧ (closing.engine.placed.map Placed.key).Nodup ∧
    seen (exec (.programComplete none) closing) (fun t => (t.win.auditResult, t.dir.map DirEntry.key)) =
      some (.disturbed, [5, 6, 7, 9]) := by decide +kernel

/-- The part with an append at an attempt in row 0, `failed` attempts failed before. -/
def attempting (failed : Nat) : State :=
  { ready with writer := ⟨some ⟨.commit, header5, payload20, failed⟩, .record 0 10, none, none⟩ }

/-- First, second and third attempts; a record that just fits the open row and one that just does not; no open row. -/
theorem witness_WriterPlacesAndRetries :
    (attempting 0).writer.inService = some ⟨.commit, header5, payload20, 0⟩ ∧
    (attempting 0).writer.wait = .record 0 10 ∧
    ((attempting 1).writerProgramDone (some 0)).2 = [] ∧
    ((attempting 1).writerProgramDone (some 0)).1.writer.wait = .rowHeader 3 10 ∧
    ((attempting 1).writerProgramDone (some 2)).1.writer.wait = .record 0 10 ∧
    ((attempting 2).writerProgramDone (some 2)).2 = [.reply ⟨.commit, header5, payload20, 3⟩ .failed] ∧
    lastRoom.openRow = some 0 ∧ (lastRoom.row 0).nextFree + (1 + (header5.length + 15) / 16) = 256 ∧
    crowded.openRow = some 0 ∧ 256 < (crowded.row 0).nextFree + (1 + (header5.length + 15) / 16) ∧
    (ready.setRow 0 ⟨some .full, 9, 1, false, 0, 0, false⟩).openRow = none := by decide +kernel

/-- One row ERASED, for a commit append and for a reclaimer's; ERASED rows of unequal wear; a header verified and failed. -/
theorem witness_WriterOpensRows :
    let one := crowded.setRow 5 ⟨some .erased, 0, 1, false, 0, 0, false⟩
    let a : Append := ⟨.reclaimer, header5, payload20, 1⟩
    let s := { one with writer := ⟨some a, .rowHeader 5 10, none, none⟩ }
    let closed := s.setRow 0 ⟨some .full, 9, 1, false, 0, 0, false⟩
    let worn := (ready.setRow 3 ⟨some .erased, 0, 2, false, 0, 0, false⟩).setRow 4 ⟨some .erased, 0, 1, true, 0, 0, false⟩
    one.erasedRows < 2 ∧ 1 ≤ one.erasedRows ∧ one.table.highestSequence < 4294967295 ∧
    (worn.openRowFor { a with cls := .commit }).1.writer.wait = .rowHeader 5 10 ∧
    s.writer.inService = some a ∧ s.writer.wait = .rowHeader 5 10 ∧ header5.length ≤ 240 ∧
    (∀ x, x < 64 → x ≠ 5 → (closed.row x).state ≠ some .opened) ∧
    (s.writerProgramDone (some 0)).2 = [.reply a (.noRow 1)] := by decide +kernel

theorem witness_WriteFailedKeepsTheSet :
    (Reply.failed = .failed ∨ ∃ n, Reply.failed = .noRow n) ∧
    (Reply.noRow 2 = .failed ∨ ∃ n, Reply.noRow 2 = .noRow n) ∧
    (closing.commitReply commitRecord (.noRow 2)).1.win.jobResult = .writeFailed :=
  ⟨.inl rfl, .inr ⟨2, rfl⟩, by decide +kernel⟩

/-- A copy of the record of key 5 into row 2. -/
def copy5 : Copy := ⟨5, .put, 0, 2, 2, 40, 20, 1⟩

/-- R39, R47: the original's extent goes by the entry's length, an orphan's by the copy's. -/
theorem test_relocate_extents :
    ((ready.relocate { copy5 with length := 3 }).row 0).dead = (ready.row 0).dead + 3 ∧
    ((ready.relocate { copy5 with length := 3, fromGranule := 9 }).row 2).dead = (ready.row 2).dead + 2 := by decide +kernel

/-- The entry located by the copy's source, by another place, and no entry. -/
theorem witness_RelocateMovesTheEntry :
    ready.dirOk ∧ copy5.kind ≠ .commit ∧ dirFind ready.dir copy5.key = some live5 ∧
    live5.row = copy5.fromRow ∧ live5.granule = copy5.fromGranule ∧ dirFind ready.dir 7 = none ∧
    (dirFind (ready.relocate copy5).dir 5).map DirEntry.stale = some 3 ∧
    (dirFind (ready.markDamaged 5 0 2).dir 5).map DirEntry.state = some .damaged ∧
    (ready.markDamaged 5 0 3).dir = ready.dir := by decide +kernel

theorem witness_PublishAndRelocateAgree :
    let p : Placed := ⟨5, .put, 4, 6, 0, 10, 0, 1⟩
    ready.dirOk ∧ p.key = copy5.key ∧ dirFind ready.dir copy5.key = some live5 ∧ live5.row = copy5.fromRow ∧
    live5.granule = copy5.fromGranule ∧ copy5.length = live5.length ∧
    ¬ (p.row = copy5.fromRow ∧ p.granule = copy5.fromGranule) ∧
    ((ready.relocate copy5).publishRecord p).dir = ((ready.publishRecord p).relocate copy5).dir := by decide +kernel

/-- In READY at rest, with a victim; in READY with the reclaimer at work; in UNFORMATTED and in READ_ONLY. -/
theorem witness_ReclaimAsksForAPass :
    ready.accepts .reclaim ∧ ready.win.mode = .ready ∧ ready.calm ∧ ready.recl.job = .idle ∧
    ready.recl.blocked = false ∧ ready.recl.refresh = [] ∧ (∀ x, x < 64 → (ready.row x).state ≠ some .dirty) ∧
    ready.eligible 2 = true ∧ ready.eligible 1 = false ∧
    (withRecl (fun r => { r with job := .refresh }) ready).recl.job ≠ .idle ∧
    (withMode .unformatted ready).accepts .reclaim ∧ (withMode .readOnly ready).accepts .reclaim := by decide +kernel

/-- The part in a background pass over row 1, at this step, waiting for this. -/
def passing (phase : PassPhase) (wait : ReclaimWait) : State :=
  withRecl (fun r => { r with
    job := .backgroundVictim, phase := some phase, victim := some 1, cursor := 1, wait := wait
    copyList := [⟨5, .put, 1, 9, 0, 20, 20, 0⟩, ⟨8, .put, 1, 2, 0, 10, 0, 1⟩] })
    (ready.setRow 1 ⟨some .victim, 3, 1, false, 0, 5, false⟩)

/-- An entry to copy, none left, a record intact, one unreadable, and the three replies. -/
theorem witness_PassCopiesItsVictim :
    let s := passing .copy (.recordRead 6 1 7)
    let u := passing .copy (.recordAppend 6 .put 1 7 0)
    (damaged6 ∈ s.dir ∧ damaged6.row = 1 ∧ s.recl.cursor ≤ damaged6.granule ∧ damaged6.state ≠ .tombstone) ∧
    (∀ e ∈ s.dir, ¬ (e.row = 1 ∧ 8 ≤ e.granule ∧ e.state ≠ .tombstone)) ∧
    s.recl.wait = .recordRead 6 1 7 ∧ s.recl.victim = some 1 ∧ s.recl.job ≠ .refresh ∧ s.recl.job ≠ .purge ∧
    findRecord (getting.readExtent 0 2 3) = .intact header5 payload20 ∧
    findRecord (gettingWrong.readExtent 0 2 3) = .unreadable header5 true ∧
    findRecord (s.readExtent 1 7 1) = .notIntact false ∧
    u.recl.wait = .recordAppend 6 .put 1 7 0 ∧ u.recl.phase = some .copy ∧ u.recl.victim = some 1 ∧
    ((u.reclaimReply .failed).1.row 1).state = some .full ∧ (u.reclaimReply .failed).1.recl.blocked = true ∧
    (u.reclaimReply (.placed 0 12 0)).1.recl.cursor = 8 := by decide +kernel

/-- A header of each kind and none at all, at the row's last granule; CHECK with no entry left, with a TOMBSTONE that goes, and
with an entry to copy; the ends of a REFRESH job. -/
theorem witness_PassWalksAndChecks :
    let s := passing .walk (.walkRead 255)
    let commit : GranuleRead := ⟨.clean, encodeRecordHeader commitRecord.header⟩
    let put : GranuleRead := ⟨.corrected, encodeRecordHeader header5⟩
    let u := { passing .check .nothing with dir := [{ tombstone9 with stale := 1 }] }
    let walked := withRecl (fun r => { r with walkList := [⟨9, 5, 3⟩, ⟨9, 5, 9⟩] }) u
    let refreshing := fun w => withRecl (fun r => { r with job := .refresh, victim := none, phase := none }) (passing .copy w)
    s.recl.wait = .walkRead 255 ∧ s.recl.victim = some 1 ∧ findHeader commit = (some commitRecord.header, false) ∧
    findHeader put = (some header5, false) ∧ findHeader ⟨.blank, BitVec.allOnes 128⟩ = (none, false) ∧
    findHeader ⟨.clean, 0⟩ = (none, true) ∧ (s.reclaimReadDone [commit]).1.recl.phase = some .check ∧
    ready.dirOk ∧ (∀ e ∈ ready.dir, e.row ≠ 2) ∧ u.dirOk ∧
    (u.check 1).recl.wait = .recordRead 9 1 9 ∧ (walked.check 1).recl.wait = .erase ∧ (walked.check 1).dir = [] ∧
    (refreshing (.recordRead 5 0 2)).recl.job = .refresh ∧
    ((refreshing (.recordAppend 5 .put 0 2 20)).reclaimReply (.placed 0 30 0)).1.recl.job = .idle ∧
    (passing .check (.recordAppend 6 .put 1 7 0)).recl.phase = some .check := by decide +kernel

/-- A DIRTY row's erase passed and failed; a pass's and a purge's. -/
theorem witness_ReclaimerErasesEnd :
    let s := withRecl (fun r => { r with walkList := [⟨9, 5, 3⟩, ⟨9, 1, 4⟩, ⟨9, 3, 9⟩] }) (passing .erase .erase)
    erasingRow.calm ∧ erasingRow.erases ⟨⟨3, .reclaimer, .reclaim, true⟩, 0, false⟩ ∧
    erasingRow.recl.job = .dirtyErase ∧ (erasingRow.row 3).state = some .dirty ∧
    seen (exec (.eraseComplete (some 0)) erasingRow) (fun t => ((t.row 3).state, t.ctl.faults)) =
      some (some .bad, [⟨.eraseFail, .reclaim, 3, 0⟩]) ∧
    s.dirOk ∧ s.recl.job ≠ .dirtyErase ∧ s.recl.job ≠ .purge ∧
    (dirFind s.dir 9).map DirEntry.stale = some 3 ∧ dirFind (s.reclaimEraseDone 1 true).1.dir 9 = none ∧
    (s.reclaimEraseDone 1 true).2 = [.plan .rowErased, .look] ∧
    (withRecl (fun r => { r with job := .purge }) s).recl.job = .purge := by decide +kernel

/-- Row 1 or row 2 tainted, the newest COMMIT record in row 2 or out of it; the read and the append of its copy; targets left
and none; a purge that fails in READY with a COMMIT in WAIT_PURGE. -/
theorem witness_PurgeRuns :
    let one := ready.setRow 1 ⟨some .full, 3, 1, false, 0, 5, true⟩
    let two := ready.setRow 2 ⟨some .full, 4, 1, false, 0, 6, true⟩
    let holds := { two with table := { two.table with newestCommit := some ⟨2, 8⟩ } }
    let commit : GranuleRead := ⟨.clean, encodeRecordHeader commitRecord.header⟩
    let wait := fun w => withRecl (fun r => { r with job := .purge, wait := w }) holds
    let left := withRecl (fun r => { r with job := .purge, targets := [2] }) two
    let owed := { purging with engine := { purging.engine with state := .waitPurge } }
    (damaged6 ∈ one.dir ∧ (one.row damaged6.row).tainted = true ∧ damaged6.state = .damaged) ∧
    (∀ e ∈ two.dir, (two.row e.row).tainted = true → e.state ≠ .damaged) ∧ two.startPurge.1.recl.victim = some 2 ∧
    holds.startPurge.1.recl.wait = .commitRead 2 8 ∧ (wait (.commitRead 2 8)).recl.wait = .commitRead 2 8 ∧
    findHeader commit = (some commitRecord.header, false) ∧ commitRecord.header.kind = .commit ∧
    findHeader ⟨.clean, 0⟩ = (none, true) ∧ (wait (.commitAppend 2 8)).recl.wait = .commitAppend 2 8 ∧
    left.recl.targets = 2 :: [] ∧ owed.recl.targets = [] ∧ owed.nextTarget.2 = [.plan .first, .look] ∧
    owed.purgeFail.1.win.mode = .readOnly ∧ owed.purgeFail.1.win.jobResult = .readOnly ∧
    owed.purgeFail.1.ev.event = 0x42 := by decide +kernel

/-- At rest, with the array busy, and with the last but one journal id used. -/
theorem witness_FormatTaken :
    let s := { ready with mnt := { ready.mnt with highestJournalId := 4294967294 } }
    s.accepts .format ∧ s.engine.state = .idle ∧ s.aud.running = false ∧ s.wprotLow = false ∧
    (∀ i, i < 4 → (guardAt s.guards i).mode = .off) ∧ s.mnt.highestJournalId < 4294967295 ∧ s.ctl.state = .idle ∧
    s.ctl.queue = [] ∧ s.ctl.eraseWaiting = none ∧ s.ctl.erase = none ∧ erasingRow.accepts .format ∧
    erasingRow.ctl.state ≠ .idle ∧ (withMode .unformatted ready).accepts .format := by decide +kernel

/-- The part in FORMAT with this job, every row but the first three ERASED. -/
def formatting (j : FormatJob) : State :=
  { withMode .formatting ready with fmt := some j, dir := [], ctl := { ready.ctl with holder := .format } }

/-- ERASED rows untried; only FULL rows left; nothing left; a header of the last but one and of the last journal id; a
candidate erased. -/
theorem witness_FormatFindsItsFirstRow :
    let j : FormatJob := ⟨.firstRow, 4, [], none, .header 3⟩
    let all : FormatJob := { j with tried := List.range 64 }
    let full := { j with tried := [0] }
    let last : FormatJob := { j with journalId := 4294967295 }
    let e : FormatJob := { j with wait := .candidateErase 63 }
    ((3 : Nat) < 64 ∧ 3 ∉ j.tried ∧ ((formatting j).row 3).state = some .erased) ∧
    (∀ r, r < 64 → ¬ (r ∉ full.tried ∧ (crowded.row r).state = some .erased)) ∧
    (1 ∉ full.tried ∧ (crowded.row 1).state = some .full) ∧ (∀ r, r < 64 → r ∈ all.tried) ∧
    (formatting j).fmt = some j ∧ j.wait = .header 3 ∧ j.journalId < 4294967295 ∧ last.journalId = 4294967295 ∧
    ((formatting last).formatProgramDone (some 0)).1.mnt.highestJournalId = 3 ∧
    ((formatting j).formatProgramDone (some 0)).1.mnt.highestJournalId = 5 ∧
    (formatting e).fmt = some e ∧ e.wait = .candidateErase 63 := by decide +kernel

/-- The first row to take, a BAD one, none left; an erase; a read of a BAD row that is blank, the last and the last but one of
the sixteen, and one that is not; an end that is OK, one without a first row and one with 3 usable rows. -/
theorem witness_FormatErasesTheRestAndEnds :
    let j : FormatJob := ⟨.eraseRest, 4, [], some 0, .restErase 5⟩
    let blank : GranuleRead := ⟨.blank, BitVec.allOnes 128⟩
    let read := fun n => ({ j with wait := .badRead 5 n } : FormatJob)
    let bad : State := { formatting j with table := { ready.table with
      rows := (rows.map (fun x : RowRec => { x with state := some .bad })).setIfInBounds 0 (ready.row 0) } }
    ((1 : Nat) < 64 ∧ 0 ≤ 1 ∧ j.firstRow ≠ some 1) ∧ ((formatting j).eraseRestFrom j 0).1.fmt =
      some { j with wait := .restErase 1 } ∧ (bad.eraseRestFrom j 0).1.fmt = some { j with wait := .badRead 1 0 } ∧
    (∀ x, x < 64 → ¬ 64 ≤ x) ∧ (formatting j).fmt = some j ∧ j.wait = .restErase 5 ∧
    ((formatting (read 14)).formatReadDone [blank]).1.fmt = some (read 15) ∧
    (((formatting (read 15)).formatReadDone [blank]).1.row 5).state = some .erased ∧
    ((formatting (read 0)).formatReadDone [blank, ⟨.clean, 0⟩]).1.fmt = some { j with wait := .restErase 6 } ∧
    ((formatting j).formatEnd j).1.win.jobResult = .ok ∧
    ((formatting j).formatEnd { j with firstRow := none }).1.win.mode = .unformatted ∧
    (bad.formatEnd j).1.win.jobResult = .arrayFault ∧ (bad.formatEnd j).1.ev.event = 0x62 := by decide +kernel

/-- The first header of the mount, and the last row but one's, valid. -/
theorem witness_MountReadsTheHeaders :
    let h := encodeRowHeader ⟨7, 1, 2⟩
    let q : Request := ⟨.mount, .mount, 62, 0, .read 1, true⟩
    let s := { State.reset with
      cells := [(62 * 256, .written .agrees h)]
      mnt := { State.reset.mnt with wait := .header 62 }
      ctl := { serving q with holder := .mount } }
    State.reset.serves ⟨.mount, .mount, 0, 0, .read 1, true⟩ ∧ State.reset.mnt.wait = .header 0 ∧
    State.reset.readSeen ⟨.mount, .mount, 0, 0, .read 1, true⟩ 1 [] = [⟨.blank, BitVec.allOnes 128⟩] ∧
    s.serves q ∧ s.mnt.wait = .header 62 ∧ s.win.mode = .mounting ∧ s.fmt = none ∧
    s.readSeen q 1 [] = [⟨.clean, h⟩] ∧ classifyRowHeader ⟨.clean, h⟩ = .valid ⟨7, 1, 2⟩ ∧
    classifyRowHeader ⟨.clean, 0⟩ = .invalid := by decide +kernel

/-- A committed set, a later one without its COMMIT record, and a set that a moved copy commits. -/
def notedRecords : List Noted :=
  [⟨1, 1, ⟨.put, false, 5, 1, 1, 20, 0, 7⟩, true⟩, ⟨1, 4, ⟨.put, false, 6, 1, 1, 0, 1, 0xFFFF⟩, false⟩,
    ⟨1, 5, ⟨.commit, false, 0xFFFF, 0, 1, 0, 2, 0xFFFF⟩, true⟩, ⟨1, 6, ⟨.delete, true, 5, 2, 2, 0, 0, 0xFFFF⟩, true⟩,
    ⟨1, 7, ⟨.delete, true, 8, 2, 2, 0, 0, 0xFFFF⟩, true⟩, ⟨1, 8, ⟨.put, false, 9, 1, 3, 0, 0, 0xFFFF⟩, true⟩]

/-- R122 to R124: the TOMBSTONE of 5 has one stale record, 6 is DAMAGED, 8 is dropped, 9 is torn. -/
theorem witness_WinnersOfTheJournal :
    boundaryC notedRecords = 2 ∧
    resolvedEntries notedRecords =
      [⟨5, .tombstone, 2, 2, 1, 6, 0, 1, 1⟩, ⟨6, .damaged, 1, 1, 1, 4, 0, 0, 1⟩] := by decide +kernel

/-- A RESET taken with a program in service, with an erase begun, and at rest. -/
theorem witness_ResetTakesEffect :
    let s := { programming with resetPhase := .commandTaken }
    let e := { erasingRow with resetPhase := .commandTaken }
    s.resetPhase = .commandTaken ∧ s.arrayOk ∧ s.ctl.current = some { commitProgram with waited := false } ∧
    s.ctl.erase = none ∧ e.resetPhase = .commandTaken ∧ e.arrayOk ∧
    e.ctl.erase = some ⟨⟨3, .reclaimer, .reclaim, true⟩, 0, false⟩ ∧ e.ctl.current = none := by decide +kernel

/-- Both resets, a pin reset within a power-on reset, and the ends of both. -/
theorem witness_PowerAndPinResets :
    programming.arrayOk ∧ programming.ctl.current = some { commitProgram with waited := false } ∧
    programming.ctl.erase = none ∧ erasingRow.arrayOk ∧
    erasingRow.ctl.erase = some ⟨⟨3, .reclaimer, .reclaim, true⟩, 0, false⟩ ∧ erasingRow.ctl.current = none ∧
    seen (exec .powerOnReset programming) (fun t => t.resetPhase) = some (.held true) ∧
    seen (exec .pinReset programming) (fun t => t.resetPhase) = some (.held false) ∧
    seen (exec .pinReset State.poweringUp) (fun t => t.resetPhase) = some (.held true) ∧
    seen (exec .resetEnd { State.poweringUp with resetPhase := .held false }) (fun t => t.win.resetCause) =
      some .pin := by decide +kernel

end Sys2Proof.Tests
end

section
/-! PROOFS. The commands that read the directory: GET's checks, STAT's image and NEXT_KEY's lookup (R136, R141, R142).
Each body has one equation per branch, on a state whose key is latched; the obligations put them together. -/

namespace Sys2Proof.Machine

/-! ### From the dispatch to the bodies -/

theorem exec_get {s : State} (h : s.accepts .get) : exec .get s = .next (s.begin.take .get).getBody :=
  exec_accepts s .get (by decide) h

theorem exec_stat {s : State} (h : s.accepts .stat) : exec .stat s = .next (s.begin.take .stat).statBody :=
  exec_accepts s .stat (by decide) h

theorem exec_nextKey {s : State} (h : s.accepts .nextKey) :
    exec .nextKey s = .next (s.begin.take .nextKey).nextKeyBody :=
  exec_accepts s .nextKey (by decide) h

/-! ### GET's refusals (R136) -/

theorem getBody_of_badKey {s : State} (hk : s.win.latch.key = 0xFFFF) : s.getBody = s.complete .badArg := by
  simp only [State.getBody, if_pos hk]

theorem getBody_of_guarded {s : State} (hk : s.win.latch.key ≠ 0xFFFF)
    (hg : guardMode s.guards s.win.latch.key = .noAccess) : s.getBody = s.complete .guarded := by
  simp only [State.getBody, if_neg hk, readGuarded_iff, if_pos hg]

section
variable {s : State} (hk : s.win.latch.key ≠ 0xFFFF) (hg : guardMode s.guards s.win.latch.key ≠ .noAccess)
include hk hg

theorem getBody_of_noEntry (hf : dirFind s.dir s.win.latch.key.toNat = none) : s.getBody = s.complete .notFound := by
  simp only [State.getBody, if_neg hk, readGuarded_iff, if_neg hg, hf]

theorem getBody_of_tombstone {e : DirEntry} (hf : dirFind s.dir s.win.latch.key.toNat = some e)
    (he : e.state = .tombstone) : s.getBody = s.complete .notFound := by
  simp only [State.getBody, if_neg hk, readGuarded_iff, if_neg hg, hf, he]

theorem getBody_of_damaged {e : DirEntry} (hf : dirFind s.dir s.win.latch.key.toNat = some e)
    (he : e.state = .damaged) : s.getBody = s.complete .damaged := by
  simp only [State.getBody, if_neg hk, readGuarded_iff, if_neg hg, hf, he]

end

/-! ### STAT's answers (R141) -/

theorem statBody_of_badKey {s : State} (hk : s.win.latch.key = 0xFFFF) : s.statBody = s.complete .badArg := by
  simp only [State.statBody, if_pos hk]

theorem statBody_of_guarded {s : State} (hk : s.win.latch.key ≠ 0xFFFF)
    (hg : guardMode s.guards s.win.latch.key = .noAccess) : s.statBody = s.complete .guarded := by
  simp only [State.statBody, if_neg hk, readGuarded_iff, if_pos hg]

section
variable {s : State} (hk : s.win.latch.key ≠ 0xFFFF) (hg : guardMode s.guards s.win.latch.key ≠ .noAccess)
include hk hg

theorem statBody_of_noEntry (hf : dirFind s.dir s.win.latch.key.toNat = none) : s.statBody = s.complete .notFound := by
  simp only [State.statBody, if_neg hk, readGuarded_iff, if_neg hg, hf]

theorem statBody_of_entry {e : DirEntry} (hf : dirFind s.dir s.win.latch.key.toNat = some e) :
    s.statBody = (s.fillBuffer (statImage e)).complete .ok := by
  simp only [State.statBody, if_neg hk, readGuarded_iff, if_neg hg, hf]

end

/-- An image returned by a command that answers with it: the buffer alone differs from what the command itself leaves. -/
theorem complete_fillBuffer (s : State) (c : Command) (r : ResultCode) (bytes : List Byte) :
    ((s.begin.take c).fillBuffer bytes).complete r = { s.answered c r with
      win := { s.win.answered c r with buffer := writeFrom s.win.buffer 0 bytes, fill := bytes.length, dptr := 0 } } := by
  rw [← answered_eq]
  rfl

/-! ### The next-key lookup (R142) -/

/-- NEXT_KEY from `start` on may return the entry: at or above it, LIVE or DAMAGED, its key not NO_ACCESS. -/
def DirEntry.ShownFrom (guards : Vector Guard 4) (start : Nat) (e : DirEntry) : Prop :=
  start ≤ e.key ∧ e.state ≠ .tombstone ∧ guardMode guards (BitVec.ofNat 16 e.key) ≠ .noAccess

theorem DirEntry.shownFrom_iff (guards : Vector Guard 4) (start : Nat) (e : DirEntry) :
    (decide (start ≤ e.key) && e.readable && !readGuarded guards (BitVec.ofNat 16 e.key)) = true ↔
      e.ShownFrom guards start := by
  simp only [Bool.and_eq_true, decide_eq_true_eq, readable_iff, Bool.not_eq_true', ← Bool.not_eq_true, readGuarded_iff,
    DirEntry.ShownFrom, and_assoc]

theorem nextKeyFrom_eq_none {dir : List DirEntry} {guards : Vector Guard 4} {start : Nat}
    (h : ∀ e ∈ dir, ¬ e.ShownFrom guards start) : nextKeyFrom dir guards start = none := by
  refine List.find?_eq_none.2 fun e he => ?_
  rw [DirEntry.shownFrom_iff]
  exact h e he

/-- In key order the first entry shown is the one with the smallest key. -/
theorem nextKeyFrom_eq_some {dir : List DirEntry} {guards : Vector Guard 4} {start : Nat} {e : DirEntry}
    (hd : Ascending dir) (he : e ∈ dir) (hs : e.ShownFrom guards start)
    (hl : ∀ o ∈ dir, o.ShownFrom guards start → e.key ≤ o.key) : nextKeyFrom dir guards start = some e :=
  find?_least dir hd e he ((DirEntry.shownFrom_iff ..).2 hs)
    fun o ho h => hl o ho ((DirEntry.shownFrom_iff ..).1 h)

/-! ### NEXT_KEY's answers (R142) -/

theorem nextKeyBody_of_badKey {s : State} (hk : s.win.latch.key = 0xFFFF) : s.nextKeyBody = s.complete .badArg := by
  simp only [State.nextKeyBody, if_pos hk]

section
variable {s : State} (hk : s.win.latch.key ≠ 0xFFFF)
include hk

theorem nextKeyBody_of_none (hf : nextKeyFrom s.dir s.guards s.win.latch.key.toNat = none) :
    s.nextKeyBody = s.complete .notFound := by
  simp only [State.nextKeyBody, if_neg hk, hf]

theorem nextKeyBody_of_some {e : DirEntry} (hf : nextKeyFrom s.dir s.guards s.win.latch.key.toNat = some e) :
    s.nextKeyBody = { s with win := { s.win with key := BitVec.ofNat 16 e.key } }.complete (nextKeyResult e) := by
  simp only [State.nextKeyBody, if_neg hk, hf]

end

/-- NEXT_KEY's answer with the key found in KEY. -/
theorem complete_withKey (s : State) (c : Command) (r : ResultCode) (k : KeyWord) :
    { s.begin.take c with win := { (s.begin.take c).win with key := k } }.complete r =
      { s.answered c .ok with win := { s.win.answered c r with key := k } } := by
  rw [← answered_eq]
  rfl

/-! ### The obligations -/

/-- Settles O27, check by check: each refusal is the body's own, and the command then only answers. -/
theorem getChecksInOrder : Obligations.GetChecksInOrder := by
  intro s r hacc hcheck
  rw [exec_get hacc, ← answered_eq]
  refine congrArg Host.Outcome.next ?_
  split at hcheck
  next hk => cases hcheck; exact getBody_of_badKey hk
  next hk =>
    split at hcheck
    next hg => cases hcheck; exact getBody_of_guarded hk hg
    next hg =>
      split at hcheck
      next hf => cases hcheck; exact getBody_of_noEntry hk hg hf
      next e hf =>
        split at hcheck
        next he => cases hcheck; exact getBody_of_tombstone hk hg hf he
        next he => cases hcheck; exact getBody_of_damaged hk hg hf he
        next => cases hcheck

/-- Settles O29: the refusals are the body's own; an entry found fills the buffer with its image, whatever its state. -/
theorem statShowsTheEntry : Obligations.StatShowsTheEntry := by
  intro s hacc
  rw [exec_stat hacc]
  simp only [← answered_eq s .stat .badArg, ← answered_eq s .stat .guarded, ← answered_eq s .stat .notFound]
  refine ⟨fun hk => congrArg _ (statBody_of_badKey hk), fun hk hg => congrArg _ (statBody_of_guarded hk hg),
    fun hk hg => ⟨fun hf => congrArg _ (statBody_of_noEntry hk hg hf), fun e hf => ?_⟩⟩
  have hbody : (s.begin.take .stat).statBody = ((s.begin.take .stat).fillBuffer (statImage e)).complete .ok :=
    statBody_of_entry hk hg hf
  have hfilled : s.win.filled (((s.begin.take .stat).fillBuffer (statImage e)).complete .ok).win (statImage e) :=
    filled_fillBuffer _ _ _ rfl (by rw [statImage_length]; decide)
  refine ⟨_, congrArg _ hbody, ?_, ?_⟩
  · rw [complete_fillBuffer, statImage_length]
  · cases he : e.state <;> simpa only [statImage, EntryState.code, he] using hfilled

/-- Settles O30: the lookup is a search in key order, so what it finds first is the smallest key shown. -/
theorem nextKeyFindsTheNext : Obligations.NextKeyFindsTheNext := by
  intro s hacc shown
  rw [exec_nextKey hacc, ← answered_eq s .nextKey .badArg, ← answered_eq s .nextKey .notFound]
  refine ⟨fun hk => congrArg _ (nextKeyBody_of_badKey hk), fun hk hnone => ?_, fun hk hd e he hs hl => ?_⟩
  · exact congrArg _ (nextKeyBody_of_none hk (nextKeyFrom_eq_none hnone))
  · have hbody := nextKeyBody_of_some (s := s.begin.take .nextKey) hk (nextKeyFrom_eq_some hd he hs hl)
    rw [hbody, complete_withKey]
    rfl

end Sys2Proof.Machine
end

section
/-! PROOFS. GUARD_SET: its checks in order and the entry it writes (R155).  The checks and the new entry are said once in
the terms of R155; the obligation puts them together on the state whose arguments are latched. -/

namespace Sys2Proof.Machine

theorem exec_guardSet {s : State} (h : s.accepts .guardSet) :
    exec .guardSet s = .next (s.begin.take .guardSet).guardSetBody :=
  exec_accepts s .guardSet (by decide) h

/-! ### The mode code and the range -/

theorem guardModeOf_isNone_iff (n : Nat) : (guardModeOf n).isNone = true ↔ 2 < n := by
  match n with
  | 0 | 1 | 2 => decide
  | n + 3 => exact iff_of_true rfl (by omega)

theorem guardModeOf_getD {n : Nat} (h : n ≤ 2) :
    (guardModeOf n).getD .off = if n = 0 then .off else if n = 1 then .noWrite else .noAccess := by
  match n with
  | 0 | 1 | 2 => rfl
  | n + 3 => omega

theorem badGuardRange_iff (lo hi : KeyWord) :
    badGuardRange lo hi = true ↔ lo = 0xFFFF ∨ hi = 0xFFFF ∨ hi < lo := by
  simp only [badGuardRange, Bool.or_eq_true, decide_eq_true_eq, or_assoc]

/-! ### The checks and the new entry -/

/-- The fourth check is one disjunction: a mode code above 2, or a range no guard can take. -/
theorem guardSetCheck_eq (s : State) : s.guardSetCheck =
    if 3 < guardSetIndex s.win.latch.arg then some .badArg
    else if s.wprotLow = true then some .pinLocked
    else if (guardAt s.guards (guardSetIndex s.win.latch.arg)).frozen = true then some .frozen
    else if 2 < (s.win.latch.arg.extractLsb' 4 4).toNat ∨ s.win.latch.key = 0xFFFF ∨ s.win.latch.key2 = 0xFFFF ∨
      s.win.latch.key2 < s.win.latch.key then some .badArg
    else none := by
  simp only [State.guardSetCheck, guardSetMode, Bool.or_eq_true, guardModeOf_isNone_iff, badGuardRange_iff]

/-- Past the checks the mode code names a mode. -/
theorem code_le_of_guardSetCheck {s : State} (h : s.guardSetCheck = none) :
    (s.win.latch.arg.extractLsb' 4 4).toNat ≤ 2 := by
  by_contra hcode
  rw [guardSetCheck_eq, if_pos (Or.inl (not_le.1 hcode))] at h
  split_ifs at h

theorem newGuard_eq {k : Latch} (h : (k.arg.extractLsb' 4 4).toNat ≤ 2) : newGuard k =
    ⟨k.key, k.key2, if (k.arg.extractLsb' 4 4).toNat = 0 then .off
      else if (k.arg.extractLsb' 4 4).toNat = 1 then .noWrite else .noAccess, false⟩ := by
  rw [newGuard, guardSetMode, guardModeOf_getD h]

/-! ### GUARD_SET's answers -/

theorem guardSetBody_of_refused {s : State} {r : ResultCode} (h : s.guardSetCheck = some r) :
    s.guardSetBody = s.complete r := by
  rw [State.guardSetBody, h]
  rfl

theorem guardSetBody_of_passed {s : State} (h : s.guardSetCheck = none) : s.guardSetBody =
    (s.setGuard (guardSetIndex s.win.latch.arg) (newGuard s.win.latch)).complete .ok := by
  rw [State.guardSetBody, h]
  rfl

/-- The guard table alone differs from what a command that writes an entry leaves by answering. -/
theorem complete_setGuard (s : State) (c : Command) (r : ResultCode) (i : Nat) (g : Guard) :
    ((s.begin.take c).setGuard i g).complete r =
      { s.answered c r with guards := s.guards.setIfInBounds i g } := by
  rw [← answered_eq]
  rfl

/-! ### The obligation -/

/-- Settles O37: the body's checks are the statement's on the latched arguments; a refusal only answers, and past the
checks the entry written is the one the arguments name. -/
theorem guardSetWrites : Obligations.GuardSetWrites := by
  intro s hacc index code check
  have hcheck : (s.begin.take .guardSet).guardSetCheck = check := guardSetCheck_eq _
  rw [exec_guardSet hacc]
  refine ⟨fun r hr => ?_, fun hnone => ?_⟩
  · rw [guardSetBody_of_refused (hcheck.trans hr), answered_eq]
  · have hpass := hcheck.trans hnone
    have hnew := newGuard_eq (code_le_of_guardSetCheck hpass)
    refine ⟨_, rfl, ?_, fun i hi => ?_⟩ <;> rw [guardSetBody_of_passed hpass, complete_setGuard]
    rw [hnew, guardAt_set]
    simp only [hi, and_true, eq_comm (a := i)]
    rfl

end Sys2Proof.Machine
end

section
/-! PROOFS. The write of DATA (R163): the byte stored at DPTR with DPTR and FILL raised, or dropped with OVERRUN at 240. -/

namespace Sys2Proof.Machine

/-- A write cycle with no reset in force and no RESET taken is served, whatever the command unit and the mode are
(R161, R174, R175). -/
theorem busWrite_of_running {s : State} (effect : State → State) (h : s.resetPhase = .running) :
    s.busWrite effect = effect s.quietly := by
  have hopen : s.begin.busOpen = true := decide_eq_true h
  rw [← begin_eq_quietly]
  exact if_pos hopen

theorem exec_dataWrite_of_running {s : State} (b : Byte) (h : s.resetPhase = .running) :
    exec (.dataWrite b) s = .next (s.quietly.dataWritten b) :=
  congrArg Host.Outcome.next (busWrite_of_running _ h)

theorem dataWritten_of_room {s : State} (b : Byte) (h : s.win.dptr < 240) :
    s.dataWritten b = { s with win := { s.win with
      buffer := s.win.buffer.setIfInBounds s.win.dptr b
      dptr := s.win.dptr + 1
      fill := max s.win.fill (s.win.dptr + 1) } } :=
  if_pos h

theorem dataWritten_of_full {s : State} (b : Byte) (h : s.win.dptr = 240) :
    s.dataWritten b = { s with win := { s.win with overrun := true } } :=
  if_neg h.not_lt

theorem getElem?_dataWritten {s : State} (b : Byte) (h : s.win.dptr < 240) (i : Nat) :
    (s.dataWritten b).win.buffer[i]? = if i = s.win.dptr then some b else s.win.buffer[i]? := by
  simp only [dataWritten_of_room b h, Vector.getElem?_setIfInBounds, if_pos h, eq_comm (a := i)]

/-- Settles O20: the cycle is served, and below 240 it stores and raises, at 240 it only sets OVERRUN. -/
theorem dataWriteStores : Obligations.DataWriteStores := by
  intro s b hrun
  rw [exec_dataWrite_of_running b hrun]
  refine ⟨fun hroom => ⟨_, rfl, ?_, fun i _ => getElem?_dataWritten (s := s.quietly) b hroom i⟩, fun hfull => ?_⟩
  · rw [dataWritten_of_room (s := s.quietly) b hroom]
    rfl
  · rw [dataWritten_of_full (s := s.quietly) b hfull]
    rfl

end Sys2Proof.Machine
end

section
/-! PROOFS. When the array's events and the ends of a reset occur, and what each event then leads to: one equation where it
occurs, and its own fault everywhere else (R18, R21, R22, R25, R28 to R30, R174, R175, logs 6, 11 and 29). -/

namespace Sys2Proof.Machine

/-- A step's outcome is one of two: where `P` holds the next state, elsewhere a fault out of `F`. -/
theorem occurs_iff {o : Host.Outcome State Fault Refusal} {P : Prop} {F : Fault → Prop} (hp : P → ∃ t, o = .next t)
    (hn : ¬ P → ∃ r, F r ∧ o = .fault r) : ((∃ t, o = .next t) ↔ P) ∧ ((∃ t, o = .next t) ∨ ∃ r, F r ∧ o = .fault r) := by
  by_cases h : P
  · exact ⟨iff_of_true (hp h) h, .inl (hp h)⟩
  · obtain ⟨r, hr, ho⟩ := hn h
    refine ⟨iff_of_false ?_ h, .inr ⟨r, hr, ho⟩⟩
    rintro ⟨t, ht⟩
    rw [ho] at ht
    cases ht

/-- The same with one fault only. -/
theorem occurs_iff_of_fault {o : Host.Outcome State Fault Refusal} {P : Prop} {f : Fault} (hp : P → ∃ t, o = .next t)
    (hn : ¬ P → o = .fault f) : ((∃ t, o = .next t) ↔ P) ∧ ((∃ t, o = .next t) ∨ o = .fault f) := by
  obtain ⟨h1, h2⟩ := occurs_iff (F := (· = f)) hp fun h => ⟨f, rfl, hn h⟩
  exact ⟨h1, h2.imp_right fun ⟨_, hf, ho⟩ => hf ▸ ho⟩

/-! ### Reads -/

theorem exec_readComplete_of_serves {s : State} {r : Request} {count : Nat} (drift : List (BitVec 8 × Granule))
    (hs : s.serves r) (hop : r.op = .read count) :
    exec (.readComplete drift) s = .next (s.begin.readDone r count drift) := by
  obtain ⟨hphase, hstate, hcurrent⟩ := hs
  have hstate : s.ctl.state = .reading := by rw [hstate, hop]; rfl
  show execReadComplete drift s = _
  simp only [execReadComplete, State.begin_resetPhase, State.begin_ctl, hphase, hstate, hcurrent, hop]

theorem exec_readComplete_of_not {s : State} (drift : List (BitVec 8 × Granule))
    (h : ¬ ∃ r count, s.resetPhase = .running ∧ s.ctl.state = .reading ∧ s.ctl.current = some r ∧ r.op = .read count) :
    exec (.readComplete drift) s = .fault .noReadInService := by
  show execReadComplete drift s = _
  unfold execReadComplete
  dsimp only
  split
  next r hphase hstate hcurrent =>
    split
    next count hop => exact absurd ⟨r, count, hphase, hstate, hcurrent, hop⟩ h
    next => rfl
  next => rfl

/-! ### Programs -/

theorem withinRequest_iff (granules : List Data) (failed : Option (Fin 16)) :
    withinRequest granules (failed.map Fin.val) = true ↔ ∀ i, failed = some i → i.val < granules.length := by
  cases failed <;> simp [withinRequest]

theorem exec_programComplete_of_serves {s : State} {r : Request} {granules : List Data} {failed : Option (Fin 16)}
    (hs : s.serves r) (hop : r.op = .program granules) (hf : ∀ i, failed = some i → i.val < granules.length) :
    exec (.programComplete failed) s = .next (s.begin.programDone r granules (failed.map Fin.val)) := by
  obtain ⟨hphase, hstate, hcurrent⟩ := hs
  have hstate : s.ctl.state = .programming := by rw [hstate, hop]; rfl
  show execProgramComplete failed s = _
  simp only [execProgramComplete, State.begin_resetPhase, State.begin_ctl, hphase, hstate, hcurrent, hop,
    if_pos ((withinRequest_iff granules failed).2 hf)]

/-- A PROGRAM_COMPLETE that names no granule of the request has a fault of its own (log 6). -/
theorem exec_programComplete_of_not {s : State} (failed : Option (Fin 16))
    (h : ¬ ∃ r granules, s.resetPhase = .running ∧ s.ctl.state = .programming ∧ s.ctl.current = some r ∧
      r.op = .program granules ∧ ∀ i, failed = some i → i.val < granules.length) :
    ∃ f, (f = .noProgramInService ∨ f = .noSuchGranule) ∧ exec (.programComplete failed) s = .fault f := by
  show ∃ f, _ ∧ execProgramComplete failed s = .fault f
  unfold execProgramComplete
  dsimp only
  split
  next r hphase hstate hcurrent =>
    split
    next granules hop =>
      split
      next hw => exact absurd ⟨r, granules, hphase, hstate, hcurrent, hop, (withinRequest_iff ..).1 hw⟩ h
      next => exact ⟨_, .inr rfl, rfl⟩
    next => exact ⟨_, .inl rfl, rfl⟩
  next => exact ⟨_, .inl rfl, rfl⟩

/-! ### Erases -/

theorem exec_eraseComplete_of_erases {s : State} {e : EraseContext} (nonBlank : Option (BitVec 8)) (h : s.erases e) :
    exec (.eraseComplete nonBlank) s = .next (s.begin.eraseDone e.request nonBlank) := by
  obtain ⟨hphase, hstate, herase, hrun⟩ := h
  show execEraseComplete nonBlank s = _
  simp [execEraseComplete, hphase, hstate, herase, hrun]

theorem exec_eraseComplete_of_not {s : State} (nonBlank : Option (BitVec 8)) (h : ¬ ∃ e, s.erases e) :
    exec (.eraseComplete nonBlank) s = .fault .noEraseRunning := by
  show execEraseComplete nonBlank s = _
  unfold execEraseComplete
  dsimp only
  split
  next e hphase hstate herase =>
    split
    next => rfl
    next hrun => exact absurd ⟨e, hphase, hstate, herase, by simpa using hrun⟩ h
  next => rfl

theorem exec_eraseSuspendPoint_of_suspending {s : State} {e : EraseContext} (hphase : s.resetPhase = .running)
    (hstate : s.ctl.state = .erasing) (herase : s.ctl.erase = some e) (hsusp : e.suspending = true) :
    exec .eraseSuspendPoint s = .next ((s.begin.suspended e).finish s.begin.freeGranules) := by
  show execEraseSuspendPoint s = _
  simp [execEraseSuspendPoint, hphase, hstate, herase, hsusp]

theorem exec_eraseSuspendPoint_of_not {s : State} (h : ¬ ∃ e, s.resetPhase = .running ∧ s.ctl.state = .erasing ∧
    s.ctl.erase = some e ∧ e.suspending = true) : exec .eraseSuspendPoint s = .fault .noSuspensionAsked := by
  show execEraseSuspendPoint s = _
  unfold execEraseSuspendPoint
  dsimp only
  split
  next e hphase hstate herase =>
    split
    next hsusp => exact absurd ⟨e, hphase, hstate, herase, hsusp⟩ h
    next => rfl
  next => rfl

/-! ### Resets -/

theorem exec_resetEnd_of_held {s : State} {power : Bool} (h : s.resetPhase = .held power) :
    exec .resetEnd s = .next (State.startMount { s with
      win := { s.win with resetCause := if power then .power else .pin }, resetPhase := .running }) := by
  show execResetEnd s = _
  simp only [execResetEnd, h]

theorem exec_resetEnd_of_not {s : State} (h : ¬ ∃ power, s.resetPhase = .held power) :
    exec .resetEnd s = .fault .noResetInForce := by
  show execResetEnd s = _
  unfold execResetEnd
  split
  next power hheld => exact absurd ⟨power, hheld⟩ h
  all_goals rfl

theorem exec_resetTakesEffect_of_taken {s : State} (h : s.resetPhase = .commandTaken) :
    exec .resetTakesEffect s = .next s.commandReset := by
  show execResetTakesEffect s = _
  simp only [execResetTakesEffect, h]

theorem exec_resetTakesEffect_of_not {s : State} (h : s.resetPhase ≠ .commandTaken) :
    exec .resetTakesEffect s = .fault .noResetTaken := by
  show execResetTakesEffect s = _
  unfold execResetTakesEffect
  split
  next htaken => exact absurd htaken h
  all_goals rfl

/-! ### The obligation -/

/-- Settles O3: each event has its equation where it occurs and its own fault elsewhere. -/
theorem completionsOccurOnlyInService : Obligations.CompletionsOccurOnlyInService := by
  refine ⟨fun s drift => ?_, fun s failed => ?_, fun s nonBlank => ?_, fun s => ?_, fun s => ?_, fun s => ?_⟩
  · refine occurs_iff_of_fault ?_ (exec_readComplete_of_not drift)
    rintro ⟨r, count, hphase, hstate, hcurrent, hop⟩
    exact ⟨_, exec_readComplete_of_serves drift ⟨hphase, by rw [hstate, hop]; rfl, hcurrent⟩ hop⟩
  · have hor := occurs_iff ?_ (exec_programComplete_of_not (s := s) failed)
    · refine ⟨hor.1, hor.2.imp_right ?_⟩
      rintro ⟨f, rfl | rfl, ho⟩
      exacts [.inl ho, .inr ho]
    · rintro ⟨r, granules, hphase, hstate, hcurrent, hop, hf⟩
      exact ⟨_, exec_programComplete_of_serves ⟨hphase, by rw [hstate, hop]; rfl, hcurrent⟩ hop hf⟩
  · refine occurs_iff_of_fault ?_ (exec_eraseComplete_of_not nonBlank)
    rintro ⟨e, he⟩
    exact ⟨_, exec_eraseComplete_of_erases nonBlank he⟩
  · refine occurs_iff_of_fault ?_ exec_eraseSuspendPoint_of_not
    rintro ⟨e, hphase, hstate, herase, hsusp⟩
    exact ⟨_, exec_eraseSuspendPoint_of_suspending hphase hstate herase hsusp⟩
  · refine occurs_iff_of_fault ?_ exec_resetEnd_of_not
    rintro ⟨power, hheld⟩
    exact ⟨_, exec_resetEnd_of_held hheld⟩
  · exact occurs_iff_of_fault (fun h => ⟨_, exec_resetTakesEffect_of_taken h⟩) exec_resetTakesEffect_of_not

end Sys2Proof.Machine
end

section
/-! PROOFS. What every step keeps: the canonical array, the directory's order and the limits of the other blocks, and which
events alone reach the array and the frozen guards (R1, R25, R34, R35, R38, R55, R112, R156, R163 to R165). -/

namespace Sys2Proof.Machine

/-- The events that complete an operation of the array. -/
def Instr.FromArray (i : Instr) : Prop :=
  (∃ d, i = .readComplete d) ∨ (∃ f, i = .programComplete f) ∨ (∃ g, i = .eraseComplete g) ∨ i = .eraseSuspendPoint

/-- The three resets, at the point where the blocks go to their reset states. -/
def Instr.Resets (i : Instr) : Prop := i = .powerOnReset ∨ i = .pinReset ∨ i = .resetTakesEffect

theorem exec_command_kept2 (s : State) (c : Command) : ∃ t, exec c.instr s = .next t ∧ Kept2 s t := by
  by_cases hc : c = .reset
  · subst hc
    exact ⟨_, rfl, resetCommand_kept2 s⟩
  · exact ⟨_, exec_instr s c hc, command_kept2 s c hc⟩

theorem exec_resetEnd_kept2 {s t : State} (h : exec .resetEnd s = .next t) : Kept2 s t := by
  obtain ⟨power, hheld⟩ := (completionsOccurOnlyInService.2.2.2.2.1 s).1.1 ⟨t, h⟩
  rw [exec_resetEnd_of_held hheld] at h
  cases h
  refine Kept2.trans (b := { s with
    win := { s.win with resetCause := if power then .power else .pin }, resetPhase := .running })
    ⟨rfl, fun _ _ => rfl, rfl, id, id, id, id, id, id⟩ (startMount_kept _).two

theorem exec_fromArray_kept3 {i : Instr} {s t : State} (hi : Instr.FromArray i) (h : exec i s = .next t) :
    Kept3 s t := by
  rcases hi with ⟨d, rfl⟩ | ⟨f, rfl⟩ | ⟨g, rfl⟩ | rfl
  · obtain ⟨r, count, hphase, hstate, hcurrent, hop⟩ := ((completionsOccurOnlyInService.1 s d).1).1 ⟨t, h⟩
    rw [exec_readComplete_of_serves d ⟨hphase, by rw [hstate, hop]; rfl, hcurrent⟩ hop] at h
    rw [← Host.Outcome.next.inj h]
    exact (begin_kept s).three.trans (readDone_kept _ _ _ _)
  · obtain ⟨r, granules, hphase, hstate, hcurrent, hop, hf⟩ := ((completionsOccurOnlyInService.2.1 s f).1).1 ⟨t, h⟩
    rw [exec_programComplete_of_serves ⟨hphase, by rw [hstate, hop]; rfl, hcurrent⟩ hop hf] at h
    rw [← Host.Outcome.next.inj h]
    exact (begin_kept s).three.trans (programDone_kept _ _ _ _)
  · obtain ⟨e, he⟩ := ((completionsOccurOnlyInService.2.2.1 s g).1).1 ⟨t, h⟩
    rw [exec_eraseComplete_of_erases g he] at h
    rw [← Host.Outcome.next.inj h]
    exact (begin_kept s).three.trans (eraseDone_kept _ _ _)
  · obtain ⟨e, hphase, hstate, herase, hsusp⟩ := ((completionsOccurOnlyInService.2.2.2.1 s).1).1 ⟨t, h⟩
    rw [exec_eraseSuspendPoint_of_suspending hphase hstate herase hsusp] at h
    rw [← Host.Outcome.next.inj h]
    exact ((begin_kept s).three.trans (suspended_kept _ e herase)).trans (finish_kept _ _).three

theorem exec_resets_kept4 {i : Instr} {s t : State} (hi : Instr.Resets i) (h : exec i s = .next t) : Kept4 s t := by
  rcases hi with rfl | rfl | rfl
  · cases h
    exact holdReset_four _ _
  · cases h
    exact holdReset_four _ _
  · have htaken := ((completionsOccurOnlyInService.2.2.2.2.2 s).1).1 ⟨t, h⟩
    rw [exec_resetTakesEffect_of_taken htaken] at h
    cases h
    exact (((cutProgram_kept s true).trans (cutErase_kept _)).four.trans (resetBlocks_four _ _ _ _)).trans
      (startMount_kept _).two.four

/-- What a command can do to the array, the guards and the invariants, once for all 35: every command keeps the invariants;
all but the completions and the resets keep the array and the frozen guards too. -/
theorem exec_kept {i : Instr} {s t : State} (h : exec i s = .next t) :
    Kept2 s t ∨ (Instr.FromArray i ∧ Kept3 s t) ∨ (Instr.Resets i ∧ Kept4 s t) := by
  have command : ∀ c : Command, i = c.instr → Kept2 s t := by
    rintro c rfl
    obtain ⟨u, hu, hk⟩ := exec_command_kept2 s c
    cases hu.symm.trans h
    exact hk
  have array : Instr.FromArray i → (Instr.FromArray i ∧ Kept3 s t) := fun hi => ⟨hi, exec_fromArray_kept3 hi h⟩
  have resets : Instr.Resets i → (Instr.Resets i ∧ Kept4 s t) := fun hi => ⟨hi, exec_resets_kept4 hi h⟩
  cases i with
  | stagePut => exact .inl (command .stagePut rfl)
  | stageDelete => exact .inl (command .stageDelete rfl)
  | discard => exact .inl (command .discard rfl)
  | commit => exact .inl (command .commit rfl)
  | get => exact .inl (command .get rfl)
  | stat => exact .inl (command .stat rfl)
  | nextKey => exact .inl (command .nextKey rfl)
  | info => exact .inl (command .info rfl)
  | audit => exact .inl (command .audit rfl)
  | auditAbort => exact .inl (command .auditAbort rfl)
  | guardSet => exact .inl (command .guardSet rfl)
  | guardFreeze => exact .inl (command .guardFreeze rfl)
  | guardRead => exact .inl (command .guardRead rfl)
  | faultPop => exact .inl (command .faultPop rfl)
  | reclaim => exact .inl (command .reclaim rfl)
  | format => exact .inl (command .format rfl)
  | reset => exact .inl (command .reset rfl)
  | badCommand code => cases h; exact .inl (cmdWrite_kept2 s code)
  | cmdWriteDropped code => cases h; exact .inl (cmdWrite_kept2 s code)
  | dataWrite b => cases h; exact .inl (busWrite_kept s _ fun u => dataWritten_kept u b).two
  | dataRead => cases h; exact .inl (dataRead_kept s).two
  | dptrWrite b => cases h; exact .inl (busWrite_kept s _ fun u => dptrWritten_kept u b).two
  | statusWrite b => cases h; exact .inl (busWrite_kept s _ fun u => statusWritten_kept u b).two
  | eventWrite b together => cases h; exact .inl (busWrite_kept s _ fun _ => .same).two
  | eventEnWrite b => cases h; exact .inl (busWrite_kept s _ fun _ => .same).two
  | hostRegisterWrite offset b => cases h; exact .inl (writeRegister_kept2 s offset b)
  | wprotChange high => cases h; exact .inl ⟨rfl, fun _ _ => rfl, rfl, id, id, id, id, id, id⟩
  | resetEnd => exact .inl (exec_resetEnd_kept2 h)
  | powerOnReset => exact .inr (.inr (resets (.inl rfl)))
  | pinReset => exact .inr (.inr (resets (.inr (.inl rfl))))
  | resetTakesEffect => exact .inr (.inr (resets (.inr (.inr rfl))))
  | readComplete d => exact .inr (.inl (array (.inl ⟨d, rfl⟩)))
  | programComplete f => exact .inr (.inl (array (.inr (.inl ⟨f, rfl⟩))))
  | eraseComplete g => exact .inr (.inl (array (.inr (.inr (.inl ⟨g, rfl⟩)))))
  | eraseSuspendPoint => exact .inr (.inl (array (.inr (.inr (.inr rfl)))))

theorem exec_kept4 {i : Instr} {s t : State} (h : exec i s = .next t) : Kept4 s t := by
  rcases exec_kept h with h2 | ⟨-, h3⟩ | ⟨-, h4⟩
  exacts [h2.four, h3.four, h4]

/-- A step keeps what the commands keep: taking a command from the queue changes the queue alone. -/
theorem step_cases {s t : State} (h : step s = .next t) :
    t = s ∨ ∃ i rest, exec i { s with pending := rest } = .next t := by
  unfold step at h
  split at h
  next => cases h; exact .inl rfl
  next i rest _ => exact .inr ⟨i, rest, h⟩

/-- Settles O4. -/
theorem arrayFormKept : Obligations.ArrayFormKept := by
  intro s t hs hstep
  rcases step_cases hstep with rfl | ⟨i, rest, h⟩
  · exact hs
  · exact (exec_kept4 h).array hs

/-- Settles O5. -/
theorem directoryOrderKept : Obligations.DirectoryOrderKept := by
  intro s t hs hstep
  rcases step_cases hstep with rfl | ⟨i, rest, h⟩
  · exact hs
  · exact (exec_kept4 h).dir hs

/-- Settles O6. -/
theorem limitsKept : Obligations.LimitsKept := by
  refine ⟨fun s t hfaults hsusp hbuffer hrefresh hstep => ?_, fun s t hstaging hstep => ?_⟩ <;>
    rcases step_cases hstep with rfl | ⟨i, rest, h⟩
  · exact ⟨hfaults, hsusp, hbuffer, hrefresh⟩
  · have hk := exec_kept4 h
    exact ⟨hk.faults hfaults, hk.susp hsusp, hk.buffer hbuffer, hk.refresh hrefresh⟩
  · exact hstaging
  · exact (exec_kept4 h).staging hstaging

/-- Settles O8: a frozen guard stays through every command that is not a reset. -/
theorem frozenGuardsHold : Obligations.FrozenGuardsHold := by
  intro i s t n h hfrozen
  rcases exec_kept h with h2 | ⟨-, h3⟩ | ⟨hi, -⟩
  · exact .inl (h2.frozen n hfrozen)
  · exact .inl (congrArg (guardAt · n) h3.guards)
  · exact .inr hi

end Sys2Proof.Machine
end

section
/-! PROOFS. The granules an event leaves: what drift, a program, an erase, a suspend point and a reset do to each granule of
the array, and what a read returns of it (R1, R14, R19 to R22, R25, R29, R30). -/

namespace Sys2Proof.Machine

/-! ### The array under the operations (R1, R21, R22) -/

/-- `granule_setGranule` without its bound on the granule written: a number past 255 is no granule read. -/
theorem granule_setGranule_of_le {s : State} (ok : s.arrayOk) (row g : Nat) (c : Granule) (r : Nat) {x : Nat}
    (hx : x ≤ 255) : (s.setGranule row g c).granule r x = if r = row ∧ x = g then c else s.granule r x := by
  by_cases hg : g ≤ 255
  · exact granule_setGranule _ _ _ _ _ _ ok hg hx
  · have hne : ¬ (r = row ∧ x = g) := fun h => hg (h.2 ▸ hx)
    rw [State.setGranule, if_neg hg, if_neg hne]

/-- A granule that changes by itself does not return to blank (R1, log 5). -/
theorem blank_of_applyDrift {s : State} (ok : s.arrayOk) (row : Nat) (drift : List (BitVec 8 × Granule)) (r : Nat)
    {x : Nat} (hx : x ≤ 255) (h : (s.applyDrift row drift).granule r x = .blank) : s.granule r x = .blank := by
  induction drift generalizing s with
  | nil => exact h
  | cons entry rest ih =>
    obtain ⟨g, _ | ⟨ecc, d⟩⟩ := entry
    · exact ih ok h
    · have hset := ih (setGranule_arrayOk _ _ _ _ ok) h
      rw [granule_setGranule_of_le ok _ _ _ _ hx] at hset
      split at hset
      · cases hset
      · exact hset

theorem draw_granule (s : State) (r x : Nat) : s.draw.granule r x = s.granule r x := rfl

/-- A program request that ended: what it left outside its extent, before, at and after the failed granule (R14, R21). -/
theorem granule_programGranules {s : State} (ok : s.arrayOk) (row first : Nat) (granules : List Data)
    (failed : Option Nat) (hf : ∀ j, failed = some j → j < granules.length) (r : Nat) {x : Nat} (hx : x ≤ 255) :
    let t := s.programGranules row first granules failed
    (¬ (r = row ∧ first ≤ x ∧ x < first + granules.length) → t.granule r x = s.granule r x) ∧
    ∀ i d, granules[i]? = some d → r = row → x = first + i →
      ((∀ j, failed = some j → i < j) → t.granule r x = .written .agrees d) ∧
      (failed = some i → t.granule r x ≠ .blank) ∧
      ((∃ j, failed = some j ∧ j < i) → t.granule r x = s.granule r x) := by
  cases failed with
  | none =>
    obtain ⟨-, hout, hin⟩ := granule_writeGranules s row first granules ok r x hx
    refine ⟨hout, fun i d hd hr hg => ⟨fun _ => ?_, fun h => ?_, ?_⟩⟩
    · exact hin d (by rwa [hg, Nat.add_sub_cancel_left]) hr (by omega)
    · cases h
    · rintro ⟨_, h, _⟩
      cases h
  | some j =>
    have hj := hf j rfl
    obtain ⟨okw, hout, hin⟩ := granule_writeGranules s row first (granules.take j) ok r x hx
    have hlen : (granules.take j).length = j := by rw [List.length_take]; omega
    simp only [State.programGranules, draw_granule, granule_setGranule_of_le okw _ _ _ _ hx]
    rw [hlen] at hout
    refine ⟨fun h => ?_, fun i d hd hr hg => ⟨fun hlt => ?_, fun heq => ?_, ?_⟩⟩
    · rw [if_neg (by omega), hout (by omega)]
    · have hij := hlt j rfl
      rw [if_neg (by omega)]
      exact hin d (by rwa [hg, Nat.add_sub_cancel_left, List.getElem?_take_of_lt hij]) hr (by omega)
    · cases heq
      rw [if_pos ⟨hr, hg⟩]
      exact Granule.noConfusion
    · rintro ⟨k, hk, hlt⟩
      cases hk
      rw [if_neg (by omega), hout (by omega)]

/-- An erase that ended: blank up to the first non-blank granule, that one programmed, the other rows as they were (R22). -/
theorem granule_eraseRow {s : State} (ok : s.arrayOk) (row : Nat) (nonBlank : Option (BitVec 8)) (r : Nat) {x : Nat}
    (hx : x ≤ 255) :
    let t := s.eraseRow row nonBlank
    (r ≠ row → t.granule r x = s.granule r x) ∧ (r = row → nonBlank = none → t.granule r x = .blank) ∧
    (r = row → ∀ n, nonBlank = some n →
      (x < n.toNat → t.granule r x = .blank) ∧ (x = n.toNat → t.granule r x ≠ .blank)) := by
  have hblank := fun r => granule_blankRow s row r x hx
  have okb : ({ s with cells := blankRow s.cells row } : State).arrayOk := Cells.wf_blankRow _ _ ok
  cases nonBlank with
  | none =>
    refine ⟨fun hr => ?_, fun hr _ => ?_, fun _ n hn => by cases hn⟩
    · exact (hblank r).trans (if_neg hr)
    · exact (hblank r).trans (if_pos hr)
  | some m =>
    have hset : ∀ c, (r ≠ row ∨ x < m.toNat + 1) → ((({ s with cells := blankRow s.cells row } : State).setGranule row
        m.toNat c).applyErasedRest row s.freeIdx (m.toNat + 1) (255 - m.toNat)).granule r x =
        if r = row ∧ x = m.toNat then c else if r = row then .blank else s.granule r x := by
      intro c h
      rw [applyErasedRest_gran _ _ _ _ _ _ _ (setGranule_arrayOk _ _ _ _ okb) hx h,
        granule_setGranule_of_le okb _ _ _ _ hx, hblank]
    simp only [State.eraseRow, draw_granule]
    refine ⟨fun hr => ?_, fun _ h => (by cases h), fun hr n hn => ?_⟩
    · rw [hset _ (.inl hr), if_neg (fun h => hr h.1), if_neg hr]
    · cases hn
      refine ⟨fun hlt => ?_, fun heq => ?_⟩
      · rw [hset _ (.inr (by omega)), if_neg (by omega), if_pos hr]
      · rw [hset _ (.inr (by omega)), if_pos ⟨hr, heq⟩]
        exact Granule.noConfusion

/-! ### Only the operation itself reaches the array -/

theorem captureReadOf_kept (s : State) (r : Request) (reads : List GranuleRead) : Kept s (s.captureReadOf r reads) := by
  unfold State.captureReadOf
  split
  · exact .rfl' _
  · exact captureRead_kept _ _ _ _ _

theorem readDone_cells (s : State) (r : Request) (count : Nat) (drift : List (BitVec 8 × Granule)) :
    (s.readDone r count drift).cells = (s.applyDrift r.row drift).cells := by
  unfold State.readDone
  dsimp only
  rw [(runEvent_kept _ _).cells]
  split
  · rw [(deliverRead_kept _ _ _ _ _).cells, (arrayFree_kept _).cells, (captureReadOf_kept _ _ _).cells]
  · rw [(arrayFree_kept _).cells, (captureReadOf_kept _ _ _).cells]

theorem captureProgram_kept (s : State) (r : Request) (failed : Option Nat) : Kept s (s.captureProgram r failed) := by
  cases failed with
  | none => exact .rfl' _
  | some i => exact capture_kept _ _

theorem programDone_cells (s : State) (r : Request) (granules : List Data) (failed : Option Nat) :
    (s.programDone r granules failed).cells = (s.programGranules r.row r.first granules failed).cells := by
  unfold State.programDone
  rw [(runEvent_kept _ _).cells, (deliverProgram_kept _ _ _).cells, (arrayFree_kept _).cells,
    (captureProgram_kept _ _ _).cells]

theorem captureErase_kept (s : State) (r : EraseRequest) (nonBlank : Option (BitVec 8)) :
    Kept s (s.captureErase r nonBlank) := by
  cases nonBlank with
  | none => exact .rfl' _
  | some g => exact capture_kept _ _

theorem deliverErase_kept (s : State) (r : EraseRequest) (passed : Bool) : Kept s (s.deliverErase r passed).1 := by
  unfold State.deliverErase
  split
  · split
    · exact reclaimEraseDone_kept _ _ _
    · exact formatEraseDone_kept _ _
    all_goals exact .rfl' _
  · exact .rfl' _

theorem eraseDone_cells (s : State) (r : EraseRequest) (nonBlank : Option (BitVec 8)) :
    (s.eraseDone r nonBlank).cells = (s.eraseRow r.row nonBlank).cells := by
  unfold State.eraseDone
  rw [(runEvent_kept _ _).cells, (deliverErase_kept _ _ _).cells, (countErase_kept _ _).cells,
    (eraseEnded_kept _).cells, (captureErase_kept _ _ _).cells]

theorem blank_of_programGranules {s : State} (ok : s.arrayOk) (row first : Nat) (granules : List Data)
    (failed : Option Nat) (hf : ∀ j, failed = some j → j < granules.length) (r : Nat) {x : Nat} (hx : x ≤ 255)
    (h : (s.programGranules row first granules failed).granule r x = .blank) : s.granule r x = .blank := by
  obtain ⟨hout, hin⟩ := granule_programGranules ok row first granules failed hf r hx
  by_cases hr : r = row ∧ first ≤ x ∧ x < first + granules.length
  · obtain ⟨hrow, hlo, hhi⟩ := hr
    obtain ⟨hbefore, hat, hafter⟩ := hin (x - first) granules[x - first] (List.getElem?_eq_getElem (by omega)) hrow
      (by omega)
    cases failed with
    | none => rw [hbefore (fun _ h => by cases h)] at h; cases h
    | some j =>
      rcases lt_trichotomy (x - first) j with hlt | heq | hgt
      · rw [hbefore (fun _ h => by cases h; exact hlt)] at h; cases h
      · exact absurd h (hat (heq ▸ rfl))
      · rw [← hafter ⟨j, rfl, hgt⟩, h]
  · rw [← hout hr, h]

/-- Settles O7: a command that is none of these events keeps the cells, and neither drift nor a program blanks a granule. -/
theorem arrayChangesOnlyByItsEvents : Obligations.ArrayChangesOnlyByItsEvents := by
  intro i s t h
  refine ⟨?_, fun ok hi row g hg hblank => ?_⟩
  · rcases exec_kept h with h2 | ⟨hi, -⟩ | ⟨hi, -⟩
    · exact .inl h2.cells
    · rcases hi with hi | hi | hi | hi
      exacts [.inr (.inl hi), .inr (.inr (.inl hi)), .inr (.inr (.inr (.inl hi))), .inr (.inr (.inr (.inr (.inl hi))))]
    · rcases hi with hi | hi | hi
      all_goals simp only [hi, true_or, or_true]
  · rcases hi with ⟨d, rfl⟩ | ⟨f, rfl⟩
    · obtain ⟨r, count, hphase, hstate, hcurrent, hop⟩ := ((completionsOccurOnlyInService.1 s d).1).1 ⟨t, h⟩
      rw [exec_readComplete_of_serves d ⟨hphase, by rw [hstate, hop]; rfl, hcurrent⟩ hop] at h
      rw [← Host.Outcome.next.inj h, granule_of_cells (readDone_cells _ _ _ _)] at hblank
      exact blank_of_applyDrift (s := s.begin) ok _ _ _ hg hblank
    · obtain ⟨r, granules, hphase, hstate, hcurrent, hop, hf⟩ := ((completionsOccurOnlyInService.2.1 s f).1).1 ⟨t, h⟩
      rw [exec_programComplete_of_serves ⟨hphase, by rw [hstate, hop]; rfl, hcurrent⟩ hop hf] at h
      rw [← Host.Outcome.next.inj h, granule_of_cells (programDone_cells _ _ _ _)] at hblank
      refine blank_of_programGranules (s := s.begin) ok _ _ _ _ ?_ _ hg hblank
      rintro j hj
      obtain ⟨k, hk, rfl⟩ := Option.map_eq_some_iff.1 hj
      exact hf k hk

/-- Settles O11: the event's effect on the array is `State.programGranules` alone. -/
theorem programWritesItsGranules : Obligations.ProgramWritesItsGranules := by
  intro s t r granules failed ok hs hop h row g hg
  have hstate : s.ctl.state = .programming := by rw [hs.2.1, hop]; rfl
  obtain ⟨r', granules', -, -, hcurrent, hop', hf⟩ := ((completionsOccurOnlyInService.2.1 s failed).1).1 ⟨t, h⟩
  cases hcurrent.symm.trans hs.2.2
  cases hop'.symm.trans hop
  rw [exec_programComplete_of_serves hs hop hf] at h
  rw [← Host.Outcome.next.inj h]
  simp only [granule_of_cells (programDone_cells _ _ _ _)]
  have hmap : ∀ j, failed.map Fin.val = some j → j < granules.length := by
    rintro j hj
    obtain ⟨k, hk, rfl⟩ := Option.map_eq_some_iff.1 hj
    exact hf k hk
  obtain ⟨hout, hin⟩ := granule_programGranules (s := s.begin) ok r.row r.first granules (failed.map Fin.val) hmap row hg
  refine ⟨hout, fun i d hd hrow hgi => ?_⟩
  obtain ⟨hbefore, hat, hafter⟩ := hin i d hd hrow hgi
  refine ⟨fun hlt => hbefore ?_, fun j hj hij => hat ?_, fun ⟨j, hj, hlt⟩ => hafter ⟨j.val, ?_, hlt⟩⟩
  · rintro j hj
    obtain ⟨k, hk, rfl⟩ := Option.map_eq_some_iff.1 hj
    exact hlt k hk
  · rw [hj, hij]; rfl
  · rw [hj]; rfl

/-- Settles O12: the event's effect on the array is `State.eraseRow` alone. -/
theorem eraseClearsItsRow : Obligations.EraseClearsItsRow := by
  intro s t e nonBlank ok he h row g hg
  rw [exec_eraseComplete_of_erases nonBlank he] at h
  rw [← Host.Outcome.next.inj h]
  simp only [granule_of_cells (eraseDone_cells _ _ _)]
  exact granule_eraseRow (s := s.begin) ok e.request.row nonBlank row hg

/-! ### The suspend point (R25) -/

theorem eraseCut_form (s : State) (row : Nat) : s.eraseCut row =
    { s with cells := (s.eraseCut row).cells, freeIdx := (s.eraseCut row).freeIdx } := by
  unfold State.eraseCut
  rw [applyRemnants_form]
  rfl

theorem suspended_form (s : State) (e : EraseContext) : s.suspended e = { s with
    ctl := { s.ctl with state := .idle, erase := some { e with suspending := false } }
    cells := (s.eraseCut e.request.row).cells
    freeIdx := (s.eraseCut e.request.row).freeIdx } := by
  have hcut := eraseCut_form s e.request.row
  unfold State.suspended
  generalize s.eraseCut e.request.row = u at hcut ⊢
  rw [hcut]

/-- A suspended erase keeps the array from being quiet, whatever the arbiter grants. -/
theorem arbitrate_not_quiet_of_erase (c : Controller) (e : EraseContext) (he : c.erase = some e) :
    c.arbitrate.quiet = false := by
  have herase : c.arbitrate.erase = some e := by
    unfold Controller.arbitrate
    split
    · split
      · exact he
      · rw [he]
    · exact he
  simp only [Controller.quiet, herase, Option.isNone_some, Bool.and_false]

/-- Settles O13: the erase's row is cut where it stands, and the suspended erase holds FORMAT off. -/
theorem suspendPointFreesTheArray : Obligations.SuspendPointFreesTheArray := by
  intro s e ok hphase hstate herase hsusp
  refine ⟨_, exec_eraseSuspendPoint_of_suspending hphase hstate herase hsusp, ?_⟩
  have hquiet : (s.begin.suspended e).arbitrate.ctl.quiet = false := arbitrate_not_quiet_of_erase _ _ rfl
  have htable : (s.begin.suspended e).arbitrate.table = s.begin.table := by rw [suspended_form]; rfl
  have hfinish : (s.begin.suspended e).finish s.begin.freeGranules = (s.begin.suspended e).arbitrate := by
    unfold State.finish
    rw [beginExclusive_not_quiet _ hquiet, spaceLowAfter_same _ _ (freeGranules_of_table _ _ htable)]
  have hgran := fun row g hg => applyRemnants_gran 256 s.begin e.request.row s.begin.freeIdx 0 row g ok hg
  have hcells : (s.begin.suspended e).arbitrate.cells = (s.begin.applyRemnants e.request.row s.begin.freeIdx 0 256).cells := by
    rw [State.arbitrate_cells, suspended_form, State.eraseCut, State.draw_cells]
  rw [hfinish]
  refine ⟨?_, fun row g hg => ?_⟩
  · rw [suspended_form, begin_eq_quietly]
    generalize s.quietly.eraseCut e.request.row = u
    rfl
  · rw [granule_of_cells hcells]
    exact ⟨fun hrow => (hgran row g hg).1 (.inl hrow), (hgran row g hg).2⟩

/-! ### Reads (R19, R20) -/

theorem readExtent_getElem? (s : State) (row first : Nat) {count i : Nat} (h : i < count) :
    (s.readExtent row first count)[i]? = some (readOutcome (s.granule row (first + i))) := by
  rw [State.readExtent, List.getElem?_map, List.getElem?_range h, Option.map_some]

/-- Settles O14: each position shows what its granule reads as, and a position past 255 no granule at all. -/
theorem readsReturnTheGranules : Obligations.ReadsReturnTheGranules := by
  intro s row first count i hi
  have hread := readExtent_getElem? s row first hi
  refine ⟨by rw [State.readExtent, List.length_map, List.length_range], fun hpast => ?_, fun _ => ⟨fun h => ?_,
    fun d => ⟨fun h => ?_, fun h => ?_, fun h => ?_⟩⟩⟩
  · have hblank : s.granule row (first + i) = .blank := if_neg (by omega)
    rw [hread, hblank]
    rfl
  all_goals rw [hread, h]; rfl

/-! ### Encoded headers and records read back (R3, R4, R8 to R12) -/

theorem classifyRowHeader_encode (h : RowHeader) (hj : 1 ≤ h.journalId ∧ h.journalId ≤ 4294967295)
    (hs : 1 ≤ h.sequence ∧ h.sequence ≤ 4294967295) (he : h.eraseCount ≤ 16777215) {o : ReadOutcome}
    (ho : o = .clean ∨ o = .corrected) : classifyRowHeader ⟨o, encodeRowHeader h⟩ = .valid h := by
  have hdecode := decodeRowHeader_encode h hj.1 hj.2 hs.1 hs.2 he
  rcases ho with rfl | rfl <;> simp only [classifyRowHeader, hdecode]

theorem findHeader_encode (h : RecordHeader) (ha : headerAllowed h = true) {o : ReadOutcome}
    (ho : o = .clean ∨ o = .corrected) : findHeader ⟨o, encodeRecordHeader h⟩ = (some h, false) := by
  have hdecode := decodeRecordHeader_encode h ha
  rcases ho with rfl | rfl <;> simp only [findHeader, hdecode]

/-- Settles O9: both headers decode to what was encoded; R9's constraints do not ask for the moved mark. -/
theorem headersRoundTrip : Obligations.HeadersRoundTrip := by
  refine ⟨fun h j1 j2 s1 s2 he => ?_, fun h ha => ?_⟩
  · have hread := @classifyRowHeader_encode h ⟨j1, j2⟩ ⟨s1, s2⟩ he
    exact ⟨hread (.inl rfl), hread (.inr rfl)⟩
  · exact ⟨findHeader_encode h ha (.inl rfl), findHeader_encode (movedCopy h) ha (.inr rfl)⟩

/-- The granules of a record read back CLEAN, one by one, from the place they were programmed at. -/
theorem readExtent_writeGranules {s : State} (ok : s.arrayOk) (row first : Nat) (granules : List Data)
    (hend : first + granules.length ≤ 256) : (s.writeGranules row first granules).readExtent row first granules.length =
      granules.map (fun d => ⟨.clean, d⟩) := by
  refine List.ext_getElem? fun i => ?_
  rcases Nat.lt_or_ge i granules.length with hi | hi
  · obtain ⟨-, -, hin⟩ := granule_writeGranules s row first granules ok row (first + i) (by omega)
    have hd : granules[i]? = some granules[i] := List.getElem?_eq_getElem hi
    rw [readExtent_getElem? _ _ _ hi, hin granules[i] (by rwa [Nat.add_sub_cancel_left]) rfl (by omega),
      List.getElem?_map, hd]
    rfl
  · rw [List.getElem?_eq_none, List.getElem?_eq_none]
    · rwa [List.length_map]
    · rwa [State.readExtent, List.length_map, List.length_range]

theorem findPayload_clean (h : RecordHeader) (payload : List Byte) (hl : h.length = payload.length)
    (hc : h.payloadCheck = crc16 payload) :
    findPayload h ((payloadGranules payload).map (fun d => ⟨.clean, d⟩)) = .intact h payload := by
  have hlen : ((payloadGranules payload).map (fun d => (⟨.clean, d⟩ : GranuleRead))).length = payloadCount h.length := by
    rw [List.length_map, payloadGranules, List.length_map, List.length_range, hl]
  have hbytes : payloadBytes h.length ((payloadGranules payload).map (fun d => ⟨.clean, d⟩)) = payload := by
    rw [payloadBytes, List.flatMap_map, payloadGranules, List.flatMap_map, hl]
    exact payloadBytes_pack payload _ (by unfold payloadCount; omega)
  have hoff : ∀ o : ReadOutcome, o ≠ .clean →
      ((payloadGranules payload).map (fun d => (⟨.clean, d⟩ : GranuleRead))).any (fun g => g.outcome = o) = false := by
    intro o ho
    simp [ho.symm]
  unfold findPayload
  dsimp only
  rw [← hlen, List.take_length, hoff _ (by decide), hoff _ (by decide), hbytes, hc]
  simp

/-- Settles O10: the header reads back as its own, and the payload granules as the payload they were packed from. -/
theorem recordReadsBackWhole : Obligations.RecordReadsBackWhole := by
  intro s row first h payload ok ha hl hc hend
  have hlen : (recordGranules h payload).length = 1 + (payload.length + 15) / 16 := by
    rw [recordGranules, List.length_cons, payloadGranules, List.length_map, List.length_range, payloadCount, add_comm]
  have hread := readExtent_writeGranules ok row first (recordGranules h payload) (by rwa [hlen])
  rw [hlen] at hread
  rw [hread, recordGranules, List.map_cons]
  simp only [findRecord, findHeader_encode h ha (.inl rfl), findPayload_clean h payload hl hc]

end Sys2Proof.Machine
end

section
/-! PROOFS. The step itself and the resets: what a reset leaves of the array, the blocks in their reset states, and the mount's
first read (R29, R30, R36, R115, R174 to R176, logs 1 to 3, 9, 10, 25, 27 and 39). -/

namespace Sys2Proof.Machine

/-- Settles O1. -/
theorem stepRunsTheFrontCommand : Obligations.StepRunsTheFrontCommand :=
  ⟨fun _ _ _ => rfl, fun s h => by simp only [step, h]⟩

/-! ### The mount begins (R27, R115) -/

/-- The first read of the mount at a free array under the mount's exclusive service: the arbiter grants it at once. -/
theorem arbitrate_firstRead {c : Controller} (hstate : c.state = .idle) (hqueue : c.queue = []) (hholder : c.holder = .mount) :
    (c.issue MountEngine.firstRead).arbitrate =
      { c with state := .reading, current := some MountEngine.firstRead } := by
  obtain ⟨state, current, queue, waiting, erase, holder, faults, corrected, uncorrectable, overflow⟩ := c
  cases hstate
  cases hqueue
  cases hholder
  rfl

theorem startMount_eq (s : State) : s.startMount = { s with ctl := (s.issue MountEngine.firstRead).ctl.arbitrate } := rfl

theorem afterReset_idle (c : Controller) (keepFaults : Bool) :
    (c.afterReset keepFaults).state = .idle ∧ (c.afterReset keepFaults).queue = [] ∧
      (c.afterReset keepFaults).holder = .mount := by
  cases keepFaults <;> exact ⟨rfl, rfl, rfl⟩

theorem startMount_resetBlocks (s : State) (keepFaults : Bool) (cause : ResetCause) (phase : ResetPhase) :
    (s.resetBlocks keepFaults cause phase).startMount = { s.resetBlocks keepFaults cause phase with
      ctl := { s.ctl.afterReset keepFaults with state := .reading, current := some MountEngine.firstRead } } := by
  obtain ⟨hstate, hqueue, hholder⟩ := afterReset_idle s.ctl keepFaults
  rw [startMount_eq]
  exact congrArg (fun c => { s.resetBlocks keepFaults cause phase with ctl := c })
    (arbitrate_firstRead hstate hqueue hholder)

/-! ### The operation in flight (R29, R30) -/

/-- What a reset cuts changes the array and the draw of free values alone. -/
theorem cut_form (s : State) (completed : Bool) : (s.cutProgram completed).cutErase = { s with
    cells := (s.cutProgram completed).cutErase.cells, freeIdx := (s.cutProgram completed).cutErase.freeIdx } := by
  have hp := cutProgram_form s completed
  have he := cutErase_form (s.cutProgram completed)
  generalize s.cutProgram completed = p at hp he ⊢
  generalize p.cutErase = u at he ⊢
  rw [he, hp]

theorem cutProgram_ctl (s : State) (completed : Bool) : (s.cutProgram completed).ctl = s.ctl := by
  rw [cutProgram_form]

/-- A reset leaves every granule outside the operation in flight, and of a row under erase blank, old or UNCORRECTABLE
granules, where no program shares the row. -/
theorem cut_granule {s : State} (completed : Bool) (ok : s.arrayOk) (row : Nat) {g : Nat} (hg : g ≤ 255) :
    let t := (s.cutProgram completed).cutErase
    (¬ s.inFlight row g → t.granule row g = s.granule row g) ∧
    ∀ e, s.ctl.erase = some e → (∀ r granules, s.ctl.current = some r → r.op = .program granules → row ≠ r.row) →
      t.granule row g = s.granule row g ∨ t.granule row g = .blank ∨ ∃ raw, t.granule row g = .written .bad raw := by
  obtain ⟨okp, hprogram, -⟩ := cutProgram_gran s completed ok
  obtain ⟨hother, herased⟩ := cutErase_gran (s.cutProgram completed) okp row g hg
  rw [cutProgram_ctl] at hother
  refine ⟨fun hflight => ?_, fun e he hrow => ?_⟩
  · rw [hother fun e he hr => hflight (.inr ⟨e, he, hr.symm⟩), hprogram row g hg]
    rintro r granules hr hop ⟨hrow, hlo, hhi⟩
    exact hflight (.inl ⟨r, granules, hr, hop, hrow, hlo, hhi⟩)
  · rwa [hprogram row g hg fun r granules hr hop hin => hrow r granules hr hop hin.1] at herased

/-- A reset leaves of a program in service a first part written and a last part as it was; the granule between is complete
under the RESET command. -/
theorem cut_program_granule {s : State} (completed : Bool) (ok : s.arrayOk) {r : Request} {granules : List Data}
    (hr : s.ctl.current = some r) (hop : r.op = .program granules) (hne : granules ≠ [])
    (herase : ∀ e, s.ctl.erase = some e → e.request.row ≠ r.row) :
    let t := (s.cutProgram completed).cutErase
    ∃ k, k < granules.length ∧ ∀ i d, granules[i]? = some d → r.first + i ≤ 255 →
      (i < k → t.granule r.row (r.first + i) = .written .agrees d) ∧
      (k < i → t.granule r.row (r.first + i) = s.granule r.row (r.first + i)) ∧
      (i = k → completed = true → t.granule r.row (r.first + i) = .written .agrees d) := by
  obtain ⟨okp, -, hprogram⟩ := cutProgram_gran s completed ok
  obtain ⟨k, hk, hcut⟩ := hprogram r granules hr hop hne
  refine ⟨k, hk, fun i d hd hi => ?_⟩
  obtain ⟨hother, -⟩ := cutErase_gran (s.cutProgram completed) okp r.row (r.first + i) hi
  rw [cutProgram_ctl] at hother
  rw [hother herase]
  exact hcut i d hd hi

/-! ### The obligations -/

/-- Settles O2: a blank array and empty blocks meet every invariant. -/
theorem resetIsSafe : Obligations.ResetIsSafe := by
  have safe : State.poweringUp.Safe := by
    refine ⟨rfl, List.Pairwise.nil, ?_, fun e he => (by cases he), ?_, ?_, ?_⟩
    · exact ⟨by decide, by decide, by decide, by decide⟩
    · exact ⟨by decide, by decide⟩
    · exact ⟨by decide, List.nodup_nil⟩
    · exact ⟨by decide, List.nodup_nil, rfl, by decide, fun i e he => by cases he⟩
  refine ⟨?_, safe, ?_⟩
  · rw [exec_resetEnd_of_held (s := State.poweringUp) rfl, startMount_eq]
    rfl
  · exact ⟨safe.array, safe.dir, safe.faults, fun e he => (by cases he), safe.buffer, safe.refresh, safe.staging⟩

/-- Settles O59: the blocks are those of the reset state but for the cause and the faults, and the array is what the cut
operation left. -/
theorem resetTakesEffect : Obligations.ResetTakesEffect := by
  intro s htaken
  have hcells : s.commandReset.cells = ((s.cutProgram true).cutErase).cells := by
    rw [State.commandReset, startMount_resetBlocks]
    rfl
  refine ⟨_, exec_resetTakesEffect_of_taken htaken, ?_, fun ok row g hg => ?_, fun ok r granules hr hop hne herase => ?_⟩
  · rw [State.commandReset, startMount_resetBlocks, cut_form]
    rfl
  · rw [granule_of_cells hcells]
    exact cut_granule true ok row hg
  · obtain ⟨k, hk, hcut⟩ := cut_program_granule true ok hr hop hne herase
    refine ⟨k, hk, fun i d hd hi => ?_⟩
    obtain ⟨hbefore, hafter, hat⟩ := hcut i d hd hi
    rw [granule_of_cells hcells]
    split
    next hle => exact (Nat.lt_or_eq_of_le hle).elim hbefore fun h => hat h rfl
    next hgt => exact hafter (by omega)

/-- A power-on or pin reset, with whether a power-on reset is part of it. -/
theorem exec_holdReset {i : Instr} {s : State} {power : Bool} (h : i = .powerOnReset ∧ power = true ∨
    i = .pinReset ∧ (power = true ↔ s.resetPhase = .held true)) : exec i s = .next (s.holdReset power) := by
  rcases h with ⟨rfl, rfl⟩ | ⟨rfl, hpower⟩
  · rfl
  · have hphase : s.resetPhase.power = power := by
      cases hp : s.resetPhase with
      | held b => cases b <;> simpa [hp, ResetPhase.power, eq_comm] using hpower
      | running => simpa [hp, ResetPhase.power, eq_comm] using hpower
      | commandTaken => simpa [hp, ResetPhase.power, eq_comm] using hpower
    rw [← hphase]
    rfl

/-- Settles O60: the blocks are those of a power-on reset but for the cause, and the array is what the cut operation left. -/
theorem powerAndPinResets : Obligations.PowerAndPinResets := by
  refine ⟨fun s i power hi => ?_, fun s power hheld => exec_resetEnd_of_held hheld⟩
  have hcells : (s.holdReset power).cells = ((s.cutProgram false).cutErase).cells := rfl
  refine ⟨_, exec_holdReset hi, ?_, fun ok row g hg => ?_, fun ok r granules hr hop hne herase => ?_⟩
  · rw [State.holdReset, State.stopArray, cut_form]
    rfl
  · rw [granule_of_cells hcells]
    exact cut_granule false ok row hg
  · obtain ⟨k, hk, hcut⟩ := cut_program_granule false ok hr hop hne herase
    refine ⟨k, hk, fun i d hd hi hne => ?_⟩
    obtain ⟨hbefore, hafter, -⟩ := hcut i d hd hi
    rw [granule_of_cells hcells]
    split
    next hlt => exact hbefore hlt
    next hge => exact hafter (by omega)

end Sys2Proof.Machine
end

section
/-! PROOFS. The window's bus cycles: CMD writes by mode, unit and reset, the DATA read, the registers written and read, and
EVENT with IRQ# (R161, R162, R164 to R172, R174, R175, R177, logs 12 to 15). -/

namespace Sys2Proof.Machine

theorem next_congr {t u : State} (h : t = u) : (.next t : Host.Outcome State Fault Refusal) = .next u := h ▸ rfl

/-! ### CMD writes (R167, R169, R170, R175) -/

theorem hostCommand_of_refused {s : State} {c : Command} {r : ResultCode} (body : State → State) (h : s.unitFree)
    (hr : refusedIn s.win.mode c = some r) : s.hostCommand c body = s.answered c r := by
  obtain ⟨hrun, hidle⟩ := h
  have hopen : s.begin.busOpen = true := decide_eq_true hrun
  simp only [State.hostCommand, if_pos hopen, State.begin_win, hidle, hr]
  exact answered_eq s c r

theorem setEvent_begin (s : State) (mask : Byte) : s.begin.setEvent mask = { s with ev := s.ev.after mask } := by
  simp only [State.setEvent, State.begin, EventUnit.after, BitVec.ofNat_eq_ofNat, BitVec.zero_or]

theorem hostCommand_of_executing {s : State} (c : Command) (body : State → State) (hrun : s.resetPhase = .running)
    (hexec : s.win.cu = .executing) : s.hostCommand c body = { s with ev := s.ev.after evRefused } := by
  have hopen : s.begin.busOpen = true := decide_eq_true hrun
  simp only [State.hostCommand, if_pos hopen, State.begin_win, hexec]
  exact setEvent_begin s evRefused

theorem unknownCommand_of_executing {s : State} (code : Byte) (hrun : s.resetPhase = .running)
    (hexec : s.win.cu = .executing) : s.unknownCommand code = { s with ev := s.ev.after evRefused } := by
  have hopen : s.begin.busOpen = true := decide_eq_true hrun
  simp only [State.unknownCommand, if_pos hopen, State.begin_win, hexec]
  exact setEvent_begin s evRefused

theorem unknownCommand_of_free {s : State} (code : Byte) (h : s.unitFree) : s.unknownCommand code =
    { s with win := { s.win with lastCode := code, cu := .idle, result := .badCommand }, ev := s.ev.after evCmdDone } := by
  obtain ⟨hrun, hidle⟩ := h
  have hopen : s.begin.busOpen = true := decide_eq_true hrun
  simp only [State.unknownCommand, if_pos hopen, State.begin_win, hidle]
  simp only [State.complete, State.setEvent, State.begin, EventUnit.after, BitVec.ofNat_eq_ofNat, BitVec.zero_or]

theorem resetCommand_of_running {s : State} (hrun : s.resetPhase = .running) : s.resetCommand =
    { s with win := { s.win with lastCode := 0x5F, cu := .executing }, ev := s.ev.after 0, resetPhase := .commandTaken } := by
  have hopen : s.begin.busOpen = true := decide_eq_true hrun
  rw [State.resetCommand, if_pos hopen, begin_eq_quietly]
  rfl

theorem commandOf_eq_none {code : Byte} (h : code ∉ commandCodes) : commandOf code = none := by
  refine Option.eq_none_iff_forall_not_mem.2 fun c hc => h ?_
  rw [commandOf_some code c hc]
  cases c <;> decide

/-- A CMD write of any code but RESET's, met by an EXECUTING unit, sets REFUSED and nothing else (R169). -/
theorem cmdWrite_of_executing {s : State} {code : Byte} (hcode : code ≠ 0x5F) (hrun : s.resetPhase = .running)
    (hexec : s.win.cu = .executing) : s.cmdWrite code = { s with ev := s.ev.after evRefused } := by
  unfold State.cmdWrite
  split
  next => exact unknownCommand_of_executing code hrun hexec
  next h => exact absurd (commandOf_some code .reset h) hcode
  next c _ _ => exact hostCommand_of_executing c _ hrun hexec

/-! ### While a reset is in force or has been taken (R174, R175) -/

section
variable {s : State} (h : s.resetPhase ≠ .running)
include h

theorem not_busOpen : ¬ s.begin.busOpen = true := fun hopen => h (of_decide_eq_true hopen)

theorem hostCommand_of_closed (c : Command) (body : State → State) : s.hostCommand c body = s.quietly := by
  rw [State.hostCommand, if_neg (not_busOpen h), begin_eq_quietly]

theorem resetCommand_of_closed : s.resetCommand = s.quietly := by
  rw [State.resetCommand, if_neg (not_busOpen h), begin_eq_quietly]

theorem busWrite_of_closed (effect : State → State) : s.busWrite effect = s.quietly := by
  rw [State.busWrite, if_neg (not_busOpen h), begin_eq_quietly]

theorem cmdWrite_of_closed (code : Byte) : s.cmdWrite code = s.quietly := by
  unfold State.cmdWrite
  split
  · rw [State.unknownCommand, if_neg (not_busOpen h), begin_eq_quietly]
  · exact resetCommand_of_closed h
  · exact hostCommand_of_closed h _ _

theorem writeRegister_of_closed (offset : BitVec 5) (b : Byte) : s.writeRegister offset b = s.quietly := by
  unfold State.writeRegister
  split_ifs
  · exact cmdWrite_of_closed h b
  all_goals exact busWrite_of_closed h _

theorem exec_command_of_closed (c : Command) : exec c.instr s = .next s.quietly := by
  by_cases hc : c = .reset
  · subst hc
    exact next_congr (resetCommand_of_closed h)
  · rw [exec_instr s c hc, hostCommand_of_closed h]

end

/-- Settles O18: the table decides, and a command that passes goes on to its own rule. -/
theorem modeTable : Obligations.ModeTable := by
  intro s c hc hfree
  have refused : ∀ r, refusedIn s.win.mode c = some r → exec c.instr s = .next (s.answered c r) := fun r hr => by
    rw [exec_instr s c hc, hostCommand_of_refused _ hfree hr]
  have passes : refusedIn s.win.mode c = none →
      s.accepts c ∧ exec c.instr s = .next (commandBody c (s.begin.take c)) := fun hr =>
    ⟨⟨hfree.1, hfree.2, hr⟩, exec_accepts s c hc ⟨hfree.1, hfree.2, hr⟩⟩
  refine ⟨fun hm => refused _ ?_, fun hm h1 h2 h3 => refused _ ?_, fun hm hmem => refused _ ?_, fun h => passes ?_⟩
  · rw [hm]
    exact if_neg (by revert hc; cases c <;> decide)
  · rw [hm]
    exact if_neg (by simpa [takenFormatting] using ⟨h1, h2, h3, hc⟩)
  · rw [hm]
    revert hmem
    cases c <;> decide
  · rcases h with hm | hm | ⟨hm, hmem⟩ | ⟨hm, hmem⟩ <;> rw [hm]
    · rfl
    · rfl
    all_goals revert hmem; cases c <;> decide

/-- Settles O19. -/
theorem otherCmdWritesAndReset : Obligations.OtherCmdWritesAndReset := by
  refine ⟨⟨fun s code hfree hcode => ?_, fun s hrun hexec => ⟨fun c hc => ?_, fun code hcode => ?_⟩⟩, fun s hrun => ?_,
    fun s h => ⟨exec_command_of_closed h, fun b => ?_⟩⟩
  · have hwrite : s.cmdWrite code = s.unknownCommand code := by rw [State.cmdWrite, commandOf_eq_none hcode]
    exact next_congr (hwrite.trans (unknownCommand_of_free code hfree))
  · rw [exec_instr s c hc, hostCommand_of_executing c _ hrun hexec]
    rfl
  · have hwrite := next_congr (cmdWrite_of_executing hcode hrun hexec)
    exact ⟨hwrite, hwrite⟩
  · exact next_congr (resetCommand_of_running hrun)
  · have hcmd := next_congr (cmdWrite_of_closed h b)
    have hbus := fun effect => next_congr (busWrite_of_closed h effect)
    exact ⟨hcmd, hcmd, hbus _, hbus _, hbus _, hbus _, fun _ => hbus _,
      fun offset => next_congr (writeRegister_of_closed h offset b)⟩

/-! ### DATA's read (R164) -/

theorem exec_dataRead_of_served {s : State} (h : s.resetPhase = .running ∨ s.resetPhase = .commandTaken) :
    exec .dataRead s = .next (if s.win.dptr < s.win.fill
      then { s.quietly with win := { s.win with dataOut := some (s.registerValue 0x0C), dptr := s.win.dptr + 1 } }
      else { s.quietly with win := { s.win with dataOut := some (s.registerValue 0x0C), overrun := true } }) := by
  show Host.Outcome.next s.dataRead = _
  have hread : s.quietly.busRead 0x0C = some (s.registerValue 0x0C) := busRead_served (s := s.quietly) h 0x0C
  rw [State.dataRead, begin_eq_quietly, hread]
  dsimp only
  split
  next power hheld =>
    have hheld : s.resetPhase = .held power := hheld
    rcases h with h | h <;> cases h.symm.trans hheld
  all_goals rfl

/-- Settles O21. -/
theorem dataReadReturns : Obligations.DataReadReturns := by
  refine ⟨fun s offset => ⟨fun h => busRead_served h offset, fun power h => busRead_held h offset⟩, fun s => ⟨fun h hfill => ?_,
    fun power h => ?_⟩⟩
  · have hdata : s.registerValue 0x0C =
        if s.win.dptr < s.win.fill then (s.win.buffer[s.win.dptr]?).getD 0 else 0xFF := rfl
    rw [exec_dataRead_of_served h, hdata]
    refine ⟨fun b hlt hb => ?_, fun hlt => ⟨_, Vector.getElem?_eq_getElem (by omega)⟩, fun hle => ?_⟩
    · rw [if_pos hlt, if_pos hlt, hb]
      rfl
    · rw [if_neg (by omega), if_neg (by omega)]
      rfl
  · show Host.Outcome.next s.dataRead = _
    refine next_congr ?_
    rw [State.dataRead, begin_eq_quietly, busRead_held (s := s.quietly) h]
    dsimp only
    split
    next => rfl
    next hrun => cases h.symm.trans hrun
    next htaken => cases h.symm.trans htaken

/-! ### DPTR, STATUS, the pin and EVENT (R158, R165, R166, R172) -/

theorem dptrWritten_eq (s : State) (b : Byte) :
    s.dptrWritten b = { s with win := { s.win with dptr := if 240 < b.toNat then 240 else b.toNat } } := by
  have hmin : min b.toNat 240 = if 240 < b.toNat then 240 else b.toNat := by split <;> omega
  rw [State.dptrWritten, hmin]

theorem statusWritten_eq (s : State) (b : Byte) :
    s.statusWritten b = { s with win := { s.win with overrun := s.win.overrun && !b.getLsbD 5 } } := by
  unfold State.statusWritten
  split
  next h => rw [h, Bool.not_true, Bool.and_false]
  next h => rw [Bool.not_eq_true] at h; rw [h, Bool.not_false, Bool.and_true]

/-- Settles O22. -/
theorem pointerStatusAndPin : Obligations.PointerStatusAndPin := by
  have bits := fun s : State => statusBits (s.win.cu = .executing) s.jobBusy s.aud.running (s.recl.job ≠ .idle)
    s.table.purgePending s.win.overrun s.wprotLow
  refine ⟨fun s b hrun => ⟨?_, ?_⟩, bits, fun s high => ⟨_, rfl, ?_, ?_⟩⟩
  · refine next_congr ((busWrite_of_running _ hrun).trans ?_)
    rw [dptrWritten_eq]
    rfl
  · refine next_congr ((busWrite_of_running _ hrun).trans ?_)
    rw [statusWritten_eq]
    rfl
  · rw [begin_eq_quietly]
    rfl
  · exact (bits { s.begin with wprotLow := !high }).2.2.2.2.2.2.1

theorem after_zero (e : EventUnit) : e.after 0 = { e with justSet := 0 } := by
  simp only [EventUnit.after, BitVec.ofNat_eq_ofNat, BitVec.or_zero]

theorem getLsbD_cleared (event b kept : Byte) {i : Nat} (hi : i < 8) :
    (event &&& ~~~(b &&& ~~~kept)).getLsbD i = (event.getLsbD i && (!b.getLsbD i || kept.getLsbD i)) := by
  simp only [BitVec.getLsbD_and, BitVec.getLsbD_not, hi, decide_true, Bool.true_and, Bool.not_and, Bool.not_not]

/-- Settles O23. -/
theorem eventWrites : Obligations.EventWrites := by
  intro s b hrun
  refine ⟨fun together => ?_, ?_, ?_⟩
  · have hwrite : s.busWrite (fun t => t.eventWritten b (s.keptBy together)) = { s with ev :=
        { s.ev with event := s.ev.event &&& ~~~(b &&& ~~~s.keptBy together), justSet := 0 } } := by
      rw [busWrite_of_running _ hrun]
      simp only [State.eventWritten, State.quietly, after_zero]
    refine ⟨_, next_congr hwrite, rfl, fun i hi => ?_⟩
    rw [getLsbD_cleared _ _ _ hi]
    cases together
    · simp [State.keptBy]
    · simp [State.keptBy]
  · refine next_congr ((busWrite_of_running _ hrun).trans ?_)
    simp only [State.enableWritten, State.quietly, after_zero]
  · rw [State.irqLow, decide_eq_true_eq, and_ne_zero_iff]

/-! ### The other registers (R162, log 15) -/

theorem exec_hostRegisterWrite_plain {s : State} {offset : BitVec 5} (b : Byte) (hoff : offset ∉ specialOffsets)
    (hrun : s.resetPhase = .running) :
    exec (.hostRegisterWrite offset b) s = .next (s.quietly.plainWritten offset.toNat b) := by
  simp only [specialOffsets, List.mem_cons, List.not_mem_nil, or_false, not_or] at hoff
  obtain ⟨hcmd, hstatus, hevent, hdata⟩ := hoff
  show Host.Outcome.next (s.writeRegister offset b) = _
  rw [State.writeRegister, if_neg hcmd, if_neg hstatus, if_neg hevent, if_neg hdata, busWrite_of_running _ hrun]

/-- Settles O24: each host register's write by its offset, the rest of the window untouched. -/
theorem registerWrites : Obligations.RegisterWrites := by
  refine ⟨fun s b hrun => ?_, fun s => ⟨rfl, rfl, rfl, rfl, rfl, rfl, rfl, rfl, rfl, rfl, rfl, rfl⟩⟩
  have plain : ∀ offset, offset ∉ specialOffsets → exec (.hostRegisterWrite offset b) s =
      .next (s.quietly.plainWritten offset.toNat b) := fun offset h => exec_hostRegisterWrite_plain b h hrun
  obtain ⟨hsig0, hsig1, hsig2, hsig3⟩ := setByte32_cat s.win.sig b
  refine ⟨?_, plain 0x06 (by decide), plain 0x07 (by decide), plain 0x08 (by decide), plain 0x09 (by decide),
    plain 0x0A (by decide), plain 0x0B (by decide), ?_, ?_, ?_, ?_, ?_, fun offset hmem => ?_, rfl, rfl, rfl, rfl⟩
  · refine (plain 0x05 (by decide)).trans ?_
    show Host.Outcome.next (s.quietly.enableWritten b) = _
    simp only [State.enableWritten, State.quietly, after_zero]
  · refine (plain 0x0D (by decide)).trans ?_
    show Host.Outcome.next (s.quietly.dptrWritten b) = _
    rw [dptrWritten_eq]
    rfl
  · rw [← hsig0]
    exact plain 0x13 (by decide)
  · rw [← hsig1]
    exact plain 0x14 (by decide)
  · rw [← hsig2]
    exact plain 0x15 (by decide)
  · rw [← hsig3]
    exact plain 0x16 (by decide)
  · simp only [List.mem_cons, List.not_mem_nil, or_false] at hmem
    rcases hmem with rfl | rfl | rfl | rfl | rfl | rfl | rfl | rfl | rfl | rfl | rfl | rfl | rfl | rfl | rfl | rfl <;>
      exact plain _ (by decide)

/-- Settles O35. -/
theorem checksGiveTheExamples : Obligations.ChecksGiveTheExamples := by
  refine ⟨?_, ?_, ?_, ?_, ?_⟩ <;> decide +kernel

end Sys2Proof.Machine
end

section
/-! PROOFS. The commands that check, answer and write the host's own tables: staging, guards, faults, INFO, and the checks of
the jobs and of the audit (R34 to R37, R57 to R61, R69, R130, R143 to R145, R151, R154, R156, R157). -/

namespace Sys2Proof.Machine

/-! ### Commands that check first (R168) -/

/-- A command whose failing check answers for it. -/
theorem exec_of_check {s : State} {c : Command} {check : Option ResultCode} {go : State} {r : ResultCode}
    (hacc : s.accepts c) (hc : c ≠ .reset) (hbody : commandBody c (s.begin.take c) = (s.begin.take c).answerOr check go)
    (hr : check = some r) : exec c.instr s = .next (s.answered c r) := by
  rw [exec_accepts s c hc hacc, hbody, hr, ← answered_eq]
  rfl

/-- A command whose checks pass goes on. -/
theorem exec_of_passed {s : State} {c : Command} {check : Option ResultCode} {go : State}
    (hacc : s.accepts c) (hc : c ≠ .reset) (hbody : commandBody c (s.begin.take c) = (s.begin.take c).answerOr check go)
    (hr : check = none) : exec c.instr s = .next go := by
  rw [exec_accepts s c hc hacc, hbody, hr]
  rfl

/-! ### Staging (R57 to R61) -/

theorem stagePutCheck_eq (s : State) : s.stagePutCheck =
    if s.staging.lock = true then some .stagingLocked
    else if s.win.latch.key = 0xFFFF ∨ 240 < s.win.latch.len.toNat then some .badArg
    else if guardMode s.guards s.win.latch.key ≠ .off then some .guarded
    else if s.win.latch.key.toNat ∈ s.staging.entries.map StagedEntry.key then some .duplicate
    else if 16 ≤ s.staging.entries.length then some .stagingFull
    else if 1024 < s.staging.poolFill + s.win.latch.len.toNat then some .poolFull
    else none := by
  simp only [State.stagePutCheck, writeGuarded_iff, hasKey_iff, setLimit, poolSize]
  rfl

theorem stagePutCheck_passes {s : State} (hlock : s.staging.lock = false) (hkey : s.win.latch.key ≠ 0xFFFF)
    (hguard : guardMode s.guards s.win.latch.key = .off)
    (hdup : s.win.latch.key.toNat ∉ s.staging.entries.map StagedEntry.key) (hfull : s.staging.entries.length < 16)
    (hlen : s.win.latch.len.toNat ≤ 240)
    (hpool : s.staging.poolFill + s.win.latch.len.toNat ≤ 1024) : s.stagePutCheck = none := by
  rw [stagePutCheck_eq, if_neg (by rw [hlock]; exact Bool.false_ne_true), if_neg (not_or.2 ⟨hkey, not_lt.2 hlen⟩),
    if_neg (not_not.2 hguard), if_neg hdup, if_neg (not_le.2 hfull), if_neg (not_lt.2 hpool)]

theorem hasValue_check (dir : List DirEntry) (key : Nat) :
    (if hasValue dir key = true then none else some ResultCode.notFound) =
      match dirFind dir key with
      | none => some .notFound
      | some e => if e.state = .tombstone then some .notFound else none := by
  unfold hasValue
  cases dirFind dir key with
  | none => rfl
  | some e => cases he : e.state <;> simp [DirEntry.readable, he]

theorem stageDeleteCheck_eq (s : State) : s.stageDeleteCheck =
    if s.staging.lock = true then some .stagingLocked
    else if s.win.latch.key = 0xFFFF then some .badArg
    else if guardMode s.guards s.win.latch.key ≠ .off then some .guarded
    else if s.win.latch.key.toNat ∈ s.staging.entries.map StagedEntry.key then some .duplicate
    else if 16 ≤ s.staging.entries.length then some .stagingFull
    else match dirFind s.dir s.win.latch.key.toNat with
      | none => some .notFound
      | some e => if e.state = .tombstone then some .notFound else none := by
  simp only [State.stageDeleteCheck, writeGuarded_iff, hasKey_iff, setLimit, hasValue_check]

theorem stageDeleteCheck_passes {s : State} {e : DirEntry} (hlock : s.staging.lock = false)
    (hkey : s.win.latch.key ≠ 0xFFFF) (hguard : guardMode s.guards s.win.latch.key = .off)
    (hdup : s.win.latch.key.toNat ∉ s.staging.entries.map StagedEntry.key) (hfull : s.staging.entries.length < 16)
    (he : dirFind s.dir s.win.latch.key.toNat = some e) (hstate : e.state = .live ∨ e.state = .damaged) :
    s.stageDeleteCheck = none := by
  rw [stageDeleteCheck_eq, if_neg (by rw [hlock]; exact Bool.false_ne_true), if_neg hkey, if_neg (not_not.2 hguard),
    if_neg hdup, if_neg (not_le.2 hfull), he]
  rcases hstate with h | h <;> exact if_neg (by rw [h]; decide)

/-- Settles O25: the bodies' checks are the statement's, read from the latched arguments. -/
theorem stagingChecksInOrder : Obligations.StagingChecksInOrder := by
  refine ⟨fun s r hacc h => exec_of_check hacc (by decide) rfl ?_, fun s r hacc h => exec_of_check hacc (by decide) rfl ?_⟩
  · exact (stagePutCheck_eq _).trans h
  · exact (stageDeleteCheck_eq _).trans h

theorem nextVersion_of_some {dir : List DirEntry} {key : Nat} {e : DirEntry} (h : dirFind dir key = some e) :
    nextVersion dir key = if e.version = 65535 then 1 else e.version + 1 := by
  rw [nextVersion, h]

/-- STAGE_PUT's payload: the first LEN bytes of the transfer buffer, latched (R58). -/
theorem take_stagePut_payload {s : State} (hlen : s.win.len.toNat ≤ 240) :
    (s.begin.take .stagePut).win.latch.payload = readFrom s.win.buffer 0 s.win.len.toNat :=
  congrArg (readFrom s.win.buffer 0) (Nat.min_eq_left hlen)

/-- A staging command that passes: the staged set and the forecast differ from what it leaves by answering. -/
theorem complete_staged (s : State) (c : Command) {g g' : Staging} (k : Nat) (h : g = g') :
    ({ s.begin.take c with staging := g }.forecast k).complete .ok = { s.answered c .ok with
      win := { s.win.answered c .ok with ver := BitVec.ofNat 16 (nextVersion s.dir k) }, staging := g' } := by
  rw [← answered_eq, h]
  rfl

/-- Settles O26. -/
theorem stagedSetCommands : Obligations.StagedSetCommands := by
  refine ⟨fun s hacc hlock hkey hlen hguard hdup hfull hpool => ?_,
    fun s e hacc hlock hkey hguard hdup hfull he hstate => ?_,
    fun s hacc => ⟨fun hlock => ?_, fun hlock => ?_⟩⟩
  · have hcheck := stagePutCheck_passes (s := s.begin.take .stagePut) hlock hkey hguard hdup hfull hlen hpool
    have hpayload := take_stagePut_payload hlen
    have hadd : s.staging.addPut s.win.key.toNat (s.begin.take .stagePut).win.latch.payload =
        { entries := s.staging.entries ++ [⟨.put, s.win.key.toNat, s.win.len.toNat, some s.staging.poolFill⟩]
          pool := writeFrom s.staging.pool s.staging.poolFill (readFrom s.win.buffer 0 s.win.len.toNat)
          poolFill := s.staging.poolFill + s.win.len.toNat
          lock := false } := by
      rw [hpayload]
      simp only [Staging.addPut, readFrom_length, hlock]
    refine ⟨_, (exec_of_passed hacc (by decide) rfl hcheck).trans (next_congr (complete_staged s .stagePut _ hadd)), rfl,
      fun i hi => ?_⟩
    rw [writeFrom_getElem? _ _ _ _ hi, readFrom_length]
    split
    next hin => rw [readFrom_getElem? _ _ _ _ (by omega) (by omega), Nat.zero_add]
    next => rfl
  · have hcheck := stageDeleteCheck_passes (s := s.begin.take .stageDelete) hlock hkey hguard hdup hfull he hstate
    rw [← nextVersion_of_some he]
    exact (exec_of_passed hacc (by decide) rfl hcheck).trans (next_congr (complete_staged s .stageDelete _ rfl))
  · exact exec_of_check hacc (by decide) rfl (if_pos hlock)
  · rw [show exec .discard s = _ from exec_of_passed hacc (by decide) rfl (if_neg (by simpa using hlock)), ← answered_eq]
    rfl

/-! ### Faults (R34 to R37) -/

theorem bump_eq {limit n : Nat} (h : n ≤ limit) : bump limit n = min (n + 1) limit := by
  unfold bump
  split <;> omega

theorem faultPopBody_of_empty {s : State} (h : s.ctl.faults = []) : s.faultPopBody = s.complete .notFound := by
  rw [State.faultPopBody, h]

theorem faultPopBody_of_cons {s : State} {f : ArrayFault} {rest : List ArrayFault} (h : s.ctl.faults = f :: rest) :
    s.faultPopBody = State.complete { s with ctl := { s.ctl with faults := rest } } .ok := by
  rw [State.faultPopBody, h]

theorem exec_faultPop {s : State} (h : s.accepts .faultPop) :
    exec .faultPop s = .next (s.begin.take .faultPop).faultPopBody :=
  exec_accepts s .faultPop (by decide) h

/-- Settles O17. -/
theorem faultsCapturedAndPopped : Obligations.FaultsCapturedAndPopped := by
  constructor
  · intro s f up hcorrected huncorrectable hoverflow
    have hc : bump counterLimit s.ctl.corrected = up s.ctl.corrected := bump_eq hcorrected
    have hu : bump counterLimit s.ctl.uncorrectable = up s.ctl.uncorrectable := bump_eq huncorrectable
    have ho : bump counterLimit s.ctl.overflow = up s.ctl.overflow := bump_eq hoverflow
    obtain ⟨kind, origin, row, granule⟩ := f
    by_cases hroom : s.ctl.faults.length < 8
    all_goals
      cases kind <;>
        simp [State.capture, Controller.countKind, faultListSize, State.setEvent, evFault, hroom, hc, hu, ho]
  · intro s hacc
    rw [exec_faultPop hacc]
    refine ⟨fun hnone => ?_, fun f rest hfaults => ⟨_, next_congr ?_, rfl, rfl, ?_, ?_⟩⟩
    · rw [faultPopBody_of_empty (s := s.begin.take .faultPop) hnone, answered_eq]
    · rw [faultPopBody_of_cons (s := s.begin.take .faultPop) hfaults, ← answered_eq]
      rfl
    · rintro rfl
      exact ⟨rfl, rfl, rfl⟩
    · rintro g more rfl
      exact ⟨rfl, rfl, rfl⟩

/-! ### INFO (R143) -/

theorem entriesIn_eq (dir : List DirEntry) (st : EntryState) : entriesIn dir st = dir.countP (fun e => e.state = st) :=
  List.countP_eq_length_filter.symm

theorem length_rowsIn (s : State) (st : RowState) :
    (s.rowsIn st).length = (List.range 64).countP (fun r => (s.row r).state = some st) :=
  List.countP_eq_length_filter.symm

theorem shown_eq (n : NextSetId) : n.shown = match n with | .id n => n | .exhausted => 0 | .unset => 0 := by
  cases n <;> rfl

/-- A command that answers OK with an image in the transfer buffer. -/
theorem exec_fills {s : State} {c : Command} {image : List Byte} (hacc : s.accepts c) (hc : c ≠ .reset)
    (hbody : commandBody c (s.begin.take c) = ((s.begin.take c).fillBuffer image).complete .ok)
    (hlen : image.length ≤ 240) : ∃ t, exec c.instr s = .next t ∧
      t = { s.answered c .ok with
        win := { s.win.answered c .ok with buffer := t.win.buffer, fill := image.length, dptr := 0 } } ∧
      s.win.filled t.win image :=
  ⟨_, (exec_accepts s c hc hacc).trans (next_congr hbody), complete_fillBuffer s c .ok image,
    filled_fillBuffer s.win (s.begin.take c) image rfl hlen⟩

/-- Settles O31. -/
theorem infoShowsTheStatus : Obligations.InfoShowsTheStatus := by
  intro s hacc
  obtain ⟨t, hexec, hform, hfilled⟩ := exec_fills (c := .info) (image := s.infoImage) hacc (by decide) rfl
    (by rw [infoImage_length]; decide)
  rw [infoImage_length] at hform
  simp only [State.infoImage, shown_eq, entriesUsed, entriesIn_eq, State.erasedRows, State.badRows, length_rowsIn] at hfilled
  exact ⟨t, hexec, hform, hfilled⟩

/-! ### Guards (R154, R156, R157) -/

theorem toList_guards (guards : Vector Guard 4) (g : Guard) : g ∈ guards.toList ↔ ∃ i, i < 4 ∧ guardAt guards i = g := by
  rw [List.mem_iff_getElem?]
  refine exists_congr fun i => ?_
  by_cases h : i < 4
  · simp [guardAt_get guards i h, h]
  · simp [h]

/-- The fold of R154 over some entries, from a mode on. -/
theorem foldStricter_iff (key : KeyWord) (l : List Guard) (m : GuardMode) :
    let r := l.foldl (fun m g => if g.covers key then stricter m g.mode else m) m
    (r = .noAccess ↔ m = .noAccess ∨ ∃ g ∈ l, g.covers key = true ∧ g.mode = .noAccess) ∧
    (r = .off ↔ m = .off ∧ ∀ g ∈ l, g.covers key = true → g.mode = .off) := by
  induction l generalizing m with
  | nil => simp
  | cons g t ih =>
    obtain ⟨hno, hoff⟩ := ih (if g.covers key then stricter m g.mode else m)
    simp only [List.foldl_cons, hno, hoff, List.exists_mem_cons_iff, List.forall_mem_cons]
    cases hg : g.covers key with
    | false => simp
    | true => cases m <;> cases hm : g.mode <;> simp [stricter]

theorem covers_iff (g : Guard) (key : KeyWord) : g.covers key = true ↔ g.lo ≤ key ∧ key ≤ g.hi := by
  simp [Guard.covers]

theorem guardMode_noAccess_iff (guards : Vector Guard 4) (key : KeyWord) : guardMode guards key = .noAccess ↔
    ∃ i, (i < 4 ∧ (guardAt guards i).lo ≤ key ∧ key ≤ (guardAt guards i).hi) ∧ (guardAt guards i).mode = .noAccess := by
  refine (foldStricter_iff key guards.toList .off).1.trans ⟨?_, ?_⟩
  · rintro (h | ⟨g, hmem, hcovers, hmode⟩)
    · cases h
    · obtain ⟨i, hi, rfl⟩ := (toList_guards guards g).1 hmem
      exact ⟨i, ⟨hi, (covers_iff _ _).1 hcovers⟩, hmode⟩
  · rintro ⟨i, ⟨hi, hlies⟩, hmode⟩
    exact .inr ⟨_, (toList_guards guards _).2 ⟨i, hi, rfl⟩, (covers_iff _ _).2 hlies, hmode⟩

theorem guardMode_off_iff (guards : Vector Guard 4) (key : KeyWord) : guardMode guards key = .off ↔
    ∀ i, (i < 4 ∧ (guardAt guards i).lo ≤ key ∧ key ≤ (guardAt guards i).hi) → (guardAt guards i).mode = .off := by
  refine (foldStricter_iff key guards.toList .off).2.trans ⟨fun ⟨_, hall⟩ i ⟨hi, hlies⟩ => ?_, fun hall => ⟨rfl, ?_⟩⟩
  · exact hall _ ((toList_guards guards _).2 ⟨i, hi, rfl⟩) ((covers_iff _ _).2 hlies)
  · intro g hmem hcovers
    obtain ⟨i, hi, rfl⟩ := (toList_guards guards g).1 hmem
    exact hall i ⟨hi, (covers_iff _ _).1 hcovers⟩

/-- Settles O36: NO_WRITE is what is left when some entry is not OFF and none is NO_ACCESS. -/
theorem guardModeIsTheStrictest : Obligations.GuardModeIsTheStrictest := by
  intro guards key lies
  have hno := guardMode_noAccess_iff guards key
  have hoff := guardMode_off_iff guards key
  refine ⟨hno, ⟨fun h => ⟨?_, fun hex => ?_⟩, fun ⟨⟨i, hlies, hmode⟩, hnone⟩ => ?_⟩, hoff⟩
  · have hnone : ¬ ∃ i, lies i ∧ (guardAt guards i).mode = .noAccess := fun hex => by cases h.symm.trans (hno.2 hex)
    by_contra hcon
    have : guardMode guards key = .off := hoff.2 fun i hlies => by
      cases hm : (guardAt guards i).mode with
      | off => rfl
      | noWrite => exact absurd ⟨i, hlies, hm⟩ hcon
      | noAccess => exact absurd ⟨i, hlies, hm⟩ hnone
    cases h.symm.trans this
  · cases h.symm.trans (hno.2 hex)
  · cases hm : guardMode guards key with
    | off => cases hmode.symm.trans (hoff.1 hm i hlies)
    | noWrite => rfl
    | noAccess => exact absurd (hno.1 hm) hnone

theorem guardReadBody_of_index {s : State} (h : s.win.latch.arg.toNat ≤ 3) : s.guardReadBody =
    (s.fillBuffer (guardImage (guardAt s.guards s.win.latch.arg.toNat))).complete .ok := by
  have hcheck : (if 3 < s.win.latch.arg.toNat then some ResultCode.badArg else none) = none := if_neg (not_lt.2 h)
  rw [State.guardReadBody, hcheck]
  rfl

/-- Settles O38. -/
theorem guardFreezeAndRead : Obligations.GuardFreezeAndRead := by
  refine ⟨fun s hacc => ⟨fun hidx => ?_, fun hidx hpin => ?_, fun hidx hpin => ?_⟩, fun s hacc => ⟨fun hidx => ?_, fun hidx => ?_⟩⟩
  · exact exec_of_check hacc (by decide) rfl (if_pos hidx)
  · exact exec_of_check hacc (by decide) rfl ((if_neg (not_lt.2 hidx)).trans (if_pos hpin))
  · refine ⟨_, exec_of_passed hacc (by decide) rfl ((if_neg (not_lt.2 hidx)).trans (if_neg (by simpa using hpin))), ?_,
      fun i hi => ?_⟩
    · rw [complete_setGuard]
    · show guardAt (s.guards.setIfInBounds s.win.arg.toNat _) i = _
      rw [guardAt_set]
      by_cases h : i = s.win.arg.toNat
      · rw [if_pos ⟨h.symm, hi⟩, if_pos h, h]
        rfl
      · rw [if_neg (fun hh => h hh.1.symm), if_neg h]
  · exact exec_of_check hacc (by decide) rfl (if_pos hidx)
  · obtain ⟨t, hexec, hform, hfilled⟩ := exec_fills (c := .guardRead) (image := guardImage (guardAt s.guards s.win.arg.toNat))
      hacc (by decide) (guardReadBody_of_index hidx) (by rw [guardImage_length]; decide)
    rw [guardImage_length] at hform
    refine ⟨t, hexec, hform, ?_⟩
    cases hm : (guardAt s.guards s.win.arg.toNat).mode <;>
      simpa only [guardImage, GuardMode.code, hm, bitIf] using hfilled

/-! ### The checks of COMMIT, FORMAT and AUDIT (R69, R130, R145) -/

theorem keysWithoutEntry_eq (dir : List DirEntry) (l : List StagedEntry) :
    keysWithoutEntry dir (l.map StagedEntry.key) = l.countP (fun e => (dirFind dir e.key).isNone) := by
  rw [keysWithoutEntry, List.filter_map, List.length_map, List.countP_eq_length_filter]
  rfl

theorem commitCheck_eq (s : State) : s.commitCheck =
    if s.engine.state ≠ .idle ∨ s.fmt ≠ none then some .busy
    else if s.staging.entries = [] then some .emptySet
    else if s.win.mode = .readOnly then some .readOnly
    else if ∃ e ∈ s.staging.entries, guardMode s.guards (BitVec.ofNat 16 e.key) ≠ .off then some .guarded
    else if 512 - s.dir.length < s.staging.entries.countP (fun e => (dirFind s.dir e.key).isNone) then some .dirFull
    else none := by
  simp only [State.commitCheck, State.jobBusy, Bool.or_eq_true, decide_eq_true_eq, Option.isSome_iff_ne_none,
    List.isEmpty_iff, State.stagedGuarded, List.any_eq_true, writeGuarded_iff, freeEntries, dirCapacity, entriesUsed,
    keysWithoutEntry_eq]

theorem anyGuardOn_iff (guards : Vector Guard 4) :
    anyGuardOn guards = true ↔ ∃ i : Fin 4, (guardAt guards i).mode ≠ .off := by
  simp only [anyGuardOn, List.any_eq_true, toList_guards, bne_iff_ne]
  constructor
  · rintro ⟨_, ⟨i, hi, rfl⟩, hmode⟩
    exact ⟨⟨i, hi⟩, hmode⟩
  · rintro ⟨i, hmode⟩
    exact ⟨_, ⟨i, i.2, rfl⟩, hmode⟩

theorem formatCheck_eq (s : State) : s.formatCheck =
    if s.engine.state ≠ .idle ∨ s.aud.running = true then some .busy
    else if s.wprotLow = true then some .pinLocked
    else if ∃ i : Fin 4, (guardAt s.guards i).mode ≠ .off then some .guarded
    else if 4294967295 ≤ s.mnt.highestJournalId then some .arrayFault
    else none := by
  simp only [State.formatCheck, anyGuardOn_iff, fieldLimit]
  rfl

/-- Settles O39. -/
theorem jobChecksInOrder : Obligations.JobChecksInOrder := by
  refine ⟨fun s r hacc h => exec_of_check hacc (by decide) rfl ?_, fun s r hacc h => exec_of_check hacc (by decide) rfl ?_⟩
  · refine (commitCheck_eq _).trans (Eq.trans ?_ h)
    rfl
  · refine (formatCheck_eq _).trans (Eq.trans ?_ h)
    rfl

theorem auditCheck_eq (s : State) : s.auditCheck =
    if s.win.latch.key = 0xFFFF ∨ s.win.latch.key2 = 0xFFFF ∨ s.win.latch.key2 < s.win.latch.key then some .badArg
    else if s.aud.running = true then some .busy
    else if ∃ i : Fin 4, (guardAt s.guards i).mode = .noAccess ∧ (guardAt s.guards i).lo ≤ s.win.latch.key2 ∧
      s.win.latch.key ≤ (guardAt s.guards i).hi then some .guarded
    else none := by
  simp only [State.auditCheck, rangeMeetsNoAccess_iff]

theorem eraseContext_abandon (who : Requester) (e : EraseContext) : { e with request := e.request.abandon who } =
    if e.request.requester = who then { e with request := { e.request with waited := false } } else e := by
  unfold EraseRequest.abandon
  split <;> rfl

/-- The requests of a requester that no longer waits, with each request's condition written out. -/
theorem abandonRequests_eq (s : State) (who : Requester) : s.abandonRequests who = { s with ctl := { s.ctl with
    current := s.ctl.current.map (fun r => if r.requester = who then { r with waited := false } else r)
    queue := s.ctl.queue.map (fun r => if r.requester = who then { r with waited := false } else r)
    eraseWaiting := s.ctl.eraseWaiting.map (fun e => if e.requester = who then { e with waited := false } else e)
    erase := s.ctl.erase.map (fun e =>
      if e.request.requester = who then { e with request := { e.request with waited := false } } else e) } } := by
  simp only [State.abandonRequests, eraseContext_abandon]
  rfl

theorem auditAbortBody_of_idle {s : State} (h : s.aud.running = false) : s.auditAbortBody = s.complete .notFound :=
  if_neg (by rw [h]; exact Bool.false_ne_true)

theorem auditAbortBody_of_running {s : State} (h : s.aud.running = true) :
    s.auditAbortBody = (s.endAudit .aborted 0).complete .ok :=
  if_pos h

/-- Settles O32. -/
theorem auditRefusedAndAborted : Obligations.AuditRefusedAndAborted := by
  refine ⟨fun s r hacc h => exec_of_check hacc (by decide) rfl ((auditCheck_eq _).trans h),
    fun s hacc => ⟨fun hidle => ?_, fun hrun => ?_⟩⟩ <;>
    rw [show exec .auditAbort s = _ from exec_accepts s .auditAbort (by decide) hacc]
  · rw [← answered_eq]
    exact next_congr (auditAbortBody_of_idle (s := s.begin.take .auditAbort) hidle)
  · refine next_congr ((auditAbortBody_of_running (s := s.begin.take .auditAbort) hrun).trans ?_)
    simp [State.endAudit, abandonRequests_eq, State.begin, State.take, State.complete, State.setEvent, EventUnit.after,
      Window.answered, evAuditDone, evCmdDone, BitVec.or_assoc]

end Sys2Proof.Machine
end

section
/-! PROOFS. What the arbiter grants, and where a completion's result goes (O15, O16). -/

namespace Sys2Proof.Machine

/-! ### The arbiter at a free array -/

theorem issue_of_erasing {s : State} {e : EraseContext} (r : Request) (hstate : s.ctl.state = .erasing)
    (he : s.ctl.erase = some e) : s.issue r = { s with ctl := { s.ctl with
      queue := s.ctl.queue ++ [r]
      erase := some (if e.suspending = false ∧ e.count < 32 ∧ e.request.requester ≠ .format then
        { e with count := e.count + 1, suspending := true } else e) } } := by
  simp only [State.issue, Controller.issue, if_pos hstate, he, Option.map_some, EraseContext.onArrival, suspensionLimit]
  rfl

section
variable {c : Controller} (hidle : c.state = .idle)
include hidle

theorem arbitrate_of_pick {r : Request} (h : c.pick = some r) :
    c.arbitrate = { c with state := r.op.serving, current := some r, queue := c.queue.erase r } := by
  simp only [Controller.arbitrate, if_pos hidle, h]

theorem arbitrate_of_suspended (hpick : c.pick = none) {e : EraseContext} (he : c.erase = some e) :
    c.arbitrate = { c with state := .erasing } := by
  simp only [Controller.arbitrate, if_pos hidle, hpick, he]

theorem arbitrate_of_waiting (hpick : c.pick = none) (herase : c.erase = none) {e : EraseRequest}
    (he : c.eraseWaiting = some e) : c.arbitrate = if c.holder.admits e.requester = true then
      { c with state := .erasing, erase := some ⟨e, 0, false⟩, eraseWaiting := none } else c := by
  simp only [Controller.arbitrate, if_pos hidle, hpick, herase, he]

theorem arbitrate_of_nothing (hpick : c.pick = none) (herase : c.erase = none) (he : c.eraseWaiting = none) :
    c.arbitrate = c := by
  simp only [Controller.arbitrate, if_pos hidle, hpick, herase, he]

end

theorem pick_of_nobody {c : Controller} (h : c.holder = .nobody) : c.pick =
    bestOf (fun a b => decide (grantClass a.requester < grantClass b.requester)) c.queue := by
  have hall : c.queue.filter (fun r => c.holder.admits r.requester) = c.queue :=
    List.filter_eq_self.2 (fun _ _ => by rw [h]; rfl)
  rw [Controller.pick, hall]

/-- Where no later element beats the first, it is the one taken. -/
theorem bestOf_head {α : Type} {better : α → α → Bool} {x : α} {t : List α} (h : ∀ b ∈ t, better b x = false) :
    bestOf better (x :: t) = some x := by
  cases hb : bestOf better t with
  | none => simp only [bestOf, hb]
  | some b =>
    have hnot := h b (bestOf_mem better t b hb)
    simp only [bestOf, hb, hnot, Bool.false_eq_true, if_false]

section
variable {c : Controller} {who : Requester}
    (hholder : c.holder = .mount ∧ who = .mount ∨ c.holder = .format ∧ who = .format)
include hholder

theorem admits_iff (q : Requester) : c.holder.admits q = decide (q = who) := by
  rcases hholder with ⟨h, rfl⟩ | ⟨h, rfl⟩ <;> rw [h] <;> rfl

theorem pick_of_holder : c.pick = bestOf (fun a b => decide (grantClass a.requester < grantClass b.requester))
    (c.queue.filter (fun r => decide (r.requester = who))) := by
  rw [Controller.pick]
  simp only [admits_iff hholder]

theorem pick_of_holder_first {before after : List Request} {r : Request} (hq : c.queue = before ++ r :: after)
    (hr : r.requester = who) (hb : ∀ q ∈ before, q.requester ≠ who) : c.pick = some r := by
  have hnone : before.filter (fun r => decide (r.requester = who)) = [] :=
    List.filter_eq_nil_iff.2 (fun q h => by simpa using hb q h)
  rw [pick_of_holder hholder, hq, List.filter_append, hnone, List.nil_append, List.filter_cons_of_pos (by simpa using hr)]
  refine bestOf_head (fun b hmem => ?_)
  have hwho : b.requester = who := by simpa using (List.mem_filter.1 hmem).2
  rw [hwho, hr]
  exact decide_eq_false (Nat.lt_irrefl _)

theorem pick_of_holder_none (hq : ∀ q ∈ c.queue, q.requester ≠ who) : c.pick = none := by
  rw [pick_of_holder hholder, List.filter_eq_nil_iff.2 (fun q h => by simpa using hq q h)]
  rfl

end

/-- Settles O15. -/
theorem arbiterGrantsAndSuspends : Obligations.ArbiterGrantsAndSuspends := by
  refine ⟨fun s r e => issue_of_erasing r, fun c hidle hnobody => ?_, fun c who hidle hholder => ?_⟩
  · have hempty : c.queue = [] → c.pick = none := fun hq => by rw [pick_of_nobody hnobody, hq]; rfl
    refine ⟨fun hq => ?_, fun hq e he => arbitrate_of_suspended hidle (hempty hq) he, fun hq herase e he => ?_,
      fun hq herase he => arbitrate_of_nothing hidle (hempty hq) herase he⟩
    · obtain ⟨r, hr⟩ := bestOf_some (fun a b : Request => decide (grantClass a.requester < grantClass b.requester)) _ hq
      obtain ⟨hmem, hleast⟩ := bestOf_least (fun q : Request => grantClass q.requester) _ r hr
      exact ⟨r, hmem, hleast, arbitrate_of_pick hidle ((pick_of_nobody hnobody).trans hr)⟩
    · rw [arbitrate_of_waiting hidle (hempty hq) herase he, hnobody]
      exact if_pos rfl
  · refine ⟨fun before r after hq hr hb => ?_, fun hq => ?_⟩
    · have hnot : r ∉ before := fun h => hb r h hr
      rw [arbitrate_of_pick hidle (pick_of_holder_first hholder hq hr hb), hq, List.erase_append_right _ hnot,
        List.erase_cons_head]
    · have hpick := pick_of_holder_none hholder hq
      refine ⟨fun e he => arbitrate_of_suspended hidle hpick he, fun herase e he => ?_,
        fun herase he => arbitrate_of_nothing hidle hpick herase he⟩
      rw [arbitrate_of_waiting hidle hpick herase he, admits_iff hholder]
      simp only [decide_eq_true_eq]

/-! ### Completions and replies -/

theorem readDone_eq (s : State) (r : Request) (count : Nat) (drift : List (BitVec 8 × Granule)) :
    s.begin.readDone r count drift = s.begin.runEvent (if r.waited = true then
      (s.readTaken r count drift).deliverRead r.requester r.row r.first (s.readSeen r count drift)
      else (s.readTaken r count drift, [])) := by
  have hreads : (s.begin.applyDrift r.row drift).readExtent r.row r.first count = s.readSeen r count drift :=
    readExtent_of_cells (applyDrift_cells drift (show s.begin.cells = s.cells from rfl) r.row) _ _ _
  rw [State.readDone, hreads]
  rfl

/-- Settles O16. -/
theorem completionsReachTheirRequester : Obligations.CompletionsReachTheirRequester := by
  refine ⟨fun s r count drift hs hop => ?_, fun s r granules failed hs hop hf => ?_, fun s e nonBlank h => ?_,
    fun s a reply => ⟨fun hcls => ?_, fun hcls => ?_⟩⟩
  · rw [exec_readComplete_of_serves drift hs hop, readDone_eq]
    cases r.requester <;> rfl
  · rw [exec_programComplete_of_serves hs hop hf]
    cases hw : r.waited <;> cases hr : r.requester <;> simp only [State.programDone, State.deliverProgram, hw, hr] <;> rfl
  · rw [exec_eraseComplete_of_erases nonBlank h]
    cases hw : e.request.waited <;> cases hr : e.request.requester <;>
      simp only [State.eraseDone, State.deliverErase, hw, hr] <;> rfl
  · simp only [State.handle, State.deliverReply, hcls]
  · simp only [State.handle, State.deliverReply, hcls]

end Sys2Proof.Machine
end

section
/-! PROOFS. A read that ends, and what GET and the audit unit make of it (O28, O33, O34). -/

namespace Sys2Proof.Machine

/-! ### The part as a requester finds it after its read -/

section
variable (s : State) (r : Request) (count : Nat) (drift : List (BitVec 8 × Granule))

@[simp] theorem readTaken_win : (s.readTaken r count drift).win = s.win := by rw [readTaken_form]
@[simp] theorem readTaken_dir : (s.readTaken r count drift).dir = s.dir := by rw [readTaken_form]
@[simp] theorem readTaken_table : (s.readTaken r count drift).table = s.table := by rw [readTaken_form]
@[simp] theorem readTaken_writer : (s.readTaken r count drift).writer = s.writer := by rw [readTaken_form]
@[simp] theorem readTaken_engine : (s.readTaken r count drift).engine = s.engine := by rw [readTaken_form]
@[simp] theorem readTaken_recl : (s.readTaken r count drift).recl = s.recl := by rw [readTaken_form]
@[simp] theorem readTaken_aud : (s.readTaken r count drift).aud = s.aud := by rw [readTaken_form]
@[simp] theorem readTaken_mnt : (s.readTaken r count drift).mnt = s.mnt := by rw [readTaken_form]
@[simp] theorem readTaken_fmt : (s.readTaken r count drift).fmt = s.fmt := by rw [readTaken_form]

end

/-- The end of a read that leaves nothing owed and sends only looks. -/
theorem exec_read_acts {s v : State} {r : Request} {count : Nat} {drift : List (BitVec 8 × Granule)} {l : List Signal}
    (hs : s.serves r) (hop : r.op = .read count) (hw : r.waited = true)
    (hdel : (s.readTaken r count drift).deliverRead r.requester r.row r.first (s.readSeen r count drift) = (v, l))
    (hl : ∀ x ∈ l, x = .look) (hcalm : v.calm) (hfree : 255 ≤ s.freeGranules → 255 ≤ v.freeGranules) :
    ∃ t, exec (.readComplete drift) s = .next t ∧ v.reclaimerActs t := by
  refine ⟨_, exec_read s r count drift hs hop hw, ?_⟩
  rw [hdel]
  exact runEvent_acts s.begin v l hl hcalm hfree

/-- The same where the requester leaves row table, commit engine and FORMAT job as they were. -/
theorem exec_read_acts_of_keeps {s v : State} {r : Request} {count : Nat} {drift : List (BitVec 8 × Granule)}
    (hs : s.serves r) (hop : r.op = .read count) (hw : r.waited = true) (hcalm : s.calm)
    (hdel : (s.readTaken r count drift).deliverRead r.requester r.row r.first (s.readSeen r count drift) = (v, []))
    (htable : v.table = s.table) (hengine : v.engine = s.engine) (hfmt : v.fmt = s.fmt) :
    ∃ t, exec (.readComplete drift) s = .next t ∧ v.reclaimerActs t := by
  refine exec_read_acts hs hop hw hdel (fun x h => (List.not_mem_nil h).elim) ?_ ?_
  · rwa [State.calm, htable, hengine, hfmt]
  · rw [freeGranules_of_table s v htable]
    exact id

theorem reclaimerActs_win {s t : State} (h : s.reclaimerActs t) : t.win = s.win := by
  obtain ⟨v, hv, -, rfl⟩ := h
  rw [hv.frame]

theorem anyCorrected_iff (reads : List GranuleRead) : anyCorrected reads = true ↔ ∃ g ∈ reads, g.outcome = .corrected := by
  simp [anyCorrected]

/-- A GET or audit read changes nothing of the reclaimer but the refresh queue (R112). -/
theorem refreshIf_eq {s u : State} (h : u.recl = s.recl) (reads : List GranuleRead) (key row granule : Nat) :
    u.refreshIf (anyCorrected reads) key row granule =
      { u with recl := { s.recl with refresh := s.queueAfter reads key row granule } } := by
  have hqueue : s.queueAfter reads key row granule = u.queueAfter reads key row granule := by
    simp only [State.queueAfter, h]
  have hany : u.recl.refresh.any (fun e => e.key = key) = true ↔ ¬ ∀ q ∈ u.recl.refresh, q.key ≠ key := by simp
  rw [hqueue, ← h]
  simp only [State.refreshIf, State.appendRefresh, hany, anyCorrected_iff, State.queueAfter]
  by_cases hc : ∃ g ∈ reads, g.outcome = .corrected
  · by_cases hk : ∀ q ∈ u.recl.refresh, q.key ≠ key
    · by_cases hf : u.recl.refresh.length < 8
      · rw [if_pos hc, if_neg (not_not.2 hk), if_neg (show ¬ refreshQueueSize ≤ _ from Nat.not_le.2 hf), if_pos ⟨hc, hk, hf⟩]
      · rw [if_pos hc, if_neg (not_not.2 hk), if_pos (show refreshQueueSize ≤ _ from Nat.not_lt.1 hf),
          if_neg (fun x => hf x.2.2)]
    · rw [if_pos hc, if_pos hk, if_neg (fun x => hk x.2.1)]
  · rw [if_neg hc, if_neg (fun x => hc x.1)]

theorem markDamaged_withRecl (u : State) (q : Reclaimer) (key row granule : Nat) :
    ({ u with recl := q } : State).markDamaged key row granule = { u.markDamaged key row granule with recl := q } := by
  cases h : dirFind u.dir key with
  | none => simp only [State.markDamaged, h]
  | some e =>
    simp only [State.markDamaged, h]
    split <;> rfl

/-! ### GET -/

theorem getBody_of_live {s : State} (hk : s.win.latch.key ≠ 0xFFFF)
    (hg : guardMode s.guards s.win.latch.key ≠ .noAccess) {e : DirEntry}
    (hf : dirFind s.dir s.win.latch.key.toNat = some e) (he : e.state = .live) :
    s.getBody = { s with ctl := (s.issue (getRequest e)).ctl.arbitrate } := by
  simp only [State.getBody, if_neg hk, readGuarded_iff, if_neg hg, hf, he, finish_issue]

theorem getReadDone_of_intact {s u : State} (hrecl : u.recl = s.recl) (hwin : u.win = s.win) {row first : Nat}
    {reads : List GranuleRead} {h : RecordHeader} {payload : List Byte} (hfind : findRecord reads = .intact h payload) :
    u.getReadDone row first reads = { u with
      win := { s.win with
        buffer := writeFrom s.win.buffer 0 payload, fill := payload.length, dptr := 0, ver := BitVec.ofNat 16 h.version
        len := BitVec.ofNat 8 payload.length, result := .ok, cu := .idle }
      ev := { u.ev with event := u.ev.event ||| 0x01, justSet := u.ev.justSet ||| 0x01 }
      recl := { s.recl with refresh := s.queueAfter reads s.win.latch.key.toNat row first } } := by
  simp only [State.getReadDone, hfind, refreshIf_eq hrecl, State.getDelivered, State.fillBuffer, hwin]
  rfl

theorem getReadDone_of_lost {s u : State} (hrecl : u.recl = s.recl) (hwin : u.win = s.win) {row first : Nat}
    {reads : List GranuleRead} {h : RecordHeader} {fail : Bool}
    (hfind : findRecord reads = .unreadable h fail ∨ findRecord reads = .notIntact fail) :
    u.getReadDone row first reads =
      let v := (u.captureCheck fail .host row first).markDamaged s.win.latch.key.toNat row first
      { v with
        win := { s.win with result := .uncorrectable, cu := .idle }
        ev := { v.ev with event := v.ev.event ||| 0x01, justSet := v.ev.justSet ||| 0x01 }
        recl := { s.recl with refresh := s.queueAfter reads s.win.latch.key.toNat row first } } := by
  have hq : (u.captureCheck fail .host row first).recl = s.recl := by rw [State.captureCheck_recl, hrecl]
  have hw : ((u.captureCheck fail .host row first).markDamaged s.win.latch.key.toNat row first).win = s.win := by
    rw [State.markDamaged_win, State.captureCheck_win, hwin]
  rcases hfind with hfind | hfind <;>
    simp only [State.getReadDone, hfind, hwin, refreshIf_eq hq, markDamaged_withRecl, State.complete, hw] <;> rfl

/-- Settles O28. -/
theorem getReadsAndEnds : Obligations.GetReadsAndEnds := by
  refine ⟨fun s e hacc hk hg hf he => ?_, ?_, ?_⟩
  · rw [exec_get hacc]
    refine next_congr ((getBody_of_live (s := s.begin.take .get) hk hg hf he).trans ?_)
    rw [begin_eq_quietly]
    rfl
  · intro s drift row first count h payload r hs hcalm hfind
    have hdel := getReadDone_of_intact (readTaken_recl s r count drift) (readTaken_win s r count drift) (row := row)
      (first := first) hfind
    obtain ⟨t, ht, hacts⟩ := exec_read_acts_of_keeps hs rfl rfl hcalm (congrArg (·, []) hdel) (readTaken_table ..)
      (readTaken_engine ..) (readTaken_fmt ..)
    have hwin := reclaimerActs_win hacts
    have hfilled : s.win.filled t.win payload := by
      rw [hwin]
      exact filled_fillBuffer s.win s payload rfl (findRecord_len _ _ _ hfind)
    refine ⟨t, ht, hfilled, ?_⟩
    have hbuffer : t.win.buffer = writeFrom s.win.buffer 0 payload := by rw [hwin]
    rw [hbuffer]
    exact hacts
  · intro s drift row first count h fail r hs hcalm hfind
    have hdel := getReadDone_of_lost (readTaken_recl s r count drift) (readTaken_win s r count drift) (row := row)
      (first := first) hfind
    exact exec_read_acts_of_keeps hs rfl rfl hcalm (congrArg (·, []) hdel) (by simp) (by simp) (by simp)

/-! ### Visits of the audit unit -/

/-- The entry is one the audit has still to visit (R147). -/
def State.AuditSees (s : State) (e : DirEntry) : Prop :=
  e.state ≠ .tombstone ∧ e.key ≤ s.aud.hi ∧ match s.aud.lastKey with
    | none => s.aud.lo ≤ e.key
    | some k => k < e.key

theorem auditSees_iff (s : State) (e : DirEntry) : (e.readable && decide (e.key ≤ s.aud.hi) &&
    (match s.aud.lastKey with
      | none => decide (s.aud.lo ≤ e.key)
      | some k => decide (k < e.key))) = true ↔ s.AuditSees e := by
  cases h : s.aud.lastKey <;>
    simp only [State.AuditSees, h, Bool.and_eq_true, readable_iff, decide_eq_true_eq, and_assoc]

theorem auditNext_of_least {s : State} (hd : s.dirOk) {e : DirEntry} (he : e ∈ s.dir) (hs : s.AuditSees e)
    (hl : ∀ o ∈ s.dir, s.AuditSees o → e.key ≤ o.key) : s.auditNext = some e :=
  find?_least s.dir hd e he ((auditSees_iff s e).2 hs) (fun o ho hp => hl o ho ((auditSees_iff s o).1 hp))

theorem auditNext_of_none {s : State} (h : ∀ e ∈ s.dir, ¬ s.AuditSees e) : s.auditNext = none :=
  List.find?_eq_none.2 (fun e he hp => h e he ((auditSees_iff s e).1 hp))

theorem auditVisit_of_live {s : State} {e : DirEntry} (h : s.auditNext = some e) (he : e.state = .live) :
    s.auditVisit = State.issue { s with aud := { s.aud with
      lastKey := some e.key, reading := some (e.key, ⟨e.row, e.granule⟩) } }
      ⟨.audit, .audit, e.row, e.granule, .read (1 + (e.length + 15) / 16), true⟩ := by
  simp only [State.auditVisit, h, he, extent]
  rfl

theorem auditVisit_of_damaged {s : State} {e : DirEntry} (h : s.auditNext = some e) (he : e.state = .damaged) :
    s.auditVisit = s.endAudit .damaged 0 := by
  simp only [State.auditVisit, h, he]

theorem auditVisit_of_none {s : State} (h : s.auditNext = none) : s.auditVisit = s.endAudit
    (if s.aud.signature ^^^ 0xFFFFFFFF = s.aud.expected then .ok else .mismatch) (s.aud.signature ^^^ 0xFFFFFFFF) := by
  simp only [State.auditVisit, h]
  rfl

theorem auditVisit_keeps (s : State) :
    s.auditVisit.table = s.table ∧ s.auditVisit.engine = s.engine ∧ s.auditVisit.fmt = s.fmt := by
  cases h : s.auditNext with
  | none => simp only [State.auditVisit, h]; exact ⟨rfl, rfl, rfl⟩
  | some e => cases he : e.state <;> simp only [State.auditVisit, h, he] <;> exact ⟨rfl, rfl, rfl⟩

/-! ### The start of an audit -/

/-- Flags set one after the other in one event are set together. -/
theorem after_or (e : EventUnit) (a b : Byte) : e.after (a ||| b) =
    { e.after a with event := (e.after a).event ||| b, justSet := (e.after a).justSet ||| b } := by
  simp only [EventUnit.after, BitVec.or_assoc]

/-- The part as a taken AUDIT finds it before its first visit (R145). -/
def State.auditStarted (s : State) : State := { s.answered .audit .ok with
  aud := ⟨true, s.win.key.toNat, s.win.key2.toNat, s.win.sig, 0xFFFFFFFF, 0, none, none⟩ }

theorem exec_audit {s : State} (hacc : s.accepts .audit) (hkey : s.win.key ≠ 0xFFFF) (hkey2 : s.win.key2 ≠ 0xFFFF)
    (hle : s.win.key ≤ s.win.key2) (hidle : s.aud.running = false)
    (hguard : ∀ i, i < 4 → (guardAt s.guards i).mode = .noAccess → (guardAt s.guards i).lo ≤ s.win.key2 →
      ¬ s.win.key ≤ (guardAt s.guards i).hi) :
    exec .audit s = .next (s.auditStarted.auditVisit.finish s.freeGranules) := by
  have hrange : ¬ (s.win.key = 0xFFFF ∨ s.win.key2 = 0xFFFF ∨ s.win.key2 < s.win.key) := by
    rintro (h | h | h)
    exacts [hkey h, hkey2 h, absurd hle (BitVec.not_le.2 h)]
  have hopen : ¬ ∃ i : Fin 4, (guardAt s.guards i).mode = .noAccess ∧ (guardAt s.guards i).lo ≤ s.win.key2 ∧
      s.win.key ≤ (guardAt s.guards i).hi := by
    rintro ⟨i, hmode, hlo, hhi⟩
    exact hguard i i.2 hmode hlo hhi
  have hcheck : (s.begin.take .audit).auditCheck = none := by
    refine (auditCheck_eq _).trans ((if_neg hrange).trans ((if_neg ?_).trans (if_neg hopen)))
    exact fun h => Bool.false_ne_true (hidle.symm.trans h)
  have hstart : State.complete { s.begin.take .audit with aud := (s.begin.take .audit).win.newAudit } .ok =
      s.auditStarted := by
    rw [State.auditStarted, ← answered_eq]
    rfl
  have hbody := exec_of_passed (c := .audit) hacc (by decide) rfl hcheck
  rw [hstart] at hbody
  exact hbody

/-- The end of an event that leaves the row table, with no FORMAT job. -/
theorem finish_quietly {s t : State} (hfmt : t.fmt = none) (htable : t.table = s.table) :
    t.finish s.freeGranules = t.arbitrate := by
  rw [State.finish, beginExclusive_none t.arbitrate hfmt]
  exact spaceLowAfter_same _ _ (freeGranules_of_table s _ htable)

theorem finish_endAudit_auditStarted {s : State} (hfmt : s.fmt = none) (result : ResultCode) (sig : BitVec 32) :
    (s.auditStarted.endAudit result sig).finish s.freeGranules = { s with
      win := { s.win.answered .audit .ok with auditResult := result, sig := sig, acount := 0 }
      ev := s.ev.after 0x05
      aud := { s.auditStarted.aud with running := false }
      ctl := (s.abandonRequests .audit).ctl.arbitrate } := by
  have hev : s.ev.after 0x05 = _ := after_or s.ev evCmdDone evAuditDone
  rw [finish_quietly (s := s) (t := s.auditStarted.endAudit result sig) hfmt rfl, hev]
  rfl

/-- Settles O33. -/
theorem auditStarts : Obligations.AuditStarts := by
  intro s hacc hfmt hdir hkey hkey2 hle hidle hguard seen started
  rw [exec_audit hacc hkey hkey2 hle hidle hguard]
  have hsees : ∀ e, s.auditStarted.AuditSees e ↔ seen e := fun e => and_congr_right (fun _ => And.comm)
  refine ⟨fun e he hs hl => ?_, fun hnone => ?_⟩
  · have hnext : s.auditStarted.auditNext = some e :=
      auditNext_of_least (s := s.auditStarted) hdir he ((hsees e).2 hs) (fun o ho h => hl o ho ((hsees o).1 h))
    refine ⟨fun hlive => ?_, fun hdamaged => ?_⟩
    · rw [auditVisit_of_live hnext hlive]
      exact next_congr (finish_issue _ _)
    · rw [auditVisit_of_damaged hnext hdamaged, finish_endAudit_auditStarted hfmt]
      rfl
  · have hnext : s.auditStarted.auditNext = none :=
      auditNext_of_none (s := s.auditStarted) (fun e he h => hnone e he ((hsees e).1 h))
    have hsig : s.auditStarted.aud.signature ^^^ 0xFFFFFFFF = 0 := BitVec.xor_self
    rw [auditVisit_of_none hnext, finish_endAudit_auditStarted hfmt, hsig]
    simp only [eq_comm (a := (0 : BitVec 32))]
    rfl

/-! ### The end of the audit's read -/

theorem signedBytes_eq (h : RecordHeader) (payload : List Byte) : signedBytes h payload =
    [BitVec.ofNat 8 h.key, BitVec.ofNat 8 (h.key / 256), BitVec.ofNat 8 h.version, BitVec.ofNat 8 (h.version / 256),
      BitVec.ofNat 8 h.length] ++ payload := by
  simp only [signedBytes, Nat.shiftRight_eq_div_pow]

/-- The part after the audit's record was found intact, before the next visit (R112, R146). -/
def State.auditSigns (s u : State) (reads : List GranuleRead) (key row first : Nat) (h : RecordHeader)
    (payload : List Byte) : State :=
  { u with
    recl := { s.recl with refresh := s.queueAfter reads key row first }
    aud := { s.aud with
      signature := crc32Feed s.aud.signature ([BitVec.ofNat 8 h.key, BitVec.ofNat 8 (h.key / 256),
        BitVec.ofNat 8 h.version, BitVec.ofNat 8 (h.version / 256), BitVec.ofNat 8 h.length] ++ payload)
      count := s.aud.count + 1
      reading := none } }

theorem auditReadDone_of_intact {s u : State} (hrecl : u.recl = s.recl) (haud : u.aud = s.aud) {key row first : Nat}
    (hreading : s.aud.reading = some (key, ⟨row, first⟩)) {reads : List GranuleRead} {h : RecordHeader}
    {payload : List Byte} (hfind : findRecord reads = .intact h payload) :
    u.auditReadDone reads = (s.auditSigns u reads key row first h payload).auditVisit := by
  have hq : (u.auditFeed h payload).recl = s.recl := hrecl
  simp only [State.auditReadDone, haud, hreading, hfind, refreshIf_eq hq]
  simp only [State.auditFeed, haud, signedBytes_eq]
  rfl

theorem auditReadDone_of_lost {s u : State} (hrecl : u.recl = s.recl) (haud : u.aud = s.aud) {key row first : Nat}
    (hreading : s.aud.reading = some (key, ⟨row, first⟩)) {reads : List GranuleRead} {h : RecordHeader} {fail : Bool}
    (hfind : findRecord reads = .unreadable h fail ∨ findRecord reads = .notIntact fail) :
    u.auditReadDone reads = State.endAudit { (u.captureCheck fail .audit row first).markDamaged key row first with
      recl := { s.recl with refresh := s.queueAfter reads key row first } } .damaged 0 := by
  have hq : (u.captureCheck fail .audit row first).recl = s.recl := by rw [State.captureCheck_recl, hrecl]
  rcases hfind with hfind | hfind <;>
    simp only [State.auditReadDone, haud, hreading, hfind, refreshIf_eq hq, markDamaged_withRecl]

/-- Settles O34. -/
theorem auditReadEnds : Obligations.AuditReadEnds := by
  intro s drift key row first count last r hs hcalm hdir hreading hlast reads queued ended
  have hrecl := readTaken_recl s r count drift
  have haud := readTaken_aud s r count drift
  have hended : ∀ (u : State) (result : ResultCode) (sig : BitVec 32), u.win = s.win →
      u.endAudit result sig = ended u result sig := fun u result sig hwin => by
    simp only [State.endAudit, hwin]
    rfl
  refine ⟨fun h payload hfind => ?_, fun h fail hfind => ?_⟩
  · intro fed u seen
    have hread : (s.readTaken r count drift).auditReadDone reads = u.auditVisit :=
      auditReadDone_of_intact hrecl haud hreading hfind
    have hsees : ∀ e, u.AuditSees e ↔ seen e := fun e => by
      simp only [State.AuditSees, u, hlast, seen, and_comm]
    have hudir : u.dir = s.dir := readTaken_dir s r count drift
    obtain ⟨htable, hengine, hfmt⟩ := auditVisit_keeps u
    obtain ⟨t, ht, hacts⟩ := exec_read_acts_of_keeps hs rfl rfl hcalm (congrArg (·, []) hread)
      (htable.trans (readTaken_table ..)) (hengine.trans (readTaken_engine ..)) (hfmt.trans (readTaken_fmt ..))
    refine ⟨t, ht, fun e he hse hl => ?_, fun hnone => ?_⟩
    · have hnext : u.auditNext = some e := auditNext_of_least (by rwa [State.dirOk, hudir]) (by rwa [hudir])
        ((hsees e).2 hse) (fun o ho h => hl o (by rwa [hudir] at ho) ((hsees o).1 h))
      refine ⟨fun hlive => ?_, fun hdamaged => ?_⟩
      · rwa [auditVisit_of_live hnext hlive] at hacts
      · rwa [auditVisit_of_damaged hnext hdamaged, hended u _ _ (readTaken_win ..)] at hacts
    · have hnext : u.auditNext = none := auditNext_of_none (fun e he h => hnone e (by rwa [hudir] at he) ((hsees e).1 h))
      rwa [auditVisit_of_none hnext, hended u _ _ (readTaken_win ..)] at hacts
  · have hdel := auditReadDone_of_lost (u := s.readTaken r count drift) hrecl haud hreading hfind
    rw [hended _ _ _ (by simp)] at hdel
    exact exec_read_acts_of_keeps hs rfl rfl hcalm (congrArg (·, []) hdel) (by simp [ended]) (by simp [ended]) (by simp [ended])

end Sys2Proof.Machine
end

section
/-! PROOFS. The journal writer and the directory's updates (O44 to O48). -/

namespace Sys2Proof.Machine

/-! ### The first of the best rows -/

/-- Of a list in ascending order, `bestOf` takes the lowest of those that none beats. -/
theorem bestOf_first {better : Nat → Nat → Bool} (asymm : ∀ a b, better a b = true → better b a = false)
    (trans : ∀ a b c, better b a = false → better c b = false → better c a = false) {l : List Nat}
    (hl : l.Pairwise (· < ·)) {x : Nat} (h : bestOf better l = some x) : ∀ y ∈ l,
    better x y = true ∨ better y x = false ∧ better x y = false ∧ x ≤ y := by
  induction l generalizing x with
  | nil => cases h
  | cons a t ih =>
    obtain ⟨hat, ht⟩ := List.pairwise_cons.1 hl
    have irrefl : ∀ c, better c c = false := fun c => by
      cases hc : better c c with
      | false => rfl
      | true => exact (asymm c c hc).symm.trans hc |>.symm
    cases hb : bestOf better t with
    | none =>
      have hnil : t = [] := by
        by_contra hne
        obtain ⟨z, hz, -⟩ := bestOf_mem_ne better t hne
        rw [hb] at hz
        cases hz
      simp only [bestOf, hb, Option.some.injEq] at h
      subst h hnil
      intro y hy
      rw [List.mem_singleton.1 hy]
      exact .inr ⟨irrefl _, irrefl _, le_refl _⟩
    | some b =>
      have hbest := ih ht hb
      simp only [bestOf, hb] at h
      cases hba : better b a with
      | true =>
        rw [hba, if_pos rfl, Option.some.injEq] at h
        subst h
        rintro y (_ | ⟨_, hy⟩)
        · exact .inl hba
        · exact hbest y hy
      | false =>
        rw [hba, if_neg Bool.false_ne_true, Option.some.injEq] at h
        subst h
        rintro y (_ | ⟨_, hy⟩)
        · exact .inr ⟨irrefl _, irrefl _, le_refl _⟩
        · have hya : better y a = false := trans a b y hba (by
            rcases hbest y hy with hlt | ⟨hyb, -, -⟩
            exacts [asymm b y hlt, hyb])
          cases hay : better a y with
          | true => exact .inl rfl
          | false => exact .inr ⟨hya, rfl, Nat.le_of_lt (hat y hy)⟩

theorem pairwise_lt_filter_range (p : Nat → Bool) (n : Nat) : ((List.range n).filter p).Pairwise (· < ·) :=
  List.Pairwise.filter p List.pairwise_lt_range

/-- Row `a` comes before row `b` for an opening: lower erase count, a known count before a guessed one, then the lower index
(R96, R132). -/
def State.TakenBefore (s : State) (a b : Nat) : Prop :=
  (s.row a).eraseCount < (s.row b).eraseCount ∨
    ((s.row a).eraseCount = (s.row b).eraseCount ∧ (((s.row a).guessed = false ∧ (s.row b).guessed = true) ∨
      ((s.row a).guessed = (s.row b).guessed ∧ a ≤ b)))

theorem lessWorn_iff (s : State) (a b : Nat) : s.lessWorn a b = true ↔ (s.row a).eraseCount < (s.row b).eraseCount ∨
    (s.row a).eraseCount = (s.row b).eraseCount ∧ (s.row a).guessed = false ∧ (s.row b).guessed = true := by
  simp [State.lessWorn, and_assoc]

theorem lessWorn_asymm (s : State) (a b : Nat) (h : s.lessWorn a b = true) : s.lessWorn b a = false := by
  rw [Bool.eq_false_iff, ne_eq, lessWorn_iff]
  rw [lessWorn_iff] at h
  rintro (h' | ⟨h', hb, ha⟩) <;> rcases h with h | ⟨h, ha', hb'⟩
  · omega
  · omega
  · omega
  · rw [ha'] at ha
    cases ha

theorem lessWorn_trans (s : State) (a b c : Nat) (hba : s.lessWorn b a = false) (hcb : s.lessWorn c b = false) :
    s.lessWorn c a = false := by
  rw [Bool.eq_false_iff, ne_eq, lessWorn_iff] at *
  cases ha : (s.row a).guessed <;> cases hb : (s.row b).guessed <;> cases hc : (s.row c).guessed <;>
    simp only [ha, hb, hc, and_true, and_false, or_false, reduceCtorEq] at hba hcb ⊢ <;> omega

/-- What `bestOf s.lessWorn` takes of rows in ascending index. -/
theorem takenBefore_of_best {s : State} {l : List Nat} (hl : l.Pairwise (· < ·)) {r : Nat}
    (h : bestOf s.lessWorn l = some r) : r ∈ l ∧ ∀ x ∈ l, s.TakenBefore r x := by
  refine ⟨bestOf_mem _ _ _ h, fun x hx => ?_⟩
  rcases bestOf_first (lessWorn_asymm s) (lessWorn_trans s) hl h x hx with hlt | ⟨hxr, hrx, hle⟩
  · rcases (lessWorn_iff s r x).1 hlt with h | ⟨h, hg⟩
    exacts [.inl h, .inr ⟨h, .inl hg⟩]
  · rw [Bool.eq_false_iff, ne_eq, lessWorn_iff, not_or, Nat.not_lt, not_and, not_and] at hxr hrx
    obtain ⟨hle₁, hx⟩ := hxr
    obtain ⟨hle₂, hr⟩ := hrx
    have heq : (s.row r).eraseCount = (s.row x).eraseCount := Nat.le_antisymm hle₁ hle₂
    refine .inr ⟨heq, ?_⟩
    have hr := hr heq
    have hx := hx heq.symm
    cases hgr : (s.row r).guessed <;> cases hgx : (s.row x).guessed <;> simp_all

theorem mem_rowsIn (s : State) (st : RowState) (x : Nat) : x ∈ s.rowsIn st ↔ x < 64 ∧ (s.row x).state = some st := by
  simp [State.rowsIn]

/-! ### Rows written twice -/

@[simp] theorem setRow_setRow (s : State) (r : Nat) (x y : RowRec) : (s.setRow r x).setRow r y = s.setRow r y := by
  simp only [State.setRow]
  rw [Vector.setIfInBounds_setIfInBounds]

theorem row_setRow_self (s : State) {r : Nat} (hr : r < 64) (x : RowRec) : (s.setRow r x).row r = x := by
  rw [row_setRow_lt s r r x hr, if_pos rfl]

/-! ### Placing a record -/

theorem place_of_room {s : State} {a : Append} {r : Nat} (hr : s.openRow = some r)
    (hroom : (s.row r).nextFree + a.size ≤ 256) : s.place a = s.programAt a r := by
  simp only [State.place, hr, if_pos hroom]

theorem place_of_full {s : State} {a : Append} {r : Nat} (hr : s.openRow = some r)
    (hroom : 256 < (s.row r).nextFree + a.size) : s.place a = (s.closeRow r).openRowFor a := by
  simp only [State.place, hr, if_neg (Nat.not_le.2 hroom)]

theorem place_of_none {s : State} {a : Append} (hr : s.openRow = none) : s.place a = s.openRowFor a := by
  simp only [State.place, hr]

theorem programAt_eq (s : State) (a : Append) (r : Nat) : s.programAt a r = ({ s with
    table := (s.setRow r { s.row r with nextFree := (s.row r).nextFree + a.size }).table
    writer := { s.writer with inService := some a, wait := .record r (s.row r).nextFree }
    ctl := (s.issue ⟨match a.cls with | .commit => .commit | .reclaimer => .reclaimer,
      match a.cls with | .commit => .commit | .reclaimer => .reclaim, r, (s.row r).nextFree,
      .program (recordGranules a.header a.payload), true⟩).ctl }, []) := by
  obtain ⟨cls, header, payload, failed⟩ := a
  cases cls <;> rfl

/-! ### Verified and failed attempts -/

/-- A row enters the set's rows for an append of the commit engine (R80). -/
theorem enterSetRow_for (s : State) (a : Append) (row : Nat) :
    (if a.cls = .commit then s.enterSetRow row else s) = { s with engine := { s.engine with setRows :=
      if a.cls = .commit ∧ row ∉ s.engine.setRows then s.engine.setRows ++ [row] else s.engine.setRows } } := by
  by_cases hcls : a.cls = .commit
  · by_cases hmem : row ∈ s.engine.setRows
    · simp [State.enterSetRow, hcls, hmem]
    · simp [State.enterSetRow, hcls, hmem]
  · simp [hcls]

section
variable {s : State} {a : Append} {row g : Nat} (hin : s.writer.inService = some a)
    (hwait : s.writer.wait = .record row g)
include hin hwait

theorem writerProgramDone_of_verified : s.writerProgramDone none =
    (if a.cls = .commit then s.enterSetRow row else s).replyTo a (.placed row g a.failed) := by
  simp only [State.writerProgramDone, hin, hwait]

theorem writerProgramDone_of_failed (i : Nat) : s.writerProgramDone (some i) =
    (if a.cls = .commit then s.enterSetRow row else s).attemptFailed a row i := by
  simp only [State.writerProgramDone, hin, hwait]

end

/-- The row table after an attempt failed at granule `i`: the extent dead, the row closed by a failed header (R14, R95). -/
theorem attemptFailed_table (s : State) (n i : Nat) {row : Nat} (hrow : row < 64) :
    (let s1 := s.addDead row n
      if i = 0 ∧ (s1.row row).state = some .opened then s1.closeRow row else s1) =
    s.setRow row (if i = 0 ∧ (s.row row).state = some .opened then
      { s.row row with
        state := some .full, nextFree := 0, dead := (s.row row).dead + n + (256 - (s.row row).nextFree) }
      else { s.row row with dead := (s.row row).dead + n }) := by
  have hdead : (s.addDead row n).row row = { s.row row with dead := (s.row row).dead + n } := row_setRow_self s hrow _
  simp only [hdead]
  split
  · rw [State.closeRow, hdead, State.addDead, setRow_setRow]
  · rfl

theorem attemptFailed_eq (s : State) (a : Append) (i : Nat) {row : Nat} (hrow : row < 64) :
    s.attemptFailed a row i =
      (let left := s.setRow row (if i = 0 ∧ (s.row row).state = some .opened then
        { s.row row with
          state := some .full, nextFree := 0, dead := (s.row row).dead + a.size + (256 - (s.row row).nextFree) }
        else { s.row row with dead := (s.row row).dead + a.size })
      if a.failed < 2 then left.place { a with failed := a.failed + 1 }
      else left.replyTo { a with failed := a.failed + 1 } .failed) := by
  rw [← attemptFailed_table s a.size i hrow]
  have hlimit : a.failed + 1 < attemptLimit ↔ a.failed < 2 := by
    simp only [attemptLimit]
    omega
  simp only [State.attemptFailed, hlimit]

/-- Settles O44. -/
theorem writerPlacesAndRetries : Obligations.WriterPlacesAndRetries := by
  refine ⟨fun s a row g hin hwait => ⟨?_, fun i => ⟨fun hfew hrow => ?_, fun hmany hrow => ?_⟩⟩,
    fun s a => ⟨fun r hr hroom => ?_, fun r hr hroom => place_of_full hr hroom, fun hr => place_of_none hr⟩⟩
  · rw [writerProgramDone_of_verified hin hwait, enterSetRow_for]
    rfl
  · rw [writerProgramDone_of_failed hin hwait, enterSetRow_for, attemptFailed_eq _ _ _ hrow]
    exact if_pos hfew
  · rw [writerProgramDone_of_failed hin hwait, enterSetRow_for, attemptFailed_eq _ _ _ hrow]
    exact if_neg (Nat.not_lt.2 hmany)
  · rw [place_of_room hr hroom, programAt_eq]
    rfl

/-! ### Opening a row -/

theorem openRowFor_of_few {s : State} {a : Append} (h : s.erasedRows < a.cls.erasedNeeded) :
    s.openRowFor a = s.replyTo a (.noRow a.failed) :=
  if_pos h

theorem pickErased_of_needed {s : State} {a : Append} (h : a.cls.erasedNeeded ≤ s.erasedRows) :
    ∃ r, s.pickErased = some r ∧ r < 64 ∧ (s.row r).state = some .erased ∧
      ∀ x, x < 64 → (s.row x).state = some .erased → s.TakenBefore r x := by
  have hpos : 0 < a.cls.erasedNeeded := by
    cases a.cls <;> decide
  have hne : s.rowsIn .erased ≠ [] := List.ne_nil_of_length_pos (Nat.lt_of_lt_of_le hpos h)
  obtain ⟨r, hr⟩ := bestOf_some s.lessWorn _ hne
  obtain ⟨hmem, hbest⟩ := takenBefore_of_best (pairwise_lt_filter_range _ _) hr
  obtain ⟨hlt, hstate⟩ := (mem_rowsIn s .erased r).1 hmem
  exact ⟨r, hr, hlt, hstate, fun x hx hs => hbest x ((mem_rowsIn s .erased x).2 ⟨hx, hs⟩)⟩

theorem openRowFor_of_pick {s : State} {a : Append} (h : a.cls.erasedNeeded ≤ s.erasedRows)
    (hseq : s.table.highestSequence < 4294967295) {r : Nat} (hr : s.pickErased = some r) :
    s.openRowFor a = ({ s with
      table := { s.table with highestSequence := s.table.highestSequence + 1 }
      writer := { s.writer with inService := some a, wait := .rowHeader r (s.table.highestSequence + 1) }
      ctl := (s.issue ⟨match a.cls with | .commit => .commit | .reclaimer => .reclaimer,
        match a.cls with | .commit => .commit | .reclaimer => .reclaim, r, 0,
        .program [encodeRowHeader ⟨s.table.journalId, s.table.highestSequence + 1, (s.row r).eraseCount⟩], true⟩).ctl },
      []) := by
  have hlimit : s.table.highestSequence < fieldLimit := hseq
  have hnext : s.nextSequence = s.table.highestSequence + 1 := if_pos hlimit
  simp only [State.openRowFor, if_neg (Nat.not_lt.2 h), hr, State.openingHeader, hnext, if_pos hlimit]
  obtain ⟨cls, header, payload, failed⟩ := a
  cases cls <;> rfl

section
variable {s : State} {a : Append} {r sequence : Nat} (hin : s.writer.inService = some a)
    (hwait : s.writer.wait = .rowHeader r sequence)
include hin hwait

theorem writerProgramDone_of_header : s.writerProgramDone none = s.rowOpened a r sequence := by
  simp only [State.writerProgramDone, hin, hwait]

theorem writerProgramDone_of_failedHeader (i : Nat) : s.writerProgramDone (some i) = s.rowHeaderFailed a r := by
  simp only [State.writerProgramDone, hin, hwait]

end

/-- A row that alone is OPEN is the open row. -/
theorem openRow_of_only {s : State} {r : Nat} (hr : r < 64) (hopen : (s.row r).state = some .opened)
    (honly : ∀ x, x < 64 → x ≠ r → (s.row x).state ≠ some .opened) : s.openRow = some r := by
  have hmem : r ∈ s.rowsIn .opened := (mem_rowsIn s .opened r).2 ⟨hr, hopen⟩
  cases h : s.openRow with
  | none =>
    rw [State.openRow, List.head?_eq_none_iff] at h
    rw [h] at hmem
    cases hmem
  | some x =>
    obtain ⟨hx, hstate⟩ := openRow_lt h
    by_contra hne
    exact honly x hx (fun e => hne (e ▸ rfl)) hstate

theorem size_le (a : Append) (h : a.header.length ≤ 240) : a.size ≤ 16 := by
  simp only [Append.size, extent, payloadCount]
  omega

/-- Settles O45. -/
theorem writerOpensRows : Obligations.WriterOpensRows := by
  refine ⟨fun s a => ?_, fun s a r sequence hin hwait hr => ?_⟩
  · intro needed
    refine ⟨fun hfew => openRowFor_of_few hfew, fun hneeded hseq => ?_⟩
    obtain ⟨r, hpick, hr, hstate, hbest⟩ := pickErased_of_needed hneeded
    exact ⟨r, hr, hstate, hbest, openRowFor_of_pick hneeded hseq hpick⟩
  · intro opened
    refine ⟨writerProgramDone_of_header hin hwait, fun honly hlen => ?_,
      fun i => writerProgramDone_of_failedHeader hin hwait i⟩
    have hself : opened.row r = ⟨some .opened, sequence, (s.row r).eraseCount, false, 1, 0, false⟩ :=
      row_setRow_self s hr _
    have hopen : opened.openRow = some r := by
      refine openRow_of_only hr (by rw [hself]) (fun x hx hne => ?_)
      have hother : opened.row x = s.row x := (row_setRow_lt s r x _ hx).trans (if_neg (Ne.symm hne))
      rw [hother]
      exact honly x hx hne
    have hroom : (opened.row r).nextFree + a.size ≤ 256 := by
      have hsize := size_le a hlen
      have hfree : (opened.row r).nextFree = 1 := by rw [hself]
      omega
    refine ⟨hopen, ?_⟩
    rw [place_of_room hopen hroom, programAt_eq]
    simp only [hself]

/-! ### The commit job's write failure -/

theorem commitReply_of_lost (s : State) (a : Append) {reply : Reply} (h : reply = .failed ∨ ∃ n, reply = .noRow n) :
    s.commitReply a reply = s.writeFailed := by
  rcases h with rfl | ⟨n, rfl⟩ <;> rfl

/-- The set's rows tainted and, unless there are none, a purge owed (R81). -/
theorem taintSetRows_form (s : State) (l : List Nat) :
    (if l.isEmpty = true then l.foldl State.taintRow s
      else { l.foldl State.taintRow s with table := { (l.foldl State.taintRow s).table with purgePending := true } }) =
    { s with table := { s.table with
      rows := (l.foldl State.taintRow s).table.rows, purgePending := s.table.purgePending || !l.isEmpty } } := by
  rw [foldTaint_form l s]
  cases l with
  | nil => simp
  | cons x t => simp

theorem writeFailed_eq (s : State) : s.writeFailed =
    (State.endCommit (s.engine.placed.foldl (fun acc p => acc.addDead p.row (extent p.length))
      { s with table := { s.table with
        rows := (s.engine.setRows.foldl State.taintRow s).table.rows
        purgePending := s.table.purgePending || !s.engine.setRows.isEmpty } }) .writeFailed, [.look]) := by
  simp only [State.writeFailed, taintSetRows_form]

/-- Settles O46. -/
theorem writeFailedKeepsTheSet : Obligations.WriteFailedKeepsTheSet := by
  intro s a reply hreply
  rw [commitReply_of_lost s a hreply, writeFailed_eq]
  refine ⟨rfl, ?_, fun x hx => ?_⟩
  · simp only
    rw [foldDead_form]
    rfl
  · have htaint := foldTaint_row s.engine.setRows s x hx
    have hdead := foldDead_row (fun p : Placed => p.row) (fun p => extent p.length) s.engine.placed
      { s with table := { s.table with
        rows := (s.engine.setRows.foldl State.taintRow s).table.rows
        purgePending := s.table.purgePending || !s.engine.setRows.isEmpty } } x hx
    refine hdead.trans ?_
    have hrow : ({ s with table := { s.table with
        rows := (s.engine.setRows.foldl State.taintRow s).table.rows
        purgePending := s.table.purgePending || !s.engine.setRows.isEmpty } } : State).row x =
        { s.row x with tainted := (s.row x).tainted || s.engine.setRows.contains x } := htaint
    rw [hrow]
    rfl

/-! ### Relocates, damage marks and publishes -/

theorem relocatedState_eq {k : RecordKind} (h : k ≠ .commit) : relocatedState k = if k = .put then .live else .tombstone := by
  cases k with
  | put => rfl
  | delete => rfl
  | commit => exact absurd rfl h

theorem markDamaged_of_located {s : State} {key row granule : Nat} {e : DirEntry} (hf : dirFind s.dir key = some e)
    (hl : e.row = row ∧ e.granule = granule) :
    (s.markDamaged key row granule).dir = dirPut { e with state := .damaged } s.dir := by
  simp only [State.markDamaged, hf, if_pos hl]

theorem markDamaged_of_not {s : State} {key row granule : Nat}
    (h : ∀ e, dirFind s.dir key = some e → ¬ (e.row = row ∧ e.granule = granule)) :
    (s.markDamaged key row granule).dir = s.dir := by
  cases hf : dirFind s.dir key with
  | none => simp only [State.markDamaged, hf]
  | some e => simp only [State.markDamaged, hf, if_neg (h e hf)]

theorem dirFind_markDamaged {s : State} (hd : s.dirOk) (key row granule k : Nat) :
    dirFind (s.markDamaged key row granule).dir k = match dirFind s.dir k with
      | none => none
      | some e => if k = key ∧ e.row = row ∧ e.granule = granule then some { e with state := .damaged } else some e := by
  by_cases h : ∃ e, dirFind s.dir key = some e ∧ e.row = row ∧ e.granule = granule
  · obtain ⟨e, hf, hl⟩ := h
    rw [markDamaged_of_located hf hl, dirFind_dirPut _ _ hd k]
    have hkey : e.key = key := dirFind_key hf
    by_cases hk : k = key
    · rw [if_pos (hk.trans hkey.symm), hk, hf]
      exact (if_pos ⟨rfl, hl⟩).symm
    · rw [if_neg (fun x => hk (x.trans hkey))]
      cases dirFind s.dir k with
      | none => rfl
      | some o => exact (if_neg (fun x => hk x.1)).symm
  · have hnot : ∀ e, dirFind s.dir key = some e → ¬ (e.row = row ∧ e.granule = granule) := fun e hf hl => h ⟨e, hf, hl⟩
    rw [markDamaged_of_not hnot]
    cases hf : dirFind s.dir k with
    | none => rfl
    | some o =>
      refine (if_neg ?_).symm
      rintro ⟨rfl, hl⟩
      exact hnot o hf hl

/-- Settles O47. -/
theorem relocateMovesTheEntry : Obligations.RelocateMovesTheEntry := by
  refine ⟨fun s c hd hkind => ⟨fun hnone => relocate_none hnone, fun e hf => ?_⟩, fun s key row granule hd => 
    ⟨markDamaged_form .., dirFind_markDamaged hd key row granule⟩⟩
  · intro here
    have hkey : c.key = e.key := (dirFind_key hf).symm
    by_cases hhere : here
    · have hmoves := relocate_moves hf hhere
      refine ⟨?_, fun k => ?_⟩
      · rw [if_pos hhere, if_pos hhere, hmoves]
        rfl
      · rw [hmoves]
        refine (dirFind_dirPut _ _ hd k).trans ?_
        simp only [DirEntry.addStale, hkey, if_pos hhere, relocatedState_eq hkind, staleLimit, Nat.add_assoc]
    · have hstays := relocate_orphan hf hhere
      refine ⟨?_, fun k => ?_⟩
      · rw [if_neg hhere, if_neg hhere, hstays]
        rfl
      · rw [hstays]
        refine (dirFind_dirPut _ _ hd k).trans ?_
        simp only [DirEntry.addStale, hkey, if_neg hhere, staleLimit, Nat.add_assoc]
        rfl

/-- The entry after a relocate that moves it and a publish, in either order. -/
theorem publishedEntry_moved (e : DirEntry) (c : Copy) (p : Placed) :
    publishedEntry (some ({ e with row := c.toRow, granule := c.toGranule
                                   state := relocatedState c.kind }.addStale (1 + c.failed))) p =
      (publishedEntry (some e) p).addStale (1 + c.failed) := by
  have hstale : min staleLimit (min staleLimit (e.stale + (1 + c.failed)) + 1 + p.failed) =
      min staleLimit (min staleLimit (e.stale + 1 + p.failed) + (1 + c.failed)) := by
    simp only [staleLimit]
    omega
  simp only [publishedEntry, DirEntry.addStale, hstale]

theorem publishRecord_of_some {s : State} {p : Placed} {e : DirEntry} (h : dirFind s.dir p.key = some e) :
    s.publishRecord p =
      { s with dir := dirPut (publishedEntry (some e) p) s.dir }.addDead e.row (extent e.length) := by
  simp only [State.publishRecord, h]

/-- Settles O48. -/
theorem publishAndRelocateAgree : Obligations.PublishAndRelocateAgree := by
  intro s c p e hd hkey hf hrow hgranule hlen hplace
  have hkeys : e.key = c.key := dirFind_key hf
  have hpf : dirFind s.dir p.key = some e := hkey ▸ hf
  have hfirst : dirFind (s.relocate c).dir p.key = some ({ e with
      row := c.toRow, granule := c.toGranule, state := relocatedState c.kind }.addStale (1 + c.failed)) := by
    rw [relocate_moves hf ⟨hrow, hgranule⟩]
    exact dirFind_put_same _ _ hd _ (hkey.trans hkeys.symm)
  have hsecond : dirFind (s.publishRecord p).dir c.key = some (publishedEntry (some e) p) := by
    rw [publishRecord_of_some hpf]
    exact dirFind_put_same _ _ hd _ hkey.symm
  rw [publishRecord_of_some hfirst, relocate_orphan hsecond hplace, relocate_moves hf ⟨hrow, hgranule⟩,
    publishRecord_of_some hpf, publishedEntry_moved, hrow, hlen]
  refine congrArg (fun d : List DirEntry =>
    { (s.addDead c.fromRow (extent e.length)).addDead c.toRow (extent e.length) with dir := d }) ?_
  exact (dirPut_dirPut _ _ (hkey.trans hkeys.symm) _).trans (dirPut_dirPut
    ((publishedEntry (some e) p).addStale (1 + c.failed)) (publishedEntry (some e) p) rfl s.dir).symm

end Sys2Proof.Machine
end

section
/-! PROOFS. The commit job: its plan, its waits, its first record and its publish (O40 to O43). -/

namespace Sys2Proof.Machine

/-! ### Events of a reclaimer at work -/

theorem drain_looks_busy {s : State} (hjob : s.recl.job ≠ .idle) {l : List Signal} (hl : ∀ x ∈ l, x = .look) (n : Nat) :
    drain n l s = s := by
  induction n generalizing l with
  | zero => cases l <;> rfl
  | succ n ih =>
    cases l with
    | nil => rfl
    | cons x t =>
      have hlook : x = .look := hl x List.mem_cons_self
      subst hlook
      rw [drain_cons n .look t s s [] (look_busy s hjob)]
      exact ih (fun y hy => hl y (List.mem_cons_of_mem _ hy))

theorem runEvent_busy {s0 s : State} {l : List Signal} (hjob : s.recl.job ≠ .idle) (hl : ∀ x ∈ l, x = .look)
    (hfmt : s.fmt = none) (htable : s.table = s0.table) : s0.runEvent (s, l) = s.arbitrate := by
  have hall : ∀ x ∈ l ++ [Signal.look], x = .look := fun x hx => by
    rcases List.mem_append.1 hx with hx | hx
    exacts [hl x hx, List.mem_singleton.1 hx]
  rw [State.runEvent, State.settleEvent, drain_looks_busy hjob hall]
  exact finish_quietly hfmt htable

/-- The first signal of an event, handled. -/
theorem runEvent_cons {s0 s v : State} {x : Signal} {l more : List Signal} (h : s.handle x = (v, more)) :
    s0.runEvent (s, x :: l) = (drain (2 * s.recl.refresh.length + 63) (more ++ l ++ [.look]) v).finish s0.freeGranules := by
  have hfuel : s.fuel = 2 * s.recl.refresh.length + 63 + 1 := by
    rw [State.fuel]
    omega
  have hdrain := drain_cons (2 * s.recl.refresh.length + 63) x (l ++ [.look]) s v more h
  rw [State.runEvent, State.settleEvent, hfuel, List.append_assoc, ← hdrain]
  rfl

/-! ### The plan (R72 to R75) -/

/-- The part whose commit job has ended with NO_SPACE (R73, R75, R85). -/
def State.outOfSpace (s : State) : State := { s with
  win := { s.win with jobResult := .noSpace }
  ev := { s.ev with event := s.ev.event ||| 0x02, justSet := s.ev.justSet ||| 0x02 }
  staging := { s.staging with lock := false }
  engine := { CommitEngine.atReset with nextSetId := s.engine.nextSetId } }

theorem admissible_iff (s : State) (p : SetPlan) : s.admissible p = true ↔ p.opens + 1 ≤ s.erasedRows := decide_eq_true_iff

section
variable {s : State}

theorem actOnPlan_of_admissible (cause : PlanCause) (h : s.setPlan.opens + 1 ≤ s.erasedRows) :
    s.actOnPlan cause s.setPlan = State.enterWriting { s with engine := { s.engine with plan := some s.setPlan } } :=
  if_pos ((admissible_iff s s.setPlan).2 h)

theorem actOnPlan_of_id (cause : PlanCause) (h : s.setPlan.opens + 1 ≤ s.erasedRows) {n : Nat}
    (hn : s.engine.nextSetId = .id n) : s.actOnPlan cause s.setPlan = ({ s with engine :=
      ⟨.writing, some s.setPlan, some n, 0, [], [], if n < 4294967295 then .id (n + 1) else .exhausted⟩ }, [.ask]) := by
  rw [actOnPlan_of_admissible cause h]
  simp only [State.enterWriting, hn]
  rfl

theorem actOnPlan_of_exhausted (cause : PlanCause) (h : s.setPlan.opens + 1 ≤ s.erasedRows)
    (hn : s.engine.nextSetId = .exhausted) : s.actOnPlan cause s.setPlan = (s.outOfSpace, []) := by
  rw [actOnPlan_of_admissible cause h]
  simp only [State.enterWriting, hn, State.outOfSpace]
  rw [← hn]
  rfl

theorem commitPlan_waits (h : s.erasedRows < s.setPlan.opens + 1)
    (hspace : 255 * (s.setPlan.opens + 1 - s.erasedRows) ≤ s.reclaimable) :
    s.commitPlan .first = ({ s with engine := { s.engine with plan := some s.setPlan, state := .waitSpace } }, [.look]) := by
  have hnot : ¬ s.admissible s.setPlan = true := fun x => Nat.not_le.2 h ((admissible_iff s s.setPlan).1 x)
  simp only [State.commitPlan, State.actOnPlan, if_neg hnot]
  exact if_pos hspace

theorem commitPlan_noSpace (h : s.erasedRows < s.setPlan.opens + 1)
    (hspace : s.reclaimable < 255 * (s.setPlan.opens + 1 - s.erasedRows)) : s.commitPlan .first = (s.outOfSpace, []) := by
  have hnot : ¬ s.admissible s.setPlan = true := fun x => Nat.not_le.2 h ((admissible_iff s s.setPlan).1 x)
  simp only [State.commitPlan, State.actOnPlan, if_neg hnot]
  exact if_neg (Nat.not_le.2 hspace)

theorem commitPlan_again {cause : PlanCause} (hcause : cause = .rowErased ∨ cause = .reclaimerIdle) :
    s.commitPlan cause = if s.engine.state = .waitSpace then s.actOnPlan cause s.setPlan else (s, []) := by
  rcases hcause with rfl | rfl <;> rfl

theorem actOnPlan_of_not (h : s.erasedRows < s.setPlan.opens + 1) :
    s.actOnPlan .rowErased s.setPlan = ({ s with engine := { s.engine with plan := some s.setPlan } }, []) ∧
      s.actOnPlan .reclaimerIdle s.setPlan = (s.outOfSpace, []) := by
  have hnot : ¬ s.admissible s.setPlan = true := fun x => Nat.not_le.2 h ((admissible_iff s s.setPlan).1 x)
  exact ⟨if_neg hnot, if_neg hnot⟩

end

/-! ### Admission (R70) -/

/-- The part of an admitted COMMIT: OK answered, the staged set locked (R70). -/
def State.admitted (s : State) : State :=
  { s.answered .commit .ok with staging := { s.staging with lock := true } }

theorem admitted_eq (s : State) :
    State.complete { s.begin.take .commit with staging := { s.staging with lock := true } } .ok = s.admitted := by
  rw [State.admitted, ← answered_eq]
  rfl

theorem exec_commit_of_purge {s : State} (h : s.admits) (hpurge : s.table.purgePending = true) :
    exec .commit s = .next (s.runEvent ({ s.admitted with engine := { s.engine with state := .waitPurge } }, [])) := by
  rw [exec_commit h, ← admitted_eq, State.commitAdmit, if_pos (show (s.begin.take .commit).table.purgePending = true from hpurge)]
  rfl

theorem exec_commit_of_plan {s : State} (h : s.admits) (hpurge : s.table.purgePending = false) :
    exec .commit s = .next (s.runEvent (s.admitted, [.plan .first])) := by
  have hnot : ¬ (s.begin.take .commit).table.purgePending = true := fun x => Bool.false_ne_true (hpurge.symm.trans x)
  rw [exec_commit h, ← admitted_eq, State.commitAdmit, if_neg hnot]
  rfl

theorem admitted_noSpace {s : State}
    (hplan : s.erasedRows < s.setPlan.opens + 1 ∧ s.reclaimable < 255 * (s.setPlan.opens + 1 - s.erasedRows) ∨
      s.setPlan.opens + 1 ≤ s.erasedRows ∧ s.engine.nextSetId = .exhausted) :
    s.admitted.handle (.plan .first) = (s.admitted.outOfSpace, []) := by
  rcases hplan with ⟨h, hspace⟩ | ⟨h, hn⟩
  · exact commitPlan_noSpace (s := s.admitted) h hspace
  · exact actOnPlan_of_exhausted (s := s.admitted) .first h hn

/-- Settles O40. -/
theorem commitWaitsOrFindsNoSpace : Obligations.CommitWaitsOrFindsNoSpace := by
  refine ⟨fun s h hpurge hjob => ?_, fun s h hpurge hplan => ?_, fun s h hpurge hjob hroom hspace => ?_⟩
  · rw [exec_commit_of_purge h hpurge]
    exact next_congr (runEvent_busy (s := { s.admitted with engine := { s.engine with state := .waitPurge } }) hjob
      (fun x hx => (List.not_mem_nil hx).elim) h.noFormat rfl)
  · refine ⟨_, exec_commit_of_plan h hpurge, ?_⟩
    rw [runEvent_cons (admitted_noSpace hplan)]
    have hcalm : s.admitted.outOfSpace.calm := ⟨hpurge, CommitState.noConfusion, h.noFormat⟩
    have hacts := finish_acts s s.admitted.outOfSpace (2 * s.recl.refresh.length + 62) []
      (fun x hx => (List.not_mem_nil hx).elim) hcalm id
    have hev : s.ev.after 0x03 = _ := after_or s.ev evCmdDone 0x02
    rw [hev]
    exact hacts
  · rw [exec_commit_of_plan h hpurge]
    have hwaits : s.admitted.handle (.plan .first) = _ := commitPlan_waits (s := s.admitted) hroom hspace
    rw [runEvent_cons hwaits]
    have hjob' : ({ s.admitted with engine := { s.engine with plan := some s.setPlan, state := .waitSpace } } : State).recl.job
      ≠ .idle := hjob
    refine next_congr ((congrArg (fun u : State => u.finish s.freeGranules) (drain_looks_busy hjob' ?_ _)).trans ?_)
    · simp
    · exact finish_quietly h.noFormat rfl

/-! ### The reclaimer's look in WAIT_SPACE (R74, R99, R101) -/

/-- Row `a` is taken as a victim before row `b`: more dead granules, then a lower sequence (R101). -/
def State.VictimBefore (s : State) (a b : Nat) : Prop :=
  (s.row b).dead < (s.row a).dead ∨ ((s.row a).dead = (s.row b).dead ∧ (s.row a).sequence < (s.row b).sequence)

/-- The comparison by which `State.bestVictim` chooses. -/
def State.betterVictim (s : State) (a b : Nat) : Bool :=
  decide ((s.row b).dead < (s.row a).dead) ||
    ((s.row a).dead = (s.row b).dead && decide ((s.row a).sequence < (s.row b).sequence))

theorem betterVictim_iff (s : State) (a b : Nat) : s.betterVictim a b = true ↔ s.VictimBefore a b := by
  simp [State.betterVictim, State.VictimBefore]

theorem betterVictim_eq_false (s : State) (a b : Nat) : s.betterVictim a b = false ↔ ¬ s.VictimBefore a b := by
  rw [Bool.eq_false_iff, ne_eq, betterVictim_iff]

theorem mem_eligibleVictims (s : State) (x : Nat) : x ∈ s.eligibleVictims ↔ x < 64 ∧ s.eligible x = true := by
  simp [State.eligibleVictims]

theorem bestVictim_first {s : State} {v : Nat} (h : s.bestVictim = some v) : v < 64 ∧ s.eligible v = true ∧
    ∀ x, x < 64 → s.eligible x = true →
      s.VictimBefore v x ∨ ((s.row v).dead = (s.row x).dead ∧ (s.row v).sequence = (s.row x).sequence ∧ v ≤ x) := by
  have hbest : bestOf s.betterVictim s.eligibleVictims = some v := h
  obtain ⟨hv, hel⟩ := (mem_eligibleVictims s v).1 (bestOf_mem _ _ _ hbest)
  refine ⟨hv, hel, fun x hx hxe => ?_⟩
  have hasymm : ∀ a b, s.betterVictim a b = true → s.betterVictim b a = false := fun a b hab => by
    rw [betterVictim_eq_false]
    rw [betterVictim_iff] at hab
    simp only [State.VictimBefore] at hab ⊢
    omega
  have htrans : ∀ a b c, s.betterVictim b a = false → s.betterVictim c b = false → s.betterVictim c a = false :=
    fun a b c hba hcb => by
      rw [betterVictim_eq_false] at *
      simp only [State.VictimBefore] at *
      omega
  rcases bestOf_first hasymm htrans (pairwise_lt_filter_range _ _) hbest x ((mem_eligibleVictims s x).2 ⟨hx, hxe⟩) with
    hlt | ⟨hxv, hvx, hle⟩
  · exact .inl ((betterVictim_iff s v x).1 hlt)
  · rw [betterVictim_eq_false] at hxv hvx
    simp only [State.VictimBefore] at *
    omega

theorem bestVictim_of_exists {s : State} (h : ∃ x, x < 64 ∧ s.eligible x = true) : ∃ v, s.bestVictim = some v := by
  obtain ⟨x, hx, hxe⟩ := h
  exact bestOf_some s.betterVictim _ (List.ne_nil_of_mem ((mem_eligibleVictims s x).2 ⟨hx, hxe⟩))

theorem reclaimLook_of_ready {s : State} (hmode : s.win.mode = .ready) (hidle : s.recl.job = .idle) :
    s.reclaimLook = s.dropIdleRequest.startDueJob := by
  rw [State.reclaimLook, if_pos ⟨hidle, by rw [hmode]; decide, by rw [hmode]; decide⟩]

theorem dropIdleRequest_of_some {s : State} (h : s.eligibleVictims ≠ []) : s.dropIdleRequest = s := by
  have hfull : s.eligibleVictims.isEmpty = false := List.isEmpty_eq_false_iff.2 h
  simp [State.dropIdleRequest, hfull]

theorem dropIdleRequest_of_none {s : State} (hmode : s.win.mode = .ready) (h : s.eligibleVictims = []) :
    s.dropIdleRequest = { s with recl := { s.recl with request := false } } := by
  cases hr : s.recl.request with
  | true => simp [State.dropIdleRequest, hmode, hr, h]
  | false =>
    simp [State.dropIdleRequest, hmode, hr]
    rw [← hr]

/-- With no purge owed and no DIRTY row, what starts is a pass or a refresh (R99). -/
theorem startDueJob_of_clean {s : State} (hpurge : s.table.purgePending = false)
    (hdirty : ∀ x, x < 64 → (s.row x).state ≠ some .dirty) : s.startDueJob =
    if s.urgentDue then s.startPass .urgentVictim
    else
      match s.refreshDue, s.recl.refresh with
      | true, head :: rest => s.startRefresh head rest
      | _, _ =>
        if s.backgroundDue then State.startPass { s with recl := { s.recl with request := false } } .backgroundVictim
        else (s, if s.engine.state = .waitSpace then [.plan .reclaimerIdle] else []) := by
  have hpurgeDue : s.purgeDue = false := by simp [State.purgeDue, hpurge]
  have hrows : s.rowsIn .dirty = [] := by
    refine List.filter_eq_nil_iff.2 (fun x hx => ?_)
    simpa using hdirty x (List.mem_range.1 hx)
  have hdirtyDue : s.dirtyDue = none := by simp [State.dirtyDue, hrows]
  simp only [State.startDueJob, hpurgeDue, hdirtyDue]
  rfl

theorem eligibleVictims_withRequest (s : State) (b : Bool) :
    ({ s with recl := { s.recl with request := b } } : State).eligibleVictims = s.eligibleVictims := rfl

theorem urgentDue_of_none {s : State} (h : s.eligibleVictims = []) : s.urgentDue = false := by
  simp [State.urgentDue, h]

theorem backgroundDue_of_none {s : State} (h : s.eligibleVictims = []) : s.backgroundDue = false := by
  simp [State.backgroundDue, h]

theorem startDueJob_of_nothing {s : State} (hpurge : s.table.purgePending = false)
    (hdirty : ∀ x, x < 64 → (s.row x).state ≠ some .dirty) (hurgent : s.urgentDue = false)
    (hrefresh : s.recl.refresh = []) (hbackground : s.backgroundDue = false) :
    s.startDueJob = (s, if s.engine.state = .waitSpace then [.plan .reclaimerIdle] else []) := by
  have hrefreshDue : s.refreshDue = false := by simp [State.refreshDue, hrefresh]
  rw [startDueJob_of_clean hpurge hdirty]
  simp [hurgent, hrefreshDue, hbackground]

/-- Settles O41. -/
theorem waitSpacePlansAgain : Obligations.WaitSpacePlansAgain := by
  intro s planned spent
  refine ⟨commitPlan_waits, fun cause hcause => ⟨fun hnot => ?_, fun hwait hroom => ⟨fun n hn => ?_, fun hn => ?_⟩⟩,
    fun hwait hroom => ⟨?_, ?_⟩, fun hwait hidle hmode hpurge hdirty => ⟨fun hblocked v hv hel hbest => ?_,
      fun hrefresh => ⟨fun hblocked hne => ?_, fun hnone => ?_⟩⟩⟩
  · rw [commitPlan_again hcause, if_neg hnot]
  · rw [commitPlan_again hcause, if_pos hwait, actOnPlan_of_id cause hroom hn]
  · rw [commitPlan_again hcause, if_pos hwait, actOnPlan_of_exhausted cause hroom hn]
    rfl
  · rw [commitPlan_again (.inl rfl), if_pos hwait, (actOnPlan_of_not hroom).1]
  · rw [commitPlan_again (.inr rfl), if_pos hwait, (actOnPlan_of_not hroom).2]
    rfl
  · have hne : s.eligibleVictims ≠ [] := List.ne_nil_of_mem ((mem_eligibleVictims s v).2 ⟨hv, hel⟩)
    obtain ⟨r, hr⟩ := bestVictim_of_exists ⟨v, hv, hel⟩
    have hrv : r = v := by
      obtain ⟨hr64, hrel, hrbest⟩ := bestVictim_first hr
      have h1 := hrbest v hv hel
      have h2 := hbest r hr64 hrel
      simp only [State.VictimBefore] at h1
      omega
    have hurgent : s.urgentDue = true := by simp [State.urgentDue, hmode, hwait, hblocked, hne]
    rw [reclaimLook_of_ready hmode hidle, dropIdleRequest_of_some hne, startDueJob_of_clean hpurge hdirty,
      if_pos hurgent, State.startPass, hr, hrv]
  · rw [reclaimLook_of_ready hmode hidle, dropIdleRequest_of_some hne, startDueJob_of_nothing hpurge hdirty
      (by simp [State.urgentDue, hblocked]) hrefresh (by simp [State.backgroundDue, hblocked]), if_pos hwait]
  · have hnil : s.eligibleVictims = [] := List.eq_nil_iff_forall_not_mem.2 (fun x hx => by
      obtain ⟨h64, hel⟩ := (mem_eligibleVictims s x).1 hx
      rw [hnone x h64] at hel
      cases hel)
    rw [reclaimLook_of_ready hmode hidle, dropIdleRequest_of_none hmode hnil]
    have hnil' := (eligibleVictims_withRequest s false).trans hnil
    rw [startDueJob_of_nothing (s := { s with recl := { s.recl with request := false } }) hpurge hdirty
      (urgentDue_of_none hnil') hrefresh (backgroundDue_of_none hnil')]
    exact congrArg _ (if_pos hwait)

/-! ### The first record of a set (R75 to R77) -/

theorem freeGranules_eq (s : State) : s.freeGranules = s.openRoom + 255 * s.erasedRows - 255 := rfl

theorem openRoom_of_open {s : State} {r : Nat} (h : s.openRow = some r) : s.openRoom = 256 - (s.row r).nextFree := by
  rw [State.openRoom, h]

/-- The free granules after a record has taken room in the open row (R93). -/
theorem freeGranules_of_placed {s : State} {r n : Nat} (hr : s.openRow = some r) (hroom : (s.row r).nextFree + n ≤ 256)
    (herased : 1 ≤ s.erasedRows) :
    (s.setRow r { s.row r with nextFree := (s.row r).nextFree + n }).freeGranules = s.freeGranules - n := by
  generalize hrec : ({ s.row r with nextFree := (s.row r).nextFree + n } : RowRec) = rec
  have hstate : rec.state = (s.row r).state := by rw [← hrec]
  have hnext : rec.nextFree = (s.row r).nextFree + n := by rw [← hrec]
  have hrows := rowsIn_setRow s r rec hstate
  have hopen : (s.setRow r rec).openRow = some r := by
    rw [State.openRow, hrows]
    exact hr
  have herasedRows : (s.setRow r rec).erasedRows = s.erasedRows := congrArg List.length (hrows .erased)
  have hself := congrArg RowRec.nextFree (row_setRow_self s (openRow_lt hr).1 rec)
  have hroom₁ := openRoom_of_open hopen
  have hroom₂ := openRoom_of_open hr
  have hfree₁ := freeGranules_eq (s.setRow r rec)
  have hfree₂ := freeGranules_eq s
  omega

theorem nextAppend_of_first {s : State} {n : Nat} {e : StagedEntry} {rest : List StagedEntry}
    (hid : s.engine.writingId = some n) (hindex : s.engine.index = 0) (hentries : s.staging.entries = e :: rest) :
    s.nextAppend = ⟨.commit, ⟨match e.op with | .put => .put | .delete => .delete, false, e.key, nextVersion s.dir e.key,
      n, e.length, 0, crc16 (s.staging.payload e)⟩, s.staging.payload e, 0⟩ := by
  simp only [State.nextAppend, hindex, hentries, hid, List.getElem?_cons_zero, Option.getD_some]
  cases e.op <;> rfl

theorem grantAppend_of_commit {s : State} {a : Append} (hfree : s.writer.inService = none)
    (hwait : s.writer.waitingCommit = some a) :
    s.grantAppend = State.place { s with writer := { s.writer with waitingCommit := none } } a := by
  simp only [State.grantAppend, hfree, hwait]

/-- The commit engine's append in an open row with room: asked for, granted and programmed in one event. -/
theorem drain_ask {v : State} {a : Append} {r : Nat} (hnext : v.nextAppend = a) (hfree : v.writer.inService = none)
    (hopen : v.openRow = some r) (hroom : (v.row r).nextFree + a.size ≤ 256) (k : Nat) (l : List Signal) :
    drain (k + 2) (.ask :: l) v = drain k l { v with
      table := (v.setRow r { v.row r with nextFree := (v.row r).nextFree + a.size }).table
      writer := ⟨some a, .record r (v.row r).nextFree, none, v.writer.waitingReclaimer⟩
      ctl := (v.issue ⟨match a.cls with | .commit => .commit | .reclaimer => .reclaimer,
        match a.cls with | .commit => .commit | .reclaimer => .reclaim, r, (v.row r).nextFree,
        .program (recordGranules a.header a.payload), true⟩).ctl } := by
  have hask : v.handle .ask = ({ v with writer := { v.writer with waitingCommit := some a } }, [.grant]) := by
    rw [← hnext]
    rfl
  have hgrant : State.handle { v with writer := { v.writer with waitingCommit := some a } } .grant =
      State.place { v with writer := { v.writer with waitingCommit := none } } a := grantAppend_of_commit hfree rfl
  have hplace := place_of_room (s := { v with writer := { v.writer with waitingCommit := none } }) hopen hroom
  rw [programAt_eq] at hplace
  rw [drain_cons (k + 1) .ask l v _ _ hask]
  exact drain_cons k .grant l _ _ _ (hgrant.trans hplace)

theorem reclaimerActs_ev_eq {s t : State} (h : s.reclaimerActs t) : t.ev = s.ev := by
  obtain ⟨v, hv, -, rfl⟩ := h
  rw [hv.frame]

/-- The end of an event whose last reactions are looks: SPACE_LOW where the free granules fell below 255 (R93). -/
theorem finish_acts_spaceLow {s u : State} (before n : Nat) {l : List Signal} (hl : ∀ x ∈ l, x = .look) (c : s.calm)
    (hu : u = { s with ev := u.ev })
    (hev : u.ev = if 255 ≤ before ∧ s.freeGranules < 255 then
      { s.ev with event := s.ev.event ||| evSpaceLow, justSet := s.ev.justSet ||| evSpaceLow } else s.ev) :
    u.reclaimerActs ((drain (n + 1) (.look :: l) s).finish before) := by
  have hacts := drain_acts n l hl s c
  have hcalm := reclaimerActs_calm hacts c
  have hsame := reclaimerActs_ev_eq hacts
  have hfree := reclaimerActs_freeGranules hacts
  rw [State.finish, beginExclusive_none _ hcalm.2.2, State.spaceLowAfter, hfree, hu, hev]
  by_cases h : 255 ≤ before ∧ s.freeGranules < 255
  · rw [if_pos h, if_pos h, ← hsame]
    exact reclaimerActs_ev _ _ _ hacts
  · rw [if_neg h, if_neg h]
    exact hacts

/-- The part of an admitted COMMIT that has entered WRITING with the set id `n` (R75). -/
def State.writingSet (s : State) (n : Nat) : State := { s.admitted with engine :=
  ⟨.writing, some s.setPlan, some n, 0, [], [], if n < 4294967295 then .id (n + 1) else .exhausted⟩ }

theorem admitted_writes {s : State} {n : Nat} (hplan : s.setPlan.opens + 1 ≤ s.erasedRows)
    (hid : s.engine.nextSetId = .id n) : s.admitted.handle (.plan .first) = (s.writingSet n, [.ask]) :=
  actOnPlan_of_id (s := s.admitted) .first hplan hid

theorem spaceLow_after (e : EventUnit) {c : Prop} [Decidable c] :
    (if c then { e.after 0x01 with
      event := (e.after 0x01).event ||| evSpaceLow, justSet := (e.after 0x01).justSet ||| evSpaceLow }
      else (e.after 0x01)) = e.after (if c then 0x21 else 0x01) := by
  have hev : e.after 0x21 = _ := after_or e 0x01 evSpaceLow
  rw [← hev, apply_ite e.after]

/-- Settles O42. -/
theorem commitStartsWriting : Obligations.CommitStartsWriting := by
  intro s n r e rest hadm hpurge hplan hid hfree hopen hentries hroom g payload h u
  refine ⟨_, exec_commit_of_plan hadm hpurge, ?_⟩
  rw [runEvent_cons (admitted_writes hplan hid)]
  have hnext : (s.writingSet n).nextAppend = ⟨.commit, h, payload, 0⟩ := nextAppend_of_first rfl rfl hentries
  have hdrain := drain_ask (v := s.writingSet n) hnext hfree hopen hroom (2 * s.recl.refresh.length + 61) [.look]
  have hfreeGranules : State.freeGranules { u with ev := s.ev.after 0x01 } =
      s.freeGranules - (1 + (e.length + 15) / 16) :=
    (freeGranules_of_table (s.setRow r { s.row r with nextFree := g + (1 + (e.length + 15) / 16) }) _ rfl).trans
      (freeGranules_of_placed hopen hroom (Nat.le_trans (Nat.le_add_left 1 _) hplan))
  have hacts := finish_acts_spaceLow (s := { u with ev := s.ev.after 0x01 }) (u := u) s.freeGranules
    (2 * s.recl.refresh.length + 60) (l := []) (fun x hx => (List.not_mem_nil hx).elim)
    ⟨hpurge, CommitState.noConfusion, hadm.noFormat⟩ rfl (by
      rw [hfreeGranules]
      exact (spaceLow_after s.ev).symm)
  have hfinal := (congrArg (fun d : State => u.reclaimerActs (d.finish s.freeGranules)) hdrain).mpr hacts
  exact ⟨hfinal, fun hjob => reclaimerActs_busy hfinal (.inl hjob)⟩

/-! ### The publish (R82 to R84) -/

theorem writeGranules_cells {s t : State} (h : s.cells = t.cells) (row first : Nat) (granules : List Data) :
    (s.writeGranules row first granules).cells = (t.writeGranules row first granules).cells := by
  induction granules generalizing s t first with
  | nil => exact h
  | cons d rest ih => exact ih (setGranule_cells h row first _) (first + 1)

/-- The part as the requester of a verified program finds it (R21). -/
def State.verified (s : State) (r : Request) (granules : List Data) : State := { s.begin with
  cells := (s.writeGranules r.row r.first granules).cells
  ctl := { s.ctl with state := .idle, current := none } }

theorem programTaken_of_verified (s : State) (r : Request) (granules : List Data) :
    s.programTaken r granules none = s.verified r granules := by
  have hcells : (s.begin.writeGranules r.row r.first granules).cells = (s.writeGranules r.row r.first granules).cells :=
    writeGranules_cells (show s.begin.cells = s.cells from rfl) _ _ _
  rw [State.verified, ← hcells]
  have hform := writeGranules_form granules s.begin r.row r.first
  exact congrArg (fun u : State => u.arrayFree) hform

theorem moveNewestCommit_form (s : State) (l : Loc) : s.moveNewestCommit l = { s with
    table := { s.table with rows := (s.moveNewestCommit l).table.rows, newestCommit := some l } } := by
  cases h : s.table.newestCommit with
  | none => simp only [State.moveNewestCommit, h]
  | some old =>
    simp only [State.moveNewestCommit, h]
    rfl

theorem row_moveNewestCommit (s : State) (l : Loc) {x : Nat} (hx : x < 64) : (s.moveNewestCommit l).row x =
    { s.row x with dead := (s.row x).dead +
      (match s.table.newestCommit with | none => 0 | some l => if l.row = x then 1 else 0) } := by
  cases h : s.table.newestCommit with
  | none => simp only [State.moveNewestCommit, h]; rfl
  | some old =>
    have hrow : (s.moveNewestCommit l).row x = (s.addDead old.row 1).row x := by
      simp only [State.moveNewestCommit, h]
      rfl
    rw [hrow, row_addDead s old.row 1 x hx]
    by_cases ho : old.row = x <;> simp [ho]

/-- A running audit whose range holds a key of the set (R150). -/
def State.Disturbed (s : State) (placed : List Placed) : Prop :=
  s.aud.running = true ∧ ∃ p ∈ placed, s.aud.lo ≤ p.key ∧ p.key ≤ s.aud.hi

theorem disturbed_iff (s : State) (placed : List Placed) :
    (s.aud.running && (placed.map Placed.key).any (fun k => decide (s.aud.lo ≤ k) && decide (k ≤ s.aud.hi))) = true ↔
      s.Disturbed placed := by
  simp [State.Disturbed]

theorem auditDisturb_of (s : State) {placed : List Placed} (h : s.Disturbed placed) :
    s.auditDisturb (placed.map Placed.key) = s.endAudit .disturbed 0 :=
  if_pos ((disturbed_iff s placed).2 h)

theorem auditDisturb_of_not (s : State) {placed : List Placed} (h : ¬ s.Disturbed placed) :
    s.auditDisturb (placed.map Placed.key) = s :=
  if_neg (fun x => h ((disturbed_iff s placed).1 x))

/-- The directory and the row table of a publish (R83). -/
def State.published (s : State) (l : Loc) : State :=
  (s.engine.placed.foldl State.publishRecord s).moveNewestCommit l

theorem published_form (s : State) (l : Loc) : s.published l = { s with
    dir := (s.published l).dir
    table := { s.table with rows := (s.published l).table.rows, newestCommit := some l } } := by
  have hform := publishRecords_form s.engine.placed s
  rw [State.published, moveNewestCommit_form]
  exact congrArg (fun u : State => { u with table := { u.table with
    rows := ((s.engine.placed.foldl State.publishRecord s).moveNewestCommit l).table.rows, newestCommit := some l } }) hform

/-- The part of a publish before the audit unit is told its keys (R83, R84). -/
def State.publishing (s : State) (l : Loc) : State := { s with
  staging := { s.staging with entries := [], poolFill := 0 }
  dir := (s.published l).dir
  table := { s.table with rows := (s.published l).table.rows, newestCommit := some l } }

theorem publish_eq (s : State) (l : Loc) :
    s.publish l = ((s.publishing l).auditDisturb (s.engine.placed.map Placed.key)).endCommit .ok := by
  have hform := congrArg (fun u : State => (State.auditDisturb { u with staging := u.staging.emptied }
    (s.engine.placed.map Placed.key)).endCommit .ok) (published_form s l)
  exact hform

theorem publish_form (s : State) (l : Loc) {d : Prop} [Decidable d] (hd : d ↔ s.Disturbed s.engine.placed) :
    s.publish l = { s with
      win := { s.win with
        jobResult := .ok
        auditResult := if d then .disturbed else s.win.auditResult
        sig := if d then 0 else s.win.sig
        acount := if d then BitVec.ofNat 16 s.aud.count else s.win.acount }
      ev := if d then { s.ev with
          event := s.ev.event ||| evAuditDone ||| evJobDone, justSet := s.ev.justSet ||| evAuditDone ||| evJobDone }
        else { s.ev with event := s.ev.event ||| evJobDone, justSet := s.ev.justSet ||| evJobDone }
      staging := { s.staging with entries := [], poolFill := 0, lock := false }
      dir := (s.published l).dir
      table := { s.table with rows := (s.published l).table.rows, newestCommit := some l }
      engine := { CommitEngine.atReset with nextSetId := s.engine.nextSetId }
      aud := if d then { s.aud with running := false, reading := none } else s.aud
      ctl := if d then (s.abandonRequests .audit).ctl else s.ctl } := by
  rw [publish_eq]
  by_cases h : d
  · rw [auditDisturb_of (s.publishing l) (hd.1 h)]
    simp only [if_pos h]
    rfl
  · rw [auditDisturb_of_not (s.publishing l) (fun x => h (hd.2 x))]
    simp only [if_neg h]
    rfl

/-- What a publish leaves in the directory and the row table (R45, R46, R83). -/
theorem published_spec {s : State} (l : Loc) (hd : s.dirOk) (hn : (s.engine.placed.map Placed.key).Nodup) :
    (s.published l).dirOk ∧
    (∀ k, (∀ p ∈ s.engine.placed, p.key ≠ k) → dirFind (s.published l).dir k = dirFind s.dir k) ∧
    (∀ p ∈ s.engine.placed, dirFind (s.published l).dir p.key = some (publishedEntry (dirFind s.dir p.key) p)) ∧
    ∀ x, x < 64 → (s.published l).row x = { s.row x with dead :=
      (s.row x).dead + (s.engine.placed.map (deadBy s.dir x)).sum +
        (match s.table.newestCommit with | none => 0 | some l => if l.row = x then 1 else 0) } := by
  obtain ⟨hok, hothers, hkeys, hrows⟩ := publishRecords_spec s.engine.placed s hd hn
  have hdir : (s.published l).dir = (s.engine.placed.foldl State.publishRecord s).dir := by
    rw [State.published, moveNewestCommit_form]
  have hnewest : (s.engine.placed.foldl State.publishRecord s).table.newestCommit = s.table.newestCommit := by
    rw [publishRecords_form]
  rw [State.dirOk, hdir]
  refine ⟨hok, hothers, hkeys, fun x hx => ?_⟩
  rw [State.published, row_moveNewestCommit _ l hx, hrows x hx, hnewest]

theorem publishedEntry_eq (before : Option DirEntry) (p : Placed) : publishedEntry before p = {
    key := p.key
    state := match p.kind with | .put => .live | .delete => .tombstone | .commit => .tombstone
    version := p.version
    setId := p.setId
    row := p.row
    granule := p.granule
    length := p.length
    stale := min 16320 (match before with | none => p.failed | some e => e.stale + 1 + p.failed)
    baseSetId := match before with | none => p.setId | some e => e.baseSetId } := by
  obtain ⟨key, kind, version, setId, row, granule, length, failed⟩ := p
  cases before <;> cases kind <;> rfl

/-- The end of an event that left the reclaimer to look, the free granules not below 255 (R93). -/
theorem finish_of_acts {u t : State} {before : Nat} (h : u.reclaimerActs t.arbitrate) (hcalm : u.calm)
    (hfree : 255 ≤ before → 255 ≤ u.freeGranules) : u.reclaimerActs (t.finish before) := by
  have hfmt := (reclaimerActs_calm h hcalm).2.2
  have hsame := reclaimerActs_freeGranules h
  rw [State.finish, beginExclusive_none _ hfmt, State.spaceLowAfter, if_neg]
  · exact h
  · omega

/-- The part whose COMMIT record has verified, as the commit engine finds it (R77, R82). -/
def State.commitVerified (s : State) (r : Request) (a : Append) (row : Nat) (granules : List Data) : State :=
  { s.verified r granules with
    writer := ⟨none, .nothing, none, none⟩
    engine := { s.engine with setRows :=
      if a.cls = .commit ∧ row ∉ s.engine.setRows then s.engine.setRows ++ [row] else s.engine.setRows } }

section
variable {s : State} {a : Append} {row g : Nat}

theorem writerProgramDone_of_commit (r : Request) (granules : List Data)
    (hwriter : s.writer = ⟨some a, .record row g, none, none⟩) :
    (s.programTaken r granules none).writerProgramDone none =
      (s.commitVerified r a row granules, [.reply a (.placed row g a.failed)]) := by
  rw [programTaken_of_verified]
  have hin := congrArg Writer.inService hwriter
  have hwait := congrArg Writer.wait hwriter
  refine (writerProgramDone_of_verified (s := s.verified r granules) hin hwait).trans ?_
  rw [enterSetRow_for]
  refine Prod.ext ?_ rfl
  exact congrArg (fun w : Writer => { s.commitVerified r a row granules with
    writer := { w with inService := none, wait := .nothing } }) hwriter

theorem handle_reply_of_closing (hcls : a.cls = .commit) (hclosing : s.engine.state = .closing) (failed : Nat) :
    s.handle (.reply a (.placed row g failed)) = (s.publish ⟨row, g⟩, [.look, .grant]) := by
  simp only [State.handle, State.deliverReply, hcls, State.commitReply, State.commitPlaced, if_pos hclosing]
  rfl

end

theorem disturbed_ev (e : EventUnit) {d : Prop} [Decidable d] :
    (if d then { e.after 0 with
        event := (e.after 0).event ||| evAuditDone ||| evJobDone
        justSet := (e.after 0).justSet ||| evAuditDone ||| evJobDone }
      else { e.after 0 with event := (e.after 0).event ||| evJobDone, justSet := (e.after 0).justSet ||| evJobDone }) =
    e.after (if d then 0x06 else 0x02) := by
  by_cases h : d <;> simp [h, EventUnit.after, evAuditDone, evJobDone, BitVec.or_assoc]

/-- Settles O43. -/
theorem commitPublishesTheSet : Obligations.CommitPublishesTheSet := by
  intro s r a row g granules hdir hcalm hs hreq hw hop hwriter hcls hclosing hnodup disturbed
  obtain ⟨v, hv⟩ : ∃ v, v = s.commitVerified r a row granules := ⟨_, rfl⟩
  have hexec : exec (.programComplete none) s = .next (s.begin.runEvent (v, [.reply a (.placed row g a.failed)])) := by
    rw [exec_programComplete_of_serves hs hop (by simp), hv]
    refine next_congr ?_
    rw [State.programDone, ← writerProgramDone_of_commit r granules hwriter]
    simp only [State.deliverProgram, hw, hreq]
    rfl
  have hpublished := publish_form v ⟨row, g⟩ (d := disturbed) (by rw [hv]; rfl)
  have hvwriter : v.writer = ⟨none, .nothing, none, none⟩ := by rw [hv]; rfl
  have hvclosing : v.engine.state = .closing := by rw [hv]; exact hclosing
  obtain ⟨hok, hothers, hkeys, hrows⟩ :=
    published_spec (s := v) ⟨row, g⟩ (by rw [hv]; exact hdir) (by rw [hv]; exact hnodup)
  generalize hu : v.publish ⟨row, g⟩ = u at hpublished
  have hudir : u.dir = (v.published ⟨row, g⟩).dir := by rw [hpublished]
  have hurows : u.table.rows = (v.published ⟨row, g⟩).table.rows := by rw [hpublished]
  have hurow : ∀ x, u.row x = (v.published ⟨row, g⟩).row x := fun x => by rw [State.row, State.row, hurows]
  have hucalm : u.calm := by
    rw [hpublished, hv]
    exact ⟨hcalm.1, CommitState.noConfusion, hcalm.2.2⟩
  have hreply := handle_reply_of_closing (row := row) (g := g) hcls hvclosing a.failed
  rw [hu] at hreply
  rw [runEvent_cons hreply] at hexec
  refine ⟨_, u, hexec, finish_of_acts (drain_acts_grants _ _ (by simp) u hucalm ?_) hucalm ?_, ?_, ?_, ?_, ?_, ?_⟩
  · rw [hpublished]
    exact hvwriter
  · rw [freeGranules_of_rows s.begin u]
    · exact id
    · intro x hx
      rw [hurow, hrows x hx, hv]
      exact ⟨rfl, rfl⟩
  · rw [hudir, hurows, hpublished, ← disturbed_ev]
    generalize (v.published ⟨row, g⟩).dir = dir
    generalize (v.published ⟨row, g⟩).table.rows = rows
    rw [hv, State.commitVerified, State.verified, begin_eq_quietly]
    by_cases h : disturbed
    · simp only [if_pos h]
      rfl
    · simp only [if_neg h]
      rfl
  · rwa [State.dirOk, hudir]
  · intro k hk
    rw [hudir, hothers k (by rw [hv]; exact hk), hv]
    rfl
  · intro p hp
    rw [hudir, hkeys p (by rw [hv]; exact hp), publishedEntry_eq, hv]
    rfl
  · intro x hx
    rw [hurow, hrows x hx, hv]
    rfl

end Sys2Proof.Machine
end

section
/-! PROOFS. The reclaimer's request, and the pass that copies its victim (O49, O50). -/

namespace Sys2Proof.Machine

/-! ### RECLAIM (R100) -/

/-- The part of a RECLAIM taken in READY: OK answered, the request set (R100). -/
def State.asked (s : State) : State :=
  { s.answered .reclaim .ok with recl := { s.recl with request := true } }

theorem reclaimBody_of_ready {s : State} (h : s.win.mode = .ready) : s.reclaimBody =
    s.runEvent (State.complete { s with recl := { s.recl with request := true } } .ok, []) := by
  simp only [State.reclaimBody, h]

theorem exec_reclaim {s : State} (hacc : s.accepts .reclaim) :
    exec .reclaim s = .next (s.begin.take .reclaim).reclaimBody :=
  exec_accepts s .reclaim (by decide) hacc

theorem exec_reclaim_of_ready {s : State} (hacc : s.accepts .reclaim) (h : s.win.mode = .ready) :
    exec .reclaim s = .next (s.runEvent (s.asked, [])) := by
  have hasked : State.complete { s.begin.take .reclaim with recl := { s.recl with request := true } } .ok = s.asked := by
    rw [State.asked, ← answered_eq]
    rfl
  have hbody := reclaimBody_of_ready (s := s.begin.take .reclaim) h
  rw [exec_reclaim hacc, hbody, ← hasked]
  rfl

/-- With nothing due before it, a request is taken at once (R99). -/
theorem reclaimLook_takes {s : State} {v : Nat} (hidle : s.recl.job = .idle) (hmode : s.win.mode = .ready)
    (hcalm : s.calm) (hblocked : s.recl.blocked = false) (hrefresh : s.recl.refresh = [])
    (hdirty : ∀ x, x < 64 → (s.row x).state ≠ some .dirty) (hrequest : s.recl.request = true)
    (hv : s.bestVictim = some v) : s.reclaimLook = (State.beginPass { s with recl :=
      { s.recl with request := false, job := .backgroundVictim } } v, []) := by
  obtain ⟨h64, hel, -⟩ := bestVictim_first hv
  have hne : s.eligibleVictims ≠ [] := List.ne_nil_of_mem ((mem_eligibleVictims s v).2 ⟨h64, hel⟩)
  have hurgent : s.urgentDue = false := by simp [State.urgentDue, hcalm.2.1]
  have hrefreshDue : s.refreshDue = false := by simp [State.refreshDue, hrefresh]
  have hbackground : s.backgroundDue = true := by simp [State.backgroundDue, hmode, hblocked, hrequest, hne]
  have hpass : State.startPass { s with recl := { s.recl with request := false } } .backgroundVictim =
      (State.beginPass { s with recl := { s.recl with request := false, job := .backgroundVictim } } v, []) := by
    have hvictim : ({ s with recl := { s.recl with request := false } } : State).bestVictim = some v := hv
    simp only [State.startPass, hvictim]
  rw [reclaimLook_of_ready hmode hidle, dropIdleRequest_of_some hne, startDueJob_of_clean hcalm.1 hdirty, ← hpass]
  simp only [hurgent, hrefreshDue, hbackground, Bool.false_eq_true, if_false, if_true]

theorem runEvent_look {s0 s v : State} (h : s.reclaimLook = (v, [])) : s0.runEvent (s, []) = v.finish s0.freeGranules := by
  have hfuel : s.fuel = 2 * s.recl.refresh.length + 63 + 1 := by
    rw [State.fuel]
    omega
  have hdrain := drain_cons (2 * s.recl.refresh.length + 63) .look [] s v [] h
  rw [State.runEvent, State.settleEvent, hfuel]
  exact (congrArg (fun u : State => u.finish s0.freeGranules) hdrain)

theorem finish_keeps {s : State} (hfmt : s.fmt = none) (before : Nat) :
    (s.finish before).recl = s.recl ∧ (s.finish before).table = s.table := by
  rw [State.finish, beginExclusive_none s.arbitrate hfmt, State.spaceLowAfter_recl, State.spaceLowAfter_table]
  exact ⟨rfl, rfl⟩

/-- Settles O49: an idle reclaimer in READY finds the request due once nothing else is. -/
theorem reclaimAsksForAPass : Obligations.ReclaimAsksForAPass := by
  intro s hacc
  refine ⟨fun hmode => ?_, fun hmode => ?_, fun hmode hfmt hjob => ?_,
    fun hmode hcalm hidle hblocked hrefresh hdirty hsome => ?_⟩
  · have hbody : (s.begin.take .reclaim).reclaimBody = (s.begin.take .reclaim).complete .readOnly := by
      simp only [State.reclaimBody, show (s.begin.take .reclaim).win.mode = .readOnly from hmode]
    rw [exec_reclaim hacc, hbody, answered_eq]
  · have hbody : (s.begin.take .reclaim).reclaimBody = (s.begin.take .reclaim).complete .ok := by
      simp only [State.reclaimBody, show (s.begin.take .reclaim).win.mode = .unformatted from hmode]
    rw [exec_reclaim hacc, hbody, answered_eq]
  · rw [exec_reclaim_of_ready hacc hmode]
    exact next_congr (runEvent_busy (s := s.asked) hjob (fun x hx => (List.not_mem_nil hx).elim) hfmt rfl)
  · obtain ⟨v, hv⟩ := bestVictim_of_exists hsome
    obtain ⟨h64, hel, hbest⟩ := bestVictim_first hv
    have hlook := reclaimLook_takes (s := s.asked) hidle hmode hcalm hblocked hrefresh hdirty rfl hv
    obtain ⟨phase, wait, first, count, hform⟩ := beginPass_form
      { s.asked with recl := { s.asked.recl with request := false, job := .backgroundVictim } } v
    have hrun : s.runEvent (s.asked, []) = _ := runEvent_look (hform ▸ hlook)
    obtain ⟨hrecl, htable⟩ := finish_keeps (s := { State.setRowState { s.asked with recl :=
      { s.asked.recl with request := false, job := .backgroundVictim } } v .victim with
      recl := { s.asked.recl with
        request := false, job := .backgroundVictim, phase := phase, victim := some v, cursor := 1, copyList := []
        walkList := [], wait := wait }
      ctl := State.askedByReclaimer { s.asked with recl :=
        { s.asked.recl with request := false, job := .backgroundVictim } } v first count }) hcalm.2.2 s.freeGranules
    have hrow : (s.runEvent (s.asked, [])).row v = { s.row v with state := some .victim } := by
      rw [hrun, State.row, htable]
      exact row_setRow_self s h64 _
    refine ⟨_, v, exec_reclaim_of_ready hacc hmode, runEvent_acts s s.asked [] (fun x hx => (List.not_mem_nil hx).elim)
      hcalm id, ?_, ?_, ?_, h64, hel, by rw [hrow], fun x hx hxe => ?_⟩
    · rw [hrun, hrecl]
    · rw [hrun, hrecl]
    · rw [hrun, hrecl]
    · have := hbest x hx hxe
      simp only [State.VictimBefore] at this
      omega

/-! ### Lists in order -/

theorem insertBy_perm {α : Type} (before : α → α → Bool) (x : α) (l : List α) : (insertBy before x l).Perm (x :: l) := by
  induction l with
  | nil => exact .refl _
  | cons y t ih =>
    rw [insertBy]
    split
    · exact (ih.cons y).trans (.swap x y t)
    · exact .refl _

theorem sortBy_perm {α : Type} (before : α → α → Bool) (l : List α) : (sortBy before l).Perm l := by
  induction l with
  | nil => exact .refl _
  | cons x t ih => exact (insertBy_perm before x _).trans (ih.cons x)

section
variable {α : Type} (k : α → Nat)

theorem insertBy_pairwise (x : α) {l : List α} (h : l.Pairwise (fun a b => k a ≤ k b)) :
    (insertBy (fun a b => decide (k a < k b)) x l).Pairwise (fun a b => k a ≤ k b) := by
  induction l with
  | nil => exact List.pairwise_singleton _ _
  | cons y t ih =>
    obtain ⟨hy, ht⟩ := List.pairwise_cons.1 h
    rw [insertBy]
    by_cases hlt : k y < k x
    · rw [if_pos (decide_eq_true hlt)]
      refine List.pairwise_cons.2 ⟨fun z hz => ?_, ih ht⟩
      rcases List.mem_cons.1 ((insertBy_perm _ x t).mem_iff.1 hz) with rfl | hz
      exacts [Nat.le_of_lt hlt, hy z hz]
    · rw [if_neg (by simpa using hlt)]
      refine List.pairwise_cons.2 ⟨fun z hz => ?_, h⟩
      rcases List.mem_cons.1 hz with rfl | hz
      exacts [Nat.le_of_not_lt hlt, Nat.le_trans (Nat.le_of_not_lt hlt) (hy z hz)]

theorem sortBy_pairwise (l : List α) :
    (sortBy (fun a b => decide (k a < k b)) l).Pairwise (fun a b => k a ≤ k b) := by
  induction l with
  | nil => exact .nil
  | cons x t ih => exact insertBy_pairwise k x ih

end

/-! ### The copying pass (R102, R103) -/

theorem lowestInRow_of_exists {dir : List DirEntry} {row : Nat} {cond : DirEntry → Bool}
    (h : ∃ e ∈ dir, e.row = row ∧ cond e = true) : ∃ e, lowestInRow dir row cond = some e ∧
      (e ∈ dir ∧ e.row = row ∧ cond e = true) ∧
      ∀ o ∈ dir, o.row = row → cond o = true → e.granule ≤ o.granule := by
  have hmem : ∀ e, e ∈ dir.filter (fun e => e.row = row && cond e) ↔ e ∈ dir ∧ e.row = row ∧ cond e = true := by simp
  obtain ⟨o, ho, hrow, hcond⟩ := h
  obtain ⟨e, he⟩ := bestOf_some (fun a b : DirEntry => decide (a.granule < b.granule)) _
    (List.ne_nil_of_mem ((hmem o).2 ⟨ho, hrow, hcond⟩))
  obtain ⟨hin, hleast⟩ := bestOf_least DirEntry.granule _ e he
  exact ⟨e, he, (hmem e).1 hin, fun o ho hrow hcond => hleast o ((hmem o).2 ⟨ho, hrow, hcond⟩)⟩

theorem lowestInRow_of_none {dir : List DirEntry} {row : Nat} {cond : DirEntry → Bool}
    (h : ∀ e ∈ dir, e.row = row → ¬ cond e = true) : lowestInRow dir row cond = none := by
  have hnil : dir.filter (fun e => e.row = row && cond e) = [] :=
    List.filter_eq_nil_iff.2 (fun e he => by simpa using h e he)
  rw [lowestInRow, hnil]
  rfl

theorem readKept_eq (s : State) {e : DirEntry} {v : Nat} (h : e.row = v) : s.readKept e = { s with
    recl := { s.recl with wait := .recordRead e.key v e.granule }
    ctl := s.askedByReclaimer v e.granule (1 + (e.length + 15) / 16) } := by
  subst h
  rfl

/-- The entry is one COPY has still to copy (R102). -/
theorem copyCond_iff (s : State) (e : DirEntry) :
    (decide (s.recl.cursor ≤ e.granule) && e.readable) = true ↔ s.recl.cursor ≤ e.granule ∧ e.state ≠ .tombstone := by
  rw [Bool.and_eq_true, decide_eq_true_eq, readable_iff]

theorem foldRelocate_recl (l : List Copy) (s : State) : (l.foldl State.relocate s).recl = s.recl := by
  induction l generalizing s with
  | nil => rfl
  | cons c t ih =>
    rw [List.foldl_cons, ih]
    cases h : dirFind s.dir c.key with
    | none => rw [relocate_none h]; rfl
    | some e =>
      by_cases hl : e.row = c.fromRow ∧ e.granule = c.fromGranule
      · rw [relocate_moves h hl]; rfl
      · rw [relocate_orphan h hl]; rfl

theorem sendRelocates_form (s : State) : ∃ copies : List Copy, copies.Perm s.recl.copyList ∧
    copies.Pairwise (fun a b => a.fromGranule ≤ b.fromGranule) ∧
    s.sendRelocates = { copies.foldl State.relocate s with recl := { s.recl with copyList := [] } } := by
  refine ⟨_, sortBy_perm _ _, sortBy_pairwise Copy.fromGranule _, ?_⟩
  rw [State.sendRelocates, foldRelocate_recl]

/-- The reclaimer at rest, with its queue, its request and whether passes are blocked (log 43). -/
def Reclaimer.rested (r : Reclaimer) (blocked : Bool) : Reclaimer :=
  { Reclaimer.atReset with refresh := r.refresh, request := r.request, blocked := blocked }

theorem endReclaim_eq (s : State) : s.endReclaim = ({ s with recl := s.recl.rested s.recl.blocked }, [.look]) := rfl

theorem victimBack_withRecl (w : State) {q : Reclaimer} {v : Nat} (h : q.victim = some v) :
    ({ w with recl := q } : State).victimBack = { w with
      table := (if (w.row v).state = some .victim then w.setRow v { w.row v with state := some .full } else w).table
      recl := q } := by
  simp only [State.victimBack, h]
  by_cases hs : (w.row v).state = some .victim
  · rw [if_pos hs]
    exact if_pos hs
  · rw [if_neg hs]
    exact if_neg hs

theorem abandonPass_form (s : State) (v : Nat) (block : Bool) (hv : s.recl.victim = some v) :
    (s.abandonPass block).2 = [.look] ∧ ∃ copies : List Copy, copies.Perm s.recl.copyList ∧
      copies.Pairwise (fun a b => a.fromGranule ≤ b.fromGranule) ∧
      (s.abandonPass block).1 = (let w : State := copies.foldl State.relocate s
        { w with
          table := (if (w.row v).state = some .victim then w.setRow v { w.row v with state := some .full } else w).table
          recl := s.recl.rested (s.recl.blocked || block) }) := by
  obtain ⟨copies, hperm, hsorted, hform⟩ := sendRelocates_form s
  refine ⟨rfl, copies, hperm, hsorted, ?_⟩
  have hback := victimBack_withRecl (copies.foldl State.relocate s) (q := { s.recl with copyList := [] }) hv
  rw [State.abandonPass, hform, hback]
  rfl

/-- What an abandoned pass leaves, from the state `u` in which it was abandoned (R103). -/
theorem abandonPass_of_recl {s u : State} (v : Nat) (block : Bool) (hrecl : u.recl = s.recl) (hv : s.recl.victim = some v) :
    (u.abandonPass block).2 = [.look] ∧ ∃ copies : List Copy, copies.Perm s.recl.copyList ∧
      copies.Pairwise (fun a b => a.fromGranule ≤ b.fromGranule) ∧
      (u.abandonPass block).1 = (let w : State := copies.foldl State.relocate u
        { w with
          table := (if (w.row v).state = some .victim then w.setRow v { w.row v with state := some .full } else w).table
          recl := s.recl.rested (s.recl.blocked || block) }) := by
  rw [← hrecl] at hv ⊢
  exact abandonPass_form u v block hv

theorem countFailedCopy_recl (s : State) (key failed : Nat) : (s.countFailedCopy key failed).recl = s.recl := by
  cases h : dirFind s.dir key <;> simp only [State.countFailedCopy, h]

theorem keptRead_of_intact {s : State} {key row granule : Nat} {reads : List GranuleRead} {h : RecordHeader}
    {payload : List Byte} (hfind : findRecord reads = .intact h payload) :
    s.keptRead key row granule reads = s.reclaimAppend h payload (.recordAppend key h.kind row granule h.length) := by
  simp only [State.keptRead, hfind]

theorem keptRead_of_lost {s : State} {key row granule : Nat} {reads : List GranuleRead} {h : RecordHeader} {fail : Bool}
    (hfind : findRecord reads = .unreadable h fail ∨ findRecord reads = .notIntact fail) :
    s.keptRead key row granule reads =
      (let u := (s.captureCheck fail .reclaim row granule).markDamaged key row granule
      if s.recl.job = .refresh then u.endReclaim else u.passFails false) := by
  rcases hfind with hfind | hfind <;> simp only [State.keptRead, hfind]

theorem passFails_of_pass {s : State} (block : Bool) (h : s.recl.job ≠ .purge) : s.passFails block = s.abandonPass block :=
  if_neg h

theorem copyLost_of_pass {s : State} (key failed : Nat) (hrefresh : s.recl.job ≠ .refresh) (hpurge : s.recl.job ≠ .purge) :
    s.copyLost key failed = (s.countFailedCopy key failed).abandonPass true := by
  rw [State.copyLost, if_neg hrefresh, passFails_of_pass]
  rwa [countFailedCopy_recl]

section
variable {s : State} {key row granule length : Nat} {kind : RecordKind}
    (hwait : s.recl.wait = .recordAppend key kind row granule length)
include hwait

theorem reclaimReply_of_placed (toRow toGranule failed : Nat) : s.reclaimReply (.placed toRow toGranule failed) =
    s.copyPlaced ⟨key, kind, row, granule, toRow, toGranule, length, failed⟩ := by
  simp only [State.reclaimReply, hwait]

theorem reclaimReply_of_failed : s.reclaimReply .failed = s.copyLost key 3 := by
  simp only [State.reclaimReply, hwait]
  rfl

theorem reclaimReply_of_noRow (failed : Nat) : s.reclaimReply (.noRow failed) = s.copyLost key failed := by
  simp only [State.reclaimReply, hwait]

end

/-- Settles O50: the next entry of COPY is the lowest above the cursor, and both losses abandon the pass alike. -/
theorem passCopiesItsVictim : Obligations.PassCopiesItsVictim := by
  intro s v kept abandoned
  refine ⟨fun hsome => ?_, fun hnone => ?_, fun key row granule reads hwait => ⟨fun h payload hfind => ?_,
    fun h fail hfind hv hrefresh hpurge => ?_⟩, fun key kind row granule length hwait hv hrefresh hpurge => ?_⟩
  · obtain ⟨o, hmem, hrow, hcursor, hstate⟩ := hsome
    obtain ⟨e, he, ⟨hin, herow, hcond⟩, hleast⟩ := lowestInRow_of_exists (row := v)
      (cond := fun e => decide (s.recl.cursor ≤ e.granule) && e.readable)
      ⟨o, hmem, hrow, (copyCond_iff s o).2 ⟨hcursor, hstate⟩⟩
    obtain ⟨hcur, hst⟩ := (copyCond_iff s e).1 hcond
    refine ⟨e, ⟨hin, herow, hcur, hst⟩, fun x hx => ?_, ?_⟩
    · obtain ⟨hxin, hxrow, hxcur, hxst⟩ := hx
      exact hleast x hxin hxrow ((copyCond_iff s x).2 ⟨hxcur, hxst⟩)
    · rw [State.copyStep, he]
      exact readKept_eq s herow
  · have hlow : lowestInRow s.dir v (fun e => decide (s.recl.cursor ≤ e.granule) && e.readable) = none :=
      lowestInRow_of_none (fun e he hrow hcond => by
        obtain ⟨hcur, hst⟩ := (copyCond_iff s e).1 hcond
        exact hnone e ⟨he, hrow, hcur, hst⟩)
    rw [State.copyStep, hlow]
    rfl
  · simp only [State.reclaimReadDone, hwait, keptRead_of_intact hfind]
    rfl
  · have hdone : s.reclaimReadDone reads =
        ((s.captureCheck fail .reclaim row granule).markDamaged key row granule).abandonPass false := by
      simp only [State.reclaimReadDone, hwait, keptRead_of_lost hfind, if_neg hrefresh]
      exact passFails_of_pass false (by simpa using hpurge)
    rw [hdone]
    exact abandonPass_of_recl v false (by simp) hv
  · rw [reclaimReply_of_failed hwait, copyLost_of_pass _ _ hrefresh hpurge]
    obtain ⟨hlook, habandoned⟩ := abandonPass_of_recl v true (countFailedCopy_recl s key 3) hv
    refine ⟨fun toRow toGranule failed hphase => ?_, hlook, habandoned, fun failed => ?_⟩
    · rw [reclaimReply_of_placed hwait]
      simp only [State.copyPlaced, if_neg hrefresh, hphase, hv, originalExtent_eq] <;> rfl
    · rw [reclaimReply_of_noRow hwait, copyLost_of_pass _ _ hrefresh hpurge]
      exact abandonPass_of_recl v true (countFailedCopy_recl s key failed) hv

end Sys2Proof.Machine
end

section
/-! PROOFS. The walk and the check of a pass (O51). -/

namespace Sys2Proof.Machine

/-! ### WALK (R104) -/

section
variable {s : State} {v granule : Nat} (hwait : s.recl.wait = .walkRead granule) (hv : s.recl.victim = some v)
include hwait hv

theorem reclaimReadDone_of_walk (g : GranuleRead) (rest : List GranuleRead) :
    s.reclaimReadDone (g :: rest) = (s.walkRead v granule g, []) := by
  simp only [State.reclaimReadDone, hwait, hv]

end

theorem walkRead_of_commit {s : State} {v granule : Nat} {g : GranuleRead} {h : RecordHeader} {f : Bool}
    (hg : findHeader g = (some h, f)) (hk : h.kind = .commit) : s.walkRead v granule g = s.walkOn v (granule + 1) := by
  simp only [State.walkRead, hg, hk]

theorem walkRead_of_change {s : State} {v granule : Nat} {g : GranuleRead} {h : RecordHeader} {f : Bool}
    (hg : findHeader g = (some h, f)) (hk : h.kind ≠ .commit) :
    s.walkRead v granule g = (s.walkList h granule).walkOn v (granule + extent h.length) := by
  cases hkind : h.kind with
  | put => simp only [State.walkRead, hg, hkind]
  | delete => simp only [State.walkRead, hg, hkind]
  | commit => exact absurd hkind hk

theorem walkRead_of_end {s : State} {v granule : Nat} {g : GranuleRead} {fail : Bool}
    (hg : findHeader g = (none, fail)) :
    s.walkRead v granule g = (s.captureCheck fail .reclaim v granule).walkEnd v := by
  simp only [State.walkRead, hg]

theorem relocate_withRecl (s : State) (q : Reclaimer) (c : Copy) :
    ({ s with recl := q } : State).relocate c = { s.relocate c with recl := q } := by
  cases h : dirFind s.dir c.key with
  | none =>
    rw [relocate_none h]
    exact relocate_none (s := { s with recl := q }) h
  | some e =>
    by_cases hl : e.row = c.fromRow ∧ e.granule = c.fromGranule
    · rw [relocate_moves h hl]
      exact relocate_moves (s := { s with recl := q }) h hl
    · rw [relocate_orphan h hl]
      exact relocate_orphan (s := { s with recl := q }) h hl

theorem foldRelocate_withRecl (l : List Copy) (s : State) (q : Reclaimer) :
    l.foldl State.relocate { s with recl := q } = { l.foldl State.relocate s with recl := q } := by
  induction l generalizing s with
  | nil => rfl
  | cons c t ih => rw [List.foldl_cons, List.foldl_cons, relocate_withRecl, ih]

theorem walkEnd_form (s : State) (v : Nat) : ∃ copies : List Copy, copies.Perm s.recl.copyList ∧
    copies.Pairwise (fun a b => a.fromGranule ≤ b.fromGranule) ∧
    s.walkEnd v = State.check { copies.foldl State.relocate s with
      recl := { s.recl with phase := some .check, copyList := [] } } v := by
  obtain ⟨copies, hperm, hsorted, hform⟩ := sendRelocates_form { s with recl := { s.recl with phase := some .check } }
  refine ⟨copies, hperm, hsorted, ?_⟩
  rw [foldRelocate_withRecl] at hform
  rw [State.walkEnd, hform]

/-! ### CHECK (R49, R105) -/

theorem countableElsewhere_eq {e : DirEntry} {v : Nat} (h : e.row = v) (walk : List WalkRec) :
    countableElsewhere e v walk = walk.countP (fun w => decide (w.key = e.key ∧ e.baseSetId ≤ w.setId ∧
      w.setId ≤ e.setId ∧ w.granule ≠ e.granule)) := by
  rw [countableElsewhere, ← List.countP_eq_length_filter]
  refine List.countP_congr (fun w _ => ?_)
  simp [countable, h, and_assoc]

theorem check_of_none {s : State} {v : Nat} (h : ∀ e ∈ s.dir, e.row ≠ v) :
    s.check v = State.reclaimErase { s with recl := { s.recl with phase := some .erase } } v := by
  have hlow : lowestInRow s.dir v (fun _ => true) = none := lowestInRow_of_none (fun e he hrow => absurd hrow (h e he))
  simp only [State.check, State.checkStep, hlow]

theorem releasable_iff {e : DirEntry} {v : Nat} (h : e.row = v) (walk : List WalkRec) :
    releasable walk v e = true ↔ e.state = .tombstone ∧ e.stale = walk.countP (fun w => decide (w.key = e.key ∧
      e.baseSetId ≤ w.setId ∧ w.setId ≤ e.setId ∧ w.granule ≠ e.granule)) := by
  simp only [releasable, countableElsewhere_eq h, Bool.and_eq_true, decide_eq_true_eq]

section
variable {s : State} {v : Nat} {e : DirEntry} (hlow : lowestInRow s.dir v (fun _ => true) = some e)
include hlow

theorem check_of_kept (h : ¬ releasable s.recl.walkList v e = true) : s.check v = s.readKept e := by
  simp only [State.check, State.checkStep, hlow, if_neg h]

theorem check_of_released (h : releasable s.recl.walkList v e = true)
    (hgone : (s.release e.key e.row e.granule s.recl.walkList).locates e.key e.row e.granule = false) :
    s.check v = State.checkStep s.dir.length (s.release e.key e.row e.granule s.recl.walkList) v := by
  simp only [State.check, State.checkStep, hlow, if_pos h, hgone]
  rfl

end

/-- A release of a TOMBSTONE whose countable records all lie in its row (R49). -/
theorem release_of_releasable {s : State} {v : Nat} {e : DirEntry} (hf : dirFind s.dir e.key = some e) (hrow : e.row = v)
    (h : releasable s.recl.walkList v e = true) : s.release e.key e.row e.granule s.recl.walkList =
      { s.setRow v { s.row v with dead := (s.row v).dead + 1 } with dir := dirRemove e.key s.dir } := by
  subst hrow
  have hboth : e.state = .tombstone ∧ e.stale = countableElsewhere e e.row s.recl.walkList := by
    simpa only [releasable, Bool.and_eq_true, decide_eq_true_eq] using h
  simp only [State.release, hf]
  exact if_pos ⟨hboth.1, trivial, trivial, hboth.2⟩

theorem length_dirRemove {dir : List DirEntry} (hd : Ascending dir) {e : DirEntry} (he : e ∈ dir) :
    (dirRemove e.key dir).length + 1 = dir.length := by
  induction dir with
  | nil => cases he
  | cons a t ih =>
    obtain ⟨hat, ht⟩ := List.pairwise_cons.1 hd
    rcases List.mem_cons.1 he with rfl | he
    · have hall : t.filter (fun x => x.key ≠ e.key) = t :=
        List.filter_eq_self.2 (fun x hx => decide_eq_true (Nat.ne_of_gt (hat x hx)))
      rw [dirRemove, List.filter_cons_of_neg (by simp), hall, List.length_cons]
    · have hne : a.key ≠ e.key := Nat.ne_of_lt (hat e he)
      rw [dirRemove, List.filter_cons_of_pos (by simpa using hne), List.length_cons, List.length_cons]
      exact congrArg (· + 1) (ih ht he)

theorem locates_of_removed (s : State) (key row granule : Nat) (h : dirFind s.dir key = none) :
    s.locates key row granule = false := by
  simp only [State.locates, h]

/-! ### The end of a job -/

theorem endReclaim_of_recl {s u : State} (h : u.recl = s.recl) :
    u.endReclaim = ({ u with recl := s.recl.rested s.recl.blocked }, [.look]) := by
  rw [endReclaim_eq, h]

theorem relocate_recl (s : State) (c : Copy) : (s.relocate c).recl = s.recl := foldRelocate_recl [c] s

theorem copyLost_of_refresh {s : State} (key failed : Nat) (hrefresh : s.recl.job = .refresh) :
    s.copyLost key failed = ({ s.countFailedCopy key failed with recl := s.recl.rested s.recl.blocked }, [.look]) := by
  rw [State.copyLost, if_pos hrefresh, endReclaim_of_recl (countFailedCopy_recl s key failed)]

/-- Settles O51: the walk is read granule by granule, and CHECK takes the victim's entries from the lowest on. -/
theorem passWalksAndChecks : Obligations.PassWalksAndChecks := by
  refine ⟨fun s v granule g rest hwait hv => ?_, walkEnd_form, fun s v hd => ?_, fun s => ?_⟩
  · intro onward
    refine ⟨fun h f hg => ⟨fun hk => ?_, fun hk => ?_⟩, fun fail hg => ?_⟩
    · rw [reclaimReadDone_of_walk hwait hv, walkRead_of_commit hg hk]
      rfl
    · rw [reclaimReadDone_of_walk hwait hv, walkRead_of_change hg hk]
      rfl
    · rw [reclaimReadDone_of_walk hwait hv, walkRead_of_end hg]
  · intro elsewhere
    refine ⟨fun hnone => check_of_none hnone, fun ⟨o, ho, horow⟩ => ?_⟩
    obtain ⟨e, hlow, ⟨he, hrow, -⟩, hleast⟩ := lowestInRow_of_exists (cond := fun _ => true) ⟨o, ho, horow, rfl⟩
    refine ⟨e, he, hrow, fun x hx hxrow => hleast x hx hxrow rfl, fun hstate hstale => ?_, fun hkept => ?_⟩
    · have hrel : releasable s.recl.walkList v e = true := (releasable_iff hrow _).2 ⟨hstate, hstale⟩
      have hrelease := release_of_releasable (dirFind_of_mem s.dir hd e he) hrow hrel
      have hfind := fun k => dirFind_dirRemove e.key k s.dir
      have hgone : (s.release e.key e.row e.granule s.recl.walkList).locates e.key e.row e.granule = false := by
        rw [hrelease]
        exact locates_of_removed _ _ _ _ ((hfind e.key).trans (if_pos rfl))
      refine ⟨dirRemove e.key s.dir, ?_, filter_ascending _ _ hd, hfind⟩
      rw [check_of_released hlow hrel hgone, hrelease, ← length_dirRemove hd he]
      rfl
    · have hnot : ¬ releasable s.recl.walkList v e = true := fun h => by
        obtain ⟨hstate, hstale⟩ := (releasable_iff hrow _).1 h
        rcases hkept with h | h
        exacts [h hstate, h hstale]
      rw [check_of_kept hlow hnot]
      exact readKept_eq s hrow
  · intro rests
    refine ⟨fun key kind row granule length hwait => ⟨fun toRow toGranule failed => ?_, fun hrefresh => ⟨?_, fun failed => ?_⟩⟩,
      fun key row granule reads h fail hwait hrefresh hfind => ?_⟩
    · intro c
      rw [reclaimReply_of_placed hwait]
      refine ⟨fun v hrefresh hphase hv => ?_, fun hrefresh => ?_⟩
      · simp only [State.copyPlaced, if_neg hrefresh, hphase, hv]
        rfl
      · rw [State.copyPlaced, if_pos hrefresh, endReclaim_of_recl (relocate_recl s _)]
        rfl
    · rw [reclaimReply_of_failed hwait, copyLost_of_refresh _ _ hrefresh]
      rfl
    · rw [reclaimReply_of_noRow hwait, copyLost_of_refresh _ _ hrefresh]
      rfl
    · have hrecl : ((s.captureCheck fail .reclaim row granule).markDamaged key row granule).recl = s.recl := by simp
      simp only [State.reclaimReadDone, hwait, keptRead_of_lost hfind, if_pos hrefresh]
      rw [endReclaim_of_recl hrecl]
      rfl

end Sys2Proof.Machine
end

section
/-! PROOFS. The ends of the reclaimer's erases (O52). -/

namespace Sys2Proof.Machine

/-! ### The row of an ended erase (R7, R91) -/

/-- The record of a row after its erase and its blank check (R7, R91). -/
def RowRec.afterErase (rec : RowRec) (passed : Bool) : RowRec :=
  ⟨some (if passed = true then .erased else .bad), 0,
    if rec.eraseCount < 16777215 then rec.eraseCount + 1 else rec.eraseCount, rec.guessed, 0, 0, false⟩

theorem rowAfterErase_of_counted {s t : State} {x : Nat} (hx : x < 64)
    (ht : t.table = (s.setRow x (s.row x).erasedOnce).table) (passed : Bool) :
    t.rowAfterErase x passed = { t with table := (s.setRow x ((s.row x).afterErase passed)).table } := by
  have hrow : t.row x = (s.row x).erasedOnce := by
    rw [State.row, ht]
    exact row_setRow_self s hx _
  have htable : (t.setRow x ((s.row x).afterErase passed)).table = (s.setRow x ((s.row x).afterErase passed)).table := by
    have hset := setRow_setRow s x (s.row x).erasedOnce ((s.row x).afterErase passed)
    rw [← congrArg State.table hset]
    simp only [State.setRow, ht]
  rw [← htable, State.rowAfterErase, State.rowLeaves, hrow]
  rfl

/-- The part an ended erase of the reclaimer leaves in the fault list: nothing, or the captured failure (R22, R31). -/
def State.eraseCaptured (s : State) (x : Nat) (nonBlank : Option (BitVec 8)) : State :=
  match nonBlank with
  | none => s.quietly
  | some g => s.quietly.capture ⟨.eraseFail, .reclaim, x, g.toNat⟩

theorem eraseCaptured_form (s : State) (x : Nat) (nonBlank : Option (BitVec 8)) : s.eraseCaptured x nonBlank =
    { s with ev := (s.eraseCaptured x nonBlank).ev, ctl := (s.eraseCaptured x nonBlank).ctl } := by
  cases nonBlank with
  | none => rfl
  | some g => exact capture_form s.quietly _

theorem eraseTaken_form (s : State) (x : Nat) (nonBlank : Option (BitVec 8)) : ∃ cells freeIdx,
    s.eraseTaken ⟨x, .reclaimer, .reclaim, true⟩ nonBlank = { s.eraseCaptured x nonBlank with
      ctl := { (s.eraseCaptured x nonBlank).ctl with state := .idle, erase := none }
      cells := cells
      freeIdx := freeIdx
      table := (s.setRow x (s.row x).erasedOnce).table } := by
  cases nonBlank with
  | none => exact ⟨_, _, by rw [State.eraseTaken, begin_eq_quietly]; rfl⟩
  | some g =>
    refine ⟨(s.begin.eraseRow x (some g)).cells, (s.begin.eraseRow x (some g)).freeIdx, ?_⟩
    have hform := eraseRow_form s.begin x (some g)
    generalize (s.begin.eraseRow x (some g)).cells = cells at hform ⊢
    generalize (s.begin.eraseRow x (some g)).freeIdx = freeIdx at hform ⊢
    have hcapture := eraseCaptured_form s x (some g)
    generalize hc : s.eraseCaptured x (some g) = c at hcapture ⊢
    have hc' : s.begin.capture ⟨.eraseFail, .reclaim, x, g.toNat⟩ = c := by rw [begin_eq_quietly]; exact hc
    rw [State.eraseTaken, hform, State.captureErase]
    simp only [capture_cells_comm, hc']
    rw [hcapture]
    rfl

theorem runEvent_replan {s0 s : State} (passed : Bool) (hcalm : s.calm)
    (hfree : 255 ≤ s0.freeGranules → 255 ≤ s.freeGranules) :
    s.reclaimerActs (s0.runEvent (s, replanIf passed ++ [.look])) := by
  cases passed with
  | false => exact runEvent_acts s0 s [.look] (fun x hx => List.mem_singleton.1 hx) hcalm hfree
  | true =>
    have hplan : s.handle (.plan .rowErased) = (s, []) := (commitPlan_again (.inl rfl)).trans (if_neg hcalm.2.1)
    have hrun := runEvent_cons (s0 := s0) (l := [.look]) hplan
    exact hrun ▸ finish_acts s0 s _ [.look] (fun x hx => List.mem_singleton.1 hx) hcalm hfree

theorem reclaimerActs_cells {s t : State} (h : s.reclaimerActs t) : t.cells = s.cells ∧ t.freeIdx = s.freeIdx := by
  obtain ⟨v, hv, -, rfl⟩ := h
  rw [hv.frame]
  exact ⟨rfl, rfl⟩

/-- The reclaimer after the erase of a DIRTY_ERASE job: at rest, passes no longer blocked by a passed erase (R111). -/
theorem reclaimEraseDone_of_dirty {t : State} (hjob : t.recl.job = .dirtyErase) (x : Nat) (passed : Bool) :
    t.reclaimEraseDone x passed = ({ t.rowAfterErase x passed with
      recl := t.recl.rested (if passed = true then false else t.recl.blocked) }, replanIf passed ++ [.look]) := by
  cases passed <;> simp only [State.reclaimEraseDone, hjob] <;> rfl

theorem dirtyErase_ends {s : State} {x : Nat} {e : EraseContext} (nonBlank : Option (BitVec 8)) (hcalm : s.calm)
    (herases : s.erases e) (hrequest : e.request = ⟨x, .reclaimer, .reclaim, true⟩) (hjob : s.recl.job = .dirtyErase)
    (hx : x < 64) (hdirty : (s.row x).state = some .dirty) :
    ∃ t, exec (.eraseComplete nonBlank) s = .next t ∧ State.reclaimerActs { s.eraseCaptured x nonBlank with
      ctl := { (s.eraseCaptured x nonBlank).ctl with state := .idle, erase := none }
      cells := t.cells
      freeIdx := t.freeIdx
      table := (s.setRow x ((s.row x).afterErase nonBlank.isNone)).table
      recl := s.recl.rested (if nonBlank.isNone = true then false else s.recl.blocked) } t := by
  obtain ⟨cells, freeIdx, htaken⟩ := eraseTaken_form s x nonBlank
  generalize hv : s.eraseTaken ⟨x, .reclaimer, .reclaim, true⟩ nonBlank = v at htaken
  generalize hp : nonBlank.isNone = passed
  have htable : v.table = (s.setRow x (s.row x).erasedOnce).table := by rw [htaken]
  have hrecl : v.recl = s.recl := by rw [htaken, eraseCaptured_form]
  have hrow : v.rowAfterErase x passed = { v with table := (s.setRow x ((s.row x).afterErase passed)).table } :=
    rowAfterErase_of_counted hx htable passed
  have hdone : v.reclaimEraseDone x passed = ({ v with
      table := (s.setRow x ((s.row x).afterErase passed)).table
      recl := s.recl.rested (if passed = true then false else s.recl.blocked) }, replanIf passed ++ [.look]) := by
    rw [reclaimEraseDone_of_dirty ((congrArg Reclaimer.job hrecl).trans hjob), hrow, hrecl]
  have hexec : exec (.eraseComplete nonBlank) s = .next (s.begin.runEvent (v.reclaimEraseDone x passed)) := by
    rw [exec_eraseComplete_of_erases nonBlank herases, hrequest, ← hv, ← hp]
    rfl
  have hfree : s.freeGranules ≤ (s.setRow x ((s.row x).afterErase passed)).freeGranules := by
    refine freeGranules_dirty_leaves s x _ hx hdirty ?_
    cases passed
    · exact .inr rfl
    · exact .inl rfl
  rw [hdone] at hexec
  generalize hw : ({ v with
      table := (s.setRow x ((s.row x).afterErase passed)).table
      recl := s.recl.rested (if passed = true then false else s.recl.blocked) } : State) = w at hexec
  have hwform : w = { s.eraseCaptured x nonBlank with
      ctl := { (s.eraseCaptured x nonBlank).ctl with state := .idle, erase := none }
      cells := cells
      freeIdx := freeIdx
      table := (s.setRow x ((s.row x).afterErase passed)).table
      recl := s.recl.rested (if passed = true then false else s.recl.blocked) } := by
    rw [← hw, htaken]
  have hwcalm : w.calm := by
    rw [hwform, eraseCaptured_form]
    exact hcalm
  have hwfree : w.freeGranules = (s.setRow x ((s.row x).afterErase passed)).freeGranules :=
    freeGranules_of_table _ _ (by rw [hwform])
  have hsfree : s.begin.freeGranules = s.freeGranules := freeGranules_of_table _ _ rfl
  have hacts := runEvent_replan (s0 := s.begin) passed hwcalm (fun h => by omega)
  refine ⟨_, hexec, ?_⟩
  obtain ⟨hcells, hidx⟩ := reclaimerActs_cells hacts
  rw [hcells, hidx, hwform]
  rwa [hwform] at hacts

/-! ### The settle of a walk list (R50, R51) -/

theorem dirFind_map {f : DirEntry → DirEntry} (hf : ∀ e, (f e).key = e.key) (d : List DirEntry) (k : Nat) :
    dirFind (d.map f) k = (dirFind d k).map f := by
  simp only [dirFind, List.find?_map, Function.comp_def, hf]

theorem dirFind_filter {d : List DirEntry} (h : Ascending d) (p : DirEntry → Bool) (k : Nat) :
    dirFind (d.filter p) k = match dirFind d k with
      | none => none
      | some e => if p e then some e else none := by
  cases hfind : dirFind d k with
  | none =>
    refine List.find?_eq_none.2 fun e he => ?_
    exact List.find?_eq_none.1 hfind e (List.mem_filter.1 he).1
  | some e =>
    obtain ⟨hkey, hmem⟩ := dirFind_some d k e hfind
    dsimp only
    by_cases hp : p e
    · rw [if_pos hp, ← hkey]
      exact dirFind_of_mem _ (filter_ascending p d h) e (List.mem_filter.2 ⟨hmem, hp⟩)
    · rw [if_neg hp]
      cases hrest : dirFind (d.filter p) k with
      | none => rfl
      | some o =>
        obtain ⟨hokey, homem⟩ := dirFind_some _ k o hrest
        obtain ⟨hod, hpo⟩ := List.mem_filter.1 homem
        have ho := dirFind_of_mem d h o hod
        rw [hokey, hfind] at ho
        exact absurd (Option.some.inj ho ▸ hpo) hp

theorem sum_map_ite_one {α : Type} (p : α → Prop) [DecidablePred p] (l : List α) :
    (l.map (fun a => if p a then 1 else 0)).sum = l.countP (fun a => decide (p a)) := by
  induction l with
  | nil => rfl
  | cons a l ih =>
    rw [List.map_cons, List.sum_cons, ih, List.countP_cons, Nat.add_comm]
    simp only [decide_eq_true_eq]

/-- How far a settle of the walk list lets an entry's stale count fall: its countable records (R43, R50). -/
def fall (walk : List WalkRec) (e : DirEntry) : Nat :=
  walk.countP (fun w => decide (w.key = e.key ∧ e.baseSetId ≤ w.setId ∧ w.setId ≤ e.setId))

theorem settled_eq (walk : List WalkRec) (e : DirEntry) : e.settled walk = { e with stale := e.stale - fall walk e } := by
  have hcountable : countable e = fun w => decide (w.key = e.key ∧ e.baseSetId ≤ w.setId ∧ w.setId ≤ e.setId) := by
    funext w
    simp [countable, Bool.decide_and, Bool.and_assoc]
  rw [DirEntry.settled, fall, List.countP_eq_length_filter, hcountable]

theorem settled_freeable (walk : List WalkRec) (e : DirEntry) :
    (e.settled walk).freeable = decide (e.state = .tombstone ∧ e.stale ≤ fall walk e) := by
  rw [settled_eq, DirEntry.freeable, Bool.decide_and]
  congr 1
  exact decide_eq_decide.2 Nat.sub_eq_zero_iff_le

theorem settle_form (s : State) (walk : List WalkRec) : s.settle walk = { s with
    dir := (s.settle walk).dir
    table := { s.table with rows := (s.settle walk).table.rows } } := by
  unfold State.settle
  dsimp only
  rw [foldDead_form]

theorem settle_dir (s : State) (walk : List WalkRec) :
    (s.settle walk).dir = (s.dir.map (DirEntry.settled walk)).filter (fun e => !e.freeable) := by
  unfold State.settle
  dsimp only
  rw [foldDead_form]

theorem settle_dirOk {s : State} (h : s.dirOk) (walk : List WalkRec) : (s.settle walk).dirOk := by
  rw [State.dirOk, settle_dir]
  exact filter_ascending _ _ (map_ascending (DirEntry.settled walk) (fun _ => rfl) _ h)

theorem settle_find {s : State} (h : s.dirOk) (walk : List WalkRec) (k : Nat) :
    dirFind (s.settle walk).dir k = match dirFind s.dir k with
      | none => none
      | some e => if e.state = .tombstone ∧ e.stale ≤ fall walk e then none
          else some { e with stale := e.stale - fall walk e } := by
  rw [settle_dir, dirFind_filter (map_ascending (DirEntry.settled walk) (fun _ => rfl) _ h),
    dirFind_map (f := DirEntry.settled walk) (fun _ => rfl)]
  cases dirFind s.dir k with
  | none => rfl
  | some e =>
    simp only [Option.map_some, settled_freeable, ← settled_eq]
    by_cases hfreed : e.state = .tombstone ∧ e.stale ≤ fall walk e
    · simp [hfreed]
    · simp [hfreed]

theorem settle_row (s : State) (walk : List WalkRec) {y : Nat} (hy : y < 64) : (s.settle walk).row y =
    { s.row y with dead := (s.row y).dead + s.dir.countP (fun e =>
      decide ((e.state = .tombstone ∧ e.stale ≤ fall walk e) ∧ e.row = y)) } := by
  have hrow := foldDead_row (fun e : DirEntry => e.row) (fun _ => 1) ((s.dir.map (DirEntry.settled walk)).filter DirEntry.freeable)
    { s with dir := (s.dir.map (DirEntry.settled walk)).filter (fun e => !e.freeable) } y hy
  rw [sum_map_ite_one, List.countP_filter, List.countP_map] at hrow
  refine hrow.trans (congrArg (fun n => ({ s.row y with dead := (s.row y).dead + n } : RowRec)) ?_)
  refine List.countP_congr fun e _ => ?_
  simp only [Function.comp_apply, settled_freeable, Bool.and_eq_true, decide_eq_true_eq]
  exact and_comm

/-- The part a pass's erase leaves to the rest of the job: the victim settled in its state, the walk list in the directory. -/
def State.passErased (s : State) (x : Nat) (passed : Bool) : State :=
  ((s.rowAfterErase x passed).unblockIf passed).settle s.recl.walkList

theorem passErased_form (s : State) (x : Nat) (passed : Bool) : s.passErased x passed = { s with
    dir := (s.passErased x passed).dir
    table := { s.table with rows := (s.passErased x passed).table.rows }
    recl := { s.recl with blocked := if passed = true then false else s.recl.blocked } } := by
  have hform := settle_form ((s.rowAfterErase x passed).unblockIf passed) s.recl.walkList
  rw [State.passErased]
  generalize State.settle _ _ = u at hform
  rw [hform]
  cases passed <;> rfl

theorem passErased_row (s : State) {x y : Nat} (passed : Bool) (hy : y < 64) : (s.passErased x passed).row y =
    (let leaving : RowRec := if y = x then
        ⟨some (if passed = true then .erased else .bad), 0, (s.row x).eraseCount, (s.row x).guessed, 0, 0, false⟩ else s.row y;
      { leaving with dead := leaving.dead + s.dir.countP (fun e =>
        decide ((e.state = .tombstone ∧ e.stale ≤ fall s.recl.walkList e) ∧ e.row = y)) }) := by
  have hrow : ((s.rowAfterErase x passed).unblockIf passed).row y = if y = x then
      ⟨some (if passed = true then .erased else .bad), 0, (s.row x).eraseCount, (s.row x).guessed, 0, 0, false⟩ else s.row y := by
    have hset : (s.setRow x ((s.row x).leave (if passed = true then .erased else .bad))).row y =
        if x = y then (s.row x).leave (if passed = true then .erased else .bad) else s.row y := row_setRow_lt _ _ _ _ hy
    rw [if_congr (eq_comm : y = x ↔ x = y) rfl rfl]
    refine Eq.trans ?_ hset
    cases passed <;> rfl
  have hdir : ((s.rowAfterErase x passed).unblockIf passed).dir = s.dir := by cases passed <;> rfl
  rw [State.passErased, settle_row _ _ hy, hrow, hdir]

/-- Settles O52: a DIRTY_ERASE ends with the look at the next job; a pass's erase settles its walk list first. -/
theorem reclaimerErasesEnd : Obligations.ReclaimerErasesEnd := by
  refine ⟨?_, ?_⟩
  · intro s x e nonBlank hcalm herases hrequest hjob hx hdirty
    obtain ⟨t, hexec, hacts⟩ := dirtyErase_ends nonBlank hcalm herases hrequest hjob hx hdirty
    refine ⟨t, hexec, ?_⟩
    cases nonBlank with
    | none => exact hacts
    | some g => exact hacts
  · intro s x passed hdir _ hjob
    have hblocked : (s.passErased x passed).recl = { s.recl with blocked := if passed = true then false else s.recl.blocked } :=
      congrArg State.recl (passErased_form s x passed)
    refine ⟨s.passErased x passed, passErased_form s x passed, settle_dirOk (by cases passed <;> exact hdir) _, fun k => ?_,
      fun y hy => passErased_row s passed hy, fun hpurge => ?_, fun hother => ?_⟩
    · have hfind := settle_find (s := (s.rowAfterErase x passed).unblockIf passed)
        (by cases passed <;> exact hdir) s.recl.walkList k
      have hkeeps : ((s.rowAfterErase x passed).unblockIf passed).dir = s.dir := by cases passed <;> rfl
      rw [hkeeps] at hfind
      exact hfind
    · simp only [State.reclaimEraseDone, hpurge]
      rfl
    · have hend : s.reclaimEraseDone x passed =
          ((s.passErased x passed).endReclaim.1, replanIf passed ++ (s.passErased x passed).endReclaim.2) := by
        unfold State.reclaimEraseDone
        cases hcase : s.recl.job with
        | dirtyErase => exact absurd hcase hjob
        | purge => exact absurd hcase hother
        | idle => rfl
        | urgentVictim => rfl
        | backgroundVictim => rfl
        | refresh => rfl
      rw [hend, endReclaim_eq, Reclaimer.rested, hblocked]
      rfl

end Sys2Proof.Machine
end

section
/-! PROOFS. The purge: its start, the newest COMMIT record, its targets and its failure (O53). -/

namespace Sys2Proof.Machine

/-! ### The targets and the start (R108) -/

theorem mem_taintedRows (s : State) (x : Nat) : x ∈ s.taintedRows ↔ x < 64 ∧ (s.row x).tainted = true := by
  rw [State.taintedRows, List.mem_filter, List.mem_range]

theorem bySequence_pairwise (s : State) (rows : List Nat) :
    (s.bySequence rows).Pairwise (fun a b => (s.row a).sequence ≤ (s.row b).sequence) :=
  sortBy_pairwise (fun x => (s.row x).sequence) rows

theorem any_damagedInRow (dir : List DirEntry) (targets : List Nat) :
    targets.any (damagedInRow dir) = true ↔ ∃ e ∈ dir, e.row ∈ targets ∧ e.state = .damaged := by
  simp only [List.any_eq_true, damagedInRow, Bool.and_eq_true, decide_eq_true_eq]
  constructor
  · rintro ⟨r, hr, e, he, rfl, hd⟩
    exact ⟨e, he, hr, hd⟩
  · rintro ⟨e, he, hr, hd⟩
    exact ⟨e.row, hr, e, he, rfl, hd⟩

/-- The part as the purge takes its targets (R108). -/
def State.purging (s : State) : State :=
  { s with recl := { s.recl with job := .purge, targets := s.bySequence s.taintedRows } }

theorem closeTaintedOpen_form (s : State) :
    s.closeTaintedOpen = { s with table := { s.table with rows := s.closeTaintedOpen.table.rows } } := by
  unfold State.closeTaintedOpen
  cases s.openRow with
  | none => rfl
  | some r =>
    dsimp only
    split
    · rfl
    · rfl

theorem startPurge_of_damaged {s : State} (h : ∃ e ∈ s.dir, e.row ∈ s.bySequence s.taintedRows ∧ e.state = .damaged) :
    s.startPurge = s.purging.purgeFail := by
  rw [State.startPurge, if_pos ((any_damagedInRow _ _).2 h)]
  rfl

section
variable {s : State} (h : ∀ e ∈ s.dir, e.row ∈ s.bySequence s.taintedRows → e.state ≠ .damaged)
include h

theorem not_damagedTarget : ¬ (s.bySequence s.taintedRows).any (damagedInRow s.dir) = true := fun hany => by
  obtain ⟨e, he, hrow, hd⟩ := (any_damagedInRow _ _).1 hany
  exact h e he hrow hd

theorem startPurge_of_target {l : Loc} (hl : s.table.newestCommit = some l) (hin : l.row ∈ s.bySequence s.taintedRows) :
    s.startPurge = ({ s.purging.closeTaintedOpen with
      recl := { s.purging.closeTaintedOpen.recl with wait := .commitRead l.row l.granule }
      ctl := s.askedByReclaimer l.row l.granule 1 }, []) := by
  have hnewest : s.purging.closeTaintedOpen.table.newestCommit = some l := by rw [closeTaintedOpen_form]; exact hl
  have hcontains : (s.bySequence s.taintedRows).contains l.row = true := List.contains_iff_mem.2 hin
  have hstart : s.startPurge =
      (s.purging.closeTaintedOpen.reclaimRead l.row l.granule 1 (.commitRead l.row l.granule), []) := by
    rw [State.startPurge, if_neg (not_damagedTarget h)]
    change (match s.purging.closeTaintedOpen.table.newestCommit with | none => _ | some l => _) = _
    rw [hnewest]
    exact if_pos hcontains
  rw [hstart, closeTaintedOpen_form]
  rfl

theorem startPurge_of_noTarget (hnone : ∀ l, s.table.newestCommit = some l → l.row ∉ s.bySequence s.taintedRows) :
    s.startPurge = s.purging.closeTaintedOpen.nextTarget := by
  have hnewest : s.purging.closeTaintedOpen.table.newestCommit = s.table.newestCommit := by
    rw [closeTaintedOpen_form]
    rfl
  rw [State.startPurge, if_neg (not_damagedTarget h)]
  change (match s.purging.closeTaintedOpen.table.newestCommit with | none => _ | some l => _) = _
  rw [hnewest]
  cases hl : s.table.newestCommit with
  | none => rfl
  | some l => exact if_neg (fun hc => hnone l hl (List.contains_iff_mem.1 hc))

end

/-! ### The newest COMMIT record's copy (R108 step 2) -/

section
variable {s : State} {row granule : Nat} (hwait : s.recl.wait = .commitRead row granule)
include hwait

theorem reclaimReadDone_of_commitRead (g : GranuleRead) (rest : List GranuleRead) :
    s.reclaimReadDone (g :: rest) = s.purgeCommitRead row granule g := by
  simp only [State.reclaimReadDone, hwait]

end

theorem purgeCommitRead_of_commit {s : State} {row granule : Nat} {g : GranuleRead} {h : RecordHeader} {f : Bool}
    (hg : findHeader g = (some h, f)) (hk : h.kind = .commit) :
    s.purgeCommitRead row granule g = s.reclaimAppend h [] (.commitAppend row granule) := by
  simp only [State.purgeCommitRead, hg, hk, if_true]

theorem purgeCommitRead_of_lost {s : State} {row granule : Nat} {g : GranuleRead} {fail : Bool}
    (hg : findHeader g = (none, fail)) :
    s.purgeCommitRead row granule g = (s.captureCheck fail .reclaim row granule).purgeFail := by
  simp only [State.purgeCommitRead, hg]

theorem reclaimReply_of_commitAppend {s : State} {row granule : Nat} (hwait : s.recl.wait = .commitAppend row granule) :
    (∀ toRow toGranule failed, s.reclaimReply (.placed toRow toGranule failed) =
      (s.moveNewestCommit ⟨toRow, toGranule⟩).nextTarget) ∧
    s.reclaimReply .failed = s.purgeFail ∧ ∀ n, s.reclaimReply (.noRow n) = s.purgeFail := by
  refine ⟨fun toRow toGranule failed => ?_, ?_, fun n => ?_⟩ <;> simp only [State.reclaimReply, hwait]

/-! ### The next target and the end (R109) -/

theorem nextTarget_of_cons {s : State} {r : Nat} {rest : List Nat} (h : s.recl.targets = r :: rest) :
    s.nextTarget = ({ s with recl := { s.recl with targets := rest } }.beginPass r, []) := by
  simp only [State.nextTarget, h]

theorem nextTarget_of_nil {s : State} (h : s.recl.targets = []) : s.nextTarget = ({ s with
    table := { s.table with purgePending := false }, recl := s.recl.rested s.recl.blocked },
    if s.engine.state = .waitPurge then [.plan .first, .look] else [.look]) := by
  simp only [State.nextTarget, h, endReclaim_eq]
  refine Prod.ext rfl ?_
  dsimp only
  split
  · rfl
  · rfl

/-! ### The failure (R110) -/

theorem foldRelocate_form (l : List Copy) (s : State) : l.foldl State.relocate s = { s with
    dir := (l.foldl State.relocate s).dir
    table := { s.table with rows := (l.foldl State.relocate s).table.rows } } := by
  induction l generalizing s with
  | nil => rfl
  | cons c t ih =>
    rw [List.foldl_cons, ih]
    cases h : dirFind s.dir c.key with
    | none => rw [relocate_none h]; rfl
    | some e =>
      by_cases hl : e.row = c.fromRow ∧ e.granule = c.fromGranule
      · rw [relocate_moves h hl]; rfl
      · rw [relocate_orphan h hl]; rfl

theorem victimBack_form (w : State) (q : Reclaimer) : ({ w with recl := q } : State).victimBack = { w with
    table := (match q.victim with
      | none => w
      | some v => if (w.row v).state = some RowState.victim then w.setRow v { w.row v with state := some .full } else w).table
    recl := q } := by
  cases h : q.victim with
  | none => simp only [State.victimBack, h]
  | some v => exact victimBack_withRecl w h

theorem byte_or_zero (b : Byte) : b ||| 0 = b := BitVec.or_zero

/-- PURGE_FAILED set, with the change of mode and the end of a waiting COMMIT that go with it (R71, R110). -/
theorem purgeFlags_form (w : State) : w.flagPurgeFailed.readOnlyFromReady.commitPurgeFailed =
    (let toReadOnly := w.win.mode = .ready
    let waiting := w.engine.state = .waitPurge
    let mask : Byte := (if toReadOnly then 0x40 else 0) ||| (if waiting then 0x02 else 0)
    { w with
      win := { w.win with
        mountFlags := { w.win.mountFlags with purgeFailed := true }
        mode := if toReadOnly then .readOnly else w.win.mode
        jobResult := if waiting then .readOnly else w.win.jobResult }
      ev := { w.ev with event := w.ev.event ||| mask, justSet := w.ev.justSet ||| mask }
      staging := if waiting then { w.staging with lock := false } else w.staging
      engine := if waiting then { CommitEngine.atReset with nextSetId := w.engine.nextSetId } else w.engine }) := by
  have hmode : w.flagPurgeFailed.readOnlyFromReady = { w.flagPurgeFailed with
      win := { w.flagPurgeFailed.win with mode := if w.win.mode = .ready then .readOnly else w.win.mode }
      ev := (let m : Byte := if w.win.mode = .ready then 0x40 else 0
        { w.ev with event := w.ev.event ||| m, justSet := w.ev.justSet ||| m }) } := by
    by_cases h : w.win.mode = .ready
    · simp only [h, if_true]
      rw [State.readOnlyFromReady, if_pos (show w.flagPurgeFailed.win.mode = .ready from h)]
      rfl
    · simp only [h, if_false, byte_or_zero]
      rw [State.readOnlyFromReady, if_neg (show ¬ w.flagPurgeFailed.win.mode = .ready from h)]
      rfl
  generalize w.flagPurgeFailed.readOnlyFromReady = v at hmode
  have hengine : v.engine.state = w.engine.state := by rw [hmode]; rfl
  dsimp only
  by_cases h : w.engine.state = .waitPurge
  · simp only [h, if_true]
    rw [State.commitPurgeFailed, if_pos (hengine.trans h), hmode, ← BitVec.or_assoc, ← BitVec.or_assoc]
    rfl
  · simp only [h, if_false, byte_or_zero]
    rw [State.commitPurgeFailed, if_neg (fun hv => h (hengine.symm.trans hv)), hmode]
    rfl

/-- Settles O53: the failure is put together from the relocates, the victim's return and the flags. -/
theorem purgeRuns : Obligations.PurgeRuns := by
  refine ⟨fun s => ?_, fun s row granule g rest hwait => ?_, fun s row granule hwait => ?_, fun s => ?_, fun s => ?_⟩
  · refine ⟨s.bySequence s.taintedRows, (sortBy_perm _ _).nodup_iff.2 (List.nodup_range.filter _),
      fun x => (sortBy_perm _ _).mem_iff.trans (mem_taintedRows s x), bySequence_pairwise s _, ?_⟩
    intro u closed
    have hclosed : s.purging.closeTaintedOpen = closed := rfl
    exact ⟨startPurge_of_damaged, fun hnone => ⟨fun l hl hin => startPurge_of_target hnone hl hin,
      fun hno => startPurge_of_noTarget hnone hno⟩⟩
  · rw [reclaimReadDone_of_commitRead hwait]
    exact ⟨fun h f hg hk => purgeCommitRead_of_commit hg hk, fun fail hg => purgeCommitRead_of_lost hg⟩
  · obtain ⟨hplaced, hlost⟩ := reclaimReply_of_commitAppend hwait
    exact ⟨fun toRow toGranule failed => ⟨_, hplaced toRow toGranule failed, moveNewestCommit_form _ _,
      fun x hx => row_moveNewestCommit _ _ hx⟩, hlost⟩
  · exact ⟨fun r rest h => nextTarget_of_cons h, fun h => nextTarget_of_nil h⟩
  · obtain ⟨copies, hperm, hsorted, hform⟩ := sendRelocates_form s
    refine ⟨copies, hperm, hsorted, ?_⟩
    rw [State.purgeFail, hform, victimBack_form, purgeFlags_form]
    have hw := foldRelocate_form copies s
    generalize copies.foldl State.relocate s = w at hw
    dsimp only
    have hwin : w.win = s.win := by rw [hw]
    have hev : w.ev = s.ev := by rw [hw]
    have hstaging : w.staging = s.staging := by rw [hw]
    have hengine : w.engine = s.engine := by rw [hw]
    simp only [hwin, hev, hstaging, hengine]
    rfl

end Sys2Proof.Machine
end

section
/-! PROOFS. FORMAT: its taking, with the row table it leaves (O54). -/

namespace Sys2Proof.Machine

/-! ### The row table as FORMAT is taken (R114, R131) -/

theorem reclaimAtFormat_form (s : State) : s.reclaimAtFormat = { s with
    table := { s.table with rows := s.victimAtFormat.table.rows }
    recl := .atReset
    writer := .atReset
    ctl := (s.abandonRequests .reclaimer).ctl } := by
  rw [State.reclaimAtFormat]
  generalize hv : s.victimAtFormat = v
  have hform := victim_form s
  rw [hv] at hform
  rw [hform]
  rfl

theorem openBecomesFull_form (s : State) :
    s.openBecomesFull = { s with table := { s.table with rows := s.openBecomesFull.table.rows } } := by
  unfold State.openBecomesFull
  split
  · rfl
  · rfl

theorem tableAtFormat_form (s : State) :
    s.tableAtFormat = { s with table := ⟨s.tableAtFormat.table.rows, 0, 0, none, false⟩ } := by
  rw [State.tableAtFormat, openBecomesFull_form]
  rfl

theorem row_clearTaints (s : State) {x : Nat} (hx : x < 64) : s.clearTaints.row x = { s.row x with tainted := false } := by
  simp [State.clearTaints, State.row, hx]

theorem row_openBecomesFull (s : State) {x : Nat} (hx : x < 64) : s.openBecomesFull.row x =
    if s.openRow = some x then { s.row x with state := some .full, nextFree := 0 } else s.row x := by
  unfold State.openBecomesFull
  cases h : s.openRow with
  | none => rfl
  | some r =>
    dsimp only
    rw [row_setRow_lt _ _ _ _ hx]
    by_cases hr : r = x
    · subst hr
      rw [if_pos rfl, if_pos rfl]
    · rw [if_neg hr, if_neg (fun h => hr (Option.some.inj h))]

theorem row_tableAtFormat (s : State) {x : Nat} (hx : x < 64) : s.tableAtFormat.row x =
    { (if s.openRow = some x then { s.row x with state := some .full, nextFree := 0 } else s.row x) with
      tainted := false } := by
  rw [← row_openBecomesFull s hx]
  exact row_clearTaints _ hx

/-- FORMAT's settling of the VICTIM row makes no row OPEN and takes none from OPEN. -/
theorem openRow_victimAtFormat (s : State) : s.victimAtFormat.openRow = s.openRow := by
  rw [State.openRow, State.openRow, State.rowsIn, State.rowsIn]
  refine congrArg List.head? (List.filter_congr fun x hx => ?_)
  rw [victim_row s x (List.mem_range.1 hx)]
  split
  · next h =>
    rw [h.2]
    split
    · rfl
    · rfl
  · rfl

/-! ### FORMAT taken (R131) -/

theorem takeFormat_form (s : State) : s.takeFormat = { s with
    win := { s.win with mode := .formatting, mountFlags := .none }
    staging := { s.staging with entries := [], poolFill := 0, lock := false }
    dir := []
    table := ⟨s.takeFormat.table.rows, 0, 0, none, false⟩
    writer := .atReset
    engine := { s.engine with nextSetId := .id 1 }
    recl := .atReset
    mnt := { s.mnt with highestJournalId := s.mnt.highestJournalId + 1 }
    fmt := some ⟨.waitArray, s.mnt.highestJournalId + 1, [], none, .nothing⟩
    ctl := (s.abandonRequests .reclaimer).ctl } := by
  rw [State.takeFormat, tableAtFormat_form, reclaimAtFormat_form]

/-- The part as FORMAT is taken, before exclusive service may begin. -/
def State.formatAccepted (s : State) : State := (s.begin.take .format).takeFormat.complete .ok

theorem formatAccepted_form (s : State) : s.formatAccepted = { s with
    win := { s.win.answered .format .ok with mode := .formatting, mountFlags := .none }
    ev := s.ev.after 0x01
    staging := { s.staging with entries := [], poolFill := 0, lock := false }
    dir := []
    table := ⟨s.formatAccepted.table.rows, 0, 0, none, false⟩
    writer := .atReset
    engine := { s.engine with nextSetId := .id 1 }
    recl := .atReset
    mnt := { s.mnt with highestJournalId := s.mnt.highestJournalId + 1 }
    fmt := some ⟨.waitArray, s.mnt.highestJournalId + 1, [], none, .nothing⟩
    ctl := (s.abandonRequests .reclaimer).ctl } := by
  have hwin : ((s.begin.take .format).complete .ok).win = s.win.answered .format .ok := by rw [answered_eq]; rfl
  have hev : ((s.begin.take .format).complete .ok).ev = s.ev.after 0x01 := by rw [answered_eq]; rfl
  rw [← hwin, ← hev, State.formatAccepted]
  generalize hrows : ((s.begin.take .format).takeFormat.complete .ok).table.rows = rows
  have htaken := takeFormat_form (s.begin.take .format)
  rw [show (s.begin.take .format).takeFormat.table.rows = rows from hrows] at htaken
  rw [htaken]
  rfl

theorem row_takeFormat (s : State) {x : Nat} (hx : x < 64) : s.takeFormat.row x = { (
    if s.openRow = some x then { s.row x with state := some .full, nextFree := 0 }
    else if s.recl.victim = some x ∧ (s.row x).state = some .victim then
      (if s.eraseRequested x = true then (s.row x).leave .dirty else { s.row x with state := some .full })
    else s.row x) with tainted := false } := by
  have htable : s.takeFormat.row x = s.reclaimAtFormat.tableAtFormat.row x := rfl
  have hrow : s.reclaimAtFormat.row x = s.victimAtFormat.row x := by
    rw [reclaimAtFormat_form]
    rfl
  have hopen : s.reclaimAtFormat.openRow = s.openRow := by
    rw [reclaimAtFormat_form]
    exact openRow_victimAtFormat s
  rw [htable, row_tableAtFormat _ hx, hrow, hopen, victim_row s x hx]
  by_cases h : s.openRow = some x
  · obtain ⟨-, hstate⟩ := openRow_lt h
    rw [if_pos h, if_pos h, if_neg (fun hv => by rw [hstate] at hv; exact absurd hv.2 (by decide))]
  · rw [if_neg h, if_neg h]

theorem row_formatAccepted (s : State) {x : Nat} (hx : x < 64) : s.formatAccepted.row x = { (
    if s.openRow = some x then { s.row x with state := some .full, nextFree := 0 }
    else if s.recl.victim = some x ∧ (s.row x).state = some .victim then
      (if s.eraseRequested x = true then (s.row x).leave .dirty else { s.row x with state := some .full })
    else s.row x) with tainted := false } :=
  row_takeFormat (s.begin.take .format) hx

/-- The end of an event at which FORMAT waits for the array: the rest of the part stays but for SPACE_LOW. -/
theorem finish_waiting (u : State) (j : FormatJob) (hfmt : u.fmt = some j) (hj : j.phase = .waitArray) (before : Nat) :
    u.finish before = { u with
      ev := (let mask : Byte := if 255 ≤ before ∧ u.freeGranules < 255 then evSpaceLow else 0
        { u.ev with event := u.ev.event ||| mask, justSet := u.ev.justSet ||| mask })
      fmt := (u.finish before).fmt
      ctl := (u.finish before).ctl } := by
  have hform : u.arbitrate.beginExclusive =
      { u with fmt := u.arbitrate.beginExclusive.fmt, ctl := u.arbitrate.beginExclusive.ctl } := by
    obtain ⟨hbusy, hquiet⟩ := beginExclusive_cases u.arbitrate j hfmt hj
    cases hq : u.arbitrate.ctl.quiet with
    | false => rw [hbusy hq]; rfl
    | true => exact (hquiet hq).1
  rw [State.finish]
  generalize u.arbitrate.beginExclusive = v at hform
  have hfree : v.freeGranules = u.freeGranules := freeGranules_of_table _ _ (by rw [hform])
  have hev : v.ev = u.ev := by rw [hform]
  rw [State.spaceLowAfter, hfree]
  by_cases h : 255 ≤ before ∧ u.freeGranules < 255
  · simp only [if_pos h, State.setEvent, hev]
    rw [hform]
  · simp only [if_neg h, byte_or_zero]
    exact hform

/-- FORMAT goes on waiting where the array is busy (R131). -/
theorem finish_waiting_of_busy {u : State} {j : FormatJob} (hfmt : u.fmt = some j) (hj : j.phase = .waitArray)
    (hbusy : u.ctl.state ≠ .idle) (before : Nat) : (u.finish before).fmt = u.fmt ∧ (u.finish before).ctl = u.ctl := by
  have harb : u.arbitrate = u := by rw [State.arbitrate, Controller.arbitrate, if_neg hbusy]
  have hquiet : u.ctl.quiet = false := by simp [Controller.quiet, hbusy]
  rw [State.finish, harb, (beginExclusive_cases u j hfmt hj).1 hquiet, State.spaceLowAfter]
  split
  · exact ⟨rfl, rfl⟩
  · exact ⟨rfl, rfl⟩

/-- Exclusive service begins where the array is free and nothing waits (R27, R131). -/
theorem finish_waiting_of_quiet {u : State} {j : FormatJob} (hfmt : u.fmt = some j) (hj : j.phase = .waitArray)
    (hquiet : u.arbitrate.ctl.quiet = true) (before : Nat) : (u.finish before).ctl.holder = .format ∧
      ∃ j', (u.finish before).fmt = some j' ∧ j'.phase ≠ .waitArray ∧ j'.journalId = j.journalId := by
  obtain ⟨-, hholder, hjob⟩ := (beginExclusive_cases u.arbitrate j hfmt hj).2 hquiet
  rw [State.finish, State.spaceLowAfter]
  split
  · exact ⟨hholder, hjob⟩
  · exact ⟨hholder, hjob⟩

/-- FORMAT's events, with SPACE_LOW kept apart from CMD_DONE (R93, R171). -/
theorem after_spaceLow_mask (e : EventUnit) (c : Prop) [Decidable c] : e.after (if c then 0x21 else 0x01) =
    (let mask : Byte := if c then evSpaceLow else 0
    { e.after 0x01 with event := (e.after 0x01).event ||| mask, justSet := (e.after 0x01).justSet ||| mask }) := by
  rw [← spaceLow_after]
  by_cases h : c
  · simp only [if_pos h]
  · simp only [if_neg h, byte_or_zero]

/-- Settles O54: the part as accepted, after which the end of the event only lets exclusive service begin. -/
theorem formatTaken : Obligations.FormatTaken := by
  intro s hacc hengine haudit hpin hguards hjournal
  have hexec : exec .format s = .next (s.formatAccepted.finish s.freeGranules) :=
    exec_of_passed (c := .format) hacc (by decide) rfl (formatCheck_passes hengine haudit hpin hguards hjournal)
  refine ⟨_, hexec, ?_⟩
  have hform := formatAccepted_form s
  generalize hu : s.formatAccepted = u at hform
  have hfmt : u.fmt = some ⟨.waitArray, s.mnt.highestJournalId + 1, [], none, .nothing⟩ := by rw [hform]
  have hctl : u.ctl = (s.abandonRequests .reclaimer).ctl := by rw [hform]
  have hev : u.ev = s.ev.after 0x01 := by rw [hform]
  have hfinish := finish_waiting u _ hfmt rfl s.freeGranules
  have htable : (u.finish s.freeGranules).table = u.table := by rw [hfinish]
  have hfree : (u.finish s.freeGranules).freeGranules = u.freeGranules := freeGranules_of_table _ _ htable
  refine ⟨?_, fun x hx => ?_, fun hbusy => ?_, fun hidle hqueue hwaiting herase => ?_⟩
  · rw [hfree, htable, after_spaceLow_mask, ← hev]
    refine hfinish.trans ?_
    generalize (let mask : Byte := if 255 ≤ s.freeGranules ∧ u.freeGranules < 255 then evSpaceLow else 0
        ({ u.ev with event := u.ev.event ||| mask, justSet := u.ev.justSet ||| mask } : EventUnit)) = ev
    generalize (u.finish s.freeGranules).fmt = fmt
    generalize (u.finish s.freeGranules).ctl = ctl
    generalize u.table.rows = rows at hform
    rw [hform]
  · have hrow : (u.finish s.freeGranules).row x = u.row x := by rw [State.row, htable]; rfl
    rw [hrow, ← hu]
    exact row_formatAccepted s hx
  · obtain ⟨hkept, hfreed⟩ := finish_waiting_of_busy hfmt rfl (by rw [hctl]; exact hbusy) s.freeGranules
    exact ⟨hkept.trans hfmt, hfreed.trans hctl⟩
  · refine finish_waiting_of_quiet hfmt rfl ?_ s.freeGranules
    rw [State.arbitrate, hctl, abandonRequests_eq]
    refine arbitrate_quiet _ hidle ?_ ?_ ?_
    · exact List.map_eq_nil_iff.2 hqueue
    · exact Option.map_eq_none_iff.2 hwaiting
    · exact Option.map_eq_none_iff.2 herase

end Sys2Proof.Machine
end

section
/-! PROOFS. The FORMAT job: the search for the first row, the erase of the rest and the end (O55, O56). -/

namespace Sys2Proof.Machine

/-! ### FIRST_ROW (R132) -/

/-- What `pickUntried` takes of rows in ascending index (R132). -/
theorem pickUntried_spec (s : State) (j : FormatJob) {l : List Nat} (hl : l.Pairwise (· < ·)) {among : Nat → Prop}
    (hmem : ∀ x, (x ∈ l ∧ x ∉ j.tried) ↔ among x) :
    ((∃ r, among r) → ∃ r, (among r ∧ ∀ x, among x → s.TakenBefore r x) ∧ s.pickUntried j l = some r) ∧
    ((∀ r, ¬ among r) → s.pickUntried j l = none) := by
  have huntried : ∀ x, x ∈ l.filter (fun r => !j.tried.contains r) ↔ among x := fun x => by
    rw [← hmem, List.mem_filter, Bool.not_eq_true', ← Bool.not_eq_true, List.contains_iff_mem]
  refine ⟨fun ⟨o, ho⟩ => ?_, fun hnone => ?_⟩
  · obtain ⟨r, hr⟩ := bestOf_some s.lessWorn _ (List.ne_nil_of_mem ((huntried o).2 ho))
    obtain ⟨hin, hbest⟩ := takenBefore_of_best (hl.filter _) hr
    exact ⟨r, ⟨(huntried r).1 hin, fun x hx => hbest x ((huntried x).2 hx)⟩, hr⟩
  · have hnil : l.filter (fun r => !j.tried.contains r) = [] :=
      List.eq_nil_iff_forall_not_mem.2 fun x hx => hnone x ((huntried x).1 hx)
    rw [State.pickUntried, hnil]
    rfl

theorem mem_dirtyOrFull (s : State) (x : Nat) :
    x ∈ s.dirtyOrFull ↔ x < 64 ∧ ((s.row x).state = some .dirty ∨ (s.row x).state = some .full) := by
  simp [State.dirtyOrFull]

section
variable {s : State} {j : FormatJob} {r : Nat}

theorem nextCandidate_of_erased (h : s.pickUntried j (s.rowsIn .erased) = some r) :
    s.nextCandidate j = (s.formatHeader { j with tried := j.tried ++ [r] } r, []) := by
  simp only [State.nextCandidate, h]

theorem nextCandidate_of_other (hnone : s.pickUntried j (s.rowsIn .erased) = none)
    (h : s.pickUntried j s.dirtyOrFull = some r) : s.nextCandidate j =
      ((s.setFormat { j with tried := j.tried ++ [r], wait := .candidateErase r }).issueErase r .format .format, []) := by
  simp only [State.nextCandidate, hnone, h]

theorem nextCandidate_of_none (hnone : s.pickUntried j (s.rowsIn .erased) = none)
    (h : s.pickUntried j s.dirtyOrFull = none) :
    s.nextCandidate j = s.eraseRestFrom { j with phase := .eraseRest, firstRow := none } 0 := by
  simp only [State.nextCandidate, hnone, h]
  rfl

theorem formatProgramDone_of_verified (hfmt : s.fmt = some j) (hwait : j.wait = .header r) :
    s.formatProgramDone none = s.firstRowFound j r := by
  simp only [State.formatProgramDone, hfmt, hwait]

theorem formatProgramDone_of_failed (hfmt : s.fmt = some j) (hwait : j.wait = .header r) (i : Nat) :
    s.formatProgramDone (some i) = s.firstRowFailed j r := by
  simp only [State.formatProgramDone, hfmt, hwait]

theorem formatEraseDone_of_candidate (hfmt : s.fmt = some j) (hwait : j.wait = .candidateErase r) :
    s.formatEraseDone true = ((s.rowAfterErase r true).formatHeader j r, []) ∧
    s.formatEraseDone false = (s.rowAfterErase r false).nextCandidate j := by
  constructor <;> simp [State.formatEraseDone, hfmt, hwait]

theorem firstRowFailed_of_id (h : j.journalId < 4294967295) : s.firstRowFailed j r =
    State.nextCandidate { s.rowLeaves r .dirty with mnt := { s.mnt with highestJournalId := j.journalId + 1 } }
      { j with journalId := j.journalId + 1 } :=
  if_neg (Nat.not_le.2 h)

theorem firstRowFailed_of_last (h : j.journalId = 4294967295) : s.firstRowFailed j r =
    (s.rowLeaves r .dirty).eraseRestFrom { j with phase := .eraseRest, firstRow := none } 0 :=
  if_pos (Nat.le_of_eq h.symm)

end

/-- Settles O55: a candidate is the best of the untried rows in ascending index. -/
theorem formatFindsItsFirstRow : Obligations.FormatFindsItsFirstRow := by
  refine ⟨?_, fun s j r hfmt hwait => ⟨?_, fun i => ⟨fun hid => ?_, fun hlast => ?_⟩⟩,
    fun s j r hfmt hwait hr => ?_⟩
  · intro s j erased other first
    obtain ⟨herased, hnoErased⟩ := pickUntried_spec s j (l := s.rowsIn .erased) (pairwise_lt_filter_range _ _) (among := erased)
      (fun x => by rw [mem_rowsIn, and_assoc]; exact and_congr_right fun _ => And.comm)
    obtain ⟨hother, hnoOther⟩ := pickUntried_spec s j (l := s.dirtyOrFull) (pairwise_lt_filter_range _ _) (among := other)
      (fun x => by rw [mem_dirtyOrFull, and_assoc]; exact and_congr_right fun _ => And.comm)
    refine ⟨fun hsome => ?_, fun hnone hsome => ?_,
      fun hnone hnone' => nextCandidate_of_none (hnoErased hnone) (hnoOther hnone')⟩
    · obtain ⟨r, hfirst, hpick⟩ := herased hsome
      exact ⟨r, hfirst, nextCandidate_of_erased hpick⟩
    · obtain ⟨r, hfirst, hpick⟩ := hother hsome
      exact ⟨r, hfirst, nextCandidate_of_other (hnoErased hnone) hpick⟩
  · exact formatProgramDone_of_verified hfmt hwait
  · exact (formatProgramDone_of_failed hfmt hwait i).trans (firstRowFailed_of_id hid)
  · exact (formatProgramDone_of_failed hfmt hwait i).trans (firstRowFailed_of_last hlast)
  · obtain ⟨hpassed, hfailed⟩ := formatEraseDone_of_candidate hfmt hwait
    have hcount : ((s.rowAfterErase r true).row r).eraseCount = (s.row r).eraseCount :=
      (congrArg RowRec.eraseCount (row_setRow_self s hr ((s.row r).leave .erased))).trans rfl
    refine ⟨?_, hfailed⟩
    rw [hpassed, State.formatHeader, hcount]
    rfl

/-! ### ERASE_REST (R133) -/

theorem eq_cons_of_least {l : List Nat} (hl : l.Pairwise (· < ·)) {x : Nat} (hx : x ∈ l) (hleast : ∀ y ∈ l, x ≤ y) :
    ∃ t, l = x :: t := by
  cases l with
  | nil => exact absurd hx List.not_mem_nil
  | cons a t =>
    rcases List.mem_cons.1 hx with rfl | hxt
    · exact ⟨t, rfl⟩
    · have hlt := (List.pairwise_cons.1 hl).1 x hxt
      have hle := hleast a (List.mem_cons_self ..)
      omega

theorem mem_restFrom (j : FormatJob) (r x : Nat) : x ∈ restFrom j r ↔ x < 64 ∧ r ≤ x ∧ j.firstRow ≠ some x := by
  simp [restFrom]

theorem eraseRestFrom_of_least (s : State) {j : FormatJob} {r x : Nat} (hx : x ∈ restFrom j r)
    (hleast : ∀ y ∈ restFrom j r, x ≤ y) : s.eraseRestFrom j r = (s.restRow j x, []) := by
  obtain ⟨t, ht⟩ := eq_cons_of_least (l := restFrom j r) (pairwise_lt_filter_range _ _) hx hleast
  rw [State.eraseRestFrom, ht]

theorem eraseRestFrom_of_none (s : State) {j : FormatJob} {r : Nat} (h : ∀ x, x ∉ restFrom j r) :
    s.eraseRestFrom j r = s.formatEnd j := by
  rw [State.eraseRestFrom, List.eq_nil_iff_forall_not_mem.2 h]

theorem restRow_eq (s : State) (j : FormatJob) (x : Nat) : s.restRow j x =
    if (s.row x).state = some .bad then { s with
      fmt := some { j with wait := .badRead x 0 }
      ctl := (s.issue ⟨.format, .format, x, 0, .read 16, true⟩).ctl }
    else { s with
      fmt := some { j with wait := .restErase x }
      ctl := { s.ctl with eraseWaiting := some ⟨x, .format, .format, true⟩ } } := rfl

theorem allBlank_iff (reads : List GranuleRead) : allBlank reads = true ↔ ∀ g ∈ reads, g.outcome = .blank := by
  simp [allBlank]

section
variable {s : State} {j : FormatJob} {r : Nat} (hfmt : s.fmt = some j)
include hfmt

theorem formatEraseDone_of_rest (hwait : j.wait = .restErase r) (passed : Bool) :
    s.formatEraseDone passed = (s.rowAfterErase r passed).eraseRestFrom j (r + 1) := by
  simp only [State.formatEraseDone, hfmt, hwait]

variable {chunk : Nat} {reads : List GranuleRead} (hwait : j.wait = .badRead r chunk)
include hwait

theorem formatReadDone_of_nonBlank (h : ∃ g ∈ reads, g.outcome ≠ .blank) :
    s.formatReadDone reads = s.eraseRestFrom j (r + 1) := by
  have hnot : (!allBlank reads) = true := by
    rw [Bool.not_eq_true', ← Bool.not_eq_true, allBlank_iff]
    rintro hall
    obtain ⟨g, hg, hne⟩ := h
    exact hne (hall g hg)
  simp only [State.formatReadDone, hfmt, hwait, hnot, if_true]

theorem formatReadDone_of_blank (h : ∀ g ∈ reads, g.outcome = .blank) : s.formatReadDone reads =
    if chunk + 1 < 16 then ({ s with
        fmt := some { j with wait := .badRead r (chunk + 1) }
        ctl := (s.issue ⟨.format, .format, r, 16 * (chunk + 1), .read 16, true⟩).ctl }, [])
    else (s.rowLeaves r .erased).eraseRestFrom j (r + 1) := by
  have hall : ¬ (!allBlank reads) = true := by
    rw [(allBlank_iff reads).2 h]
    decide
  simp only [State.formatReadDone, hfmt, hwait]
  rw [if_neg hall]
  rfl

end

/-! ### The end (R134) -/

theorem countP_or_of_disjoint {α : Type} {p q : α → Bool} (h : ∀ a, p a = true → q a = false) (l : List α) :
    l.countP p + l.countP q = l.countP (fun a => p a || q a) := by
  induction l with
  | nil => rfl
  | cons a t ih =>
    simp only [List.countP_cons]
    cases hp : p a with
    | false => simp only [Bool.false_or, Bool.false_eq_true, if_false]; omega
    | true => simp only [h a hp, Bool.true_or, Bool.false_eq_true, if_false, if_true]; omega

theorem usableRows_eq (s : State) : s.usableRows =
    (List.range 64).countP (fun x => decide ((s.row x).state = some .erased ∨ (s.row x).state = some .opened)) := by
  have hdisjoint : ∀ x : Nat, decide ((s.row x).state = some .erased) = true →
      decide ((s.row x).state = some .opened) = false := fun x hx => by rw [of_decide_eq_true hx]; rfl
  rw [State.usableRows, State.rowsIn, State.rowsIn, ← List.countP_eq_length_filter, ← List.countP_eq_length_filter,
    countP_or_of_disjoint hdisjoint]
  simp only [Bool.decide_or]

theorem formatOutcome_eq (s : State) (j : FormatJob) :
    let good := j.firstRow ≠ none ∧ 4 ≤ s.usableRows
    s.formatOutcome j = { s with
      win := { s.win with
        jobResult := if good then .ok else .arrayFault, mode := if good then .ready else .unformatted }
      table := if good then s.table else { (match j.firstRow with
        | none => s
        | some r => s.setRow r
          ⟨some .dirty, 0, (s.row r).eraseCount, (s.row r).guessed, 0, 0, false⟩).table with
          journalId := 0, highestSequence := 0 } } := by
  cases hrow : j.firstRow with
  | none => simp [State.formatOutcome, hrow]
  | some r =>
    by_cases hmany : 4 ≤ s.usableRows
    · simp [State.formatOutcome, hrow, hmany]
    · simp [State.formatOutcome, hrow, hmany, State.rowLeaves, RowRec.leave, State.setRow]

/-- The events of FORMAT's end: JOB_DONE, MODE_CHANGE, and SPACE_LOW below 255 free granules (R93, R134, R171). -/
theorem endEvents_eq (u : State) : ((u.setEvent evJobDone).setEvent evModeChange).spaceLowIfBelow =
    (let mask : Byte := if u.freeGranules < 255 then 0x62 else 0x42
    { u with ev := { u.ev with event := u.ev.event ||| mask, justSet := u.ev.justSet ||| mask } }) := by
  have hfree : ((u.setEvent evJobDone).setEvent evModeChange).freeGranules = u.freeGranules := freeGranules_of_table _ _ rfl
  rw [State.spaceLowIfBelow, hfree]
  by_cases h : u.freeGranules < 255
  · simp only [if_pos h, State.setEvent, BitVec.or_assoc]
    rfl
  · simp only [if_neg h, State.setEvent, BitVec.or_assoc]
    rfl

/-- The part as FORMAT's job ends, before the event flags (R134). -/
def State.formatClosed (s : State) (j : FormatJob) : State :=
  { s.formatOutcome j with fmt := none, ctl := { (s.formatOutcome j).ctl with holder := .nobody } }

theorem formatEnd_eq (s : State) (j : FormatJob) : s.formatEnd j =
    ((((s.formatClosed j).setEvent evJobDone).setEvent evModeChange).spaceLowIfBelow, [.look]) := by
  rw [State.formatEnd, State.formatClosed]

/-- Settles O56: the row taken next is the head of an ascending list, and the end splits on its outcome. -/
theorem formatErasesTheRestAndEnds : Obligations.FormatErasesTheRestAndEnds := by
  refine ⟨?_, ?_, ?_⟩
  · intro s j r due
    refine ⟨fun x hx hleast => ?_, fun hnone => eraseRestFrom_of_none s fun x hx => hnone x ((mem_restFrom j r x).1 hx)⟩
    rw [eraseRestFrom_of_least s ((mem_restFrom j r x).2 hx) (fun y hy => hleast y ((mem_restFrom j r y).1 hy)), restRow_eq]
  · intro s j r hfmt u
    refine ⟨fun hwait passed => formatEraseDone_of_rest hfmt hwait passed, fun chunk reads hwait =>
      ⟨formatReadDone_of_nonBlank hfmt hwait, fun hblank => ?_⟩⟩
    rw [formatReadDone_of_blank hfmt hwait hblank]
    exact ⟨fun hmore => if_pos (Nat.succ_lt_succ hmore), fun hlast => if_neg (by omega)⟩
  · intro s j usable good
    have husable : s.usableRows = usable := usableRows_eq s
    have houtcome := formatOutcome_eq s j
    rw [husable] at houtcome
    have hclosed : s.formatClosed j = _ := congrArg
      (fun u : State => { u with fmt := none, ctl := { u.ctl with holder := .nobody } }) houtcome
    rw [formatEnd_eq, endEvents_eq]
    generalize s.formatClosed j = v at hclosed
    have hfree : State.freeGranules { v with ev := { v.ev with
        event := v.ev.event ||| (if v.freeGranules < 255 then 0x62 else 0x42)
        justSet := v.ev.justSet ||| (if v.freeGranules < 255 then 0x62 else 0x42) } } = v.freeGranules :=
      freeGranules_of_table _ _ rfl
    have hev : v.ev = s.ev := by rw [hclosed]
    have hframe := fun ev : EventUnit => congrArg (fun u : State => ({ u with ev := ev } : State)) hclosed
    refine ⟨rfl, _, rfl, hframe _, ?_⟩
    dsimp only
    rw [hfree, hev]

end Sys2Proof.Machine
end

section
/-! PROOFS. The header reads of the mount, and the winners of the journal (O57, O58). -/

namespace Sys2Proof.Machine

/-! ### HEADER_SCAN (R116) -/

theorem scanRow_setScan (m : MountEngine) (r : Nat) (line : RowScan) {x : Nat} (hx : x < 64) :
    (m.setScan r line).scanRow x = if x = r then line else m.scanRow x := by
  simp only [MountEngine.setScan, MountEngine.scanRow, Vector.getElem?_setIfInBounds]
  by_cases h : x = r
  · subst h
    simp [hx]
  · simp [h, Ne.symm h]

theorem noteHeader_form (m : MountEngine) (r : Nat) (c : HeaderClass) : m.noteHeader r c = { m with
    scan := (m.setScan r { m.scanRow r with cls := some c }).scan
    highestJournalId := match c with
      | .valid h => max m.highestJournalId h.journalId
      | .blank => m.highestJournalId
      | .invalid => m.highestJournalId
    highestEraseCount := match c with
      | .valid h => max m.highestEraseCount h.eraseCount
      | .blank => m.highestEraseCount
      | .invalid => m.highestEraseCount } := by
  cases c <;> rfl

theorem rowHeaderCheckFails_eq (g : GranuleRead) : rowHeaderCheckFails g =
    decide ((g.outcome = .clean ∨ g.outcome = .corrected) ∧ classifyRowHeader g = .invalid) := by
  simp [rowHeaderCheckFails]

/-- The part after a header read that another follows: the row's line noted, the next header asked for (R116). -/
theorem mountReadDone_of_header {s : State} {r : Nat} (hwait : s.mnt.wait = .header r) (hr : r < 63) (g : GranuleRead) :
    s.mountReadDone [g] = (let u := s.captureCheck (rowHeaderCheckFails g) .mount r 0
      ({ u with mnt := s.mnt.noteHeader r (classifyRowHeader g) }.mountRead (r + 1) 0 1 (.header (r + 1)), [])) := by
  simp only [State.mountReadDone, hwait]
  rw [← State.captureCheck_mnt s (rowHeaderCheckFails g) .mount r 0]
  exact if_pos (Nat.succ_lt_succ hr)

theorem reclaimLook_of_mounting {s : State} (h : s.win.mode = .mounting) : s.reclaimLook = (s, []) :=
  if_neg fun hlook => hlook.2.1 h

/-- An event in the mount that sends no signal and leaves the row table: the arbiter acts, and nothing else does. -/
theorem runEvent_of_mounting {s0 s : State} (hmode : s.win.mode = .mounting) (hfmt : s.fmt = none) (htable : s.table = s0.table) :
    s0.runEvent (s, []) = s.arbitrate := by
  have hdrain : drain s.fuel [.look] s = s := by
    obtain ⟨n, hn⟩ : ∃ n, s.fuel = n + 1 := ⟨63 + 2 * s.recl.refresh.length, by unfold State.fuel; omega⟩
    rw [hn, drain_cons n .look [] s s [] (reclaimLook_of_mounting hmode)]
    cases n <;> rfl
  show (drain s.fuel [.look] s).finish s0.freeGranules = _
  rw [hdrain]
  exact finish_quietly hfmt htable

/-- Settles O57: in MOUNTING nothing but the arbiter acts after the next header is asked for. -/
theorem mountReadsTheHeaders : Obligations.MountReadsTheHeaders := by
  intro s drift r g q hserves hwait hr hmode hfmt hseen cls u
  have hexec := exec_read s q 1 drift hserves rfl rfl
  have hdone := mountReadDone_of_header (s := s.readTaken q 1 drift) (by rw [readTaken_mnt]; exact hwait) hr g
  rw [readTaken_mnt, rowHeaderCheckFails_eq] at hdone
  have hdeliver : (s.readTaken q 1 drift).deliverRead q.requester q.row q.first (s.readSeen q 1 drift) =
      (({ u with mnt := s.mnt.noteHeader r cls } : State).mountRead (r + 1) 0 1 (.header (r + 1)), []) := by
    rw [hseen]
    exact hdone
  have humode : u.win.mode = .mounting := by rw [State.captureCheck_win, readTaken_win]; exact hmode
  have hufmt : u.fmt = none := by rw [State.captureCheck_fmt, readTaken_fmt]; exact hfmt
  have hutable : u.table = s.table := by rw [State.captureCheck_table, readTaken_table]
  have hrun := runEvent_of_mounting (s0 := s.begin)
    (s := State.mountRead { u with mnt := s.mnt.noteHeader r cls } (r + 1) 0 1 (.header (r + 1))) humode hufmt hutable
  rw [hdeliver, hrun] at hexec
  refine ⟨_, hexec, ?_, fun x hx => ?_⟩
  · rw [noteHeader_form]
    rfl
  · have hscan : (s.mnt.noteHeader r cls).scanRow x =
        if x = r then { s.mnt.scanRow r with cls := some cls } else s.mnt.scanRow x := by
      rw [noteHeader_form]
      exact scanRow_setScan _ _ _ hx
    exact hscan

/-! ### RESOLVE (R17, R122 to R124) -/

/-- The record is a committed PUT or DELETE record of the key (R122). -/
abbrev OwnedBy (records : List Noted) (k : Nat) (n : Noted) : Prop :=
  n.header.kind ≠ .commit ∧ n.header.setId ≤ boundaryC records ∧ n.header.key = k

/-- The key's committed record of highest set id, the latest in journal order among equals (R123). -/
def WinnerOf (records : List Noted) (k : Nat) (w : Noted) : Prop :=
  ∃ before after, records = before ++ w :: after ∧ OwnedBy records k w ∧
    (∀ o ∈ before, OwnedBy records k o → o.header.setId ≤ w.header.setId) ∧
    ∀ o ∈ after, OwnedBy records k o → o.header.setId < w.header.setId

/-- The entry a winner gives its key, the key's other committed records counted stale (R123). -/
def wonEntry (records : List Noted) (k : Nat) (w : Noted) : DirEntry :=
  ⟨k, if w.intact = false then .damaged else if w.header.kind = .put then .live else .tombstone,
    w.header.version, w.header.setId, w.row, w.granule, w.header.length,
    min 16320 (records.countP (fun n => decide (OwnedBy records k n)) - 1), 1⟩

theorem isChange_iff (n : Noted) : n.isChange = true ↔ n.header.kind ≠ .commit := by
  cases h : n.header.kind <;> simp [Noted.isChange, h]

theorem filter_committed (records : List Noted) (k : Nat) : (committedRecords records).filter (fun n => n.header.key = k) =
    records.filter (fun n => decide (OwnedBy records k n)) := by
  rw [committedRecords, List.filter_filter]
  refine List.filter_congr fun n _ => ?_
  rw [Bool.eq_iff_iff]
  simp only [Bool.and_eq_true, isChange_iff, decide_eq_true_eq]
  tauto

theorem winnerState_eq (w : Noted) : winnerState w =
    if w.intact = false then .damaged else if w.header.kind = .put then .live else .tombstone := by
  cases hi : w.intact <;> cases hk : w.header.kind <;> simp [winnerState, hi, hk]

theorem resolveKey_eq (records : List Noted) (k : Nat) : resolveKey (committedRecords records) k =
    (latestOf (records.filter (fun n => decide (OwnedBy records k n)))).map (wonEntry records k) := by
  simp only [resolveKey, filter_committed, ← List.countP_eq_length_filter, winnerState_eq]
  rfl

theorem winner_of_latest {records : List Noted} {k : Nat} {w : Noted}
    (h : latestOf (records.filter (fun n => decide (OwnedBy records k n))) = some w) : WinnerOf records k w := by
  have hne : records.filter (fun n => decide (OwnedBy records k n)) ≠ [] := fun hnil => by
    rw [hnil] at h
    cases h
  obtain ⟨v, before, after, hv, hsplit, hbefore, hafter⟩ := latestOf_spec _ hne
  obtain rfl : v = w := Option.some.inj (hv.symm.trans h)
  obtain ⟨l₁, l₂, hrecords, rfl, rfl, hown⟩ := filter_append_cons _ _ _ _ _ hsplit
  exact ⟨l₁, l₂, hrecords, of_decide_eq_true hown,
    fun o ho hoo => hbefore o (List.mem_filter.2 ⟨ho, decide_eq_true hoo⟩),
    fun o ho hoo => hafter o (List.mem_filter.2 ⟨ho, decide_eq_true hoo⟩)⟩

theorem resolveKey_of_owned {records : List Noted} {k : Nat} {n : Noted} (hn : n ∈ records) (hown : OwnedBy records k n) :
    ∃ w, WinnerOf records k w ∧ resolveKey (committedRecords records) k = some (wonEntry records k w) := by
  have hmem : n ∈ records.filter (fun n => decide (OwnedBy records k n)) := List.mem_filter.2 ⟨hn, decide_eq_true hown⟩
  obtain ⟨w, _, _, hw, -⟩ := latestOf_spec _ (List.ne_nil_of_mem hmem)
  exact ⟨w, winner_of_latest hw, by rw [resolveKey_eq, hw]; rfl⟩

theorem winner_of_resolveKey {records : List Noted} {k : Nat} {e : DirEntry}
    (h : resolveKey (committedRecords records) k = some e) : ∃ w, WinnerOf records k w ∧ e = wonEntry records k w := by
  rw [resolveKey_eq] at h
  obtain ⟨w, hw, rfl⟩ := Option.map_eq_some_iff.1 h
  exact ⟨w, winner_of_latest hw, rfl⟩

theorem mem_resolvedEntries (records : List Noted) (e : DirEntry) : e ∈ resolvedEntries records ↔
    (∃ k ∈ keysOf (committedRecords records), resolveKey (committedRecords records) k = some e) ∧ e.freeable = false := by
  simp only [resolvedEntries, List.mem_filter, List.mem_filterMap, Bool.not_eq_true']

theorem key_mem_committed {records : List Noted} {n : Noted} (hn : n ∈ records) (hown : OwnedBy records n.header.key n) :
    n.header.key ∈ keysOf (committedRecords records) := by
  obtain ⟨hkind, hset, -⟩ := hown
  exact mem_keysOf _ n (List.mem_filter.2 ⟨hn, by rw [(isChange_iff n).2 hkind, decide_eq_true hset]; rfl⟩)

theorem wonEntry_freeable {records : List Noted} {k : Nat} {w : Noted} (hw : WinnerOf records k w)
    (h : (wonEntry records k w).freeable = true) :
    min 16320 (records.countP (fun n => decide (OwnedBy records k n)) - 1) = 0 ∧ w.intact = true ∧ w.header.kind = .delete := by
  obtain ⟨-, -, -, ⟨hkind, -⟩, -⟩ := hw
  rw [DirEntry.freeable, Bool.and_eq_true, decide_eq_true_eq, decide_eq_true_eq] at h
  obtain ⟨hstate, hstale⟩ := h
  refine ⟨hstale, ?_⟩
  rw [wonEntry] at hstate
  cases hi : w.intact with
  | false => simp [hi] at hstate
  | true =>
    cases hk : w.header.kind with
    | put => simp [hi, hk] at hstate
    | delete => exact ⟨rfl, rfl⟩
    | commit => exact absurd hk hkind

theorem resolve_dir (s : State) : s.resolve.1.dir = (resolvedEntries s.mnt.records).take 512 := by
  have hkeeps : ∀ u : State, u.spaceLowIfBelow.dir = u.dir := fun u => by
    unfold State.spaceLowIfBelow
    split
    · rfl
    · rfl
  rw [State.resolve]
  dsimp only
  rw [hkeeps]
  rfl

/-- Settles O58: an entry is the latest of its key's own records, found in journal order. -/
theorem winnersOfTheJournal : Obligations.WinnersOfTheJournal := by
  intro records c own winner stale
  obtain ⟨-, hbound, hreached⟩ := boundaryFold_spec records 0
  refine ⟨hbound, hreached, fun e he => ?_, fun n hn hown => ?_, fun s hs => ?_⟩
  · obtain ⟨⟨k, -, hk⟩, -⟩ := (mem_resolvedEntries records e).1 he
    obtain ⟨w, hw, rfl⟩ := winner_of_resolveKey hk
    exact ⟨w, hw, rfl⟩
  · obtain ⟨w, hw, hresolved⟩ := resolveKey_of_owned hn hown
    cases hfree : (wonEntry records n.header.key w).freeable with
    | false => exact .inl ⟨_, (mem_resolvedEntries records _).2 ⟨⟨_, key_mem_committed hn hown, hresolved⟩, hfree⟩, rfl⟩
    | true =>
      obtain ⟨hstale, hintact, hkind⟩ := wonEntry_freeable hw hfree
      exact .inr ⟨hstale, w, hw, hintact, hkind⟩
  · rw [resolve_dir, hs]

end Sys2Proof.Machine
end
